-- ==== Sys2Proof/Word.lean ====
section
/-! DEFINITION. Words, positions and the small finite shapes the commands and the state are written in. -/

namespace Sys2Proof

/-- Eight bits (chapter 10, section 10.5). -/
abbrev Byte := BitVec 8

/-- A position: a count of encoder steps, modulo 2^32 (chapter 0, Positions). -/
abbrev Pos := BitVec 32

/-- A sheet sequence number, modulo 2^16 (chapter 0, Sequence numbers). -/
abbrev Seq := BitVec 16

/-- A station index, 0 to 7 (chapter 0, Station index). -/
abbrev Index := Fin 8

/-- The sense of an encoder step, and the direction it sets (R27). -/
inductive Direction where
  | forward
  | reverse
  deriving DecidableEq, Repr

/-- The levels at the four strap pins when they are sampled (R173). -/
structure Straps where
  index : Index
  outlet : Bool
  deriving DecidableEq, Repr

/-- What a station finds wrong, or tests, on the wire during a round (R93 to R96). `edge` gives the time in ns of a
released-to-driven edge since the cell boundary at which the station's count stands. -/
inductive WireFault where
  | openingDrive
  | pattern
  | edge (time : Nat)
  | drivenReadsReleased
  | valueWithoutOffer
  deriving DecidableEq, Repr

/-- The purpose of a stored compare (the table of R35); a compare of a record names its record. -/
inductive CompareId where
  | qualification
  | bridging
  | blankRelease
  | overlength
  | empty (seq : Seq)
  | lag (seq : Seq)
  | decision (seq : Seq)
  | gate (seq : Seq)
  | sample
  | windowEnd
  deriving DecidableEq, Repr

/-- One value for each station index 0 to 7, or for each verdict code 0 to 7. -/
structure Eight (α : Type) where
  a0 : α
  a1 : α
  a2 : α
  a3 : α
  a4 : α
  a5 : α
  a6 : α
  a7 : α
  deriving DecidableEq, Repr

namespace Eight

variable {α : Type}

def get (e : Eight α) (k : Index) : α :=
  match k with
  | 0 => e.a0
  | 1 => e.a1
  | 2 => e.a2
  | 3 => e.a3
  | 4 => e.a4
  | 5 => e.a5
  | 6 => e.a6
  | 7 => e.a7

def set (e : Eight α) (k : Index) (v : α) : Eight α :=
  match k with
  | 0 => { e with a0 := v }
  | 1 => { e with a1 := v }
  | 2 => { e with a2 := v }
  | 3 => { e with a3 := v }
  | 4 => { e with a4 := v }
  | 5 => { e with a5 := v }
  | 6 => { e with a6 := v }
  | 7 => { e with a7 := v }

/-- The eight values of a function of the index. -/
def tabulate (f : Index → α) : Eight α :=
  ⟨f 0, f 1, f 2, f 3, f 4, f 5, f 6, f 7⟩

/-- The same value at every index. -/
def fill (v : α) : Eight α := tabulate fun _ => v

def toList (e : Eight α) : List α :=
  [e.a0, e.a1, e.a2, e.a3, e.a4, e.a5, e.a6, e.a7]

end Eight

/-- The station indices in across-sheet order (chapter 0). -/
def indices : List Index := [0, 1, 2, 3, 4, 5, 6, 7]

end Sys2Proof
end

