-- ==== Sys2Proof/Syntax.lean ====
section
/-! DEFINITION. The commands of the station: one constructor for each row of spec/opcode_table.json. -/

namespace Sys2Proof

/-- A command: one event at the station's pins, timers or ports, with what the outside world supplies in it. -/
inductive Instr where
  /-- POWER_ON_RESET (R172): the release of power-on reset, with the straps sampled then. -/
  | powerOnReset (straps : Straps)
  /-- RESET_PIN (R172): the release of RESET after a low of 10 µs or more, with the straps sampled then. -/
  | resetPin (straps : Straps)
  /-- CONFIG_HEADER_READ (R175): the header bytes the memory has answered. -/
  | configHeaderRead (header : List Byte)
  /-- CONFIG_READ_END (R178): the bytes of the shared and local sections the memory has answered. -/
  | configReadEnd (sections : List Byte)
  /-- RESTART_MARK_END (R56). -/
  | restartMarkEnd
  /-- ENCODER_STEP (R27): one valid transition, of the given sense. -/
  | encoderStep (dir : Direction)
  /-- ENCODER_DOUBLE_TRANSITION (R27): A and B change together. -/
  | encoderDoubleTransition
  /-- TRIGGER_PULSE_END (R34). -/
  | triggerPulseEnd
  /-- PRESENCE_APPEARS (R41). -/
  | presenceAppears
  /-- PRESENCE_LOST (R44). -/
  | presenceLost
  /-- QUALIFICATION_COMPARE (R42). -/
  | qualificationCompare
  /-- BRIDGING_COMPARE (R45). -/
  | bridgingCompare
  /-- BLANK_RELEASE_COMPARE (R49). -/
  | blankReleaseCompare
  /-- OVERLENGTH_COMPARE (R47). -/
  | overlengthCompare
  /-- EMPTY_COMPARE (R14) of the record with this sequence number. -/
  | emptyCompare (seq : Seq)
  /-- LAG_COMPARE (R17) of the record with this sequence number. -/
  | lagCompare (seq : Seq)
  /-- DECISION_COMPARE (R22) of the record with this sequence number. -/
  | decisionCompare (seq : Seq)
  /-- GATE_COMPARE (R164): the oldest record whose gate compare is due (R167). -/
  | gateCompare
  /-- GATE_WINDOW_END_COMPARE (R166). -/
  | gateWindowEndCompare
  /-- SAMPLE_COMPARE (R81). -/
  | sampleCompare
  /-- SETTLE_END (R82). -/
  | settleEnd
  /-- SAMPLE_COMPLETION (R84): the conversion gives this raw reading. -/
  | sampleCompletion (raw : BitVec 10)
  /-- WARM_UP_EXPIRY (R77). -/
  | warmUpExpiry
  /-- PARK_EXPIRY (R78). -/
  | parkExpiry
  /-- SCAN_FRAME_END (R53): scan frame is released after these bits were shifted in. -/
  | scanFrameEnd (bits : List Bool)
  /-- LINE_QUIET_JOIN (R91). -/
  | lineQuietJoin
  /-- ROUND_OPEN (R92). -/
  | roundOpen
  /-- OPENING_PULSE_END (R93): the first run of driven cells, in ns, ends. -/
  | openingPulseEnd (length : Nat)
  /-- ALIGNMENT_PATTERN_ACCEPTED (R94): the three spacings between the four edges, in ns. -/
  | alignmentPatternAccepted (first second third : Nat)
  /-- KIND_CONTEST_END (R98): the codes the peers offer in the contest. -/
  | kindContestEnd (peers : List (BitVec 3))
  /-- PASS_END (R97): the values the peers offer in the pass that ends. -/
  | passEnd (peers : List (BitVec 32))
  /-- OWN_SLOT_READ_BACK (R109). -/
  | ownSlotReadBack
  /-- OWN_SLOT_MISMATCH (R100), with the straps sampled if it restarts the station (R173). -/
  | ownSlotMismatch (straps : Straps)
  /-- LINE_ERROR (R106): the fault met, or the edge of the body to be tested (R93 to R96); written without an operand, the failed
  alignment pattern that R106 names. -/
  | lineError (fault : WireFault := .pattern)
  /-- LONG_DRIVE_START (R104). -/
  | longDriveStart
  /-- LONG_DRIVE_RELEASED (R104). -/
  | longDriveReleased
  /-- BREAK_RECEIVED (R105). -/
  | breakReceived
  /-- BREAK_WIRE_RELEASED (R105). -/
  | breakWireReleased
  /-- MUTE_QUIET_COUNT_FULL (R107). -/
  | muteQuietCountFull
  /-- BREAK_SEND_END (R108): whether every one of the 30 cells read driven. -/
  | breakSendEnd (heard : Bool)
  /-- GUARD_END (R103). -/
  | guardEnd
  /-- ROUND_COMPLETE_NONE (R98). -/
  | roundCompleteNone
  /-- ROLL_ROUND_COMPLETE (R120): the cells of slots 0 to 7, the first cell the most significant bit, and the order in
  which compares carried across by the alignment are taken where R37 gives none. -/
  | rollRoundComplete (slots : List (BitVec 52)) (order : List CompareId)
  /-- OPEN_ROUND_COMPLETE (R126). -/
  | openRoundComplete
  /-- TALLY_ROUND_COMPLETE (R128): the cells of slots 0 to 7, the first cell the most significant bit. -/
  | tallyRoundComplete (slots : List (BitVec 448))
  /-- VERDICT_ROUND_COMPLETE (R134). -/
  | verdictRoundComplete
  /-- PURGE_ROUND_COMPLETE (R138). -/
  | purgeRoundComplete
  /-- READ_RESULT (R184). -/
  | readResult
  /-- READ_RESULT_SHIFTED_OUT (R184). -/
  | readResultShiftedOut
  /-- READ_STATUS (R186). -/
  | readStatus
  /-- READ_CAUSE (R189). -/
  | readCause
  /-- READ_CAUSE_SHIFTED_OUT (R189). -/
  | readCauseShiftedOut
  /-- REQUEST_PURGE (R187): the scope byte and the two sequence bytes. -/
  | requestPurge (scope : Byte) (seq : Seq)
  /-- REQUEST_ROLL (R187). -/
  | requestRoll
  /-- UNKNOWN_COMMAND (R183): a code that names no command. -/
  | unknownCommand (code : Byte)
  /-- SUPPLY_BELOW_RANGE (R172). -/
  | supplyBelowRange
  /-- SCAN_FRAME_DRIVEN (R53). -/
  | scanFrameDriven
  /-- OPENING_AS_LISTENER (R92). -/
  | openingAsListener
  /-- RESULT_PORT_SELECT_RELEASED (R183). -/
  | resultPortSelectReleased
  deriving DecidableEq, Repr

end Sys2Proof
end

