-- ==== Sys2Proof/Decode.lean ====
section
/-! DEFINITION. The commands that a word spells by the table's bits: spec/opcode_table.json gives no row any bits. -/

namespace Sys2Proof

/-- No row of the table has "fixed" bits or "fields" (98_reader.md: n_rows_with_fixed 0), so no word spells a command. -/
def decodeTableWord (_nbits _w : Nat) : Option Instr := none

end Sys2Proof
end

