-- ==== Sys2Proof/Config.lean ====
section
/-! DEFINITION. What every VG218 fixes: capacities, limits, format lengths and check generators of the spec; and the
values that the spec leaves open, `freeOldest` and `freeCount`. -/

namespace Sys2Proof.Config

/-- R1: a sheet table holds at most twelve records. -/
def tableCapacity : Nat := 12

/-- Section 3.2: the scan FIFO holds 0 to 16 reports. -/
def scanFifoCapacity : Nat := 16

/-- R184: the result FIFO holds 0 to 16 records. -/
def resultFifoCapacity : Nat := 16

/-- R72: a boundary record list holds 0 to 4 records. -/
def boundaryCapacity : Nat := 4

/-- R111: up to 4 PURGE ONE requests. -/
def purgeOneCapacity : Nat := 4

/-- R91, R107: 32 released nominal cells. -/
def quietCells : Nat := 32

/-- R108: a BREAK is sent for 30 nominal cells. -/
def breakCells : Nat := 30

/-- R130: a silence count of 4 removes the member. -/
def silenceLimit : Nat := 4

/-- R109: the third consecutive own-slot mismatch restarts the station. -/
def mismatchLimit : Nat := 3

/-- R193: the report frame length. -/
def reportFrameLength : Nat := 67

/-- R196: marker, format number and length of the image. -/
def imageMarker : BitVec 16 := 0x4E57#16

def imageFormat : Byte := 1#8

def imageLength : BitVec 16 := 157#16

/-- R196: the shared section is the first 151 bytes of the two sections. -/
def sharedLength : Nat := 151

/-- R192: x^16 + x^12 + x^5 + 1. -/
def checkGenerator : BitVec 16 := 0x1021#16

/-- R192: generator of the shared digest. -/
def digestGenerator : BitVec 32 := 0x04C11DB7#32

/-- R88: the nominal cell in ns for a line rate code. -/
def nominalCell (rate : Byte) : Nat :=
  match rate.toNat with
  | 0 => 8000
  | 1 => 4000
  | 2 => 2000
  | _ => 1000

/-- R82: the conversion takes a fixed 12 µs. -/
def conversionTime : Nat := 12

/-- Free value (log 18): the place, taken modulo the length, of the subject that counts as the oldest among sequence numbers
none of which is older than every other. The spec states no oldest there, and nothing constrains this function. -/
opaque freeOldest : List Seq → Nat

/-- Free value (log 19), taken modulo 256: the count of a class that a chain of the given length would lower below 0. R150
says that none does, and entries of a faulty peer can hold fewer defects than boundary records; nothing constrains this
function. -/
opaque freeCount : (count : Nat) → (chainLength : Nat) → Nat

end Sys2Proof.Config
end

