-- ==== Sys2Proof/Machine/State.lean ====
section
/-! DEFINITION. The state of the station, block by block, and its value after reset. -/

namespace Sys2Proof.Machine

/-! ## Defects, summaries and entries (chapters 1, 3 and 7) -/

/-- R143: the six defect classes, codes 1 to 6. -/
inductive DefectClass where
  | tightKnot
  | openKnot
  | hole
  | split
  | resinStreak
  | discolor
  deriving DecidableEq, Repr

/-- One value for each defect class. -/
structure PerClass (α : Type) where
  tightKnot : α
  openKnot : α
  hole : α
  split : α
  resinStreak : α
  discolor : α
  deriving DecidableEq, Repr

/-- R5, R69: the figures of one class in a band summary. -/
structure ClassFigures where
  count : BitVec 8
  largest : BitVec 12
  aggregate : BitVec 16
  deriving DecidableEq, Repr

/-- R5: the side of a boundary record. -/
inductive Side where
  | left
  | right
  | both
  deriving DecidableEq, Repr

/-- R5, R71: a boundary record; the along range is in offsets from P. -/
structure BoundaryRecord where
  cls : DefectClass
  side : Side
  alongStart : BitVec 16
  alongEnd : BitVec 16
  extent : BitVec 12
  deriving DecidableEq, Repr

/-- R5: a band summary. -/
structure Summary where
  figures : PerClass ClassFigures
  moisture : Option (BitVec 10)
  boundary : List BoundaryRecord
  overflow : Bool
  incomplete : Bool
  overlength : Bool
  deriving DecidableEq, Repr

/-- R6: the three kinds of entry. -/
inductive Entry where
  | closed (summary : Summary)
  | empty
  | unknown
  deriving DecidableEq, Repr

/-- R7: the verdict codes 0 to 7, the most conservative first. -/
inductive Verdict where
  | manual
  | redry
  | reject
  | strip
  | core
  | back
  | face2
  | face1
  deriving DecidableEq, Repr

/-- R8: the sheet flags of a record. -/
structure SheetFlags where
  incomplete : Bool
  blind : Bool
  disputed : Bool
  overlength : Bool
  late : Bool
  unmeasured : Bool
  purged : Bool
  undecided : Bool
  gateBusy : Bool
  deriving DecidableEq, Repr

/-- R3: the phases of a record. -/
inductive Phase where
  | gathering
  | tallied
  | decided
  deriving DecidableEq, Repr

/-- R4: the states of the own band. -/
inductive BandState where
  | none
  | opened
  | closing
  | closed
  | empty
  deriving DecidableEq, Repr

/-- R4: the own band of a record; `lagPassed` is the lag condition of R17. -/
structure Band where
  state : BandState
  lead : Option Pos
  trail : Option Pos
  lagPassed : Bool
  summary : Summary
  deriving DecidableEq, Repr

/-- R2 to R8: a sheet record. `outcome` is the final outcome, `verdict` the local verdict. -/
structure Record where
  seq : Seq
  refPos : Pos
  decisionPos : Pos
  gatePos : Pos
  phase : Phase
  band : Band
  entries : Eight (Option Entry)
  verdict : Option Verdict
  frozen : Bool
  outcome : Option Verdict
  flags : SheetFlags
  deriving DecidableEq, Repr

/-! ## Configuration (chapter 9) -/

/-- R144: the three limits of one class in one grade, as the image stores them. -/
structure Limits where
  count : BitVec 8
  largest : BitVec 16
  aggregate : BitVec 16
  deriving DecidableEq, Repr

/-- R144: the grade table. -/
structure GradeTable where
  face1 : PerClass Limits
  face2 : PerClass Limits
  back : PerClass Limits
  core : PerClass Limits
  deriving DecidableEq, Repr

/-- R176, R196: the fields of the shared section, each as wide as the image stores it. -/
structure Shared where
  lineRate : BitVec 8
  attachWindow : BitVec 16
  qualification : BitVec 8
  bridge : BitVec 8
  overlength : BitVec 16
  lag : BitVec 16
  decisionDistance : BitVec 16
  gateDistance : BitVec 16
  gateWindow : BitVec 16
  scanPitch : BitVec 8
  bandWidth : BitVec 16
  mergeTolerance : BitVec 8
  reverseLimit : BitVec 16
  rollPeriod : BitVec 8
  samplePitch : BitVec 16
  settleTime : BitVec 8
  redryLimit : BitVec 16
  fullBandCount : BitVec 8
  gradeTable : GradeTable
  binMap : Eight (BitVec 3)
  deriving DecidableEq, Repr

/-- R176, R196: the fields of the local section. -/
structure Local where
  trim : BitVec 8
  warmUpTime : BitVec 8
  parkTime : BitVec 8
  presenceInvert : BitVec 8
  enableMask : BitVec 8
  watermark : BitVec 8
  deriving DecidableEq, Repr

/-- R178: the loaded configuration. -/
structure Loaded where
  shared : Shared
  loc : Local
  deriving DecidableEq, Repr

/-- R174: the node states. -/
inductive NodeState where
  | loading
  | configFault
  | joining
  | running
  | mismatch
  deriving DecidableEq, Repr

/-- R178, R179: the fault reasons. -/
inductive FaultReason where
  | marker
  | header
  | check
  | range
  | order
  | gradeTable
  | duplicateIndex
  deriving DecidableEq, Repr

/-- The Start-up and Configuration Unit (R172). `checkWord` is the header's check word while the sections are read. -/
structure StartUnit where
  node : NodeState
  index : Index
  outlet : Bool
  readPos : Option Nat
  checkWord : Option (BitVec 16)
  config : Option Loaded
  digest : Option (BitVec 32)
  fault : Option FaultReason
  deriving DecidableEq, Repr

/-! ## Position Unit (chapter 2) -/

/-- How far a stored compare has come: waiting for the counter; reached by the counter and due to be taken (R35); or taken
while the Edge Unit is frozen and kept by it until it resumes (R51). -/
inductive Progress where
  | waiting
  | due
  | kept
  deriving DecidableEq, Repr

/-- R35: a stored compare. -/
structure Compare where
  id : CompareId
  pos : Pos
  progress : Progress
  deriving DecidableEq, Repr

/-- R34, R56: what the scan trigger line is doing. `gap` is the released time after a pulse, `markGap` the released time
after the restart mark. -/
inductive TriggerLine where
  | idle
  | mark
  | markGap
  | pulse
  | gap
  deriving DecidableEq, Repr

/-- The Position Unit (R28). -/
structure PositionUnit where
  counter : Pos
  direction : Direction
  highWater : Pos
  reverseTravel : BitVec 16
  triggerCount : BitVec 16
  triggerPos : Pos
  pulsesOwed : BitVec 8
  triggerLine : TriggerLine
  compares : List Compare
  capture : Option Pos
  deriving DecidableEq, Repr

/-! ## Edge Unit (chapter 2) -/

/-- R38: the edge states. -/
inductive EdgeState where
  | idle
  | rising
  | present
  | falling
  | blanked
  deriving DecidableEq, Repr

/-- R38: a pending edge; it is closed when it has a fall position. -/
structure PendingEdge where
  rise : Pos
  qualified : Bool
  fall : Option Pos
  deriving DecidableEq, Repr

/-- The Edge Unit (R38, R39, R51). `fall` is the fall position of a FALLING run, `absence` the start of absence in BLANKED,
`testDeferred` an attachment test that waits on a round (R42), `pin` the level at the presence pin. -/
structure EdgeUnit where
  state : EdgeState
  pending : Option PendingEdge
  fall : Option Pos
  absence : Option Pos
  frozen : Bool
  testDeferred : Bool
  pin : Bool
  deriving DecidableEq, Repr

/-! ## Scan Unit (chapter 3) -/

/-- R193: a valid scan report. -/
structure Report where
  cls : DefectClass
  line : BitVec 16
  acrossStart : BitVec 12
  acrossEnd : BitVec 12
  alongLength : BitVec 12
  extent : BitVec 12
  deriving DecidableEq, Repr

/-- R53: the scan frame input: released, or driven with the frame taken or ignored to its end. -/
inductive Frame where
  | released
  | taken
  | ignored
  deriving DecidableEq, Repr

/-- The Scan Unit (section 3.2). `head` is the head state: `none` is EMPTY, `some p` is WAITING with mapped position `p`. -/
structure ScanUnit where
  frame : Frame
  fifo : List Report
  head : Option Pos
  overrun : Bool
  deriving DecidableEq, Repr

/-! ## Probe Unit (chapter 4) -/

/-- R74: the probe states. -/
inductive ProbeState where
  | off
  | warming
  | ready
  | sampling
  | parked
  deriving DecidableEq, Repr

/-- R82: the course of the sample in flight. -/
inductive SampleTiming where
  | stopped
  | settle
  | conversion
  deriving DecidableEq, Repr

/-- R86: the target of the sample in flight: a held record, or a record that has left the table. -/
inductive SampleTarget where
  | held (seq : Seq)
  | lost
  deriving DecidableEq, Repr

/-- The Probe Unit (R75). A timer is `none` when stopped and `some t` when it runs from the start value `t`. -/
structure ProbeUnit where
  state : ProbeState
  warmTimer : Option Byte
  parkTimer : Option Byte
  timing : SampleTiming
  target : Option SampleTarget
  deriving DecidableEq, Repr

/-! ## Line Controller and Round Engine (chapters 5 and 6) -/

/-- R89: the line states. -/
inductive LineState where
  | off
  | idle
  | opening
  | inRound
  | guard
  | mute
  | breaking
  deriving DecidableEq, Repr

/-- R98: the kinds of round; `nothing` is kind NONE. -/
inductive RoundKind where
  | purge
  | roll
  | verdict
  | tally
  | opening
  | nothing
  deriving DecidableEq, Repr

/-- R116: the values the station offers in the fields of a round, each fixed at the point R116 gives. `verdictCode` is the
code offered in both the low and the high pass. -/
structure Offers where
  contest : Option Nat
  alignment : Option Nat
  sequence : Option Nat
  position : Option Nat
  tallySubject : Option Nat
  verdictSubject : Option Nat
  ready : Option Nat
  verdictCode : Option Nat
  scope : Option Nat
  purgeSubject : Option Nat
  deriving DecidableEq, Repr

/-- R97: a pass's result, and for an offering station whether it matched (`some true`) or was outbid (`some false`). -/
structure PassResult where
  result : Option Nat
  matched : Option Bool
  deriving DecidableEq, Repr

/-- R119: the node states a ROLL slot entry can carry. -/
inductive RollNode where
  | joining
  | running
  | mismatch
  deriving DecidableEq, Repr

/-- R119, R194: a ROLL slot entry. -/
structure RollEntry where
  node : RollNode
  outlet : Bool
  digest : BitVec 32
  deriving DecidableEq, Repr

/-- R127, R194: a TALLY slot entry. -/
inductive TallyEntry where
  | pending
  | closed (summary : Summary)
  | empty
  | unknown
  deriving DecidableEq, Repr

/-- R100: the entry handed to the station for its own slot. -/
inductive SlotEntry where
  | roll (entry : RollEntry)
  | tally (entry : TallyEntry)
  deriving DecidableEq, Repr

/-- R101: the reading of a slot. -/
inductive Reading (α : Type) where
  | silent
  | damaged
  | entry (e : α)
  deriving DecidableEq, Repr

/-- R111: the PURGE requests, of one scope at a time. -/
inductive PurgeSet where
  | none
  | all
  | opened
  | ones (subjects : List Seq)
  deriving DecidableEq, Repr

/-- R116: the requests that counted as offers at the opening of a round, from which its body offers are drawn. -/
structure Counted where
  tally : List Seq
  verdict : List Seq
  purge : PurgeSet
  deriving DecidableEq, Repr

/-- A round in flight (R93, R102): its kind once the contest has ended, the requests that counted as offers at the opening,
the offers fixed, the contest's and the ended passes' results, the own slot entry and whether the own slot has read back.
`cells` is the cell boundary at which the station's count stands, in cells from the first cell of the contest, spacers
included (R95). -/
structure Round where
  kind : Option RoundKind
  counted : Counted
  offers : Offers
  contest : Option PassResult
  passes : List PassResult
  slotEntry : Option SlotEntry
  slotRead : Bool
  cells : Nat
  deriving DecidableEq, Repr

/-- The Line Controller (R90). `roundCell` is the time in ns from the first to the fourth edge of the pattern: six round
cells (R94). -/
structure LineUnit where
  state : LineState
  opener : Bool
  breakSender : Bool
  longDrive : Bool
  roundCell : Option Nat
  quiet : Nat
  mismatch : Nat
  indexFault : Bool
  round : Option Round
  deriving DecidableEq, Repr

/-- R111: a TALLY or VERDICT request with its hold mark. -/
structure Held where
  subject : Seq
  heldBack : Bool
  deriving DecidableEq, Repr

/-- R111: the request set. -/
structure Requests where
  opening : Bool
  roll : Bool
  tally : List Held
  verdict : List Held
  purge : PurgeSet
  deriving DecidableEq, Repr

/-- The Round Engine (chapter 6). `peers` holds the silence count of each member; an index with none is no member. -/
structure RoundEngine where
  requests : Requests
  peers : Eight (Option Nat)
  nextSeq : Seq
  openCount : BitVec 8
  deriving DecidableEq, Repr

/-! ## Outlet Unit and Result Port (chapters 8 and 10) -/

/-- R162, R165: an OPEN gate window: the bin driven and the end position. -/
structure GateWindow where
  bin : BitVec 3
  endPos : Pos
  deriving DecidableEq, Repr

/-- The Outlet Unit: its gate window, `none` when CLOSED. -/
structure OutletUnit where
  window : Option GateWindow
  deriving DecidableEq, Repr

/-- R168, R195: a result record. -/
structure ResultRecord where
  seq : Seq
  refPos : Pos
  outcome : Verdict
  flags : SheetFlags
  figures : PerClass (BitVec 8 × BitVec 12)
  moisture : Option (BitVec 10)
  lost : BitVec 8
  deriving DecidableEq, Repr

/-- R188: the attention causes, in order of priority. -/
inductive Cause where
  | configFault
  | mismatch
  | lineError
  | peerChange
  | scanFault
  | tableFull
  | resultOverflow
  | resultReady
  deriving DecidableEq, Repr

/-- R189, R191: one bit for each cause. -/
structure Causes where
  configFault : Bool
  mismatch : Bool
  lineError : Bool
  peerChange : Bool
  scanFault : Bool
  tableFull : Bool
  resultOverflow : Bool
  resultReady : Bool
  deriving DecidableEq, Repr

/-- R183: a read whose answer is being shifted out: READ RESULT with or without a record, READ CAUSE with or without a
cause. -/
inductive PortRead where
  | result (record : Bool)
  | cause (c : Option Cause)
  deriving DecidableEq, Repr

/-- The Result Port and Attention (chapter 10). `selected` is set while a transaction whose command has been taken is in
progress, and `answer` then holds its answer bytes. -/
structure ResultPort where
  fifo : List ResultRecord
  lost : BitVec 8
  causes : Causes
  enable : Causes
  watermark : BitVec 8
  read : Option PortRead
  selected : Bool
  answer : List Byte
  deriving DecidableEq, Repr

/-! ## The station and the machine -/

/-- Everything the spec gives the station. `heldInReset` is set while the supply is below its range (R172). -/
structure Station where
  heldInReset : Bool
  start : StartUnit
  position : PositionUnit
  edge : EdgeUnit
  scan : ScanUnit
  probe : ProbeUnit
  line : LineUnit
  engine : RoundEngine
  table : List Record
  outlet : OutletUnit
  port : ResultPort
  deriving DecidableEq, Repr

/-- The machine: the station, and the queue of commands that wait, the first at the front (log 1). -/
structure State where
  station : Station
  pending : List Instr
  deriving DecidableEq, Repr

/-- The spec describes no event that stops the station, so no step ends in a fault (log 25). -/
inductive Fault where
  deriving DecidableEq, Repr

/-- Why a command has no meaning. -/
inductive Refusal where
  /-- Raised by an arm of `exec` for a command that has no meaning in the model yet; safe. No arm raises it. -/
  | notModelled (mnemonic : String)
  deriving DecidableEq, Repr

/-! ## Reset values -/

/-- R5: the figures of a class at creation. -/
def ClassFigures.zero : ClassFigures := ⟨0, 0, 0⟩

/-- The same value for every class. -/
def PerClass.fill {α : Type} (v : α) : PerClass α := ⟨v, v, v, v, v, v⟩

/-- R4: the summary at creation. -/
def Summary.zero : Summary :=
  { figures := PerClass.fill ClassFigures.zero, moisture := none, boundary := [], overflow := false,
    incomplete := false, overlength := false }

/-- R8: each flag is clear at creation. -/
def SheetFlags.clear : SheetFlags :=
  ⟨false, false, false, false, false, false, false, false, false⟩

/-- R189: no cause pending. -/
def Causes.nothing : Causes := ⟨false, false, false, false, false, false, false, false⟩

/-- R191: all eight causes. -/
def Causes.every : Causes := ⟨true, true, true, true, true, true, true, true⟩

/-- R28. -/
def PositionUnit.reset : PositionUnit :=
  { counter := 0, direction := .forward, highWater := 0, reverseTravel := 0, triggerCount := 0, triggerPos := 0,
    pulsesOwed := 0, triggerLine := .idle, compares := [], capture := none }

/-- R39; the pin is an input and keeps its level. -/
def EdgeUnit.reset (pin : Bool) : EdgeUnit :=
  { state := .idle, pending := none, fall := none, absence := none, frozen := false, testDeferred := false, pin := pin }

/-- R57; a frame in progress is lost and ignored to its end (R53, R54). -/
def ScanUnit.reset (frame : Frame) : ScanUnit :=
  { frame := if frame = .released then .released else .ignored, fifo := [], head := none, overrun := false }

/-- R75. -/
def ProbeUnit.reset : ProbeUnit :=
  { state := .off, warmTimer := none, parkTimer := none, timing := .stopped, target := none }

/-- R90; the index fault mark is kept through an index fault restart only. -/
def LineUnit.reset (indexFault : Bool) : LineUnit :=
  { state := .off, opener := false, breakSender := false, longDrive := false, roundCell := none, quiet := 0,
    mismatch := 0, indexFault := indexFault, round := none }

/-- R118. -/
def Requests.none : Requests :=
  { opening := false, roll := false, tally := [], verdict := [], purge := .none }

/-- R118. -/
def RoundEngine.reset : RoundEngine :=
  { requests := Requests.none, peers := Eight.fill Option.none, nextSeq := 0, openCount := 0 }

/-- R184, R185, R191. -/
def ResultPort.reset : ResultPort :=
  { fifo := [], lost := 0, causes := Causes.nothing, enable := Causes.every, watermark := 1, read := none,
    selected := false, answer := [] }

/-- R172, R173: the straps are sampled, and the read begins at byte 0. -/
def StartUnit.reset (straps : Straps) : StartUnit :=
  { node := .loading, index := straps.index, outlet := straps.outlet, readPos := some 0, checkWord := none,
    config := none, digest := none, fault := none }

/-- R172: every block at its value after reset. -/
def Station.resetWith (straps : Straps) (indexFault pin : Bool) (frame : Frame) : Station :=
  { heldInReset := false, start := StartUnit.reset straps, position := PositionUnit.reset, edge := EdgeUnit.reset pin,
    scan := ScanUnit.reset frame, probe := ProbeUnit.reset, line := LineUnit.reset indexFault,
    engine := RoundEngine.reset, table := [], outlet := { window := none }, port := ResultPort.reset }

/-- The machine right after power-on reset (R172). DESIGN CHOICE: the strap pins read index 0 and not outlet, the presence
pin is low and scan frame is released, since the spec gives the pins no level (log 5, unsafe). The queue is empty. -/
def State.reset : State :=
  { station := Station.resetWith ⟨0, false⟩ false false .released, pending := [] }

end Sys2Proof.Machine
end

