-- ==== Sys2Proof/Machine/Flags.lean ====
section
/-! DEFINITION. The attention causes, the result FIFO with its RESULT_READY level, and the sheet flags set from band flags. -/

namespace Sys2Proof.Machine

/-! ## Causes (R188 to R191) -/

/-- Whether a cause is set in a cause set or an enable mask. -/
def Causes.has (cs : Causes) (c : Cause) : Bool :=
  match c with
  | .configFault => cs.configFault
  | .mismatch => cs.mismatch
  | .lineError => cs.lineError
  | .peerChange => cs.peerChange
  | .scanFault => cs.scanFault
  | .tableFull => cs.tableFull
  | .resultOverflow => cs.resultOverflow
  | .resultReady => cs.resultReady

/-- A cause set with one cause made pending or cleared. -/
def Causes.put (cs : Causes) (c : Cause) (v : Bool) : Causes :=
  match c with
  | .configFault => { cs with configFault := v }
  | .mismatch => { cs with mismatch := v }
  | .lineError => { cs with lineError := v }
  | .peerChange => { cs with peerChange := v }
  | .scanFault => { cs with scanFault := v }
  | .tableFull => { cs with tableFull := v }
  | .resultOverflow => { cs with resultOverflow := v }
  | .resultReady => { cs with resultReady := v }

/-- R188: the causes from priority 1 to priority 8. -/
def causesByPriority : List Cause :=
  [.configFault, .mismatch, .lineError, .peerChange, .scanFault, .tableFull, .resultOverflow, .resultReady]

/-- R195: the priority that READ CAUSE answers, 0 for no cause. -/
def Cause.priority (c : Option Cause) : Byte :=
  match c with
  | none => 0
  | some .configFault => 1
  | some .mismatch => 2
  | some .lineError => 3
  | some .peerChange => 4
  | some .scanFault => 5
  | some .tableFull => 6
  | some .resultOverflow => 7
  | some .resultReady => 8

/-- R189: the pending cause of highest priority, enabled or not. -/
def Causes.highest (cs : Causes) : Option Cause :=
  causesByPriority.find? cs.has

/-- R196: bit 7 of the mask byte enables priority 1, through bit 0 for priority 8. -/
def Causes.ofMask (m : Byte) : Causes :=
  { configFault := m.getLsbD 7, mismatch := m.getLsbD 6, lineError := m.getLsbD 5, peerChange := m.getLsbD 4,
    scanFault := m.getLsbD 3, tableFull := m.getLsbD 2, resultOverflow := m.getLsbD 1, resultReady := m.getLsbD 0 }

/-- R189: a raise makes the cause pending. -/
def ResultPort.raise (c : Cause) (p : ResultPort) : ResultPort :=
  { p with causes := p.causes.put c true }

/-- R190: RESULT_READY is pending while the FIFO count is at or above the watermark. -/
def ResultPort.levelResultReady (p : ResultPort) : ResultPort :=
  { p with causes := p.causes.put .resultReady (decide (p.watermark.toNat ≤ p.fifo.length)) }

/-- R184, R185: a result record is offered to the FIFO; it is queued with the lost count, or dropped and counted. -/
def ResultPort.offer (r : ResultRecord) (p : ResultPort) : ResultPort :=
  if p.fifo.length < Config.resultFifoCapacity then
    ({ p with fifo := p.fifo ++ [{ r with lost := p.lost }], lost := 0 }).levelResultReady
  else
    ({ p with lost := if p.lost = 255#8 then 255#8 else p.lost + 1 }).raise .resultOverflow

/-- R184: the head record leaves, and RESULT_READY follows the level (R190). -/
def ResultPort.removeHead (p : ResultPort) : ResultPort :=
  ({ p with fifo := p.fifo.tail }).levelResultReady

/-- R189, R190: a cause read out is cleared; RESULT_READY is pending again at once where its level still holds. -/
def ResultPort.clearCause (c : Cause) (p : ResultPort) : ResultPort :=
  ({ p with causes := p.causes.put c false }).levelResultReady

/-- R191: the attention line is driven while a pending cause is enabled. -/
def ResultPort.attention (p : ResultPort) : Bool :=
  causesByPriority.any fun c => p.causes.has c && p.enable.has c

/-- Raise a cause at the station (R189). -/
def raiseCause (c : Cause) (st : Station) : Station :=
  { st with port := st.port.raise c }

/-! ## Sheet flags from band flags (R147) -/

/-- The summaries of the stored CLOSED entries, by index (R145). -/
def closedSummaries (entries : Eight (Option Entry)) : List Summary :=
  entries.toList.filterMap fun e =>
    match e with
    | some (.closed s) => some s
    | _ => none

/-- R147: band flags of stored CLOSED entries set the sheet flags INCOMPLETE and OVERLENGTH. -/
def SheetFlags.withBandFlags (f : SheetFlags) (entries : Eight (Option Entry)) : SheetFlags :=
  { f with
    incomplete := f.incomplete || (closedSummaries entries).any (·.incomplete)
    overlength := f.overlength || (closedSummaries entries).any (·.overlength) }

end Sys2Proof.Machine
end

