-- ==== Sys2Proof/Machine/Operands.lean ====
section
/-! DEFINITION. What the bits at the ports mean: the scan report frame, the Grade Line's passes and slots, the image, and
the answer bytes (chapter 10, section 10.5; R96 to R101). -/

namespace Sys2Proof.Machine

/-! ## Bit fields, most significant bit first -/

/-- The number a list of bits spells, most significant first. -/
def bitsToNat (bits : List Bool) : Nat :=
  bits.foldl (fun n b => 2 * n + b.toNat) 0

/-- The `w` low bits of a number, most significant first. -/
def natToBits : Nat → Nat → List Bool
  | 0, _ => []
  | w + 1, n => n.testBit w :: natToBits w n

/-- A field's bits in the order sent. -/
def putBits {w : Nat} (v : BitVec w) : List Bool := natToBits w v.toNat

/-- The first `w` bits as a field, and the bits after them. -/
def getBits (w : Nat) (bits : List Bool) : BitVec w × List Bool :=
  (BitVec.ofNat w (bitsToNat (bits.take w)), bits.drop w)

/-! ## Check values (R192) -/

/-- One bit of a cyclic check with a generator of width `w`. -/
def crcStep {w : Nat} (generator : BitVec w) (reg : BitVec w) (bit : Bool) : BitVec w :=
  if reg.msb != bit then (reg <<< 1) ^^^ generator else reg <<< 1

/-- The cyclic check: the register starts at all ones and takes the bits in order, with no final inversion. -/
def crc {w : Nat} (generator : BitVec w) (bits : List Bool) : BitVec w :=
  bits.foldl (crcStep generator) (BitVec.allOnes w)

/-- The 16-bit check of slot entries and of the image. -/
def check16 (bits : List Bool) : BitVec 16 := crc Config.checkGenerator bits

/-- The bits of bytes in the order read. -/
def byteBits (bytes : List Byte) : List Bool := bytes.flatMap putBits

/-- The shared digest. -/
def digest32 (bytes : List Byte) : BitVec 32 := crc Config.digestGenerator (byteBits bytes)

/-! ## Codes -/

/-- R143: the class of a code 1 to 6. -/
def DefectClass.ofCode (c : BitVec 3) : Option DefectClass :=
  match c.toNat with
  | 1 => some .tightKnot
  | 2 => some .openKnot
  | 3 => some .hole
  | 4 => some .split
  | 5 => some .resinStreak
  | 6 => some .discolor
  | _ => none

def DefectClass.code (c : DefectClass) : BitVec 3 :=
  match c with
  | .tightKnot => 1
  | .openKnot => 2
  | .hole => 3
  | .split => 4
  | .resinStreak => 5
  | .discolor => 6

/-- R194: LEFT 1, RIGHT 2, BOTH 3. -/
def Side.ofCode (c : BitVec 2) : Option Side :=
  match c.toNat with
  | 1 => some .left
  | 2 => some .right
  | 3 => some .both
  | _ => none

def Side.code (s : Side) : BitVec 2 :=
  match s with
  | .left => 1
  | .right => 2
  | .both => 3

/-- R194: JOINING 1, RUNNING 2, MISMATCH 3. -/
def RollNode.ofCode (c : BitVec 2) : Option RollNode :=
  match c.toNat with
  | 1 => some .joining
  | 2 => some .running
  | 3 => some .mismatch
  | _ => none

def RollNode.code (n : RollNode) : BitVec 2 :=
  match n with
  | .joining => 1
  | .running => 2
  | .mismatch => 3

/-- R7: the verdict codes. -/
def Verdict.code (v : Verdict) : Nat :=
  match v with
  | .manual => 0
  | .redry => 1
  | .reject => 2
  | .strip => 3
  | .core => 4
  | .back => 5
  | .face2 => 6
  | .face1 => 7

/-- R7: the verdict of a code, taken in its three cells. -/
def Verdict.ofCode (n : Nat) : Verdict :=
  match n % 8 with
  | 0 => .manual
  | 1 => .redry
  | 2 => .reject
  | 3 => .strip
  | 4 => .core
  | 5 => .back
  | 6 => .face2
  | _ => .face1

/-- The verdict as an index into the bin map (R163). -/
def Verdict.index (v : Verdict) : Index :=
  match v with
  | .manual => 0
  | .redry => 1
  | .reject => 2
  | .strip => 3
  | .core => 4
  | .back => 5
  | .face2 => 6
  | .face1 => 7

/-- R98: the kind codes. -/
def RoundKind.ofCode (n : Nat) : Option RoundKind :=
  match n with
  | 1 => some .purge
  | 2 => some .roll
  | 3 => some .verdict
  | 4 => some .tally
  | 5 => some .opening
  | _ => none

/-! ## The values of a class (R143) -/

def PerClass.get {α : Type} (p : PerClass α) (c : DefectClass) : α :=
  match c with
  | .tightKnot => p.tightKnot
  | .openKnot => p.openKnot
  | .hole => p.hole
  | .split => p.split
  | .resinStreak => p.resinStreak
  | .discolor => p.discolor

def PerClass.set {α : Type} (p : PerClass α) (c : DefectClass) (v : α) : PerClass α :=
  match c with
  | .tightKnot => { p with tightKnot := v }
  | .openKnot => { p with openKnot := v }
  | .hole => { p with hole := v }
  | .split => { p with split := v }
  | .resinStreak => { p with resinStreak := v }
  | .discolor => { p with discolor := v }

def PerClass.tabulate {α : Type} (f : DefectClass → α) : PerClass α :=
  ⟨f .tightKnot, f .openKnot, f .hole, f .split, f .resinStreak, f .discolor⟩

/-- In class order 1 to 6. -/
def classes : List DefectClass := [.tightKnot, .openKnot, .hole, .split, .resinStreak, .discolor]

/-! ## Scan report frame (R54, R55, R193) -/

/-- What the end of a scan frame brings. -/
inductive FrameResult where
  | broken
  | invalid
  | report (r : Report)
  deriving DecidableEq, Repr

/-- R54, R55, R193: a frame of the wrong length is broken; class 0 or 7, or across-start above across-end, is invalid. -/
def readFrame (bits : List Bool) : FrameResult :=
  if bits.length = Config.reportFrameLength then
    let (cls, b1) := getBits 3 bits
    let (line, b2) := getBits 16 b1
    let (acrossStart, b3) := getBits 12 b2
    let (acrossEnd, b4) := getBits 12 b3
    let (alongLength, b5) := getBits 12 b4
    let (extent, _) := getBits 12 b5
    match DefectClass.ofCode cls with
    | none => .invalid
    | some c => if acrossEnd < acrossStart then .invalid else .report ⟨c, line, acrossStart, acrossEnd, alongLength, extent⟩
  else .broken

/-- R193: the bits of a report frame. -/
def frameBits (r : Report) : List Bool :=
  putBits r.cls.code ++ putBits r.line ++ putBits r.acrossStart ++ putBits r.acrossEnd ++ putBits r.alongLength ++
    putBits r.extent

/-! ## Passes (R96, R97, R99) -/

/-- R96: the value the wire carries over `w` value cells, most significant first, when the given values are offered: a cell
is driven when a station still in the pass has a 0 there, and the stations with a 1 are then outbid. -/
def contend : Nat → List Nat → Nat
  | 0, _ => 0
  | w + 1, offers =>
    let driving := offers.filter fun v => !v.testBit w
    if driving.isEmpty then 2 ^ w + contend w offers else contend w driving

/-- R96: a low pass; with no offer the result is NO OFFER. -/
def lowPass (w : Nat) (offers : List Nat) : Option Nat :=
  if offers.isEmpty then none else some (contend w offers)

/-- R97: a high pass runs as a low pass on complemented values. -/
def highPass (w : Nat) (offers : List Nat) : Option Nat :=
  (lowPass w (offers.map fun v => 2 ^ w - 1 - v % 2 ^ w)).map fun v => 2 ^ w - 1 - v

/-- R99: the sense and the width of a pass field. -/
inductive PassField where
  | low (width : Nat)
  | high (width : Nat)
  deriving DecidableEq, Repr

def PassField.width (f : PassField) : Nat :=
  match f with
  | .low w => w
  | .high w => w

/-- A value as its field carries it. -/
def PassField.fit (f : PassField) (v : Nat) : Nat := v % 2 ^ f.width

/-- R96, R97: the result of a pass from the station's own offer and the peers' offers, and whether the own offer matched. -/
def PassField.run (f : PassField) (own : Option Nat) (peers : List Nat) : PassResult :=
  let offers := (own.toList ++ peers).map f.fit
  let result := match f with
    | .low w => lowPass w offers
    | .high w => highPass w offers
  { result := result, matched := own.map fun v => decide (result = some (f.fit v)) }

/-- R98: the kind contest is a low pass of 3 value cells. -/
def contestField : PassField := .low 3

/-- R99: the passes of a round's body, in order. -/
def RoundKind.passes (k : RoundKind) : List PassField :=
  match k with
  | .roll => [.high 32, .high 16]
  | .opening => [.low 32]
  | .tally => [.low 16]
  | .verdict => [.low 16, .low 1, .low 3, .high 3]
  | .purge => [.low 2, .low 16]
  | .nothing => []

/-- R99, R194: the cells of one slot of a kind, 0 for a kind without slots. -/
def RoundKind.slotCells (k : RoundKind) : Nat :=
  match k with
  | .roll => 52
  | .tally => 448
  | .opening => 0
  | .verdict => 0
  | .purge => 0
  | .nothing => 0

/-- R194: the cells of the kind contest and the body together, spacers not counted. -/
def RoundKind.cells (k : RoundKind) : Nat :=
  1 + contestField.width + (k.passes.map fun f => 1 + f.width).sum + 8 * k.slotCells

/-- R95, R194: the body with a released spacer cell after every eighth cell, none after the last. A released cell is
`true`. -/
def withSpacers (cells : List Bool) : List Bool :=
  (cells.zipIdx 1).flatMap fun (cell, n) => if n % 8 = 0 && n < cells.length then [cell, true] else [cell]

/-- R95: the cells of contest and body that are no spacers. -/
def withoutSpacers (cells : List Bool) : List Bool :=
  cells.zipIdx.filterMap fun (cell, n) => if n % 9 = 8 then none else some cell

/-! ## Slots (R100, R101, R192, R194); a released cell is a 1, a driven cell a 0 -/

/-- R100: presence cell, entry cells, check value over the entry cells. -/
def slotBits (entry : List Bool) : List Bool :=
  false :: entry ++ putBits (check16 entry)

/-- R101, R192: the reading of a slot whose entry cells `parse` reads; a field value that no entry can hold gives none. -/
def readSlot {α : Type} (entryCells : Nat) (parse : List Bool → Option α) (cells : List Bool) : Reading α :=
  match cells with
  | [] => .silent
  | presence :: rest =>
    if presence then (if rest.all id then .silent else .damaged)
    else
      let entry := rest.take entryCells
      if (getBits 16 (rest.drop entryCells)).1 = check16 entry then
        match parse entry with
        | some e => .entry e
        | none => .damaged
      else .damaged

/-- R194: the entry cells of a ROLL slot. -/
def RollEntry.bits (e : RollEntry) : List Bool :=
  putBits e.node.code ++ [e.outlet] ++ putBits e.digest

/-- R194. -/
def RollEntry.parse (bits : List Bool) : Option RollEntry :=
  let (node, b1) := getBits 2 bits
  let (outlet, b2) := getBits 1 b1
  let (digest, _) := getBits 32 b2
  (RollNode.ofCode node).map fun n => ⟨n, outlet.msb, digest⟩

/-- R101: the reading of a ROLL slot. -/
def readRollSlot (cells : BitVec 52) : Reading RollEntry := readSlot 35 RollEntry.parse (putBits cells)

/-- R100: the cells of the own ROLL slot. -/
def RollEntry.cells (e : RollEntry) : BitVec 52 := BitVec.ofNat 52 (bitsToNat (slotBits e.bits))

/-- R194: 36 cells for each class. -/
def ClassFigures.bits (f : ClassFigures) : List Bool :=
  putBits f.count ++ putBits f.largest ++ putBits f.aggregate

def ClassFigures.parse (bits : List Bool) : ClassFigures × List Bool :=
  let (count, b1) := getBits 8 bits
  let (largest, b2) := getBits 12 b1
  let (aggregate, b3) := getBits 16 b2
  (⟨count, largest, aggregate⟩, b3)

/-- R194: 49 cells for each boundary record. -/
def BoundaryRecord.bits (r : BoundaryRecord) : List Bool :=
  putBits r.cls.code ++ putBits r.side.code ++ putBits r.alongStart ++ putBits r.alongEnd ++ putBits r.extent

/-- R192, R194: `none` for a class of 0 or 7 or a side of 0. -/
def BoundaryRecord.parse (bits : List Bool) : Option (BoundaryRecord × List Bool) :=
  let (cls, b1) := getBits 3 bits
  let (side, b2) := getBits 2 b1
  let (alongStart, b3) := getBits 16 b2
  let (alongEnd, b4) := getBits 16 b3
  let (extent, b5) := getBits 12 b4
  match DefectClass.ofCode cls, Side.ofCode side with
  | some c, some s => some (⟨c, s, alongStart, alongEnd, extent⟩, b5)
  | _, _ => none

/-- The first `n` boundary records of the cells. -/
def parseBoundary : Nat → List Bool → Option (List BoundaryRecord)
  | 0, _ => some []
  | n + 1, bits =>
    match BoundaryRecord.parse bits with
    | none => none
    | some (r, rest) => (parseBoundary n rest).map (r :: ·)

/-- R194: the released cells that fill a part of a slot. -/
def releasedCells (n : Nat) : List Bool := List.replicate n true

/-- R194: valid flag, then ten value cells, released when absent. -/
def moistureBits (m : Option (BitVec 10)) : List Bool :=
  match m with
  | some v => true :: putBits v
  | none => false :: releasedCells 10

/-- R194: the cells after the answer in a CLOSED entry: 429 of them. -/
def Summary.bits (s : Summary) : List Bool :=
  let boundary := s.boundary.take Config.boundaryCapacity
  [s.incomplete, s.overlength] ++
    (s.figures.tightKnot.bits ++ s.figures.openKnot.bits ++ s.figures.hole.bits ++ s.figures.split.bits ++
      s.figures.resinStreak.bits ++ s.figures.discolor.bits) ++
    moistureBits s.moisture ++ [s.overflow] ++ putBits (BitVec.ofNat 3 boundary.length) ++
    boundary.flatMap BoundaryRecord.bits ++ releasedCells (49 * (Config.boundaryCapacity - boundary.length))

/-- R192, R194: the max moisture field. `none` for a valid flag of 0 with a driven value cell, which no entry can hold. -/
def parseMoisture (valid : BitVec 1) (value : BitVec 10) : Option (Option (BitVec 10)) :=
  if valid.msb then some (some value)
  else if value = BitVec.allOnes 10 then some none
  else none

/-- R192, R194: `none` for a boundary count above 4, a max moisture field that no entry can hold, or a field of a record
within the count that none can hold. -/
def Summary.parse (bits : List Bool) : Option Summary :=
  let (incomplete, b1) := getBits 1 bits
  let (overlength, b2) := getBits 1 b1
  let (tightKnot, b3) := ClassFigures.parse b2
  let (openKnot, b4) := ClassFigures.parse b3
  let (hole, b5) := ClassFigures.parse b4
  let (split, b6) := ClassFigures.parse b5
  let (resinStreak, b7) := ClassFigures.parse b6
  let (discolor, b8) := ClassFigures.parse b7
  let (valid, b9) := getBits 1 b8
  let (value, b10) := getBits 10 b9
  let (overflow, b11) := getBits 1 b10
  let (count, b12) := getBits 3 b11
  if Config.boundaryCapacity < count.toNat then none
  else
    match parseMoisture valid value, parseBoundary count.toNat b12 with
    | some moisture, some boundary =>
      some
        { figures := ⟨tightKnot, openKnot, hole, split, resinStreak, discolor⟩
          moisture := moisture
          boundary := boundary
          overflow := overflow.msb
          incomplete := incomplete.msb
          overlength := overlength.msb }
    | _, _ => none

/-- R194: PENDING 0, CLOSED 1, EMPTY 2, UNKNOWN 3; every cell after another answer than CLOSED is released. -/
def TallyEntry.bits (e : TallyEntry) : List Bool :=
  match e with
  | .pending => putBits 0#2 ++ releasedCells 429
  | .closed s => putBits 1#2 ++ s.bits
  | .empty => putBits 2#2 ++ releasedCells 429
  | .unknown => putBits 3#2 ++ releasedCells 429

/-- R194: a receiver ignores the cells after an answer other than CLOSED. -/
def TallyEntry.parse (bits : List Bool) : Option TallyEntry :=
  let (answer, rest) := getBits 2 bits
  match answer.toNat with
  | 0 => some .pending
  | 1 => (Summary.parse rest).map .closed
  | 2 => some .empty
  | _ => some .unknown

/-- R101: the reading of a TALLY slot. -/
def readTallySlot (cells : BitVec 448) : Reading TallyEntry := readSlot 431 TallyEntry.parse (putBits cells)

/-- R100: the cells of the own TALLY slot. -/
def TallyEntry.cells (e : TallyEntry) : BitVec 448 := BitVec.ofNat 448 (bitsToNat (slotBits e.bits))

/-! ## The cells of a whole round (R92, R94, R95, R103, R194) -/

/-- R194: the offer cell and the value cells of a pass with this result; a high pass carries the complement (R97). -/
def PassField.cells (f : PassField) (result : Option Nat) : List Bool :=
  match result with
  | none => releasedCells (1 + f.width)
  | some v => false :: natToBits f.width (match f with
    | .low _ => v
    | .high w => 2 ^ w - 1 - v)

/-- R96, R97: the result that a station reads from the cells of a pass. -/
def PassField.read (f : PassField) (cells : List Bool) : Option Nat :=
  match cells with
  | [] => none
  | offer :: values =>
    if offer then none
    else some (match f with
      | .low _ => bitsToNat values
      | .high w => 2 ^ w - 1 - bitsToNat values)

/-- R96, R97: whether a station with this offer drives the next cell of a pass, of which the cells `read` have been read: the offer
cell, and then each 0 of its value until it has read a cell driven that it released. -/
def PassField.drives (f : PassField) (offer : Option Nat) (read : List Bool) : Bool :=
  let own := f.cells (offer.map f.fit)
  own[read.length]? == some false && !(own.zip read).any fun (mine, wire) => mine && !wire

/-- R100: whether the station drives the next cell of the slots, of which the cells `read` have been read: each 0 of its own slot,
which begins after `start` cells, until a cell of it reads otherwise than sent. -/
def slotDrives (start : Nat) (own read : List Bool) : Bool :=
  decide (start ≤ read.length) && own[read.length - start]? == some false &&
    (own.zip (read.drop start)).all fun (mine, wire) => mine == wire

/-- R99, R194: the kind contest and the body, spacers not counted. -/
def RoundKind.bodyCells (k : RoundKind) (contest : Option Nat) (results : List (Option Nat)) (slots : List (List Bool)) :
    List Bool :=
  contestField.cells contest ++ (List.zipWith PassField.cells k.passes results).flatten ++ slots.flatten

/-- R92, R194. -/
def openingPulse : List Bool := [false, false]

/-- R94, R194: four driven cells, each preceded by a released one. -/
def alignmentCells : List Bool := [true, false, true, false, true, false, true, false]

/-- R194: one released round cell. -/
def gapCells : List Bool := [true]

/-- R103, R194. -/
def guardCells : List Bool := [true, true, true]

/-- R194: all cells of a round, from the opening pulse to the guard. -/
def RoundKind.roundCells (k : RoundKind) (contest : Option Nat) (results : List (Option Nat)) (slots : List (List Bool)) :
    List Bool :=
  openingPulse ++ alignmentCells ++ gapCells ++ withSpacers (k.bodyCells contest results slots) ++ guardCells

/-- R95: the cells that the first `n` cells of the contest and the body take with the spacers among them. -/
def cellsWithSpacers (n : Nat) : Nat := n + (n - 1) / 8

/-- R95, R99: the count, spacers included, at the end of the contest and the first `passes` passes of a kind. -/
def RoundKind.cellsThrough (k : RoundKind) (passes : Nat) : Nat :=
  cellsWithSpacers (1 + contestField.width + ((k.passes.take passes).map fun f => 1 + f.width).sum)

/-- R95, R99: the count, spacers included, at the end of slot `index`. -/
def RoundKind.cellsThroughSlot (k : RoundKind) (index : Index) : Nat :=
  cellsWithSpacers (1 + contestField.width + (k.passes.map fun f => 1 + f.width).sum + (index.val + 1) * k.slotCells)

/-- R95: the cell boundary, in cells after the one at which the count stands, as which a released-to-driven edge is taken.
`sixCells` is six round cells and `time` the edge's time since that boundary, both in ns. `none` where the nearest boundary is
further than a quarter of a round cell away. -/
def edgeBoundary (sixCells time : Nat) : Option Nat :=
  let nearest := (12 * time + sixCells) / (2 * sixCells)
  let distance := (6 * time - nearest * sixCells) + (nearest * sixCells - 6 * time)
  if 4 * distance ≤ sixCells then some nearest else none

/-! ## The configuration image (R175 to R178, R196) -/

/-- R175: what the station sends on data out of the configuration port before it reads the image: the read instruction, then
two address bytes. -/
def configInstruction : List Byte := [3, 0, 0]

/-- A byte read from the memory; where the memory answers nothing, every bit reads as 1 (R175). -/
def byteAt (bytes : List Byte) (offset : Nat) : Byte := bytes.getD offset 255#8

/-- Two-byte fields are stored most significant byte first (R196). -/
def wordAt (bytes : List Byte) (offset : Nat) : BitVec 16 := byteAt bytes offset ++ byteAt bytes (offset + 1)

/-- R196: count, largest and aggregate of one class. -/
def limitsAt (bytes : List Byte) (offset : Nat) : Limits :=
  ⟨byteAt bytes offset, wordAt bytes (offset + 1), wordAt bytes (offset + 3)⟩

/-- R196: classes 1 to 6 of one grade. -/
def gradeAt (bytes : List Byte) (offset : Nat) : PerClass Limits :=
  ⟨limitsAt bytes offset, limitsAt bytes (offset + 5), limitsAt bytes (offset + 10), limitsAt bytes (offset + 15),
    limitsAt bytes (offset + 20), limitsAt bytes (offset + 25)⟩

/-- R196: eight 3-bit bins, codes MANUAL to FACE1 in order. -/
def binMapAt (bytes : List Byte) (offset : Nat) : Eight (BitVec 3) :=
  let bits : BitVec 24 := byteAt bytes offset ++ byteAt bytes (offset + 1) ++ byteAt bytes (offset + 2)
  Eight.tabulate fun k => bits.extractLsb' (21 - 3 * k.val) 3

/-- R196: the shared section; an offset here is the image's offset less the 7 header bytes. -/
def readShared (b : List Byte) : Shared :=
  { lineRate := byteAt b 0
    attachWindow := wordAt b 1
    qualification := byteAt b 3
    bridge := byteAt b 4
    overlength := wordAt b 5
    lag := wordAt b 7
    decisionDistance := wordAt b 9
    gateDistance := wordAt b 11
    gateWindow := wordAt b 13
    scanPitch := byteAt b 15
    bandWidth := wordAt b 16
    mergeTolerance := byteAt b 18
    reverseLimit := wordAt b 19
    rollPeriod := byteAt b 21
    samplePitch := wordAt b 22
    settleTime := byteAt b 24
    redryLimit := wordAt b 25
    fullBandCount := byteAt b 27
    gradeTable := ⟨gradeAt b 28, gradeAt b 58, gradeAt b 88, gradeAt b 118⟩
    binMap := binMapAt b 148 }

/-- R196: the local section. -/
def readLocal (b : List Byte) : Local :=
  { trim := byteAt b 151
    warmUpTime := byteAt b 152
    parkTime := byteAt b 153
    presenceInvert := byteAt b 154
    enableMask := byteAt b 155
    watermark := byteAt b 156 }

/-- The 157 bytes of the two sections as read: bytes not answered read as ones (R175). -/
def sectionBytes (b : List Byte) : List Byte := (List.range 157).map (byteAt b)

/-- R178, tests 1 and 2: the header's fault, or none. -/
def headerFault (h : List Byte) : Option FaultReason :=
  if wordAt h 0 ≠ Config.imageMarker then some .marker
  else if byteAt h 2 ≠ Config.imageFormat ∨ wordAt h 3 ≠ Config.imageLength then some .header
  else none

/-- R176: largest and aggregate limits in range (every count and aggregate is). -/
def limitsInRange (g : PerClass Limits) : Bool := classes.all fun c => decide ((g.get c).largest.toNat ≤ 4095)

/-- R176, R178 test 4: every field of both sections is in range. -/
def fieldsInRange (s : Shared) (l : Local) : Bool :=
  decide (s.lineRate.toNat ≤ 3) && s.attachWindow != 0 && s.qualification != 0 && s.bridge != 0 && s.overlength != 0 &&
  s.lag != 0 && s.decisionDistance != 0 && s.gateDistance != 0 && s.gateWindow != 0 && s.scanPitch != 0 &&
  decide (1 ≤ s.bandWidth.toNat ∧ s.bandWidth.toNat ≤ 4096) && s.reverseLimit != 0 &&
  (s.rollPeriod == 0 || decide (16 ≤ s.rollPeriod.toNat)) && s.samplePitch != 0 &&
  decide (1 ≤ s.settleTime.toNat ∧ s.settleTime.toNat ≤ 127) && decide (s.redryLimit.toNat ≤ 1023) &&
  decide (1 ≤ s.fullBandCount.toNat ∧ s.fullBandCount.toNat ≤ 8) &&
  limitsInRange s.gradeTable.face1 && limitsInRange s.gradeTable.face2 && limitsInRange s.gradeTable.back &&
  limitsInRange s.gradeTable.core &&
  l.warmUpTime != 0 && l.parkTime != 0 && decide (l.presenceInvert.toNat ≤ 1) &&
  decide (1 ≤ l.watermark.toNat ∧ l.watermark.toNat ≤ 16)

/-- R178 test 5; the sums are plain numbers. -/
def distancesOrdered (s : Shared) : Bool :=
  decide (s.qualification.toNat < s.bridge.toNat) && decide (s.qualification.toNat ≤ s.attachWindow.toNat) &&
  decide (s.overlength.toNat + s.lag.toNat + s.attachWindow.toNat + s.qualification.toNat ≤ s.decisionDistance.toNat) &&
  decide (s.decisionDistance.toNat < s.gateDistance.toNat)

/-- R144: the limits of one grade are at or below those of the next, for each class and each measure. -/
def gradeAtOrBelow (g h : PerClass Limits) : Bool :=
  classes.all fun c =>
    decide ((g.get c).count.toNat ≤ (h.get c).count.toNat) && decide ((g.get c).largest.toNat ≤ (h.get c).largest.toNat) &&
    decide ((g.get c).aggregate.toNat ≤ (h.get c).aggregate.toNat)

/-- R178 test 6. -/
def gradeTableOrdered (t : GradeTable) : Bool :=
  gradeAtOrBelow t.face1 t.face2 && gradeAtOrBelow t.face2 t.back && gradeAtOrBelow t.back t.core

/-- R178, tests 3 to 6: the first test that fails gives the reason. -/
def sectionsFault (checkWord : BitVec 16) (sections : List Byte) : Option FaultReason :=
  let b := sectionBytes sections
  let s := readShared b
  if check16 (byteBits b) ≠ checkWord then some .check
  else if !fieldsInRange s (readLocal b) then some .range
  else if !distancesOrdered s then some .order
  else if !gradeTableOrdered s.gradeTable then some .gradeTable
  else none

/-! ## Answers of the result port (R195) -/

/-- R195: the commands of the result port; `unknown` stands for every code that names none. -/
inductive PortCommand where
  | readResult
  | readStatus
  | readCause
  | requestPurge
  | requestRoll
  | unknown
  deriving DecidableEq, Repr

/-- R195. -/
def PortCommand.ofCode (code : Byte) : PortCommand :=
  match code.toNat with
  | 1 => .readResult
  | 2 => .readStatus
  | 3 => .readCause
  | 4 => .requestPurge
  | 5 => .requestRoll
  | _ => .unknown

/-- R195: how many argument bytes a command takes. -/
def PortCommand.argumentBytes (c : PortCommand) : Nat :=
  match c with
  | .requestPurge => 3
  | .readResult => 0
  | .readStatus => 0
  | .readCause => 0
  | .requestRoll => 0
  | .unknown => 0

/-- R183, R195: the command that the bytes of a transaction give when the last of them arrives: the command byte, then every
argument byte that the command takes. -/
def commandTaken (bytes : List Byte) : Option Instr :=
  match bytes with
  | [] => none
  | code :: arguments =>
    let command := PortCommand.ofCode code
    if arguments.length = command.argumentBytes then
      some (match command with
        | .readResult => .readResult
        | .readStatus => .readStatus
        | .readCause => .readCause
        | .requestPurge => .requestPurge (byteAt arguments 0) (wordAt arguments 1)
        | .requestRoll => .requestRoll
        | .unknown => .unknownCommand code)
    else none

/-- A two-byte field, most significant byte first. -/
def wordBytes (v : BitVec 16) : List Byte := [v.extractLsb' 8 8, v.extractLsb' 0 8]

/-- R195: the two sheet flag bytes. -/
def SheetFlags.bytes (f : SheetFlags) : List Byte :=
  [BitVec.ofNat 8 (bitsToNat [f.incomplete, f.blind, f.disputed, f.overlength, f.late, f.unmeasured, f.purged, f.undecided]),
    BitVec.ofNat 8 (bitsToNat [f.gateBusy, false, false, false, false, false, false, false])]

/-- R195: the 30 bytes of a result record. -/
def ResultRecord.bytes (r : ResultRecord) : List Byte :=
  wordBytes r.seq ++ wordBytes (r.refPos.extractLsb' 16 16) ++ wordBytes (r.refPos.extractLsb' 0 16) ++
    [BitVec.ofNat 8 r.outcome.code] ++ r.flags.bytes ++
    (classes.flatMap fun c => (r.figures.get c).1 :: wordBytes ((r.figures.get c).2.setWidth 16)) ++
    wordBytes (match r.moisture with
      | some m => m.setWidth 16
      | none => 65535#16) ++
    [r.lost]

/-- R195: presence byte and record; all 0 after an empty marker. -/
def readResultAnswer (fifo : List ResultRecord) : List Byte :=
  match fifo with
  | r :: _ => 1#8 :: r.bytes
  | [] => List.replicate 31 0#8

/-- R195: codes of the status answer. -/
def NodeState.code (n : NodeState) : Byte :=
  match n with
  | .loading => 0
  | .configFault => 1
  | .joining => 2
  | .running => 3
  | .mismatch => 4

def FaultReason.code (r : Option FaultReason) : Byte :=
  match r with
  | none => 0
  | some .marker => 1
  | some .header => 2
  | some .check => 3
  | some .range => 4
  | some .order => 5
  | some .gradeTable => 6
  | some .duplicateIndex => 7

def LineState.code (l : LineState) : Byte :=
  match l with
  | .off => 0
  | .idle => 1
  | .opening => 2
  | .inRound => 3
  | .guard => 4
  | .mute => 5
  | .breaking => 6

def ProbeState.code (p : ProbeState) : Byte :=
  match p with
  | .off => 0
  | .warming => 1
  | .ready => 2
  | .sampling => 3
  | .parked => 4

/-- R195: index k in bit k. -/
def peerMapByte (peers : Eight (Option Nat)) : Byte :=
  BitVec.ofNat 8 (bitsToNat (peers.toList.reverse.map Option.isSome))

/-- R186, R195: the seven status bytes; the fault reason is given in CONFIG_FAULT only. -/
def statusAnswer (st : Station) : List Byte :=
  [st.start.node.code, FaultReason.code (if st.start.node = .configFault then st.start.fault else none), st.line.state.code,
    peerMapByte st.engine.peers, BitVec.ofNat 8 st.table.length, st.probe.state.code, BitVec.ofNat 8 st.port.fifo.length]

/-- R187, R195: answers of the REQUEST commands. -/
inductive RequestAnswer where
  | accepted
  | busy
  | refused
  deriving DecidableEq, Repr

def RequestAnswer.code (a : RequestAnswer) : Byte :=
  match a with
  | .accepted => 1
  | .busy => 2
  | .refused => 3

end Sys2Proof.Machine
end

