-- ==== Sys2Proof/Machine/Ops.lean ====
section
/-! DEFINITION. The named operations the blocks share: modular order, stored compares, the request set, access to records,
and the outputs. -/

namespace Sys2Proof.Machine

/-! ## Order of positions and sequence numbers (chapter 0) -/

/-- "Position A is at or after position B." -/
def atOrAfter (a b : Pos) : Bool := decide ((a - b).toNat < 2147483648)

/-- "A is after B." -/
def isAfter (a b : Pos) : Bool := atOrAfter a b && a != b

/-- The closed range of positions [lo, hi]: at or after `lo`, and at or before `hi`. DESIGN CHOICE (log 34): "`p` is at or before
`hi`" is read as "`hi` is at or after `p`"; at a difference of exactly 2 147 483 648, where the Conventions leave "at or before"
open, `p` is not in the range. -/
def inRange (p lo hi : Pos) : Bool := atOrAfter p lo && atOrAfter hi p

/-- One sequence number is older than another. -/
def olderSeq (a b : Seq) : Bool := a != b && decide ((b - a).toNat < 32768)

/-- The oldest of some sequence numbers: the one older than every other. Where the numbers span so much of the range that
none is, the spec states no oldest, and which of them it is is a free value (log 18). -/
def oldestSeq (l : List Seq) : Option Seq :=
  match l.find? fun s => l.all fun x => x == s || olderSeq s x with
  | some s => some s
  | none => l[Config.freeOldest l % l.length]?

/-- A distance of the configuration as a number of counts of a position. -/
def counts {w : Nat} (v : BitVec w) : Pos := BitVec.ofNat 32 v.toNat

/-- A saturating sum in a field of width `w`. -/
def satAdd {w : Nat} (a : BitVec w) (b : Nat) : BitVec w := BitVec.ofNat w (min (2 ^ w - 1) (a.toNat + b))

/-! ## The configuration as the blocks see it -/

/-- What the blocks would read before a configuration is loaded; no rule reads it then (log 30). -/
def Shared.unloaded : Shared :=
  let l : PerClass Limits := PerClass.fill ⟨0, 0, 0⟩
  { lineRate := 0, attachWindow := 0, qualification := 0, bridge := 0, overlength := 0, lag := 0, decisionDistance := 0,
    gateDistance := 0, gateWindow := 0, scanPitch := 0, bandWidth := 0, mergeTolerance := 0, reverseLimit := 0,
    rollPeriod := 0, samplePitch := 0, settleTime := 0, redryLimit := 0, fullBandCount := 0, gradeTable := ⟨l, l, l, l⟩,
    binMap := Eight.fill 0 }

def Local.unloaded : Local :=
  { trim := 0, warmUpTime := 0, parkTime := 0, presenceInvert := 0, enableMask := 0, watermark := 0 }

/-- The shared section of the loaded configuration. -/
def Station.shared (st : Station) : Shared :=
  match st.start.config with
  | some c => c.shared
  | none => Shared.unloaded

/-- The local section of the loaded configuration. -/
def Station.loc (st : Station) : Local :=
  match st.start.config with
  | some c => c.loc
  | none => Local.unloaded

/-- The node states from JOINING on, in which the sensor-side blocks work (the table of R174). -/
def NodeState.onLine (n : NodeState) : Bool :=
  match n with
  | .loading => false
  | .configFault => false
  | .joining => true
  | .running => true
  | .mismatch => true

/-- R39: the presence input state, inverted when the local section sets presence invert. -/
def Station.presenceHeld (st : Station) : Bool := st.edge.pin != decide (st.loc.presenceInvert = 1)

/-! ## Stored compares (R35) -/

/-- Whether the counter is at or after a position. -/
def PositionUnit.reached (p : PositionUnit) (pos : Pos) : Bool := atOrAfter p.counter pos

/-- Drop the compare of this purpose, if it is stored. -/
def PositionUnit.drop (id : CompareId) (p : PositionUnit) : PositionUnit :=
  { p with compares := p.compares.filter fun c => c.id != id }

/-- Store a compare of this purpose in place of any earlier one. -/
def PositionUnit.store (id : CompareId) (pos : Pos) (progress : Progress) (p : PositionUnit) : PositionUnit :=
  { p with compares := (p.drop id).compares ++ [⟨id, pos, progress⟩] }

/-- The compare of this purpose, if it is stored. -/
def PositionUnit.find (id : CompareId) (p : PositionUnit) : Option Compare :=
  p.compares.find? fun c => c.id == id

/-- Whether the compare of this purpose has been reached and waits to be taken. -/
def PositionUnit.isDue (id : CompareId) (p : PositionUnit) : Bool :=
  p.compares.any fun c => c.id == id && c.progress == .due

/-- Give the compare of this purpose another progress. -/
def PositionUnit.setProgress (id : CompareId) (progress : Progress) (p : PositionUnit) : PositionUnit :=
  { p with compares := p.compares.map fun c => if c.id = id then { c with progress := progress } else c }

/-- R35: the waiting compares at the counter's position become due. -/
def PositionUnit.markReached (p : PositionUnit) : PositionUnit :=
  { p with compares := p.compares.map fun c =>
      if c.progress = .waiting ∧ c.pos = p.counter then { c with progress := .due } else c }

/-- R37: the waiting compares that a jump from `old` to the counter carries from before to at or after it become due. -/
def PositionUnit.markCrossed (old : Pos) (p : PositionUnit) : PositionUnit :=
  { p with compares := p.compares.map fun c =>
      if c.progress = .waiting ∧ atOrAfter old c.pos = false ∧ p.reached c.pos = true then { c with progress := .due } else c }

/-- R25: the stored compares of a record are dropped. -/
def PositionUnit.dropRecord (seq : Seq) (p : PositionUnit) : PositionUnit :=
  (((p.drop (.empty seq)).drop (.lag seq)).drop (.decision seq)).drop (.gate seq)

def storeCompare (id : CompareId) (pos : Pos) (progress : Progress) (st : Station) : Station :=
  { st with position := st.position.store id pos progress }

def dropCompare (id : CompareId) (st : Station) : Station :=
  { st with position := st.position.drop id }

/-! ## The request set (R111 to R114) -/

/-- Raise a TALLY request: one held is kept, and its mark is clear (R18, R131, R132). -/
def Requests.raiseTally (s : Seq) (q : Requests) : Requests :=
  if q.tally.any (·.subject == s) then
    { q with tally := q.tally.map fun h => if h.subject = s then { h with heldBack := false } else h }
  else { q with tally := q.tally ++ [⟨s, false⟩] }

/-- Raise a VERDICT request if none is held for the subject (R20, R22); one held is kept as it is (R112). -/
def Requests.raiseVerdict (s : Seq) (heldBack : Bool) (q : Requests) : Requests :=
  if q.verdict.any (·.subject == s) then q else { q with verdict := q.verdict ++ [⟨s, heldBack⟩] }

/-- Withdraw or serve the TALLY request for a subject. -/
def Requests.dropTally (s : Seq) (q : Requests) : Requests :=
  { q with tally := q.tally.filter fun h => h.subject != s }

/-- Withdraw or serve the VERDICT request for a subject. -/
def Requests.dropVerdict (s : Seq) (q : Requests) : Requests :=
  { q with verdict := q.verdict.filter fun h => h.subject != s }

/-- Set the hold mark of the TALLY request for a subject, if one is held. -/
def Requests.markTally (s : Seq) (heldBack : Bool) (q : Requests) : Requests :=
  { q with tally := q.tally.map fun h => if h.subject = s then { h with heldBack := heldBack } else h }

/-- Set the hold mark of the VERDICT request for a subject, if one is held. -/
def Requests.markVerdict (s : Seq) (heldBack : Bool) (q : Requests) : Requests :=
  { q with verdict := q.verdict.map fun h => if h.subject = s then { h with heldBack := heldBack } else h }

/-- A set of ONE requests; with none left there is no PURGE request. -/
def PurgeSet.ofOnes (l : List Seq) : PurgeSet := if l.isEmpty then .none else .ones l

/-- The subjects of the ONE requests held. -/
def PurgeSet.subjects (p : PurgeSet) : List Seq :=
  match p with
  | .ones l => l
  | _ => []

/-- Withdraw the ONE request for a subject (R114). -/
def PurgeSet.dropOne (s : Seq) (p : PurgeSet) : PurgeSet :=
  match p with
  | .none => .none
  | .all => .all
  | .opened => .opened
  | .ones l => PurgeSet.ofOnes (l.filter (· != s))

/-- R25: every request held for a sequence number is withdrawn. -/
def Requests.dropSubject (s : Seq) (q : Requests) : Requests :=
  { ((q.dropTally s).dropVerdict s) with purge := q.purge.dropOne s }

/-- R187: the scopes of REQUEST PURGE. -/
inductive PurgeScope where
  | all
  | opened
  | one (subject : Seq)
  deriving DecidableEq, Repr

/-- R113: a PURGE request is taken into the set, or found BUSY. -/
def PurgeSet.take (scope : PurgeScope) (p : PurgeSet) : PurgeSet × RequestAnswer :=
  match scope, p with
  | .all, _ => (.all, .accepted)
  | .opened, .none => (.opened, .accepted)
  | .opened, .all => (.all, .accepted)
  | .opened, .opened => (.opened, .accepted)
  | .opened, .ones l => (.ones l, .busy)
  | .one s, .none => (.ones [s], .accepted)
  | .one _, .all => (.all, .accepted)
  | .one _, .opened => (.opened, .busy)
  | .one s, .ones l =>
    if s ∈ l then (.ones l, .accepted)
    else if l.length < Config.purgeOneCapacity then (.ones (l ++ [s]), .accepted)
    else (.ones l, .busy)

/-- Change the request set of the station. -/
def withRequests (f : Requests → Requests) (st : Station) : Station :=
  { st with engine := { st.engine with requests := f st.engine.requests } }

def raiseOpen (st : Station) : Station := withRequests (fun q => { q with opening := true }) st

def raiseRoll (st : Station) : Station := withRequests (fun q => { q with roll := true }) st

/-- R112, R137: a ONE request raised while a round is in flight waits for the next opening. One for the same subject that counted
at the opening and was withdrawn since is another request, so the subject counts in that round no longer. -/
def waitForOpening (scope : PurgeScope) (st : Station) : Station :=
  match scope with
  | .all => st
  | .opened => st
  | .one s =>
    if s ∈ st.engine.requests.purge.subjects then st
    else { st with line := { st.line with round := st.line.round.map fun r =>
      { r with counted := { r.counted with purge := r.counted.purge.dropOne s } } } }

/-- R112, R113: a PURGE request is raised. -/
def raisePurge (scope : PurgeScope) (st : Station) : Station :=
  withRequests (fun q => { q with purge := (q.purge.take scope).1 }) (waitForOpening scope st)

/-! ## Records -/

/-- The record with a sequence number, if the table holds one. -/
def Station.record (st : Station) (seq : Seq) : Option Record := st.table.find? fun r => r.seq == seq

/-- The newest record: the last in the table (R1). -/
def Station.newest (st : Station) : Option Record := st.table.getLast?

/-- The record whose own band is OPEN, if there is one (at most one: R12). -/
def Station.openRecord (st : Station) : Option Record := st.table.find? fun r => r.band.state == .opened

/-- Change the record with a sequence number. -/
def updateRecord (seq : Seq) (f : Record → Record) (st : Station) : Station :=
  { st with table := st.table.map fun r => if r.seq = seq then f r else r }

/-- Change the own band of a record. -/
def updateBand (seq : Seq) (f : Band → Band) (st : Station) : Station :=
  updateRecord seq (fun r => { r with band := f r.band }) st

/-- Change every GATHERING record (R21). -/
def updateGathering (f : Record → Record) (st : Station) : Station :=
  { st with table := st.table.map fun r => if r.phase = .gathering then f r else r }

/-! ## Outputs; every output is released while reset holds the station (R172) -/

/-- The three levels of the probe excite output (R74). -/
inductive Excite where
  | released
  | bias
  | excitation
  deriving DecidableEq, Repr

/-- R74. -/
def ProbeState.excite (p : ProbeState) : Excite :=
  match p with
  | .off => .released
  | .warming => .bias
  | .ready => .bias
  | .sampling => .excitation
  | .parked => .released

def Station.probeExcite (st : Station) : Excite :=
  if st.heldInReset then .released else st.probe.state.excite

/-- R163: the bin select output, 0 when released. -/
def Station.binSelect (st : Station) : BitVec 3 :=
  match st.outlet.window with
  | some w => if st.heldInReset then 0 else w.bin
  | none => 0

/-- R191: whether the attention line is driven. -/
def Station.attentionDriven (st : Station) : Bool := !st.heldInReset && st.port.attention

/-- R34, R56: whether the scan trigger line is driven: in a pulse and in the restart mark, not in the released time after
either. -/
def Station.scanTriggerDriven (st : Station) : Bool :=
  !st.heldInReset && (st.position.triggerLine == .pulse || st.position.triggerLine == .mark)

/-- R175: whether select of the configuration port is driven. -/
def Station.configSelectDriven (st : Station) : Bool := !st.heldInReset && st.start.readPos.isSome

/-- R175: whether the clock of the configuration port runs, at 1 MHz: through the whole read. -/
def Station.configClockRuns (st : Station) : Bool := st.configSelectDriven

/-- R175: the bytes that the station sends on data out of the configuration port before the byte of the image that is next to
be read; none later in the read, and none outside it. -/
def Station.configDataOut (st : Station) : List Byte :=
  if st.configSelectDriven ∧ st.start.readPos = some 0 then configInstruction else []

/-- R183: the level of data out of the result port at clock edge `n` of the answer, the first being edge 0: the answer's bits,
most significant first, then ones; `none` where data out is released, which it is while select is high. -/
def Station.resultDataOut (st : Station) (n : Nat) : Option Bool :=
  if st.heldInReset = false ∧ st.port.selected = true then some ((byteBits st.port.answer).getD n true) else none

/-! ## Running a command -/

/-- A command acts on the station only while reset does not hold it (R172: no event is taken). -/
def live (s : State) (f : Station → Station) : Host.Outcome State Fault Refusal :=
  .next (if s.station.heldInReset then s else { s with station := f s.station })

/-- A command that acts whether or not reset holds the station: the supply's own events, and the levels of input pins. -/
def always (s : State) (f : Station → Station) : Host.Outcome State Fault Refusal :=
  .next { s with station := f s.station }

end Sys2Proof.Machine
end

