-- ==== Sys2Proof/Machine/Grading.lean ====
section
/-! DEFINITION. The Grading Unit: the sheet tally, boundary merging and the local verdict (chapter 7). -/

namespace Sys2Proof.Machine

/-- The figures of one class in a sheet tally (R146); they fit the ranges 0 to 255, 0 to 4095 and 0 to 65 535. -/
structure TallyFigures where
  count : Nat
  largest : Nat
  aggregate : Nat
  deriving DecidableEq, Repr

/-- The sheet tally of a record (R145, R146). -/
structure SheetTally where
  figures : PerClass TallyFigures
  moisture : Option (BitVec 10)
  deriving DecidableEq, Repr

/-- R146: the sums over the stored CLOSED entries, before merging. -/
def sumFigures (ss : List Summary) (c : DefectClass) : TallyFigures :=
  { count := min 255 (ss.map fun s => (s.figures.get c).count.toNat).sum
    largest := (ss.map fun s => (s.figures.get c).largest.toNat).foldl max 0
    aggregate := min 65535 (ss.map fun s => (s.figures.get c).aggregate.toNat).sum }

/-- R146: the greatest max moisture among the entries that have one. -/
def maxMoisture (ss : List Summary) : Option (BitVec 10) :=
  (ss.filterMap (·.moisture)).foldl (fun m v => match m with
    | none => some v
    | some u => if u < v then some v else some u) none

/-! ## Boundary merging (R148 to R151) -/

/-- R149: two along ranges overlap within T; the sums are plain numbers. -/
def overlaps (tolerance : Nat) (a b : BoundaryRecord) : Bool :=
  decide (a.alongStart.toNat ≤ b.alongEnd.toNat + tolerance) && decide (b.alongStart.toNat ≤ a.alongEnd.toNat + tolerance)

/-- R149: a record of band k that is taken as a source. -/
def BoundaryRecord.isSource (r : BoundaryRecord) : Bool := r.side == .right || r.side == .both

/-- R149: a record of band k + 1 that is searched. -/
def BoundaryRecord.isTarget (r : BoundaryRecord) : Bool := r.side == .left || r.side == .both

/-- A chain in the making, as seen at its last record: its class, the records it has, the sum and the greatest of their
extents (R150, R151). -/
structure Chain where
  cls : DefectClass
  length : Nat
  total : Nat
  greatest : Nat
  deriving DecidableEq, Repr

/-- A boundary record that no chain has reached from the left. -/
def Chain.start (r : BoundaryRecord) : Chain := ⟨r.cls, 1, r.extent.toNat, r.extent.toNat⟩

/-- The chain extended by the record its last record is linked to. -/
def Chain.extend (ch : Chain) (r : BoundaryRecord) : Chain :=
  ⟨ch.cls, ch.length + 1, ch.total + r.extent.toNat, max ch.greatest r.extent.toNat⟩

/-- R149: the place in band k + 1's list of the first record not yet matched that the source matches. -/
def findMatch (tolerance : Nat) (source : BoundaryRecord) (used : List Nat) (targets : List BoundaryRecord) : Option Nat :=
  (targets.zipIdx.find? fun (t, j) =>
    t.isTarget && !used.contains j && t.cls == source.cls && overlaps tolerance source t).map (·.2)

/-- R149: the walk over band k's list. Each source that finds a record is linked to it; the rest end their chains. The
result: the links as (place in band k + 1, chain so far), and the chains that end at band k. -/
def walkBoundary (tolerance : Nat) (targets : List BoundaryRecord) :
    List (BoundaryRecord × Chain) → List Nat → List (Nat × Chain) × List Chain
  | [], _ => ([], [])
  | (r, ch) :: rest, used =>
    match (if r.isSource then findMatch tolerance r used targets else none) with
    | some j =>
      let (links, ended) := walkBoundary tolerance targets rest (j :: used)
      ((j, ch) :: links, ended)
    | none =>
      let (links, ended) := walkBoundary tolerance targets rest used
      (links, ch :: ended)

/-- Each record of the next band with the chain that reaches it: an extended one where it is linked, else its own start. -/
def carryChains (links : List (Nat × Chain)) (next : List BoundaryRecord) : List (BoundaryRecord × Chain) :=
  next.zipIdx.map fun (r, j) =>
    match links.find? (·.1 == j) with
    | some (_, ch) => (r, ch.extend r)
    | none => (r, Chain.start r)

/-- The boundary records of an entry that take part in merging: those of a CLOSED entry without the overflow marker
(R148). `none` where the boundaries of the band are not merged. -/
def mergeList (e : Option Entry) : Option (List BoundaryRecord) :=
  match e with
  | some (.closed s) => if s.overflow then none else some s.boundary
  | _ => none

/-- R148, R150: the boundaries in ascending order. `carried` are the records of the band before, each with its chain so
far, or `none` where that band does not merge. The result lists every chain, single records included. -/
def mergeBands (tolerance : Nat) : List (Option Entry) → Option (List (BoundaryRecord × Chain)) → List Chain
  | [], carried => (carried.getD []).map (·.2)
  | e :: rest, carried =>
    match mergeList e, carried with
    | some next, some before =>
      let (links, ended) := walkBoundary tolerance next before []
      ended ++ mergeBands tolerance rest (some (carryChains links next))
    | some next, none => mergeBands tolerance rest (some (carryChains [] next))
    | none, _ => (carried.getD []).map (·.2) ++ mergeBands tolerance rest none

/-- R150: the chains of two or more records, over the boundaries 0 to 6. -/
def chains (tolerance : Nat) (entries : Eight (Option Entry)) : List Chain :=
  (mergeBands tolerance entries.toList none).filter fun ch => decide (2 ≤ ch.length)

/-- R143: SPLIT and RESIN_STREAK are linear. -/
def DefectClass.linear (c : DefectClass) : Bool := c == .split || c == .resinStreak

/-- R151: the extent of a chain. -/
def Chain.extent (ch : Chain) : Nat := if ch.cls.linear then min 4095 ch.total else ch.greatest

/-- R150: a class's count lowered by n - 1. R150 says that no count falls below 0; where one would, it is a free value in
the range of a count (log 19). -/
def lowerCount (count length : Nat) : Nat :=
  if length - 1 ≤ count then count - (length - 1) else Config.freeCount count length % 256

/-- R150, R151: a chain lowers its class's count and may raise its largest extent. -/
def applyChain (t : PerClass TallyFigures) (ch : Chain) : PerClass TallyFigures :=
  let f := t.get ch.cls
  t.set ch.cls { f with count := lowerCount f.count ch.length, largest := max f.largest ch.extent }

/-- R145 to R151: the sheet tally from the stored entries. -/
def sheetTally (tolerance : Nat) (entries : Eight (Option Entry)) : SheetTally :=
  let ss := closedSummaries entries
  { figures := (chains tolerance entries).foldl applyChain (PerClass.tabulate (sumFigures ss))
    moisture := maxMoisture ss }

/-! ## The local verdict (R152 to R157) -/

/-- R144: a graded grade is met when all eighteen limits are met. -/
def meetsGrade (t : SheetTally) (g : PerClass Limits) : Bool :=
  classes.all fun c =>
    decide ((t.figures.get c).count ≤ (g.get c).count.toNat) && decide ((t.figures.get c).largest ≤ (g.get c).largest.toNat) &&
    decide ((t.figures.get c).aggregate ≤ (g.get c).aggregate.toNat)

/-- R156: the highest graded grade met, in the order FACE1, FACE2, BACK, CORE. -/
def highestGrade (g : GradeTable) (t : SheetTally) : Option Verdict :=
  if meetsGrade t g.face1 then some .face1
  else if meetsGrade t g.face2 then some .face2
  else if meetsGrade t g.back then some .back
  else if meetsGrade t g.core then some .core
  else none

/-- R152: the first line that applies. -/
def localVerdict (sh : Shared) (flags : SheetFlags) (closedEntries : Nat) (t : SheetTally) : Verdict :=
  if flags.incomplete || flags.blind || flags.overlength then .manual
  else match t.moisture with
    | none => .manual
    | some m =>
      if sh.redryLimit.toNat < m.toNat then .redry
      else match highestGrade sh.gradeTable t with
        | none => .reject
        | some grade => if closedEntries < sh.fullBandCount.toNat then .strip else grade

/-- R153, R154: the tally, the flags of the band flags, UNMEASURED, and the local verdict set in the record. -/
def gradeRecord (sh : Shared) (r : Record) : Record :=
  let t := sheetTally sh.mergeTolerance.toNat r.entries
  let flags := r.flags.withBandFlags r.entries
  { r with
    flags := { flags with unmeasured := flags.unmeasured || t.moisture.isNone }
    verdict := some (localVerdict sh flags (closedSummaries r.entries).length t) }

/-- R87, R160, R168: the result record of a removed record; its lost count is filled by the result port. Every figure in it, the max
moisture among them, is of the stored entries: an own band still OPEN or CLOSING adds nothing. DESIGN CHOICE (log 33): R86 and the
example of section 4.9 have the max moisture of such a band carried, and one record has one max moisture. -/
def resultOf (sh : Shared) (outcome : Verdict) (r : Record) : ResultRecord :=
  let t := sheetTally sh.mergeTolerance.toNat r.entries
  { seq := r.seq
    refPos := r.refPos
    outcome := outcome
    flags := r.flags.withBandFlags r.entries
    figures := PerClass.tabulate fun c => (BitVec.ofNat 8 (t.figures.get c).count, BitVec.ofNat 12 (t.figures.get c).largest)
    moisture := t.moisture
    lost := 0 }

end Sys2Proof.Machine
end

