-- ==== Sys2Proof/Machine/Bands.lean ====
section
/-! DEFINITION. What several blocks do together at a sheet record: completeness, the scan head, closing, blanking, removal,
dispatch, attachment and creation (chapters 1, 2, 3 and 8). -/

namespace Sys2Proof.Machine

/-! ## Completeness (R20) -/

/-- R20: every index in the peer map has a stored entry. -/
def recordComplete (peers : Eight (Option Nat)) (r : Record) : Bool :=
  indices.all fun k => (peers.get k).isNone || (r.entries.get k).isSome

/-- R20: the completeness test of one record. `own` says that it is made when the record's own entry is stored: the TALLY
request is then kept, and VERDICT is raised held back. -/
def completeRecord (own : Bool) (seq : Seq) (st : Station) : Station :=
  match st.record seq with
  | none => st
  | some r =>
    if r.phase = .gathering ∧ recordComplete st.engine.peers r = true then
      let graded := fun (x : Record) => if x.frozen then x else gradeRecord st.shared x
      let st1 := updateRecord seq (fun x => { graded x with phase := .tallied }) st
      let st2 := if own then st1 else withRequests (Requests.dropTally seq) st1
      if r.frozen then st2 else withRequests (Requests.raiseVerdict seq own) st2
    else st

/-- R20: the test for every GATHERING record, at the completion of a TALLY or ROLL round. -/
def completeAll (st : Station) : Station :=
  (st.table.map (·.seq)).foldl (fun s seq => completeRecord false seq s) st

/-- R6: an entry is stored in a record; an UNKNOWN entry sets BLIND. -/
def Record.storeEntry (k : Index) (e : Entry) (r : Record) : Record :=
  { r with
    entries := r.entries.set k (some e)
    flags := if e = .unknown then { r.flags with blind := true } else r.flags }

/-- R14, R18: the own band ends in `state`, with its own entry stored, TALLY raised and completeness tested, in this
order. -/
def settleBand (state : BandState) (entry : Record → Entry) (seq : Seq) (st : Station) : Station :=
  completeRecord true seq
    (withRequests (Requests.raiseTally seq)
      (updateRecord seq (fun r => { r.storeEntry st.start.index (entry r) with band := { r.band with state := state } }) st))

/-! ## Position mapping and folding of reports (R60, R69 to R72) -/

/-- R60, R61: the mapped position of a report's line, or none for a stale one. -/
def mappedPosition (p : PositionUnit) (pitch : Byte) (line : BitVec 16) : Option Pos :=
  let difference := (p.triggerCount - line).toNat
  if difference < 32768 then some (p.triggerPos - BitVec.ofNat 32 (difference * pitch.toNat)) else none

/-- R70: the side a report touches, by the band width. -/
def reportSide (bandWidth : Nat) (r : Report) : Option Side :=
  let right := decide (bandWidth - 1 ≤ r.acrossEnd.toNat)
  match r.acrossStart == 0, right with
  | true, false => some .left
  | false, true => some .right
  | true, true => some .both
  | false, false => none

/-- R71: the boundary record of a report with mapped position `p` in a record with reference position `refPos`. -/
def boundaryOf (sh : Shared) (refPos p : Pos) (side : Side) (r : Report) : BoundaryRecord :=
  let alongStart : BitVec 16 := if atOrAfter p refPos then BitVec.ofNat 16 (min 65535 (p - refPos).toNat) else 0
  { cls := r.cls
    side := side
    alongStart := alongStart
    alongEnd := satAdd alongStart (r.alongLength.toNat * sh.scanPitch.toNat)
    extent := r.extent }

/-- R69: the class figures after one more report. -/
def ClassFigures.fold (f : ClassFigures) (extent : BitVec 12) : ClassFigures :=
  { count := satAdd f.count 1
    largest := if f.largest < extent then extent else f.largest
    aggregate := satAdd f.aggregate extent.toNat }

/-- R69 to R72: a report is folded into a summary. -/
def Summary.fold (sh : Shared) (refPos p : Pos) (r : Report) (s : Summary) : Summary :=
  let s1 := { s with figures := s.figures.set r.cls ((s.figures.get r.cls).fold r.extent) }
  match reportSide sh.bandWidth.toNat r with
  | none => s1
  | some side =>
    if s.boundary.length < Config.boundaryCapacity then
      { s1 with boundary := s.boundary ++ [boundaryOf sh refPos p side r] }
    else { s1 with overflow := true }

/-! ## The closing conditions (R17) -/

/-- R17, scan head: the FIFO is empty, or the report at its head maps to a position after the trail. -/
def scanHeadClear (st : Station) (trail : Pos) : Bool :=
  match st.scan.fifo with
  | [] => true
  | rep :: _ =>
    match mappedPosition st.position st.shared.scanPitch rep.line with
    | some p => isAfter p trail
    | none => false

/-- R17: lag, scan head and probe conditions of a CLOSING band. -/
def closingHolds (st : Station) (r : Record) : Bool :=
  r.band.state == .closing && r.band.lagPassed && scanHeadClear st (r.band.trail.getD 0) &&
    !(st.probe.target == some (.held r.seq))

/-- R17, R18: the closing conditions of one record are tested, and its band closes where all hold. -/
def testClosing (seq : Seq) (st : Station) : Station :=
  match st.record seq with
  | none => st
  | some r =>
    if closingHolds st r then settleBand .closed (fun x => .closed x.band.summary) seq st else st

/-- R62: the closing conditions of every CLOSING band, oldest record first. -/
def testAllClosing (st : Station) : Station :=
  (st.table.map (·.seq)).foldl (fun s seq => testClosing seq s) st

/-- How many own bands are CLOSING. -/
def Station.closingCount (st : Station) : Nat := st.table.countP fun r => r.band.state == .closing

/-! ## The head of the scan FIFO (R62 to R67) -/

/-- R64, cases 1 and 2: the record a report with mapped position `p` is assigned to. The end of the range of case 2 is read as in
`inRange` (log 34). -/
def assignee (st : Station) (p : Pos) : Option Record :=
  let case1 := st.table.find? fun r => r.band.state == .opened && atOrAfter p (r.band.lead.getD 0)
  let case2 := st.table.find? fun r =>
    r.band.state == .closing && inRange p (r.band.lead.getD 0) (r.band.trail.getD 0)
  match case1 with
  | some r => some r
  | none => case2

/-- R64, case 3: a rise or an unattached pending edge holds the head. -/
def headWaits (st : Station) (p : Pos) : Bool :=
  match st.edge.pending with
  | some e => atOrAfter p e.rise
  | none => false

/-- R64, case 4: every record whose CLOSED band holds `p` gets LATE; the range is that of `inRange` (log 34). -/
def markLate (p : Pos) (st : Station) : Station :=
  { st with table := st.table.map fun r =>
      if r.band.state = .closed ∧ inRange p (r.band.lead.getD 0) (r.band.trail.getD 0) = true then
        { r with flags := { r.flags with late := true } }
      else r }

/-- The head report leaves the FIFO. -/
def dropHead (st : Station) : Station :=
  { st with scan := { st.scan with fifo := st.scan.fifo.tail, head := none } }

/-- R62, R64: one head take; the second part says whether the head report left. -/
def headTake (st : Station) : Station × Bool :=
  match st.scan.fifo with
  | [] => ({ st with scan := { st.scan with head := none } }, false)
  | rep :: _ =>
    match mappedPosition st.position st.shared.scanPitch rep.line with
    | none => (dropHead st, true)
    | some p =>
      match assignee st p with
      | some r =>
        (dropHead (updateBand r.seq (fun b => { b with summary := b.summary.fold st.shared r.refPos p rep }) st), true)
      | none =>
        if headWaits st p then ({ st with scan := { st.scan with head := some p } }, false)
        else (dropHead (markLate p st), true)

/-- R62: a head take, then the closing test of every CLOSING band; another take where the head left or a band became
CLOSED. The first argument bounds the takes. -/
def headLoop : Nat → Station → Station
  | 0, st => st
  | n + 1, st =>
    let taken := headTake st
    let st2 := testAllClosing taken.1
    if taken.2 || decide (st2.closingCount < taken.1.closingCount) then headLoop n st2 else st2

/-- R62: the chain of head takes at an event. Each take but the last empties a place of the FIFO or closes a band, so the
bound is never reached. -/
def headTakes (st : Station) : Station := headLoop (st.scan.fifo.length + st.table.length + 1) st

/-! ## Blanking (R48, R49) -/

/-- The pending edge is discarded, with its compare, a test that waits for it, and the overrun mark (R59). -/
def discardPending (st : Station) : Station :=
  { st with
    position := st.position.drop .qualification
    edge := { st.edge with pending := none, testDeferred := false }
    scan := { st.scan with overrun := st.scan.overrun && st.edge.pending.isNone } }

/-- R49: the blank release compare is taken: the Edge Unit leaves BLANKED for IDLE. -/
def releaseBlank (st : Station) : Station :=
  { st with
    position := st.position.drop .blankRelease
    edge := { st.edge with state := .idle, absence := none } }

/-- R49: the blank release compare follows the start of absence. One already reached is taken at once, or kept while the
Edge Unit is frozen (R35, R51). -/
def followAbsence (st : Station) : Station :=
  match st.edge.absence with
  | none => dropCompare .blankRelease st
  | some a =>
    let pos := a + counts st.shared.bridge
    if st.position.reached pos then
      if st.edge.frozen then storeCompare .blankRelease pos .kept st else releaseBlank st
    else storeCompare .blankRelease pos .waiting st

/-- R48, R49: entry to BLANKED. -/
def enterBlanked (st : Station) : Station :=
  let st1 := dropCompare .bridging (discardPending st)
  if st.edge.state = .blanked then st1
  else
    let start :=
      if st.presenceHeld then none
      else if st.edge.state = .falling then (st.edge.fall <|> some st.position.counter)
      else some st.position.counter
    followAbsence { st1 with edge := { st1.edge with state := .blanked, fall := none, absence := start } }

/-! ## The own band becomes CLOSING (R15 to R17) -/

/-- R15, R16: the own band becomes CLOSING with this trail; the overlength and sample compares are dropped, the lag compare
is stored or its condition already holds, and the closing conditions are tested. -/
def enterClosing (seq : Seq) (trail : Pos) (st : Station) : Station :=
  let pos := trail + counts st.shared.lag
  let passed := st.position.reached pos
  let st1 := updateBand seq (fun b => { b with state := .closing, trail := some trail, lagPassed := passed })
    (dropCompare .overlength (dropCompare .sample st))
  testClosing seq (if passed then st1 else storeCompare (.lag seq) pos .waiting st1)

/-- R16, R47: the OPEN band is forced closed at lead + M, and the Edge Unit is blanked. -/
def forceOverlength (st : Station) : Station :=
  match st.openRecord with
  | none => st
  | some r =>
    let flagged := updateBand r.seq (fun b => { b with summary := { b.summary with overlength := true } }) st
    headTakes (enterClosing r.seq (r.band.lead.getD 0 + counts st.shared.overlength) (enterBlanked flagged))

/-! ## Removal and dispatch (R19, R25, R164 to R168) -/

/-- R86: a sample in flight for the record loses its target. -/
def loseTarget (seq : Seq) (st : Station) : Station :=
  { st with probe := { st.probe with target := if st.probe.target = some (.held seq) then some .lost else st.probe.target } }

/-- R25: a record leaves the table with this outcome and these further sheet flags: requests withdrawn, compares dropped, the
effects of R19, the result record offered. The head take of R62 is the caller's. -/
def removeRecord (outcome : Verdict) (mark : SheetFlags → SheetFlags) (seq : Seq) (st : Station) : Station :=
  match st.record seq with
  | none => st
  | some r =>
    let st1 : Station :=
      { st with
        table := st.table.filter fun x => x.seq != seq
        position := st.position.dropRecord seq
        engine := { st.engine with requests := st.engine.requests.dropSubject seq } }
    let st2 := if r.band.state = .opened then enterBlanked (dropCompare .overlength (dropCompare .sample st1)) else st1
    let st3 := loseTarget seq st2
    { st3 with port := st3.port.offer (resultOf st.shared outcome { r with flags := mark r.flags }) }

/-- R166: the gate window closes and the bin select is released. -/
def closeWindow (st : Station) : Station :=
  { st with position := st.position.drop .windowEnd, outlet := { window := none } }

/-- R165: the gate command of a DECIDED record on the outlet station; the second part says whether it is refused with
GATE_BUSY. -/
def gateCommand (r : Record) (outcome : Verdict) (st : Station) : Station × Bool :=
  let bin := st.shared.binMap.get outcome.index
  if bin = 0 then (st, false)
  else match st.outlet.window with
    | some _ => (st, true)
    | none =>
      let endPos := r.gatePos + counts st.shared.gateWindow
      let issued := storeCompare .windowEnd endPos .waiting { st with outlet := { window := some ⟨bin, endPos⟩ } }
      (if st.position.reached endPos then closeWindow issued else issued, false)

/-- R164: the record is dispatched; a head take follows its removal (R62). -/
def dispatch (seq : Seq) (st : Station) : Station :=
  match st.record seq with
  | none => st
  | some r =>
    if r.phase = .decided then
      let outcome := r.outcome.getD .manual
      let commanded := if st.start.outlet then gateCommand r outcome st else (st, false)
      headTakes (removeRecord outcome (fun f => { f with gateBusy := f.gateBusy || commanded.2 }) seq commanded.1)
    else headTakes (removeRecord .manual (fun f => { f with undecided := true }) seq st)

/-! ## Decision and empty compares (R14, R22) -/

/-- R14: the empty compare of a record is taken. -/
def takeEmpty (seq : Seq) (st : Station) : Station :=
  match st.record seq with
  | none => st
  | some r => if r.band.state = .none then settleBand .empty (fun _ => .empty) seq st else st

/-- R22: the decision compare of a record is taken. -/
def takeDecision (seq : Seq) (st : Station) : Station :=
  match st.record seq with
  | none => st
  | some r =>
    let released := withRequests (Requests.markVerdict seq false) st
    match r.phase with
    | .gathering =>
      withRequests (Requests.raiseVerdict seq false)
        (updateRecord seq (fun x => { x with verdict := some .manual, frozen := true, flags := { x.flags with incomplete := true } })
          released)
    | .tallied =>
      withRequests (Requests.raiseVerdict seq false) (updateRecord seq (fun x => { x with frozen := true }) released)
    | .decided => updateRecord seq (fun x => { x with frozen := true }) released

/-- R17: the lag compare of a record is taken: the lag condition holds, and the closing conditions are tested; a head take
follows where the band becomes CLOSED (R62). -/
def takeLag (seq : Seq) (st : Station) : Station :=
  let st1 := updateBand seq (fun b => { b with lagPassed := true }) st
  let st2 := testClosing seq st1
  if st2.closingCount < st1.closingCount then headTakes st2 else st2

/-! ## The sample compare (R80, R81) -/

/-- R80, R81: the first position lead + k × sample pitch, k at least 1, that lies after the counter. -/
def nextSample (counter lead : Pos) (pitch : BitVec 16) : Pos :=
  let passed := if atOrAfter counter lead then (counter - lead).toNat / pitch.toNat else 0
  lead + BitVec.ofNat 32 ((passed + 1) * pitch.toNat)

/-- Store the sample compare of the OPEN band; with none OPEN there is no sample compare (R80). -/
def storeSample (st : Station) : Station :=
  match st.openRecord with
  | none => dropCompare .sample st
  | some r => storeCompare .sample (nextSample st.position.counter (r.band.lead.getD 0) st.shared.samplePitch) .waiting st

/-- R81: a sample falls due for the OPEN band: the next compare is stored, and the sample starts in READY or is skipped. -/
def takeSample (st : Station) : Station :=
  match st.openRecord with
  | none => dropCompare .sample st
  | some r =>
    let st1 := storeSample st
    if st1.probe.state = .ready then
      { st1 with probe := { st1.probe with
          state := .sampling, parkTimer := none, timing := .settle, target := some (.held r.seq) } }
    else st1

/-! ## Attachment (R12, R46, R59, R80) -/

/-- R12: the three conditions under which an edge with rise `e` attaches to the newest record. DESIGN CHOICE (log 34): "e is at or
before P + W" is read as "P + W is at or after e"; the two positions exactly 2 147 483 648 counts apart, where the Conventions of
chapter 0 leave "at or before" open, the edge does not attach. -/
def attaches (st : Station) (e : Pos) (r : Record) : Bool :=
  r.band.state == .none && st.openRecord.isNone && atOrAfter (r.refPos + counts st.shared.attachWindow) e

/-- R12, R59: the own band becomes OPEN with lead the rise; the overrun mark is carried into it and cleared. -/
def openBand (seq : Seq) (e : Pos) (st : Station) : Station :=
  let st1 := updateBand seq (fun b =>
    { b with state := .opened, lead := some e,
             summary := { b.summary with incomplete := b.summary.incomplete || st.scan.overrun } }) st
  { st1 with edge := { st1.edge with pending := none }, scan := { st1.scan with overrun := false } }

/-- R46: the pending edge attaches to the record; the band may close at once. A head take follows (R62). DESIGN CHOICE (log 31):
an overlength compare that is already reached while the Edge Unit is frozen is kept for the resume, as R51 keeps a compare taken
on re-travel or by an alignment; R46 has it taken at once and does not speak of the freeze. -/
def attachEdge (edge : PendingEdge) (seq : Seq) (st : Station) : Station :=
  let limit := edge.rise + counts st.shared.overlength
  let opened := openBand seq edge.rise st
  match edge.fall with
  | none =>
    let sampled := storeSample opened
    if st.position.reached limit then
      if st.edge.frozen then headTakes (storeCompare .overlength limit .kept sampled) else forceOverlength sampled
    else headTakes (storeCompare .overlength limit .waiting sampled)
  | some f =>
    if atOrAfter f limit then
      headTakes (enterClosing seq limit
        (updateBand seq (fun b => { b with summary := { b.summary with overlength := true } }) opened))
    else headTakes (enterClosing seq f opened)

/-- R12: the attachment test of the qualified pending edge: it attaches to the newest record, or OPEN is raised. A test that
waited is no longer waiting (R42). -/
def attachTest (st : Station) : Station :=
  let st := { st with edge := { st.edge with testDeferred := false } }
  match st.edge.pending with
  | none => st
  | some edge =>
    if edge.qualified then
      match st.newest with
      | some r => if attaches st edge.rise r then attachEdge edge r.seq st else raiseOpen st
      | none => raiseOpen st
    else st

/-- R42: a test that waits on a round is made, also at a BREAK (log 35). -/
def deferredTest (st : Station) : Station := if st.edge.testDeferred then attachTest st else st

/-! ## Creation (R10, R11) -/

/-- R10, step 4: a new record. -/
def newRecord (sh : Shared) (seq : Seq) (refPos : Pos) : Record :=
  { seq := seq
    refPos := refPos
    decisionPos := refPos + counts sh.decisionDistance
    gatePos := refPos + counts sh.gateDistance
    phase := .gathering
    band := { state := .none, lead := none, trail := none, lagPassed := false, summary := Summary.zero }
    entries := Eight.fill none
    verdict := none
    frozen := false
    outcome := none
    flags := SheetFlags.clear }

/-- R10 step 2: P is the position result, or the newest record's P where the result lies before it. -/
def creationP (st : Station) (result : Pos) : Pos :=
  match st.newest with
  | none => result
  | some n => if atOrAfter result n.refPos then result else n.refPos

/-- R11: the cases in which a completed OPEN round creates no record. -/
def creationRefused (st : Station) : Bool :=
  let seq := st.engine.nextSeq
  decide (Config.tableCapacity ≤ st.table.length) ||
    (match st.newest with
      | none => false
      | some n => !olderSeq n.seq seq) ||
    st.table.any (·.seq == seq)

/-- R9: a compare of a new record is stored, unless the counter is already there. -/
def storeCreationCompare (id : CompareId) (pos : Pos) (st : Station) : Station :=
  if st.position.reached pos then st else storeCompare id pos .waiting st

/-- R167, R197: the gate compares that have been reached and not yet taken are taken, oldest record first, as GATE_COMPARE
takes them. -/
def takeDueGates (st : Station) : Station :=
  (st.table.map (·.seq)).foldl
    (fun s seq => if s.position.isDue (.gate seq) then dispatch seq (dropCompare (.gate seq) s) else s) st

/-- R10: creation. The compares already reached are taken after the attachment test, in the order empty, decision, gate
(R9); a head take follows the creation (R62). A record whose gate position is already reached is dispatched after every older
record whose gate compare is due, since none of them has a later gate position (R167, R197). -/
def createRecord (result : Pos) (st : Station) : Station :=
  let sh := st.shared
  let seq := st.engine.nextSeq
  let r := newRecord sh seq (creationP st result)
  let emptyPos := r.refPos + counts sh.attachWindow + counts sh.qualification
  let placed : Station :=
    { st with table := st.table ++ [r], engine := { st.engine with nextSeq := seq + 1 } }
  let stored := storeCreationCompare (.gate seq) r.gatePos
    (storeCreationCompare (.decision seq) r.decisionPos (storeCreationCompare (.empty seq) emptyPos placed))
  let tested := headTakes (attachTest stored)
  let st1 := if st.position.reached emptyPos then takeEmpty seq tested else tested
  let st2 := if st.position.reached r.decisionPos then takeDecision seq st1 else st1
  if st.position.reached r.gatePos then dispatch seq (takeDueGates st2) else st2

/-- R11: a refused creation. -/
def refuseCreation (st : Station) : Station :=
  headTakes (raiseCause .tableFull
    (enterBlanked { st with engine := { st.engine with nextSeq := st.engine.nextSeq + 1 } }))

end Sys2Proof.Machine
end

