-- ==== Sys2Proof/Machine/Compares.lean ====
section
/-! DEFINITION. Taking the stored compares: the meaning of each compare, the edge compares kept while the Edge Unit is
frozen, and the order in which several due compares are taken (R35, R37, R51). -/

namespace Sys2Proof.Machine

/-! ## The edge compares -/

/-- R42: a round in flight whose kind contest has not ended, or whose kind is OPEN, makes the attachment test wait. -/
def testWaits (st : Station) : Bool :=
  match st.line.round with
  | none => false
  | some r => r.kind == none || r.kind == some .opening

/-- R42: the qualification compare is taken in RISING. -/
def takeQualification (st : Station) : Station :=
  match st.edge.state, st.edge.pending with
  | .rising, some e =>
    let qualified : Station :=
      { st with edge := { st.edge with state := .present, pending := some { e with qualified := true } } }
    if testWaits st then { qualified with edge := { qualified.edge with testDeferred := true } } else attachTest qualified
  | _, _ => st

/-- R45: the bridging compare is taken in FALLING: the trailing edge goes to the OPEN band, or closes the pending edge. -/
def takeBridging (st : Station) : Station :=
  match st.edge.state, st.edge.fall with
  | .falling, some f =>
    let idle : Station := { st with edge := { st.edge with state := .idle, fall := none } }
    match st.openRecord with
    | some r => headTakes (enterClosing r.seq f idle)
    | none => { idle with edge := { idle.edge with pending := idle.edge.pending.map fun e => { e with fall := some f } } }
  | _, _ => st

/-! ## One compare -/

/-- R35: the block that owns a compare. -/
inductive CompareOwner where
  | edge
  | table
  | probe
  | outlet
  deriving DecidableEq, Repr

def CompareId.owner (id : CompareId) : CompareOwner :=
  match id with
  | .qualification => .edge
  | .bridging => .edge
  | .blankRelease => .edge
  | .overlength => .edge
  | .empty _ => .table
  | .lag _ => .table
  | .decision _ => .table
  | .gate _ => .table
  | .sample => .probe
  | .windowEnd => .outlet

/-- What the owning block does when a compare is taken. -/
def compareEffect (id : CompareId) (st : Station) : Station :=
  match id with
  | .qualification => takeQualification st
  | .bridging => takeBridging st
  | .blankRelease => releaseBlank st
  | .overlength => forceOverlength st
  | .empty seq => takeEmpty seq st
  | .lag seq => takeLag seq st
  | .decision seq => takeDecision seq st
  | .gate seq => dispatch seq st
  | .sample => takeSample st
  | .windowEnd => closeWindow st

/-- R35, R51: a compare is removed and acted on; a compare of the frozen Edge Unit is kept for the resume. -/
def takeCompare (id : CompareId) (st : Station) : Station :=
  if CompareId.owner id = .edge ∧ st.edge.frozen = true then
    { st with position := st.position.setProgress id .kept }
  else compareEffect id (dropCompare id st)

/-- A compare that has been reached and not yet taken is taken; any other is not touched (log 3). -/
def takeDue (id : CompareId) (st : Station) : Station :=
  if st.position.isDue id then takeCompare id st else st

/-! ## Several compares at once -/

/-- The place of a compare's record in the table, oldest first; a compare of no record has place 0 (R167). -/
def recordPlace (st : Station) (id : CompareId) : Nat :=
  let place := fun (seq : Seq) => st.table.findIdx fun r => r.seq == seq
  match id with
  | .empty seq => place seq
  | .lag seq => place seq
  | .decision seq => place seq
  | .gate seq => place seq
  | .qualification => 0
  | .bridging => 0
  | .blankRelease => 0
  | .overlength => 0
  | .sample => 0
  | .windowEnd => 0

/-- The order of purposes at one position where nothing else gives one: R9's order, then the other owners (log 4). -/
def CompareId.rank (id : CompareId) : Nat :=
  match id with
  | .empty _ => 0
  | .lag _ => 1
  | .decision _ => 2
  | .gate _ => 3
  | .qualification => 4
  | .bridging => 5
  | .blankRelease => 6
  | .overlength => 7
  | .sample => 8
  | .windowEnd => 9

/-- The place of a compare's position in the order of positions around the counter, which stands at 2^31. A compare kept while
frozen can lie ahead of the counter, after a backward alignment (R51). -/
def alongTravel (st : Station) (c : Compare) : Nat := (c.pos - st.position.counter + 2147483648#32).toNat

/-- The default order: the earliest position first, then the rank, then the oldest record. -/
def takenBefore (st : Station) (a b : Compare) : Bool :=
  decide (alongTravel st a < alongTravel st b) ||
    (alongTravel st a == alongTravel st b &&
      (decide (CompareId.rank a.id < CompareId.rank b.id) ||
        (CompareId.rank a.id == CompareId.rank b.id && decide (recordPlace st a.id < recordPlace st b.id))))

/-- R37, R167: of one owner, an earlier position goes first, and of two gate compares at one position the older record's. -/
def mustPrecede (st : Station) (a b : Compare) : Bool :=
  CompareId.owner a.id == CompareId.owner b.id &&
    (decide (alongTravel st a < alongTravel st b) ||
      (alongTravel st a == alongTravel st b && CompareId.rank a.id == 3 && CompareId.rank b.id == 3 &&
        decide (recordPlace st a.id < recordPlace st b.id)))

/-- Whether a due compare may be taken next (R37). -/
def mayBeNext (st : Station) (id : CompareId) : Bool :=
  match st.position.find id with
  | none => false
  | some c => c.progress == .due && !st.position.compares.any fun o => o.progress == .due && mustPrecede st o c

/-- The first compare, in the default order, among those with the given progress. -/
def firstCompare (progress : Progress) (st : Station) : Option CompareId :=
  ((st.position.compares.filter (·.progress == progress)).foldl (fun best c => match best with
    | none => some c
    | some b => if takenBefore st c b then some c else some b) (none : Option Compare)).map (·.id)

/-- Take the due compares that an order names, each where R37 lets it be next. -/
def takeOrdered : List CompareId → Station → Station
  | [], st => st
  | id :: rest, st => takeOrdered rest (if mayBeNext st id then takeCompare id st else st)

/-- Take the due compares in the default order; the first argument bounds how many. -/
def takeRest : Nat → Station → Station
  | 0, st => st
  | n + 1, st =>
    match firstCompare .due st with
    | none => st
    | some id => takeRest n (takeCompare id st)

/-- Take every due compare, as the order says and then in the default order (log 4). Taking one makes no other due. -/
def takeAllDue (order : List CompareId) (st : Station) : Station :=
  let st1 := takeOrdered order st
  takeRest st1.position.compares.length st1

/-- R51: the compares kept while frozen are acted on in the order of their positions; at one position in the order of log 4. -/
def actOnKept : Nat → Station → Station
  | 0, st => st
  | n + 1, st =>
    match firstCompare .kept st with
    | none => st
    | some id => actOnKept n (compareEffect id (dropCompare id st))

/-- The oldest record whose gate compare has been reached (R167). -/
def oldestGateDue (st : Station) : Option Seq :=
  (st.table.find? fun r => st.position.isDue (.gate r.seq)).map (·.seq)

/-! ## The commands -/

def execQualificationCompare (s : State) : Host.Outcome State Fault Refusal := live s (takeDue .qualification)

def execBridgingCompare (s : State) : Host.Outcome State Fault Refusal := live s (takeDue .bridging)

def execBlankReleaseCompare (s : State) : Host.Outcome State Fault Refusal := live s (takeDue .blankRelease)

def execOverlengthCompare (s : State) : Host.Outcome State Fault Refusal := live s (takeDue .overlength)

def execEmptyCompare (seq : Seq) (s : State) : Host.Outcome State Fault Refusal := live s (takeDue (.empty seq))

def execLagCompare (seq : Seq) (s : State) : Host.Outcome State Fault Refusal := live s (takeDue (.lag seq))

def execDecisionCompare (seq : Seq) (s : State) : Host.Outcome State Fault Refusal := live s (takeDue (.decision seq))

def execGateCompare (s : State) : Host.Outcome State Fault Refusal :=
  live s fun st => match oldestGateDue st with
    | some seq => takeDue (.gate seq) st
    | none => st

def execGateWindowEndCompare (s : State) : Host.Outcome State Fault Refusal := live s (takeDue .windowEnd)

def execSampleCompare (s : State) : Host.Outcome State Fault Refusal := live s (takeDue .sample)

end Sys2Proof.Machine
end

