-- ==== Sys2Proof/Machine/Edges.lean ====
section
/-! DEFINITION. The Edge Unit's presence changes, and its resume after reverse motion (chapter 2, sections 2.6 and 2.7). -/

namespace Sys2Proof.Machine

/-- R41: presence appears in IDLE. A head take follows where a closed pending edge was discarded (R62, log 20). -/
def riseAt (e : Pos) (st : Station) : Station :=
  let st1 := discardPending st
  let risen := storeCompare .qualification (e + counts st.shared.qualification) .waiting
    { st1 with edge := { st1.edge with state := .rising, pending := some { rise := e, qualified := false, fall := none } } }
  if st.edge.pending.isSome then headTakes risen else risen

/-- R43: presence is lost in RISING. -/
def failRise (st : Station) : Station :=
  let st1 := discardPending st
  headTakes { st1 with edge := { st1.edge with state := .idle } }

/-- R44: presence is lost in PRESENT. -/
def fallAt (f : Pos) (st : Station) : Station :=
  storeCompare .bridging (f + counts st.shared.bridge) .waiting
    { st with edge := { st.edge with state := .falling, fall := some f } }

/-- R44: presence returns in FALLING. -/
def bridgeGap (st : Station) : Station :=
  let st1 := dropCompare .bridging st
  { st1 with edge := { st1.edge with state := .present, fall := none } }

/-- R49: presence appears in BLANKED. -/
def blankedAppears (st : Station) : Station :=
  followAbsence { st with edge := { st.edge with absence := none } }

/-- R49: presence is lost in BLANKED. -/
def blankedLost (st : Station) : Station :=
  followAbsence { st with edge := { st.edge with absence := some st.position.counter } }

/-- R38, R51: a difference between presence and what the edge state expects is taken as a change at the counter value. -/
def takeChange (st : Station) : Station :=
  match st.edge.state, st.presenceHeld with
  | .idle, true => riseAt st.position.counter st
  | .rising, false => failRise st
  | .present, false => fallAt st.position.counter st
  | .falling, true => bridgeGap st
  | .blanked, true => if st.edge.absence.isSome then blankedAppears st else st
  | .blanked, false => if st.edge.absence.isNone then blankedLost st else st
  | .idle, false => st
  | .rising, true => st
  | .present, true => st
  | .falling, false => st

/-- R51: on the step that passes the high-water position, the frozen Edge Unit resumes. Before JOINING it takes no change and
keeps no compare (R39). -/
def resumeEdge (st : Station) : Station :=
  if st.edge.frozen then
    let resumed : Station := { st with edge := { st.edge with frozen := false } }
    if st.start.node.onLine then
      let changed := takeChange resumed
      actOnKept changed.position.compares.length changed
    else resumed
  else st

/-- R38, R39: the presence input takes a state, held or not. The Edge Unit takes the change from JOINING on, while it is not
frozen; an input already in that state does not change. -/
def presenceInput (held : Bool) (st : Station) : Station :=
  if st.presenceHeld = held then st
  else
    let changed : Station := { st with edge := { st.edge with pin := !st.edge.pin } }
    if st.start.node.onLine && !st.edge.frozen then takeChange changed else changed

/-- The pin keeps following the sensor while reset holds the station (log 5); the node state is then not on the line. -/
def execPresenceAppears (s : State) : Host.Outcome State Fault Refusal := always s (presenceInput true)

def execPresenceLost (s : State) : Host.Outcome State Fault Refusal := always s (presenceInput false)

end Sys2Proof.Machine
end

