-- ==== Sys2Proof/Machine/Encoder.lean ====
section
/-! DEFINITION. Encoder steps, the high-water position, reverse travel and scan triggers (chapter 2, sections 2.1 to 2.3),
and the trigger line (R34, R56). -/

namespace Sys2Proof.Machine

/-- R34: the next pulse begins when the line is idle and a pulse is owed. -/
def PositionUnit.beginPulse (p : PositionUnit) : PositionUnit :=
  if p.triggerLine = .idle ∧ p.pulsesOwed ≠ 0 then { p with triggerLine := .pulse, pulsesOwed := p.pulsesOwed - 1 } else p

/-- R34: a pulse is owed for a trigger; with 255 owed it is lost and SCAN_FAULT is raised. -/
def owePulse (st : Station) : Station :=
  if st.position.pulsesOwed = 255#8 then raiseCause .scanFault st
  else { st with position := { st.position with pulsesOwed := st.position.pulsesOwed + 1 }.beginPulse }

/-- R33: the trigger test on a forward step that passes the high-water position. -/
def triggerTest (st : Station) : Station :=
  let p := st.position
  if st.start.node.onLine ∧ p.counter = p.triggerPos + counts st.shared.scanPitch then
    headTakes (owePulse
      { st with position := { p with triggerCount := p.triggerCount + 1, triggerPos := p.counter } })
  else st

/-- R78, R79: an encoder step at the probe: PARKED goes to WARMING, and in READY the park timer starts again. -/
def ProbeUnit.encoderStep (warmUpTime parkTime : Byte) (p : ProbeUnit) : ProbeUnit :=
  match p.state with
  | .parked => { p with state := .warming, warmTimer := some warmUpTime }
  | .ready => { p with parkTimer := some parkTime }
  | .off => p
  | .warming => p
  | .sampling => p

def probeStep (st : Station) : Station :=
  { st with probe := st.probe.encoderStep st.loc.warmUpTime st.loc.parkTime }

/-- R29, R33, R51: what the step does where it passes the high-water position. -/
def passHighWater (st : Station) : Station :=
  resumeEdge (triggerTest
    { st with position := { st.position with highWater := st.position.counter, reverseTravel := 0 } })

/-- The waiting compares at the new counter value become due (R35, log 3). -/
def markDue (st : Station) : Station := { st with position := st.position.markReached }

/-- R27, R29, R35: a forward step. DESIGN CHOICE (log 32): where the step passes the high-water position, the kept edge compares
are acted on (R51) before a compare that the step reaches becomes due, so a sample compare reached on that very step finds the
band as the resume has left it (R81); the spec gives no order between the two owners. -/
def stepForward (st : Station) : Station :=
  let moved := probeStep
    { st with position := { st.position with counter := st.position.counter + 1, direction := .forward } }
  markDue (if isAfter moved.position.counter moved.position.highWater then passHighWater moved else moved)

/-- R27, R30, R31, R51: a reverse step. -/
def stepReverse (st : Station) : Station :=
  let travel := satAdd st.position.reverseTravel 1
  let moved := probeStep
    { st with
      position := { st.position with counter := st.position.counter - 1, direction := .reverse, reverseTravel := travel }
      edge := { st.edge with frozen := true } }
  if st.start.node = .running ∧ travel = st.shared.reverseLimit ∧ st.position.reverseTravel ≠ travel then
    raisePurge .all moved
  else moved

/-- R27: one encoder step. Compares reached by an earlier step and not yet taken are taken first (log 3). -/
def encoderStep (dir : Direction) (st : Station) : Station :=
  let st1 := takeAllDue [] st
  match dir with
  | .forward => stepForward st1
  | .reverse => stepReverse st1

def execEncoderStep (dir : Direction) (s : State) : Host.Outcome State Fault Refusal := live s (encoderStep dir)

/-- R27: a transition in which A and B change together gives no step. -/
def execEncoderDoubleTransition (s : State) : Host.Outcome State Fault Refusal := live s id

/-- R34: a pulse ends, and the released time begins; at its end the next owed pulse begins. -/
def PositionUnit.pulseEnd (p : PositionUnit) : PositionUnit :=
  match p.triggerLine with
  | .pulse => { p with triggerLine := .gap }
  | .gap => { p with triggerLine := .idle }.beginPulse
  | .idle => p
  | .mark => p
  | .markGap => p

/-- R56: the restart mark ends, and its released time begins; at the end of that the first owed pulse may begin. -/
def PositionUnit.markEnd (p : PositionUnit) : PositionUnit :=
  match p.triggerLine with
  | .mark => { p with triggerLine := .markGap }
  | .markGap => { p with triggerLine := .idle }.beginPulse
  | .idle => p
  | .pulse => p
  | .gap => p

def execTriggerPulseEnd (s : State) : Host.Outcome State Fault Refusal :=
  live s fun st => { st with position := st.position.pulseEnd }

def execRestartMarkEnd (s : State) : Host.Outcome State Fault Refusal :=
  live s fun st => { st with position := st.position.markEnd }

end Sys2Proof.Machine
end

