-- ==== Sys2Proof/Machine/Line.lean ====
section
/-! DEFINITION. The Line Controller and the offers and entries of a round in flight (chapter 5; R115, R116, R125, R127, R133,
R137). -/

namespace Sys2Proof.Machine

/-! ## Offers -/

/-- R115: the OPEN request counts as an offer when a qualified unattached pending edge stands behind it. -/
def openOffer (st : Station) : Option Pos :=
  if st.engine.requests.opening then
    match st.edge.pending with
    | some e => if e.qualified then some e.rise else none
    | none => none
  else none

/-- R115: the subjects whose hold mark is clear. -/
def clearSubjects (l : List Held) : List Seq := (l.filter fun h => !h.heldBack).map (·.subject)

/-- R127, R133: the oldest subject whose hold mark is clear. -/
def oldestClear (l : List Held) : Option Seq := oldestSeq (clearSubjects l)

/-- R137: the scope of the PURGE requests held. -/
def PurgeSet.scopeOffer (p : PurgeSet) : Option Nat :=
  match p with
  | .none => Option.none
  | .all => some 1
  | .opened => some 2
  | .ones _ => some 3

/-- R98, R116: the smallest code among the kinds that count as offers in RUNNING. -/
def runningContestOffer (st : Station) : Option Nat :=
  let q := st.engine.requests
  if q.purge.scopeOffer.isSome then some 1
  else if q.roll then some 2
  else if (oldestClear q.verdict).isSome then some 3
  else if (oldestClear q.tally).isSome then some 4
  else if (openOffer st).isSome then some 5
  else none

/-- R115: the contest offer by node state. -/
def contestOffer (st : Station) : Option Nat :=
  match st.start.node with
  | .running => runningContestOffer st
  | .joining => if st.engine.requests.roll then some 2 else none
  | .mismatch => if st.engine.requests.roll then some 2 else none
  | .loading => none
  | .configFault => none

/-- R116: the offers that are fixed at the opening: the contest's, the ROLL alignment (R36) and the OPEN position (R125). -/
def offersAtOpening (st : Station) : Offers :=
  { contest := contestOffer st
    alignment := some st.position.counter.toNat
    sequence := none
    position := if st.start.node = .running then (openOffer st).map (·.toNat) else none
    tallySubject := none
    verdictSubject := none
    ready := none
    verdictCode := none
    scope := none
    purgeSubject := none }

/-- R115, R116: the TALLY, VERDICT and PURGE requests that count as offers at the opening. -/
def countedAtOpening (st : Station) : Counted :=
  let q := st.engine.requests
  if st.start.node = .running then
    { tally := clearSubjects q.tally, verdict := clearSubjects q.verdict, purge := q.purge }
  else { tally := [], verdict := [], purge := .none }

/-- R116: the requests that counted as offers at the opening and are still held. -/
def stillHeld (counted : List Seq) (held : List Held) : List Seq :=
  counted.filter fun s => held.any fun h => h.subject == s

/-- R112, R116: the PURGE requests that were held at the opening and are still held. A request that has replaced them in flight
waits for the next opening (log 12); so does a ONE request raised anew for a subject withdrawn in flight, which then counts no
longer (waitForOpening). -/
def PurgeSet.stillHeld (counted held : PurgeSet) : PurgeSet :=
  match counted, held with
  | .all, .all => .all
  | .opened, .opened => .opened
  | .ones l, .ones m => PurgeSet.ofOnes (l.filter fun s => m.contains s)
  | _, _ => .none

/-! ## Line states -/

/-- R105, R106: a round in flight ends without a result; the capture ends (R36), and a test that waits on the round is made (R42).
DESIGN CHOICE (log 35): at a BREAK these rules are followed, where R28 has a BREAK leave the round capture as it is, and R1, R39 and
others have it leave what the waiting test changes. -/
def dropRound (st : Station) : Station :=
  deferredTest
    { st with
      position := { st.position with capture := none }
      line := { st.line with opener := false, breakSender := false, longDrive := false, roundCell := none, round := none } }

/-- R106: entry to MUTE. -/
def enterMute (st : Station) : Station :=
  let dropped := dropRound st
  raiseCause .lineError { dropped with line := { dropped.line with state := .mute, quiet := 0 } }

/-- R91: 32 released nominal cells have been counted in OFF. -/
def quietJoin (st : Station) : Station :=
  if st.line.state = .off ∧ st.start.node = .joining then
    { st with line := { st.line with state := .idle, quiet := Config.quietCells } }
  else st

/-- R92: the station opens a round where it has an offer. -/
def roundOpen (st : Station) : Station :=
  if st.line.state = .idle ∧ st.line.longDrive = false ∧ (contestOffer st).isSome = true then
    { st with line := { st.line with state := .opening, opener := true } }
  else st

/-- R92: the wire is read driven in IDLE. -/
def listen (st : Station) : Station :=
  if st.line.state = .idle ∧ st.line.longDrive = false then
    { st with line := { st.line with state := .opening, opener := false } }
  else st

/-- R93: the opening of a round: the capture, the offers of the opening, and the requests that count then. -/
def openRound (st : Station) : Station :=
  let round : Round :=
    { kind := none, counted := countedAtOpening st, offers := offersAtOpening st, contest := none, passes := [],
      slotEntry := none, slotRead := false, cells := 0 }
  { st with
    position := { st.position with capture := some st.position.counter }
    line := { st.line with round := some round } }

/-- R93: the first run of driven cells is handled by its length in ns. A short run of an opener is its own drive fault; a run
of more than 3 cells is watched as a long drive (log 13). -/
def openingPulseEnd (length : Nat) (st : Station) : Station :=
  if st.line.state = .opening ∧ st.line.round = none ∧ st.line.longDrive = false then
    let cell := Config.nominalCell st.shared.lineRate
    if 2 * length < 3 * cell then
      if st.line.opener then enterMute st else { st with line := { st.line with state := .idle } }
    else if length ≤ 3 * cell then openRound st
    else { st with line := { st.line with longDrive := true } }
  else st

/-- R94: a spacing between edges lies between 1.75 and 2.25 nominal cells. -/
def spacingAccepted (cell spacing : Nat) : Bool := decide (7 * cell ≤ 4 * spacing) && decide (4 * spacing ≤ 9 * cell)

/-- R94: the pattern's four edges have arrived, at these spacings in ns. -/
def alignmentPattern (first second third : Nat) (st : Station) : Station :=
  if st.line.state = .opening ∧ st.line.round.isSome = true then
    let cell := Config.nominalCell st.shared.lineRate
    if spacingAccepted cell first && spacingAccepted cell second && spacingAccepted cell third then
      { st with line := { st.line with state := .inRound, roundCell := some (first + second + third) } }
    else enterMute st
  else st

/-! ## Passes and slots of the round in flight -/

/-- The round that the station follows: IN_ROUND, with no long drive being timed (R104). -/
def followed (st : Station) : Option Round :=
  if st.line.state = .inRound ∧ st.line.longDrive = false then st.line.round else none

def withRound (r : Round) (st : Station) : Station := { st with line := { st.line with round := some r } }

/-- R119: the station's own ROLL entry. -/
def ownRollEntry (st : Station) : RollEntry :=
  { node := match st.start.node with
      | .running => .running
      | .mismatch => .mismatch
      | .joining => .joining
      | .loading => .joining
      | .configFault => .joining
    outlet := st.start.outlet
    digest := st.start.digest.getD 0 }

/-- R127: the answer a RUNNING station fixes for a TALLY subject. -/
def ownTallyEntry (st : Station) (s : Seq) : TallyEntry :=
  match st.record s with
  | none => .unknown
  | some r =>
    match r.band.state with
    | .none => .pending
    | .opened => .pending
    | .closing => .pending
    | .closed => .closed r.band.summary
    | .empty => .empty

/-- R116: what is fixed at the end of the kind contest. -/
def fixAtContest (k : RoundKind) (st : Station) (r : Round) : Round :=
  let q := st.engine.requests
  match k with
  | .roll =>
    { r with
      offers := { r.offers with sequence := some st.engine.nextSeq.toNat }
      slotEntry := some (.roll (ownRollEntry st)) }
  | .tally =>
    { r with offers := { r.offers with tallySubject := (oldestSeq (stillHeld r.counted.tally q.tally)).map (·.toNat) } }
  | .verdict =>
    { r with offers := { r.offers with verdictSubject := (oldestSeq (stillHeld r.counted.verdict q.verdict)).map (·.toNat) } }
  | .purge => { r with offers := { r.offers with scope := (r.counted.purge.stillHeld q.purge).scopeOffer } }
  | .opening => r
  | .nothing => r

/-- R98: the end of the kind contest, against the codes that peers offer. -/
def kindContestEnd (peers : List (BitVec 3)) (st : Station) : Station :=
  match followed st with
  | none => st
  | some r =>
    if r.kind = none then
      let contest := contestField.run r.offers.contest (peers.map (·.toNat))
      let named := fun (k : RoundKind) =>
        let fixed := withRound
          { fixAtContest k st r with kind := some k, contest := some contest, cells := k.cellsThrough 0 } st
        if k = .opening then fixed else deferredTest fixed
      match contest.result with
      | none => named .nothing
      | some code =>
        match RoundKind.ofCode code with
        | some k => named k
        | none => enterMute st
    else st

/-- A pass result of the round, by its place in the layout. -/
def Round.result (r : Round) (i : Nat) : Option Nat :=
  match r.passes[i]? with
  | some p => p.result
  | none => none

/-- R133: NO OFFER in the ready pass is taken as READY. -/
def readyResult (result : Option Nat) : Bool := result != some 0

/-- The value the station offers in a pass of the round's body (R116, R125, R127, R133, R137). -/
def passOffer (k : RoundKind) (r : Round) : Option Nat :=
  match k, r.passes.length with
  | .roll, 0 => r.offers.alignment
  | .roll, _ => r.offers.sequence
  | .opening, _ => r.offers.position
  | .tally, _ => r.offers.tallySubject
  | .verdict, 0 => r.offers.verdictSubject
  | .verdict, 1 => r.offers.ready
  | .verdict, _ => if readyResult (r.result 1) then r.offers.verdictCode else none
  | .purge, 0 => r.offers.scope
  | .purge, _ => r.offers.purgeSubject
  | .nothing, _ => none

/-- R127: the own TALLY entry is fixed at the end of the subject pass, for a subject result at a RUNNING station. -/
def fixTallyEntry (subject : Option Nat) (st : Station) (r : Round) : Round :=
  match subject with
  | none => r
  | some s =>
    if st.start.node = .running then { r with slotEntry := some (.tally (ownTallyEntry st (BitVec.ofNat 16 s))) } else r

/-- R133: the ready offer is fixed at the end of the subject pass, and with it the code that READY directs into the low and
high passes (R136). -/
def fixReady (subject : Option Nat) (st : Station) (r : Round) : Round :=
  match subject with
  | none => r
  | some s =>
    if st.start.node = .running then
      match st.record (BitVec.ofNat 16 s) with
      | none => r
      | some x =>
        { r with offers := { r.offers with
            ready := some (if x.verdict.isSome then 1 else 0), verdictCode := x.verdict.map Verdict.code } }
    else r

/-- R116, R137: where the scope result is ONE, the oldest ONE subject that was held at the opening and is still held. -/
def fixPurgeSubject (scope : Option Nat) (st : Station) (r : Round) : Round :=
  if scope = some 3 then
    { r with offers := { r.offers with
        purgeSubject := (oldestSeq (r.counted.purge.stillHeld st.engine.requests.purge).subjects).map (·.toNat) } }
  else r

/-- R116: what is fixed at the end of a pass; `r` already holds that pass's result. -/
def fixAtPass (k : RoundKind) (st : Station) (r : Round) : Round :=
  match k, r.passes.length with
  | .tally, 1 => fixTallyEntry (r.result 0) st r
  | .verdict, 1 => fixReady (r.result 0) st r
  | .purge, 1 => fixPurgeSubject (r.result 0) st r
  | _, _ => r

/-- R97: the end of a pass of the body, against the values that peers offer. -/
def passEnd (peers : List (BitVec 32)) (st : Station) : Station :=
  match followed st with
  | none => st
  | some r =>
    match r.kind with
    | none => st
    | some k =>
      match k.passes[r.passes.length]? with
      | none => st
      | some field =>
        let result := field.run (passOffer k r) (peers.map (·.toNat))
        withRound (fixAtPass k st { r with
          passes := r.passes ++ [result], cells := k.cellsThrough (r.passes.length + 1) }) st

/-- R100: the own slot is being sent: its passes have ended, an entry was handed, and it has not read back. -/
def ownSlot (st : Station) : Option Round :=
  match followed st with
  | none => none
  | some r =>
    match r.kind with
    | none => none
    | some k =>
      if r.passes.length = k.passes.length ∧ r.slotEntry.isSome = true ∧ r.slotRead = false then some r else none

/-- R109: the own slot reads back correctly. The count of cells then stands at the end of that slot (R95). -/
def ownSlotReadBack (st : Station) : Station :=
  match ownSlot st with
  | none => st
  | some r =>
    { st with line := { st.line with
        mismatch := 0
        round := some { r with
          slotRead := true, cells := (r.kind.getD .nothing).cellsThroughSlot st.start.index } } }

/-- R100, R109: an own-slot mismatch; the third in a row is the index fault restart. -/
def ownSlotMismatch (straps : Straps) (st : Station) : Station :=
  match ownSlot st with
  | none => st
  | some _ =>
    if Config.mismatchLimit ≤ st.line.mismatch + 1 then Station.resetWith straps true st.edge.pin st.scan.frame
    else enterMute { st with line := { st.line with mismatch := st.line.mismatch + 1 } }

/-! ## Errors, long drives and BREAK (R104 to R108) -/

/-- R95: the released-to-driven edges of the body. An edge within a quarter of a round cell of a cell boundary is taken as that
boundary, and the later cells are counted from it; any other is a cell timing violation. -/
def bodyEdge (time : Nat) (st : Station) : Station :=
  match followed st with
  | none => st
  | some r =>
    match edgeBoundary (st.line.roundCell.getD 0) time with
    | some n => withRound { r with cells := r.cells + n } st
    | none => enterMute st

/-- The station's own offer in the contest or the pass that is being sent; `none` where neither is (R96). -/
def Round.fieldOffer (r : Round) : Option (Option Nat) :=
  match r.kind with
  | none => some r.offers.contest
  | some k => if r.passes.length < k.passes.length then some (passOffer k r) else none

/-! ## What the station drives on the Grade Line (R89) -/

/-- R100: the cells of the own slot, released for a 1. -/
def SlotEntry.cells (e : SlotEntry) : List Bool :=
  match e with
  | .roll e => slotBits e.bits
  | .tally e => slotBits e.bits

/-- R95, R99: the cells of contest and body, spacers not counted, before the field that is being sent; the eight slots together are
the last field. -/
def Round.fieldStart (r : Round) : Nat :=
  match r.kind with
  | none => 0
  | some k => 1 + contestField.width + ((k.passes.take r.passes.length).map fun f => 1 + f.width).sum

/-- R96, R100: whether the station drives the next cell of the field that is being sent, of which the cells `read` have been read. -/
def Round.drives (r : Round) (index : Index) (read : List Bool) : Bool :=
  match r.kind with
  | none => contestField.drives r.offers.contest read
  | some k =>
    match k.passes[r.passes.length]?, r.slotEntry with
    | some field, _ => field.drives (passOffer k r) read
    | none, some entry => slotDrives (k.slotCells * index.val) entry.cells read
    | none, none => false

/-- R89: whether the station drives the Grade Line in the next cell. `heard` are the cells that it has read, a released one `true`:
in OPENING and BREAKING since the first cell that it drove, in IN_ROUND since the first cell of the kind contest. In OPENING an opener
drives pulse and pattern (R92, R94); in IN_ROUND the station drives its offers and its own slot, and no spacer (R95); in BREAKING a
sender drives 30 cells, unless one reads released (R108). From the start of a long drive it drives nothing (R104). -/
def Station.gradeLineDriven (st : Station) (heard : List Bool) : Bool :=
  if st.heldInReset then false
  else match st.line.state with
    | .opening =>
      st.line.opener && !st.line.longDrive && (openingPulse ++ alignmentCells)[heard.length]? == some false
    | .inRound =>
      let body := withoutSpacers heard
      match followed st with
      | some r =>
        decide (heard.length % 9 ≠ 8 ∧ r.fieldStart ≤ body.length) && r.drives st.start.index (body.drop r.fieldStart)
      | none => false
    | .breaking => st.line.breakSender && decide (heard.length < Config.breakCells) && heard.all (!·)
    | .off => false
    | .idle => false
    | .guard => false
    | .mute => false

/-! ## Line errors -/

/-- R93 to R96, R106: the line errors that have no command of their own, each where it can be met (log 14), and the test of an
edge of the body. A cell of the contest or of a pass that the station drives can read released only where the station offers,
and an offer cell can be released only where it does not. -/
def lineError (fault : WireFault) (st : Station) : Station :=
  match fault with
  | .openingDrive =>
    if st.line.state = .opening ∧ st.line.opener = true ∧ st.line.round = none ∧ st.line.longDrive = false then enterMute st
    else st
  | .pattern =>
    if st.line.state = .opening ∧ st.line.round.isSome = true ∧ st.line.longDrive = false then enterMute st else st
  | .edge time => bodyEdge time st
  | .drivenReadsReleased =>
    if ((followed st).bind Round.fieldOffer).any (·.isSome) then enterMute st else st
  | .valueWithoutOffer =>
    if ((followed st).bind Round.fieldOffer).any (·.isNone) then enterMute st else st

/-- R104: where a long drive can begin. -/
def longDriveBegins (l : LineUnit) : Bool :=
  match l.state with
  | .idle => true
  | .opening => l.round.isNone
  | .inRound => true
  | .guard => true
  | .off => false
  | .mute => false
  | .breaking => false

def longDriveStart (st : Station) : Station :=
  if longDriveBegins st.line then { st with line := { st.line with longDrive := true } } else st

/-- R104: the wire is released before 24 nominal cells. -/
def longDriveReleased (st : Station) : Station := if st.line.longDrive then enterMute st else st

/-- R91, R105: the wire has been driven for 24 nominal cells. -/
def breakReceived (st : Station) : Station :=
  let broken :=
    let dropped := dropRound st
    { dropped with line := { dropped.line with
        state := .breaking, quiet := if st.line.state = .mute then 0 else st.line.quiet } }
  match st.line.state with
  | .off => { st with line := { st.line with quiet := 0 } }
  | .breaking => st
  | .idle => broken
  | .opening => broken
  | .inRound => broken
  | .guard => broken
  | .mute => broken

/-- R105: the wire is released after a received BREAK. -/
def breakWireReleased (st : Station) : Station :=
  if st.line.state = .breaking ∧ st.line.breakSender = false then { st with line := { st.line with state := .guard } } else st

/-- R107, R108: the quiet count of MUTE reaches 32, and the station begins to send a BREAK. -/
def sendBreak (st : Station) : Station :=
  if st.line.state = .mute then
    { st with line := { st.line with state := .breaking, breakSender := true, quiet := Config.quietCells } }
  else st

/-- R108: the end of the BREAK the station sends. -/
def breakSendEnd (heard : Bool) (st : Station) : Station :=
  if st.line.state = .breaking ∧ st.line.breakSender = true then
    if heard then
      raiseRoll { st with line := { st.line with state := .guard, breakSender := false } }
    else
      raiseCause .lineError { st with line := { st.line with state := .mute, breakSender := false, quiet := 0 } }
  else st

/-- R103: the end of the third guard cell. -/
def guardEnd (st : Station) : Station :=
  if st.line.state = .guard ∧ st.line.longDrive = false then
    { st with line := { st.line with state := .idle, roundCell := none } }
  else st

/-! ## The commands -/

def execLineQuietJoin (s : State) : Host.Outcome State Fault Refusal := live s quietJoin

def execRoundOpen (s : State) : Host.Outcome State Fault Refusal := live s roundOpen

def execOpeningAsListener (s : State) : Host.Outcome State Fault Refusal := live s listen

def execOpeningPulseEnd (length : Nat) (s : State) : Host.Outcome State Fault Refusal := live s (openingPulseEnd length)

def execAlignmentPatternAccepted (first second third : Nat) (s : State) : Host.Outcome State Fault Refusal :=
  live s (alignmentPattern first second third)

def execKindContestEnd (peers : List (BitVec 3)) (s : State) : Host.Outcome State Fault Refusal := live s (kindContestEnd peers)

def execPassEnd (peers : List (BitVec 32)) (s : State) : Host.Outcome State Fault Refusal := live s (passEnd peers)

def execOwnSlotReadBack (s : State) : Host.Outcome State Fault Refusal := live s ownSlotReadBack

def execOwnSlotMismatch (straps : Straps) (s : State) : Host.Outcome State Fault Refusal := live s (ownSlotMismatch straps)

def execLineError (s : State) (fault : WireFault := .pattern) : Host.Outcome State Fault Refusal := live s (lineError fault)

def execLongDriveStart (s : State) : Host.Outcome State Fault Refusal := live s longDriveStart

def execLongDriveReleased (s : State) : Host.Outcome State Fault Refusal := live s longDriveReleased

def execBreakReceived (s : State) : Host.Outcome State Fault Refusal := live s breakReceived

def execBreakWireReleased (s : State) : Host.Outcome State Fault Refusal := live s breakWireReleased

def execMuteQuietCountFull (s : State) : Host.Outcome State Fault Refusal := live s sendBreak

def execBreakSendEnd (heard : Bool) (s : State) : Host.Outcome State Fault Refusal := live s (breakSendEnd heard)

def execGuardEnd (s : State) : Host.Outcome State Fault Refusal := live s guardEnd

end Sys2Proof.Machine
end

