-- ==== Sys2Proof/Machine/Port.lean ====
section
/-! DEFINITION. The result port: its commands, their answers, and the effects of answers shifted out (chapter 10). -/

namespace Sys2Proof.Machine

/-- R183: a command is taken in a transaction: its whole answer is fixed, and a read that was not shifted out to its end has
no effect. -/
def answer (bytes : List Byte) (read : Option PortRead) (st : Station) : Station :=
  { st with port := { st.port with selected := true, answer := bytes, read := read } }

/-- R184: the answer of READ RESULT is fixed from the head record or the empty marker. -/
def readResult (st : Station) : Station :=
  answer (readResultAnswer st.port.fifo) (some (.result (!st.port.fifo.isEmpty))) st

/-- R184: the last bit of the answer is out; the head record is removed unless the empty marker was returned. -/
def readResultShiftedOut (st : Station) : Station :=
  match st.port.read with
  | some (.result true) => { st with port := { st.port.removeHead with read := none } }
  | some (.result false) => { st with port := { st.port with read := none } }
  | some (.cause _) => st
  | none => st

/-- R186. -/
def readStatus (st : Station) : Station := answer (statusAnswer st) none st

/-- R189: the answer of READ CAUSE is the pending cause of highest priority. -/
def readCause (st : Station) : Station :=
  answer [Cause.priority st.port.causes.highest] (some (.cause st.port.causes.highest)) st

/-- R189, R190: the last bit of the answer is out, and the cause is cleared. -/
def readCauseShiftedOut (st : Station) : Station :=
  match st.port.read with
  | some (.cause (some c)) => { st with port := { st.port.clearCause c with read := none } }
  | some (.cause none) => { st with port := { st.port with read := none } }
  | some (.result _) => st
  | none => st

/-- R195: the scope that a scope byte names. -/
def PurgeScope.ofByte (scope : Byte) (seq : Seq) : Option PurgeScope :=
  match scope.toNat with
  | 1 => some .all
  | 2 => some .opened
  | 3 => some (.one seq)
  | _ => none

/-- R113, R187. -/
def requestPurge (scope : Byte) (seq : Seq) (st : Station) : Station :=
  match (if st.start.node = .running then PurgeScope.ofByte scope seq else none) with
  | none => answer [RequestAnswer.code .refused] none st
  | some sc => answer [RequestAnswer.code (st.engine.requests.purge.take sc).2] none (raisePurge sc st)

/-- R187. -/
def requestRoll (st : Station) : Station :=
  if st.start.node.onLine then answer [RequestAnswer.code .accepted] none (raiseRoll st)
  else answer [RequestAnswer.code .refused] none st

/-- R183: a code that names no command has no effect; its answer reads as ones, of no stated length (log 27). A code that
names a command is not this event (log 2). -/
def unknownCommand (code : Byte) (st : Station) : Station :=
  if PortCommand.ofCode code = .unknown then answer [] none st else st

/-- R183: select is released and the transaction ends; a read not yet shifted out to its end has no effect. -/
def selectReleased (st : Station) : Station :=
  { st with port := { st.port with selected := false, answer := [], read := none } }

def execReadResult (s : State) : Host.Outcome State Fault Refusal := live s readResult

def execReadResultShiftedOut (s : State) : Host.Outcome State Fault Refusal := live s readResultShiftedOut

def execReadStatus (s : State) : Host.Outcome State Fault Refusal := live s readStatus

def execReadCause (s : State) : Host.Outcome State Fault Refusal := live s readCause

def execReadCauseShiftedOut (s : State) : Host.Outcome State Fault Refusal := live s readCauseShiftedOut

def execRequestPurge (scope : Byte) (seq : Seq) (s : State) : Host.Outcome State Fault Refusal :=
  live s (requestPurge scope seq)

def execRequestRoll (s : State) : Host.Outcome State Fault Refusal := live s requestRoll

def execUnknownCommand (code : Byte) (s : State) : Host.Outcome State Fault Refusal := live s (unknownCommand code)

def execResultPortSelectReleased (s : State) : Host.Outcome State Fault Refusal := live s selectReleased

end Sys2Proof.Machine
end

