-- ==== Sys2Proof/Machine/Probe.lean ====
section
/-! DEFINITION. The Probe Unit: settle, conversion, completion, warm-up and park (chapter 4). -/

namespace Sys2Proof.Machine

/-- R83: the trimmed reading r + (t - 128), clamped to 0 to 1023. -/
def trimmed (raw : BitVec 10) (trim : Byte) : BitVec 10 :=
  BitVec.ofNat 10 (min 1023 (raw.toNat + trim.toNat - 128))

/-- R84 step 1: max moisture after a reading. -/
def foldMoisture (reading : BitVec 10) (m : Option (BitVec 10)) : BitVec 10 :=
  match m with
  | none => reading
  | some u => if u < reading then reading else u

/-- R84: the reading reaches the own band of the target record, which is OPEN or CLOSING. -/
def foldReading (reading : BitVec 10) (seq : Seq) (st : Station) : Station :=
  updateBand seq (fun b =>
    { b with summary := { b.summary with moisture := some (foldMoisture reading b.summary.moisture) } }) st

/-- R84 step 3: the sample is over and the probe is READY. -/
def ProbeUnit.sampleOver (parkTime : Byte) (p : ProbeUnit) : ProbeUnit :=
  { p with state := .ready, parkTimer := some parkTime, timing := .stopped, target := none }

/-- R84: completion of the sample; a head take follows where the band becomes CLOSED (R62). -/
def sampleCompletion (raw : BitVec 10) (st : Station) : Station :=
  if st.probe.timing = .conversion then
    let finished := fun (x : Station) => { x with probe := x.probe.sampleOver x.loc.parkTime }
    match st.probe.target with
    | some (.held seq) =>
      let st1 := finished (foldReading (trimmed raw st.loc.trim) seq st)
      let st2 := testClosing seq st1
      if st2.closingCount < st1.closingCount then headTakes st2 else st2
    | some .lost => finished st
    | none => finished st
  else st

/-- R82: the settle time ends and the conversion begins. -/
def ProbeUnit.settleEnd (p : ProbeUnit) : ProbeUnit :=
  if p.timing = .settle then { p with timing := .conversion } else p

/-- R77. -/
def ProbeUnit.warmUpExpiry (parkTime : Byte) (p : ProbeUnit) : ProbeUnit :=
  if p.state = .warming then { p with state := .ready, warmTimer := none, parkTimer := some parkTime } else p

/-- R78. -/
def ProbeUnit.parkExpiry (p : ProbeUnit) : ProbeUnit :=
  if p.state = .ready then { p with state := .parked, parkTimer := none } else p

def execSettleEnd (s : State) : Host.Outcome State Fault Refusal :=
  live s fun st => { st with probe := st.probe.settleEnd }

def execSampleCompletion (raw : BitVec 10) (s : State) : Host.Outcome State Fault Refusal := live s (sampleCompletion raw)

def execWarmUpExpiry (s : State) : Host.Outcome State Fault Refusal :=
  live s fun st => { st with probe := st.probe.warmUpExpiry st.loc.parkTime }

def execParkExpiry (s : State) : Host.Outcome State Fault Refusal :=
  live s fun st => { st with probe := st.probe.parkExpiry }

end Sys2Proof.Machine
end

