-- ==== Sys2Proof/Machine/Rounds.lean ====
section
/-! DEFINITION. The completions of rounds: ROLL, OPEN, TALLY, VERDICT, PURGE and NONE (chapter 6). -/

namespace Sys2Proof.Machine

/-- R102: the round of this kind that stands at its last cell: every pass has ended, and an own slot that was sent has read
back. -/
def completing (k : RoundKind) (st : Station) : Option Round :=
  match followed st with
  | none => none
  | some r =>
    if r.kind = some k ∧ r.passes.length = k.passes.length ∧ (r.slotEntry.isNone || r.slotRead) = true then some r else none

/-- R102: completion at the line: GUARD, the round no longer in flight, the capture ended. -/
def toGuard (st : Station) : Station :=
  { st with
    position := { st.position with capture := none }
    line := { st.line with state := .guard, opener := false, longDrive := false, round := none } }

/-! ## Kind NONE -/

/-- R98, R117: a round without a body completes. Where its contest has not ended yet, it ends here without an offer, if the
station made none itself (log 29). -/
def completeNone (st : Station) : Station :=
  match followed st with
  | none => st
  | some r =>
    if r.kind = some .nothing then toGuard st
    else if r.kind = none ∧ r.offers.contest = none then toGuard (kindContestEnd [] st)
    else st

/-! ## ROLL -/

/-- R101: the readings of the eight ROLL slots. The own slot has read back, so it reads as the own entry. -/
def rollReadings (own : Index) (entry : RollEntry) (slots : List (BitVec 52)) : Eight (Reading RollEntry) :=
  Eight.tabulate fun k => if k = own then .entry entry else readRollSlot (slots.getD k.val (BitVec.allOnes 52))

/-- R121: the peer map formed from the readings, each silence count 0. -/
def newPeers (before : Eight (Option Nat)) (readings : Eight (Reading RollEntry)) : Eight (Option Nat) :=
  Eight.tabulate fun k => match readings.get k with
    | .entry _ => some 0
    | .silent => none
    | .damaged => if (before.get k).isSome then some 0 else none

/-- R122: every entry read carries the own digest, and at most one the outlet strap. -/
def agreement (digest : BitVec 32) (readings : Eight (Reading RollEntry)) : Bool :=
  let entries := readings.toList.filterMap fun r => match r with
    | .entry e => some e
    | .silent => none
    | .damaged => none
  entries.all (fun e => e.digest == digest) && decide ((entries.countP fun e => e.outlet) ≤ 1)

def anyDamaged {α : Type} [DecidableEq α] (readings : Eight (Reading α)) : Bool :=
  readings.toList.any fun r => r == .damaged

/-- R121: the indices that join the peer map at the round: absent before and present after, or read as JOINING. -/
def joins (before after : Eight (Option Nat)) (readings : Eight (Reading RollEntry)) (k : Index) : Bool :=
  (after.get k).isSome &&
    ((before.get k).isNone ||
      (match readings.get k with
        | .entry e => e.node == .joining
        | .silent => false
        | .damaged => false))

/-- R21: an index leaves the peer map. -/
def leaves (before after : Eight (Option Nat)) (k : Index) : Bool := (before.get k).isSome && (after.get k).isNone

/-- R21: an awaited index joined: UNKNOWN is stored, with BLIND. -/
def Record.joined (k : Index) (r : Record) : Record :=
  if (r.entries.get k).isNone then r.storeEntry k .unknown else r

/-- R21: an awaited index left: BLIND. -/
def Record.left (k : Index) (r : Record) : Record :=
  if (r.entries.get k).isNone then { r with flags := { r.flags with blind := true } } else r

/-- R21, R124 step 3: a GATHERING record after a change of the peer map. -/
def Record.peersChanged (joined left : Index → Bool) (r : Record) : Record :=
  indices.foldl (fun x k => if joined k then x.joined k else if left k then x.left k else x) r

/-- R36, R37, R120 step 1: the counter, the high-water position and the trigger position move by `d`; the head is taken in
the new frame, and a forward jump's compares are taken (log 20). -/
def applyAlignment (d : Pos) (order : List CompareId) (st : Station) : Station :=
  let p := st.position
  let moved : Station :=
    { st with position := { p with
        counter := p.counter + d, highWater := p.highWater + d, triggerPos := p.triggerPos + d } }
  let taken := headTakes moved
  if d ≠ 0 ∧ d.toNat < 2147483648 then
    takeAllDue order { taken with position := taken.position.markCrossed p.counter }
  else taken

/-- R76, R122: entry to RUNNING from JOINING or MISMATCH. -/
def enterRunning (st : Station) : Station :=
  let running : Station :=
    { st with
      start := { st.start with node := .running }
      probe := if st.probe.state = .off then
          { st.probe with state := .warming, warmTimer := some st.loc.warmUpTime }
        else st.probe }
  if st.edge.pending.isSome then headTakes (enterBlanked running) else running

/-- R122: the node state after the comparison. -/
def applyAgreement (agreed : Bool) (st : Station) : Station :=
  if agreed then (if st.start.node = .running then st else enterRunning st)
  else raiseCause .mismatch { st with start := { st.start with node := .mismatch } }

/-- R124 step 5: every held-back TALLY request is released. -/
def Requests.releaseTally (q : Requests) : Requests :=
  { q with tally := q.tally.map fun h => { h with heldBack := false } }

/-- R121, R124: the served request, the count, a new request for a damaged slot, the peer change, the records, completeness
and the released marks. The new request is raised once the old one is served (log 16). -/
def settleRoll (before after : Eight (Option Nat)) (readings : Eight (Reading RollEntry)) (st : Station) : Station :=
  let served : Station :=
    { st with engine := { st.engine with
        openCount := 0, requests := { st.engine.requests with roll := anyDamaged readings } } }
  let told := if before.toList.map Option.isSome = after.toList.map Option.isSome then served
    else raiseCause .peerChange served
  withRequests Requests.releaseTally
    (completeAll (updateGathering (Record.peersChanged (joins before after readings) (leaves before after)) told))

/-- R120 to R124: the completion of a ROLL round, given the two pass results and the own entry. -/
def rollEffects (alignment sequence : Nat) (entry : RollEntry) (slots : List (BitVec 52)) (order : List CompareId)
    (st : Station) : Station :=
  let readings := rollReadings st.start.index entry slots
  let d := BitVec.ofNat 32 alignment - st.position.capture.getD 0
  let aligned := applyAlignment d order (toGuard st)
  let before := aligned.engine.peers
  let after := newPeers before readings
  let known : Station :=
    { aligned with engine := { aligned.engine with nextSeq := BitVec.ofNat 16 sequence, peers := after } }
  settleRoll before after readings (applyAgreement (agreement entry.digest readings) known)

def completeRoll (slots : List (BitVec 52)) (order : List CompareId) (st : Station) : Station :=
  match completing .roll st with
  | none => st
  | some r =>
    match r.slotEntry, r.result 0, r.result 1 with
    | some (.roll entry), some alignment, some sequence => rollEffects alignment sequence entry slots order st
    | _, _, _ => st

/-! ## OPEN -/

/-- R123: the OPEN round count is incremented, and at the roll period ROLL is raised. -/
def countOpenRound (st : Station) : Station :=
  let count := satAdd st.engine.openCount 1
  let counted : Station := { st with engine := { st.engine with openCount := count } }
  if count ≠ st.engine.openCount ∧ count = st.shared.rollPeriod then raiseRoll counted else counted

/-- R126: the completion of an OPEN round; a station that is not RUNNING only makes the test that waits on the round. -/
def completeOpen (st : Station) : Station :=
  match completing .opening st with
  | none => st
  | some r =>
    let guarded := toGuard st
    if st.start.node = .running then
      let counted := countOpenRound (withRequests (fun q => { q with opening := false }) guarded)
      match r.result 0 with
      | none => attachTest counted
      | some p => if creationRefused counted then refuseCreation counted else createRecord (BitVec.ofNat 32 p) counted
    else deferredTest guarded

/-! ## TALLY -/

/-- R101: the readings of the eight TALLY slots; the own slot reads as the entry sent. -/
def tallyReadings (own : Index) (entry : TallyEntry) (slots : List (BitVec 448)) : Eight (Reading TallyEntry) :=
  Eight.tabulate fun k => if k = own then .entry entry else readTallySlot (slots.getD k.val (BitVec.allOnes 448))

/-- R128: what a reading stores in the subject record. -/
def Record.takeReading (k : Index) (reading : Reading TallyEntry) (r : Record) : Record :=
  match reading with
  | .entry (.closed s) => r.storeEntry k (.closed s)
  | .entry .empty => r.storeEntry k .empty
  | .entry .unknown => r.storeEntry k .unknown
  | .entry .pending => r
  | .silent => r
  | .damaged => r

/-- R128: a member's silence count after a reading. -/
def silenceAfter (reading : Reading TallyEntry) (count : Nat) : Nat :=
  match reading with
  | .entry _ => 0
  | .silent => count + 1
  | .damaged => count

/-- R128: the slot of one index is taken, if the index is a member. -/
def takeSlot (s : Seq) (readings : Eight (Reading TallyEntry)) (st : Station) (k : Index) : Station :=
  match st.engine.peers.get k with
  | none => st
  | some count =>
    let reading := readings.get k
    updateRecord s (Record.takeReading k reading)
      { st with engine := { st.engine with peers := st.engine.peers.set k (some (silenceAfter reading count)) } }

/-- R130: a member whose count has reached 4. -/
def silentMember (peers : Eight (Option Nat)) (k : Index) : Bool :=
  match peers.get k with
  | none => false
  | some count => decide (Config.silenceLimit ≤ count)

/-- R130: silent members are removed, with PEER_CHANGE once and BLIND in the GATHERING records that await them. -/
def removeMembers (st : Station) : Station :=
  let gone := silentMember st.engine.peers
  if indices.any gone then
    raiseCause .peerChange
      (updateGathering (Record.peersChanged (fun _ => false) gone)
        { st with engine := { st.engine with
            peers := Eight.tabulate fun k => if gone k then none else st.engine.peers.get k } })
  else st

/-- R131 step 2: a member's slot for `s` read DAMAGED and the record is still GATHERING. -/
def damagedRaise (s : Seq) (members : Index → Bool) (readings : Eight (Reading TallyEntry)) (st : Station) : Bool :=
  (st.record s).any (fun r => r.phase == .gathering) &&
    indices.any fun k => members k && readings.get k == .damaged

/-- R114, R131 steps 2 to 4, R132, R135: the requests for the subject after the completeness test. DESIGN CHOICE (log 36): a TALLY
request that an own close has raised in flight, after the slot was sent as PENDING, also leaves here where the record is TALLIED, by
R114's words; R20 and R127 keep it for the next round, and the spec does not say whether the round in flight is that one. -/
def settleTally (s : Seq) (raised : Bool) (sent : TallyEntry) (st : Station) : Station :=
  let gathering := (st.record s).any fun r => r.phase == .gathering
  let st1 :=
    if raised then withRequests (Requests.raiseTally s) st
    else if gathering && decide (ownTallyEntry st s = sent) then withRequests (Requests.markTally s true) st
    else st
  let st2 := if (st1.record s).any (fun r => r.phase == .tallied) then withRequests (Requests.dropTally s) st1 else st1
  withRequests (Requests.markVerdict s false) st2

/-- R128 to R132: the completion of a TALLY round at a RUNNING station that holds record `s`. -/
def tallyEffects (s : Seq) (sent : TallyEntry) (slots : List (BitVec 448)) (st : Station) : Station :=
  let readings := tallyReadings st.start.index sent slots
  let members := fun k => (st.engine.peers.get k).isSome
  let tested := completeAll (removeMembers (indices.foldl (takeSlot s readings) st))
  settleTally s (damagedRaise s members readings tested) sent tested

def completeTally (slots : List (BitVec 448)) (st : Station) : Station :=
  match completing .tally st with
  | none => st
  | some r =>
    let guarded := toGuard st
    match r.result 0, r.slotEntry with
    | some subject, some (.tally sent) =>
      let s : Seq := BitVec.ofNat 16 subject
      if st.start.node = .running ∧ (st.record s).isSome = true then tallyEffects s sent slots guarded else guarded
    | _, _ => guarded

/-! ## VERDICT -/

/-- R134: the record is decided from the low and high results. -/
def Record.decide (low high : Nat) (r : Record) : Record :=
  if low = high then { r with phase := .decided, outcome := some (Verdict.ofCode low) }
  else { r with phase := .decided, outcome := some .manual, flags := { r.flags with disputed := true } }

/-- R134: a held record that is not DECIDED is decided, and its requests are withdrawn. -/
def decideRecord (s : Seq) (low high : Nat) (st : Station) : Station :=
  match st.record s with
  | none => st
  | some r =>
    if r.phase = .decided then st
    else withRequests (fun q => (q.dropVerdict s).dropTally s) (updateRecord s (Record.decide low high) st)

/-- R134, R135: the completion of a VERDICT round at a RUNNING station. -/
def verdictEffects (r : Round) (s : Seq) (st : Station) : Station :=
  if readyResult (r.result 1) then
    match r.result 2, r.result 3 with
    | some low, some high => decideRecord s low high st
    | _, _ => st
  else if r.offers.ready = some 1 then withRequests (Requests.markVerdict s true) st
  else st

def completeVerdict (st : Station) : Station :=
  match completing .verdict st with
  | none => st
  | some r =>
    let guarded := toGuard st
    match r.result 0 with
    | none => guarded
    | some subject => if st.start.node = .running then verdictEffects r (BitVec.ofNat 16 subject) guarded else guarded

/-! ## PURGE -/

/-- R138, R139: a record is removed with PURGED and MANUAL. -/
def purgeRecord (st : Station) (seq : Seq) : Station :=
  removeRecord .manual (fun f => { f with purged := true }) seq st

/-- R50: the Edge Unit after a PURGE ALL. `blankedByRemoval` says that the removal of an OPEN band has blanked it. -/
def purgeEdge (blankedByRemoval : Bool) (st : Station) : Station :=
  let st1 := discardPending st
  if st1.presenceHeld then enterBlanked st1
  else if blankedByRemoval then st1
  else
    let st2 := dropCompare .blankRelease (dropCompare .bridging st1)
    { st2 with edge := { st2.edge with state := .idle, fall := none, absence := none } }

/-- R68, R138, R140: a PURGE round of scope ALL. -/
def purgeAll (st : Station) : Station :=
  let removed := (st.table.map (·.seq)).foldl purgeRecord st
  let cleared := purgeEdge st.openRecord.isSome removed
  withRequests (fun q => { q with opening := false, tally := [], verdict := [], purge := .none })
    { cleared with scan := { cleared.scan with fifo := [], head := none, overrun := false } }

/-- R140: the PURGE requests that a round of scope OPEN does not cover; `decided` are the records held and DECIDED before. -/
def PurgeSet.afterOpen (decided : Seq → Bool) (p : PurgeSet) : PurgeSet :=
  match p with
  | .none => .none
  | .all => .all
  | .opened => .none
  | .ones l => PurgeSet.ofOnes (l.filter decided)

/-- R139, R140: a PURGE round of scope OPEN. -/
def purgeOpen (st : Station) : Station :=
  let undecided := (st.table.filter fun r => r.phase != .decided).map (·.seq)
  let decided := fun (s : Seq) => st.table.any fun r => r.seq == s && r.phase == .decided
  withRequests (fun q => { q with purge := q.purge.afterOpen decided })
    (if undecided.isEmpty then st else headTakes (undecided.foldl purgeRecord st))

/-- R139, R140: a PURGE round of scope ONE. -/
def purgeOne (s : Seq) (st : Station) : Station :=
  withRequests (fun q => { q with purge := q.purge.dropOne s })
    (if (st.record s).isSome then headTakes (purgeRecord st s) else st)

/-- R137 to R140: the completion of a PURGE round; a scope of 0 names none and purges nothing (log 17). -/
def completePurge (st : Station) : Station :=
  match completing .purge st with
  | none => st
  | some r =>
    let guarded := toGuard st
    if st.start.node = .running then
      match r.result 0, r.result 1 with
      | some 1, _ => purgeAll guarded
      | some 2, _ => purgeOpen guarded
      | some 3, some subject => purgeOne (BitVec.ofNat 16 subject) guarded
      | _, _ => guarded
    else guarded

/-! ## The commands -/

def execRoundCompleteNone (s : State) : Host.Outcome State Fault Refusal := live s completeNone

def execRollRoundComplete (slots : List (BitVec 52)) (order : List CompareId) (s : State) :
    Host.Outcome State Fault Refusal := live s (completeRoll slots order)

def execOpenRoundComplete (s : State) : Host.Outcome State Fault Refusal := live s completeOpen

def execTallyRoundComplete (slots : List (BitVec 448)) (s : State) : Host.Outcome State Fault Refusal :=
  live s (completeTally slots)

def execVerdictRoundComplete (s : State) : Host.Outcome State Fault Refusal := live s completeVerdict

def execPurgeRoundComplete (s : State) : Host.Outcome State Fault Refusal := live s completePurge

end Sys2Proof.Machine
end

