-- ==== Sys2Proof/Machine/Scan.lean ====
section
/-! DEFINITION. The scan port: frames, validation, the scan FIFO and overruns (chapter 3, sections 3.1 and 3.2). -/

namespace Sys2Proof.Machine

/-- R53: scan frame is driven; the frame is taken from JOINING on, and otherwise ignored to its end. -/
def frameDriven (st : Station) : Station :=
  if st.scan.frame = .released then
    { st with scan := { st.scan with frame := if st.start.node.onLine then .taken else .ignored } }
  else st

/-- R58: OPEN and CLOSING bands get the band flag INCOMPLETE. -/
def Record.markOverrun (r : Record) : Record :=
  if r.band.state = .opened ∨ r.band.state = .closing then
    { r with band := { r.band with summary := { r.band.summary with incomplete := true } } }
  else r

/-- R58, R59: a valid report arrives with the FIFO full. -/
def overrun (st : Station) : Station :=
  raiseCause .scanFault
    { st with
      table := st.table.map Record.markOverrun
      scan := { st.scan with overrun := st.scan.overrun || st.edge.pending.isSome } }

/-- R57, R58: a valid report joins the FIFO, or overruns it. -/
def reportArrives (r : Report) (st : Station) : Station :=
  if st.scan.fifo.length < Config.scanFifoCapacity then
    let joined : Station := { st with scan := { st.scan with fifo := st.scan.fifo ++ [r] } }
    if st.scan.fifo.isEmpty then headTakes joined else joined
  else overrun st

/-- R53 to R55: scan frame is released after these bits. -/
def frameEnd (bits : List Bool) (st : Station) : Station :=
  let released : Station := { st with scan := { st.scan with frame := .released } }
  match st.scan.frame with
  | .released => st
  | .ignored => released
  | .taken =>
    match readFrame bits with
    | .broken => raiseCause .scanFault released
    | .invalid => raiseCause .scanFault released
    | .report r => reportArrives r released

/-- The line follows the front end while reset holds the station (log 5); no frame is taken then. -/
def execScanFrameDriven (s : State) : Host.Outcome State Fault Refusal := always s frameDriven

def execScanFrameEnd (bits : List Bool) (s : State) : Host.Outcome State Fault Refusal := always s (frameEnd bits)

end Sys2Proof.Machine
end

