-- ==== Sys2Proof/Machine/Startup.lean ====
section
/-! DEFINITION. Reset, the configuration read, CONFIG_FAULT and the entry to JOINING (chapter 9). -/

namespace Sys2Proof.Machine

/-- R172, R173: every block takes its value after reset; the input pins keep their levels. -/
def resetStation (straps : Straps) (indexFault : Bool) (st : Station) : Station :=
  Station.resetWith straps indexFault st.edge.pin st.scan.frame

/-- R172: the supply is below its range. Reset holds the station and every output is released; the straps last sampled are
kept until the release samples them anew (log 7). -/
def supplyLow (st : Station) : Station :=
  let held := resetStation ⟨st.start.index, st.start.outlet⟩ false st
  { held with heldInReset := true, start := { held.start with readPos := none } }

/-- R180: entry to CONFIG_FAULT. -/
def enterConfigFault (reason : FaultReason) (st : Station) : Station :=
  raiseCause .configFault
    { st with
      start := { st.start with node := .configFault, fault := some reason, readPos := none, checkWord := none }
      position := { st.position with pulsesOwed := 0, triggerLine := .idle } }

/-- R175, R178, R179: the header of 7 bytes has been read. -/
def headerRead (header : List Byte) (st : Station) : Station :=
  if st.start.node = .loading ∧ st.start.readPos = some 0 then
    match headerFault header with
    | some reason => enterConfigFault (if st.line.indexFault then .duplicateIndex else reason) st
    | none => { st with start := { st.start with readPos := some 7, checkWord := some (wordAt header 5) } }
  else st

/-- R39: at entry to JOINING presence held means BLANKED with no start of absence. -/
def watchBand (st : Station) : Station :=
  if st.presenceHeld then { st with edge := { st.edge with state := .blanked, absence := none } } else st

/-- R178, R181: the loaded configuration is handed to the blocks. -/
def enterJoining (bytes : List Byte) (st : Station) : Station :=
  let loc := readLocal bytes
  let loaded : Station :=
    { st with
      start := { st.start with
        node := .joining, readPos := none, checkWord := none, config := some ⟨readShared bytes, loc⟩,
        digest := some (digest32 (bytes.take Config.sharedLength)) }
      position := { st.position with triggerPos := st.position.highWater, triggerLine := .mark }
      line := { st.line with quiet := 0 }
      port := { st.port with enable := Causes.ofMask loc.enableMask, watermark := loc.watermark }.levelResultReady }
  raiseRoll (watchBand loaded)

/-- R178, R179: the sections have been read and select is released. -/
def readEnd (sections : List Byte) (st : Station) : Station :=
  if st.start.node = .loading ∧ st.start.readPos = some 7 then
    if st.line.indexFault then enterConfigFault .duplicateIndex st
    else match sectionsFault (st.start.checkWord.getD 0) sections with
      | some reason => enterConfigFault reason st
      | none => enterJoining (sectionBytes sections) st
  else st

/-- R172: the release of power-on reset. -/
def execPowerOnReset (straps : Straps) (s : State) : Host.Outcome State Fault Refusal :=
  always s (resetStation straps false)

/-- R172: the release of the RESET pin; a low pin changes nothing while the supply holds the station. -/
def execResetPin (straps : Straps) (s : State) : Host.Outcome State Fault Refusal :=
  live s (resetStation straps false)

def execSupplyBelowRange (s : State) : Host.Outcome State Fault Refusal := always s supplyLow

def execConfigHeaderRead (header : List Byte) (s : State) : Host.Outcome State Fault Refusal := live s (headerRead header)

def execConfigReadEnd (sections : List Byte) (s : State) : Host.Outcome State Fault Refusal := live s (readEnd sections)

end Sys2Proof.Machine
end

