-- ==== Sys2Proof/Machine/Dispatch.lean ====
section
/-! DEFINITION. The meaning of each command: one arm for each constructor of Instr. -/

namespace Sys2Proof.Machine

def exec (i : Instr) (s : State) : Host.Outcome State Fault Refusal :=
  match i with
  | .powerOnReset straps => Sys2Proof.Machine.execPowerOnReset straps s
  | .resetPin straps => Sys2Proof.Machine.execResetPin straps s
  | .configHeaderRead header => Sys2Proof.Machine.execConfigHeaderRead header s
  | .configReadEnd sections => Sys2Proof.Machine.execConfigReadEnd sections s
  | .restartMarkEnd => Sys2Proof.Machine.execRestartMarkEnd s
  | .encoderStep dir => Sys2Proof.Machine.execEncoderStep dir s
  | .encoderDoubleTransition => Sys2Proof.Machine.execEncoderDoubleTransition s
  | .triggerPulseEnd => Sys2Proof.Machine.execTriggerPulseEnd s
  | .presenceAppears => Sys2Proof.Machine.execPresenceAppears s
  | .presenceLost => Sys2Proof.Machine.execPresenceLost s
  | .qualificationCompare => Sys2Proof.Machine.execQualificationCompare s
  | .bridgingCompare => Sys2Proof.Machine.execBridgingCompare s
  | .blankReleaseCompare => Sys2Proof.Machine.execBlankReleaseCompare s
  | .overlengthCompare => Sys2Proof.Machine.execOverlengthCompare s
  | .emptyCompare seq => Sys2Proof.Machine.execEmptyCompare seq s
  | .lagCompare seq => Sys2Proof.Machine.execLagCompare seq s
  | .decisionCompare seq => Sys2Proof.Machine.execDecisionCompare seq s
  | .gateCompare => Sys2Proof.Machine.execGateCompare s
  | .gateWindowEndCompare => Sys2Proof.Machine.execGateWindowEndCompare s
  | .sampleCompare => Sys2Proof.Machine.execSampleCompare s
  | .settleEnd => Sys2Proof.Machine.execSettleEnd s
  | .sampleCompletion raw => Sys2Proof.Machine.execSampleCompletion raw s
  | .warmUpExpiry => Sys2Proof.Machine.execWarmUpExpiry s
  | .parkExpiry => Sys2Proof.Machine.execParkExpiry s
  | .scanFrameEnd bits => Sys2Proof.Machine.execScanFrameEnd bits s
  | .lineQuietJoin => Sys2Proof.Machine.execLineQuietJoin s
  | .roundOpen => Sys2Proof.Machine.execRoundOpen s
  | .openingPulseEnd length => Sys2Proof.Machine.execOpeningPulseEnd length s
  | .alignmentPatternAccepted first second third => Sys2Proof.Machine.execAlignmentPatternAccepted first second third s
  | .kindContestEnd peers => Sys2Proof.Machine.execKindContestEnd peers s
  | .passEnd peers => Sys2Proof.Machine.execPassEnd peers s
  | .ownSlotReadBack => Sys2Proof.Machine.execOwnSlotReadBack s
  | .ownSlotMismatch straps => Sys2Proof.Machine.execOwnSlotMismatch straps s
  | .lineError fault => Sys2Proof.Machine.execLineError s fault
  | .longDriveStart => Sys2Proof.Machine.execLongDriveStart s
  | .longDriveReleased => Sys2Proof.Machine.execLongDriveReleased s
  | .breakReceived => Sys2Proof.Machine.execBreakReceived s
  | .breakWireReleased => Sys2Proof.Machine.execBreakWireReleased s
  | .muteQuietCountFull => Sys2Proof.Machine.execMuteQuietCountFull s
  | .breakSendEnd heard => Sys2Proof.Machine.execBreakSendEnd heard s
  | .guardEnd => Sys2Proof.Machine.execGuardEnd s
  | .roundCompleteNone => Sys2Proof.Machine.execRoundCompleteNone s
  | .rollRoundComplete slots order => Sys2Proof.Machine.execRollRoundComplete slots order s
  | .openRoundComplete => Sys2Proof.Machine.execOpenRoundComplete s
  | .tallyRoundComplete slots => Sys2Proof.Machine.execTallyRoundComplete slots s
  | .verdictRoundComplete => Sys2Proof.Machine.execVerdictRoundComplete s
  | .purgeRoundComplete => Sys2Proof.Machine.execPurgeRoundComplete s
  | .readResult => Sys2Proof.Machine.execReadResult s
  | .readResultShiftedOut => Sys2Proof.Machine.execReadResultShiftedOut s
  | .readStatus => Sys2Proof.Machine.execReadStatus s
  | .readCause => Sys2Proof.Machine.execReadCause s
  | .readCauseShiftedOut => Sys2Proof.Machine.execReadCauseShiftedOut s
  | .requestPurge scope seq => Sys2Proof.Machine.execRequestPurge scope seq s
  | .requestRoll => Sys2Proof.Machine.execRequestRoll s
  | .unknownCommand code => Sys2Proof.Machine.execUnknownCommand code s
  | .supplyBelowRange => Sys2Proof.Machine.execSupplyBelowRange s
  | .scanFrameDriven => Sys2Proof.Machine.execScanFrameDriven s
  | .openingAsListener => Sys2Proof.Machine.execOpeningAsListener s
  | .resultPortSelectReleased => Sys2Proof.Machine.execResultPortSelectReleased s

end Sys2Proof.Machine
end

