-- ==== Sys2Proof/Safety.lean ====
section
/-! DEFINITION. The invariants of the station that the statements speak of, one for each rule that states one, and the words that
several statements share. -/

namespace Sys2Proof.Machine

/-- R1, section 3.2, R111, R184: no table, FIFO or request set holds more than its capacity. -/
abbrev Station.fits (st : Station) : Prop :=
  st.table.length ≤ Config.tableCapacity ∧ st.scan.fifo.length ≤ Config.scanFifoCapacity ∧
    st.port.fifo.length ≤ Config.resultFifoCapacity ∧
    st.engine.requests.purge.subjects.length ≤ Config.purgeOneCapacity

/-- The parts of a record that are fixed at its creation (R2). -/
def Record.identity (r : Record) : Seq × Pos × Pos × Pos := (r.seq, r.refPos, r.decisionPos, r.gatePos)

/-- R11: no two records of the table have one sequence number. -/
abbrev Station.seqsDistinct (st : Station) : Prop := (st.table.map (·.seq)).Nodup

/-- R12: at most one record of the table has its own band OPEN. -/
abbrev Station.oneOpenBand (st : Station) : Prop := st.table.countP (fun r => r.band.state == .opened) ≤ 1

/-- R4: an OPEN, CLOSING or CLOSED band has a lead, a CLOSING or CLOSED one a trail, and no other band has either. -/
abbrev Band.edgesFit (b : Band) : Prop :=
  (b.lead.isSome = true ↔ b.state = .opened ∨ b.state = .closing ∨ b.state = .closed) ∧
    (b.trail.isSome = true ↔ b.state = .closing ∨ b.state = .closed)

/-- R3, R7: a record is DECIDED exactly when it has a final outcome, and a TALLIED record has a local verdict. -/
abbrev Record.phaseFits (r : Record) : Prop :=
  (r.outcome.isSome = true ↔ r.phase = .decided) ∧ (r.phase = .tallied → r.verdict.isSome = true) ∧
    (r.phase = .gathering → r.frozen = true → r.verdict.isSome = true)

/-- R3, R4, R7: every record of the table is as its phase and its own band state ask. -/
abbrev Station.recordsFit (st : Station) : Prop := ∀ r ∈ st.table, r.band.edgesFit ∧ r.phaseFits

/-- R190: RESULT_READY is pending exactly while the FIFO count is at or above the watermark. -/
abbrev Station.resultReadyLevel (st : Station) : Prop :=
  st.port.causes.resultReady = decide (st.port.watermark.toNat ≤ st.port.fifo.length)

/-- R178, R180: a configuration is loaded, with its digest, exactly from JOINING on, and a fault reason stands exactly in
CONFIG_FAULT. -/
abbrev Station.startFits (st : Station) : Prop :=
  st.start.config.isSome = st.start.node.onLine ∧ st.start.digest.isSome = st.start.node.onLine ∧
    (st.start.fault.isSome = true ↔ st.start.node = .configFault)

/-- R144, R176, R178: a loaded configuration has every field in its range, its distances in order and its grade table in
order. -/
abbrev Station.configFits (st : Station) : Prop :=
  ∀ c ∈ st.start.config.toList, fieldsInRange c.shared c.loc = true ∧ distancesOrdered c.shared = true ∧
    gradeTableOrdered c.shared.gradeTable = true

/-- R36: the round capture is held exactly while a round is in flight. -/
abbrev Station.captureFits (st : Station) : Prop := st.position.capture.isSome = st.line.round.isSome

/-- R89, R93: a round is in flight only in OPENING and IN_ROUND, and always in IN_ROUND. -/
abbrev Station.roundFits (st : Station) : Prop :=
  (st.line.round.isSome = true → st.line.state = .opening ∨ st.line.state = .inRound) ∧
    (st.line.state = .inRound → st.line.round.isSome = true)

/-- R74, R82: the warm-up timer runs in WARMING only, the park timer in READY only, and a sample is in flight in SAMPLING
only. -/
abbrev ProbeUnit.fits (p : ProbeUnit) : Prop :=
  (p.warmTimer.isSome = true ↔ p.state = .warming) ∧ (p.parkTimer.isSome = true ↔ p.state = .ready) ∧
    (p.target.isSome = true ↔ p.state = .sampling) ∧ (p.timing = .stopped ↔ p.state ≠ .sampling)

/-- R84: the record that a sample in flight targets is held, and its own band is OPEN or CLOSING. -/
abbrev Station.targetFits (st : Station) : Prop :=
  ∀ target ∈ st.probe.target.toList, target = .lost ∨
    ∃ r ∈ st.table, target = .held r.seq ∧ (r.band.state = .opened ∨ r.band.state = .closing)

/-- R38, R39, R49: the pending edge, the fall position and the start of absence stand as the edge state asks. A pending edge is
closed in IDLE only; one that is not closed can stand in IDLE too, where its trailing edge has gone to a band still OPEN (R45,
log 20). -/
abbrev EdgeUnit.fits (e : EdgeUnit) : Prop :=
  (e.fall.isSome = true ↔ e.state = .falling) ∧ (e.absence.isSome = true → e.state = .blanked) ∧
    (e.state = .blanked → e.pending = none) ∧
    (e.state = .rising → e.pending.isSome = true) ∧
    ∀ p ∈ e.pending.toList, (p.qualified = false ↔ e.state = .rising) ∧ (p.fall.isSome = true → e.state = .idle)

/-- Whether a compare of this purpose is stored. -/
abbrev Station.stores (st : Station) (id : CompareId) : Bool := st.position.compares.any fun c => c.id == id

/-- R35, R41, R44, R49, R162: one compare for a purpose; the qualification compare in RISING, the bridging compare in FALLING,
the blank release compare with a start of absence, and the window end compare with an OPEN window. -/
abbrev Station.comparesFit (st : Station) : Prop :=
  (st.position.compares.map (·.id)).Nodup ∧
    (st.stores .qualification = true ↔ st.edge.state = .rising) ∧
    (st.stores .bridging = true ↔ st.edge.state = .falling) ∧
    (st.stores .blankRelease = true ↔ st.edge.absence.isSome = true) ∧
    (st.stores .windowEnd = true ↔ st.outlet.window.isSome = true)

/-- The sequence number that a compare of a record names. -/
def CompareId.subject (id : CompareId) : Option Seq :=
  match id with
  | .empty s => some s
  | .lag s => some s
  | .decision s => some s
  | .gate s => some s
  | .qualification => none
  | .bridging => none
  | .blankRelease => none
  | .overlength => none
  | .sample => none
  | .windowEnd => none

/-- R25, R111: every compare, TALLY request and VERDICT request of a record names a record that the table holds, and no
subject has two requests of a kind. -/
abbrev Station.subjectsHeld (st : Station) : Prop :=
  (∀ c ∈ st.position.compares, (CompareId.subject c.id).all (fun s => decide (s ∈ st.table.map (·.seq))) = true) ∧
    (∀ h ∈ st.engine.requests.tally, h.subject ∈ st.table.map (·.seq)) ∧
    (∀ h ∈ st.engine.requests.verdict, h.subject ∈ st.table.map (·.seq)) ∧
    (st.engine.requests.tally.map (·.subject)).Nodup ∧ (st.engine.requests.verdict.map (·.subject)).Nodup

/-- R174: what the table of node states gives for LOADING and CONFIG_FAULT. -/
abbrev Station.offLineQuiet (st : Station) : Prop :=
  st.start.node.onLine = false →
    st.edge.state = .idle ∧ st.edge.pending = none ∧ st.edge.testDeferred = false ∧ st.position.compares = [] ∧
      st.scan.fifo = [] ∧ st.scan.frame ≠ .taken ∧ st.probe = ProbeUnit.reset ∧ st.line.state = .off ∧
      st.line.longDrive = false ∧ st.table = [] ∧ st.engine.requests = Requests.none ∧ st.outlet.window = none ∧
      st.port.fifo = []

/-! ## Words of the statements -/

/-- R160, R168: a result record carries the number and P of a record, its removal tally, and those of its sheet flags that a
removal does not set itself. An own band still OPEN or CLOSING adds nothing (log 33). -/
def ResultRecord.carries (sh : Shared) (r : Record) (x : ResultRecord) : Prop :=
  let t := sheetTally sh.mergeTolerance.toNat r.entries
  x.seq = r.seq ∧ x.refPos = r.refPos ∧ x.moisture = t.moisture ∧
    (∀ c : DefectClass,
      x.figures.get c = (BitVec.ofNat 8 (t.figures.get c).count, BitVec.ofNat 12 (t.figures.get c).largest)) ∧
    x.flags.incomplete = (r.flags.incomplete || (closedSummaries r.entries).any (·.incomplete)) ∧
    x.flags.overlength = (r.flags.overlength || (closedSummaries r.entries).any (·.overlength)) ∧
    x.flags.blind = r.flags.blind ∧ x.flags.disputed = r.flags.disputed ∧ x.flags.late = r.flags.late ∧
    x.flags.unmeasured = r.flags.unmeasured

/-- R196: the byte, and the two-byte field, at an offset of the image; the sections begin at offset 7. -/
def imageByte (sections : List Byte) (offset : Nat) : Nat := (byteAt sections (offset - 7)).toNat

def imageWord (sections : List Byte) (offset : Nat) : Nat := (wordAt sections (offset - 7)).toNat

/-- R196: the offset of the limits of a class, numbered from 0, in a grade, FACE1 being 0 and CORE 3. -/
def imageLimits (grade cls : Nat) : Nat := 35 + 30 * grade + 5 * cls

/-- R177, R192: the check value over the 157 bytes of the sections, with generator x^16 + x^12 + x^5 + 1 from a register of ones. -/
def imageCheck (sections : List Byte) : BitVec 16 :=
  ((List.range 157).flatMap fun i => putBits (byteAt sections i)).foldl
    (fun reg bit => if reg.msb != bit then (reg <<< 1) ^^^ 0x1021#16 else reg <<< 1) 0xFFFF#16

/-- R176, R196: every field of the sections that can carry a value out of its range is in it. -/
abbrev imageInRange (b : List Byte) : Prop :=
  imageByte b 7 ≤ 3 ∧ 1 ≤ imageWord b 8 ∧ 1 ≤ imageByte b 10 ∧ 1 ≤ imageByte b 11 ∧ 1 ≤ imageWord b 12 ∧
    1 ≤ imageWord b 14 ∧ 1 ≤ imageWord b 16 ∧ 1 ≤ imageWord b 18 ∧ 1 ≤ imageWord b 20 ∧ 1 ≤ imageByte b 22 ∧
    (1 ≤ imageWord b 23 ∧ imageWord b 23 ≤ 4096) ∧ 1 ≤ imageWord b 26 ∧ (imageByte b 28 = 0 ∨ 16 ≤ imageByte b 28) ∧
    1 ≤ imageWord b 29 ∧ (1 ≤ imageByte b 31 ∧ imageByte b 31 ≤ 127) ∧ imageWord b 32 ≤ 1023 ∧
    (1 ≤ imageByte b 34 ∧ imageByte b 34 ≤ 8) ∧
    (∀ grade, grade < 4 → ∀ cls, cls < 6 → imageWord b (imageLimits grade cls + 1) ≤ 4095) ∧
    1 ≤ imageByte b 159 ∧ 1 ≤ imageByte b 160 ∧ imageByte b 161 ≤ 1 ∧ (1 ≤ imageByte b 163 ∧ imageByte b 163 ≤ 16)

/-- R178 test 5, R196: Q is less than H, W is at or above Q, the decision distance is at or above M + L + W + Q, and the gate distance
is above the decision distance. -/
abbrev imageOrdered (b : List Byte) : Prop :=
  imageByte b 10 < imageByte b 11 ∧ imageByte b 10 ≤ imageWord b 8 ∧
    imageWord b 12 + imageWord b 14 + imageWord b 8 + imageByte b 10 ≤ imageWord b 16 ∧ imageWord b 16 < imageWord b 18

/-- R144, R178 test 6, R196: every limit is non-decreasing from FACE1 to CORE. -/
abbrev imageRising (b : List Byte) : Prop :=
  ∀ grade, grade < 3 → ∀ cls, cls < 6 →
    imageByte b (imageLimits grade cls) ≤ imageByte b (imageLimits (grade + 1) cls) ∧
      imageWord b (imageLimits grade cls + 1) ≤ imageWord b (imageLimits (grade + 1) cls + 1) ∧
      imageWord b (imageLimits grade cls + 3) ≤ imageWord b (imageLimits (grade + 1) cls + 3)

/-- R172, R173: every block of `t` has its value after reset, with the straps as sampled and this index fault mark; the input pins
keep the levels of `st` (log 5). -/
def Station.resetFrom (straps : Straps) (indexFault : Bool) (st t : Station) : Prop :=
  t.heldInReset = false ∧
    t.start = { node := .loading, index := straps.index, outlet := straps.outlet, readPos := some 0, checkWord := none,
                config := none, digest := none, fault := none } ∧
    t.position = { counter := 0, direction := .forward, highWater := 0, reverseTravel := 0, triggerCount := 0,
                   triggerPos := 0, pulsesOwed := 0, triggerLine := .idle, compares := [], capture := none } ∧
    t.edge = { state := .idle, pending := none, fall := none, absence := none, frozen := false, testDeferred := false,
               pin := st.edge.pin } ∧
    (t.scan.fifo = [] ∧ t.scan.head = none ∧ t.scan.overrun = false ∧
      (t.scan.frame = .released ↔ st.scan.frame = .released) ∧ t.scan.frame ≠ .taken) ∧
    t.probe = { state := .off, warmTimer := none, parkTimer := none, timing := .stopped, target := none } ∧
    t.line = { state := .off, opener := false, breakSender := false, longDrive := false, roundCell := none, quiet := 0,
               mismatch := 0, indexFault := indexFault, round := none } ∧
    t.engine = { requests := { opening := false, roll := false, tally := [], verdict := [], purge := .none },
                 peers := ⟨none, none, none, none, none, none, none, none⟩, nextSeq := 0, openCount := 0 } ∧
    t.table = [] ∧ t.outlet = { window := none } ∧
    t.port = { fifo := [], lost := 0, causes := ⟨false, false, false, false, false, false, false, false⟩,
               enable := ⟨true, true, true, true, true, true, true, true⟩, watermark := 1, read := none,
               selected := false, answer := [] }

/-- R49: the start of absence at an entry to BLANKED with presence absent: the fall position of a FALLING run, else the counter. -/
def Station.absenceStart (st : Station) : Pos :=
  if st.edge.state = .falling then st.edge.fall.getD st.position.counter else st.position.counter

/-- R48, R49: `t` has the Edge Unit of `st` after an entry to BLANKED. Entry while BLANKED leaves the state and the start of
absence; with presence held there is no start of absence; with presence absent there is one, and where it lies H or more back the Edge Unit
is IDLE, unless it is frozen (R51). -/
def Station.entersBlanked (st t : Station) : Prop :=
  let left : EdgeUnit := { st.edge with pending := none, testDeferred := false }
  let back := atOrAfter st.position.counter (st.absenceStart + counts st.shared.bridge)
  t.stores .qualification = false ∧ t.stores .bridging = false ∧
    (st.edge.state = .blanked → t.edge = left) ∧
    (st.edge.state ≠ .blanked → st.presenceHeld = true →
      t.edge = { left with state := .blanked, fall := none, absence := none } ∧ t.stores .blankRelease = false) ∧
    (st.edge.state ≠ .blanked → st.presenceHeld = false → back = true → st.edge.frozen = false →
      t.edge = { left with state := .idle, fall := none, absence := none } ∧ t.stores .blankRelease = false) ∧
    (st.edge.state ≠ .blanked → st.presenceHeld = false → (back = false ∨ st.edge.frozen = true) →
      t.edge = { left with state := .blanked, fall := none, absence := some st.absenceStart } ∧
      t.position.find .blankRelease = some ⟨.blankRelease, st.absenceStart + counts st.shared.bridge,
        if back then .kept else .waiting⟩)

/-- R17, R60, R61: the scan head condition of a band with this trail: the FIFO is empty, or the report at its head is not stale and
maps to a position after the trail. -/
def Station.headClear (st : Station) (trail : Pos) : Prop :=
  ∀ rep rest, st.scan.fifo = rep :: rest →
    let difference := (st.position.triggerCount - rep.line).toNat
    difference < 32768 ∧
      isAfter (st.position.triggerPos - BitVec.ofNat 32 (difference * st.shared.scanPitch.toNat)) trail = true

/-- R14, R18, R20, R154: in `t`, the own entry of record `r` of `st` has been stored, TALLY is raised with a clear mark, and the
completeness test has been made. A GATHERING record that has then an entry of every member is TALLIED, its TALLY request kept; where it is
not frozen its local verdict is graded from its entries and VERDICT is raised held back, unless it is held. A late report may set LATE
in the same event. -/
def Station.storesOwnEntry (st : Station) (r : Record) (entry : Entry) (t : Station) : Prop :=
  let x : Record := { r with entries := r.entries.set st.start.index (some entry) }
  let complete := r.phase = .gathering ∧ ∀ k : Index, (st.engine.peers.get k).isSome = true → (x.entries.get k).isSome = true
  let requests := fun (s : Station) => s.engine.requests.verdict.filter fun h => h.subject == r.seq
  ∃ b, t.record r.seq = some b ∧ b.entries = x.entries ∧ (⟨r.seq, false⟩ : Held) ∈ t.engine.requests.tally ∧
    (¬ complete → b.phase = r.phase ∧ b.verdict = r.verdict ∧ b.flags = { r.flags with late := b.flags.late } ∧
      requests t = requests st) ∧
    (complete → b.phase = .tallied ∧
      (r.frozen = true → b.verdict = r.verdict ∧ b.flags = { r.flags with late := b.flags.late } ∧ requests t = requests st) ∧
      (r.frozen = false → b.verdict.isSome = true ∧ b.verdict = (gradeRecord st.shared x).verdict ∧
        b.flags = { (gradeRecord st.shared x).flags with late := b.flags.late } ∧
        requests t = if (requests st).isEmpty then [⟨r.seq, true⟩] else requests st))

/-- R42, R98, R126: a command at which an attachment test that waits on a round is made: the end of a kind contest whose kind is
not OPEN, the completion of a round in whose contest no station offers, the completion of an OPEN round that gives a RUNNING
station no position, a BREAK, and two entries to MUTE, by a fault of the alignment pattern and by a long drive that is released. -/
def Station.makesWaitingTest (st : Station) (c : Instr) : Prop :=
  st.heldInReset = false ∧
    ((∃ (peers : List (BitVec 3)) (r : Round), c = .kindContestEnd peers ∧ st.line.state = .inRound ∧
        st.line.longDrive = false ∧ st.line.round = some r ∧ r.kind = none ∧
        (contestField.run r.offers.contest (peers.map (·.toNat))).result ≠ some 5) ∨
      (∃ r, c = .roundCompleteNone ∧ st.line.state = .inRound ∧ st.line.longDrive = false ∧ st.line.round = some r ∧
        r.kind = none ∧ r.offers.contest = none) ∨
      (∃ r, c = .openRoundComplete ∧ completing .opening st = some r ∧ (st.start.node = .running → r.result 0 = none)) ∨
      (c = .breakReceived ∧ st.line.state ≠ .off ∧ st.line.state ≠ .breaking) ∨
      (c = .lineError .pattern ∧ st.line.state = .opening ∧ st.line.round.isSome = true ∧ st.line.longDrive = false) ∨
      (c = .longDriveReleased ∧ st.line.longDrive = true))

end Sys2Proof.Machine
end

