-- ==== Sys2Proof/Certificates/Slice0/Obligations.lean ====
section
/-! DEFINITION. The statements for the provers. A state is written ⟨st, q⟩: the station and the queue. "Live" is a station that
reset does not hold. Each statement's entry in OBLIGATIONS.json says in words what is stated and cites the rules. -/

open Sys2Proof Sys2Proof.Machine

/-! ## The machine -/

/-- A step runs the command at the front of the queue on the state with the rest of the queue. -/
def Obligations.StepRunsFrontCommand : Prop :=
  ∀ (c : Instr) (st : Station) (q : List Instr), step ⟨st, c :: q⟩ = exec c ⟨st, q⟩

/-- On an empty queue the station idles: the model's choice (log 1). Every command runs to a next state in every state, and
leaves the rest of the queue as it is. -/
def Obligations.EveryStepGoesOn : Prop :=
  (∀ st : Station, step ⟨st, []⟩ = .next ⟨st, []⟩) ∧
  (∀ (c : Instr) (st : Station) (q : List Instr), ∃ t : Station, exec c ⟨st, q⟩ = .next ⟨t, q⟩)

/-! ## Reset and start-up (chapter 9) -/

/-- R172, R173: both resets have one effect, and every block takes its value after reset. -/
def Obligations.ResetReleaseSetsEveryBlock : Prop :=
  ∀ (straps : Straps) (st : Station) (q : List Instr), ∃ t : Station,
    exec (.powerOnReset straps) ⟨st, q⟩ = .next ⟨t, q⟩ ∧
    (st.heldInReset = false → exec (.resetPin straps) ⟨st, q⟩ = .next ⟨t, q⟩) ∧
    st.resetFrom straps false t

/-- R172: while the supply is below its range every output is released, and no command but the supply's own and the levels of
input pins changes anything. -/
def Obligations.SupplyBelowRangeHoldsStation : Prop :=
  (∀ (st : Station) (q : List Instr), ∃ t : Station,
    exec .supplyBelowRange ⟨st, q⟩ = .next ⟨t, q⟩ ∧ t.heldInReset = true ∧ t.start.node = .loading ∧ t.table = [] ∧
    t.edge.pin = st.edge.pin) ∧
  (∀ st : Station, st.heldInReset = true →
    st.probeExcite = .released ∧ st.binSelect = 0 ∧ st.attentionDriven = false ∧ st.scanTriggerDriven = false ∧
    st.configSelectDriven = false ∧ st.configClockRuns = false ∧ st.configDataOut = [] ∧
    (∀ n, st.resultDataOut n = none) ∧ ∀ heard, st.gradeLineDriven heard = false) ∧
  (∀ (c : Instr) (st : Station) (q : List Instr), st.heldInReset = true →
    (∀ straps, c ≠ .powerOnReset straps) → c ≠ .supplyBelowRange → c ≠ .presenceAppears → c ≠ .presenceLost →
    c ≠ .scanFrameDriven → (∀ bits, c ≠ .scanFrameEnd bits) → exec c ⟨st, q⟩ = .next ⟨st, q⟩)

/-- R175 to R180, R192, R196: what the configuration port carries through the read; a sound header lets the read go on to byte 7 of
the image, also where the index fault mark is set; an unsound header, an invalid image and any image where the mark is set end the
read in CONFIG_FAULT. The tests of the sections, in their order, on the bytes of the image. -/
def Obligations.FaultyImageEntersConfigFault : Prop :=
  (∀ st : Station, st.heldInReset = false →
    (st.start.readPos = some 0 →
      st.configSelectDriven = true ∧ st.configClockRuns = true ∧ st.configDataOut = [3, 0, 0]) ∧
    (st.start.readPos = some 7 → st.configSelectDriven = true ∧ st.configClockRuns = true ∧ st.configDataOut = []) ∧
    (st.start.readPos = none → st.configSelectDriven = false ∧ st.configClockRuns = false ∧ st.configDataOut = [])) ∧
  (∀ (header : List Byte) (st : Station) (q : List Instr),
    st.heldInReset = false → st.start.node = .loading → st.start.readPos = some 0 →
    (wordAt header 0 = 0x4E57#16 ∧ byteAt header 2 = 1#8 ∧ wordAt header 3 = 157#16 →
      exec (.configHeaderRead header) ⟨st, q⟩ =
        .next ⟨{ st with start := { st.start with readPos := some 7, checkWord := some (wordAt header 5) } }, q⟩) ∧
    (¬ (wordAt header 0 = 0x4E57#16 ∧ byteAt header 2 = 1#8 ∧ wordAt header 3 = 157#16) →
      exec (.configHeaderRead header) ⟨st, q⟩ =
        .next ⟨{ st with
          start := { st.start with
            node := .configFault, readPos := none, checkWord := none,
            fault := some (if st.line.indexFault = true then .duplicateIndex
              else if wordAt header 0 = 0x4E57#16 then .header else .marker) }
          position := { st.position with pulsesOwed := 0, triggerLine := .idle }
          port := { st.port with causes := { st.port.causes with configFault := true } } }, q⟩)) ∧
  (∀ (sections : List Byte) (reason : FaultReason) (st : Station) (q : List Instr),
    st.heldInReset = false → st.start.node = .loading → st.start.readPos = some 7 →
    ((st.line.indexFault = true ∧ reason = .duplicateIndex) ∨
      (st.line.indexFault = false ∧ sectionsFault (st.start.checkWord.getD 0) sections = some reason)) →
    exec (.configReadEnd sections) ⟨st, q⟩ =
      .next ⟨{ st with
        start := { st.start with node := .configFault, readPos := none, checkWord := none, fault := some reason }
        position := { st.position with pulsesOwed := 0, triggerLine := .idle }
        port := { st.port with causes := { st.port.causes with configFault := true } } }, q⟩) ∧
  (∀ (sections : List Byte) (checkWord : BitVec 16),
    let fault := sectionsFault checkWord sections
    (checkWord ≠ imageCheck sections → fault = some .check) ∧
    (checkWord = imageCheck sections →
      (¬ imageInRange sections → fault = some .range) ∧
      (imageInRange sections →
        (¬ imageOrdered sections → fault = some .order) ∧
        (imageOrdered sections →
          (¬ imageRising sections → fault = some .gradeTable) ∧ (imageRising sections → fault = none)))))

/-- R178, R181, R191: a valid image enters JOINING, and the loaded configuration reaches every block in one event; a cause pending
at that moment stays pending. -/
def Obligations.ValidImageEntersJoining : Prop :=
  ∀ (sections : List Byte) (st : Station) (q : List Instr),
    st.heldInReset = false → st.start.node = .loading → st.start.readPos = some 7 → st.line.indexFault = false →
    sectionsFault (st.start.checkWord.getD 0) sections = none → ∃ t : Station,
      exec (.configReadEnd sections) ⟨st, q⟩ = .next ⟨t, q⟩ ∧
      t.start = { st.start with
        node := .joining, readPos := none, checkWord := none,
        config := some ⟨readShared (sectionBytes sections), readLocal (sectionBytes sections)⟩,
        digest := some (digest32 ((sectionBytes sections).take 151)) } ∧
      t.position = { st.position with triggerPos := st.position.highWater, triggerLine := .mark } ∧
      t.engine = { st.engine with requests := { st.engine.requests with roll := true } } ∧
      t.line = { st.line with quiet := 0 } ∧
      (t.presenceHeld = true → t.edge = { st.edge with state := .blanked, absence := none }) ∧
      (t.presenceHeld = false → t.edge = st.edge) ∧
      t.port = { st.port with
        enable := Causes.ofMask t.loc.enableMask, watermark := t.loc.watermark,
        causes := { st.port.causes with resultReady := t.port.causes.resultReady } } ∧ t.resultReadyLevel ∧
      t.heldInReset = false ∧ t.scan = st.scan ∧ t.probe = st.probe ∧ t.table = st.table ∧ t.outlet = st.outlet

/-! ## Position Unit (chapter 2) -/

/-- R27: an encoder step moves the counter by one and sets the direction, in every node state; a double transition changes
nothing. -/
def Obligations.EncoderStepMovesCounter : Prop :=
  ∀ (st : Station) (q : List Instr), st.heldInReset = false →
    (∃ t : Station, exec (.encoderStep .forward) ⟨st, q⟩ = .next ⟨t, q⟩ ∧
      t.position.counter = st.position.counter + 1 ∧ t.position.direction = .forward ∧
      t.position.capture = st.position.capture ∧ t.start = st.start ∧ t.line = st.line ∧ t.edge.pin = st.edge.pin ∧
      t.scan.frame = st.scan.frame ∧ t.engine.peers = st.engine.peers ∧ t.engine.nextSeq = st.engine.nextSeq ∧
      t.engine.openCount = st.engine.openCount) ∧
    (∃ t : Station, exec (.encoderStep .reverse) ⟨st, q⟩ = .next ⟨t, q⟩ ∧
      t.position.counter = st.position.counter - 1 ∧ t.position.direction = .reverse ∧
      t.position.capture = st.position.capture ∧ t.position.triggerCount = st.position.triggerCount ∧
      t.position.triggerPos = st.position.triggerPos ∧ t.start = st.start ∧ t.line = st.line ∧ t.edge.pin = st.edge.pin ∧
      t.scan.frame = st.scan.frame ∧ t.engine.peers = st.engine.peers ∧ t.engine.nextSeq = st.engine.nextSeq ∧
      t.engine.openCount = st.engine.openCount) ∧
    exec .encoderDoubleTransition ⟨st, q⟩ = .next ⟨st, q⟩

/-- R29, R30, R33, R34, R51: the high-water position, the reverse travel accumulator and the freeze after a step; a trigger falls
due on a step that passes the high-water position and reaches the trigger position plus the scan pitch, and on no other. -/
def Obligations.HighWaterTravelAndTriggersFollowSteps : Prop :=
  (∀ (st : Station) (q : List Instr), st.heldInReset = false →
    (∃ t : Station, exec (.encoderStep .forward) ⟨st, q⟩ = .next ⟨t, q⟩ ∧
      (isAfter (st.position.counter + 1) st.position.highWater = true →
        t.position.highWater = st.position.counter + 1 ∧ t.position.reverseTravel = 0 ∧ t.edge.frozen = false) ∧
      (isAfter (st.position.counter + 1) st.position.highWater = false →
        t.position.highWater = st.position.highWater ∧ t.position.reverseTravel = st.position.reverseTravel ∧
        t.edge.frozen = st.edge.frozen)) ∧
    (∃ t : Station, exec (.encoderStep .reverse) ⟨st, q⟩ = .next ⟨t, q⟩ ∧
      t.position.highWater = st.position.highWater ∧
      t.position.reverseTravel.toNat = min 65535 (st.position.reverseTravel.toNat + 1) ∧ t.edge.frozen = true)) ∧
  (∀ (st : Station) (q : List Instr), st.heldInReset = false → ∃ t : Station,
    exec (.encoderStep .forward) ⟨st, q⟩ = .next ⟨t, q⟩ ∧
    ((st.start.node.onLine = true ∧ isAfter (st.position.counter + 1) st.position.highWater = true ∧
        st.position.counter + 1 = st.position.triggerPos + counts st.shared.scanPitch) →
      t.position.triggerCount = st.position.triggerCount + 1 ∧ t.position.triggerPos = st.position.counter + 1 ∧
      (st.position.pulsesOwed = 255 → t.position.pulsesOwed = 255 ∧ t.port.causes.scanFault = true) ∧
      (st.position.pulsesOwed ≠ 255 → st.position.triggerLine ≠ .idle →
        t.position.pulsesOwed = st.position.pulsesOwed + 1 ∧ t.position.triggerLine = st.position.triggerLine) ∧
      (st.position.pulsesOwed ≠ 255 → st.position.triggerLine = .idle →
        t.position.pulsesOwed = st.position.pulsesOwed ∧ t.position.triggerLine = .pulse)) ∧
    (¬ (st.start.node.onLine = true ∧ isAfter (st.position.counter + 1) st.position.highWater = true ∧
        st.position.counter + 1 = st.position.triggerPos + counts st.shared.scanPitch) →
      t.position.triggerCount = st.position.triggerCount ∧ t.position.triggerPos = st.position.triggerPos ∧
      t.position.pulsesOwed = st.position.pulsesOwed ∧ t.position.triggerLine = st.position.triggerLine))

/-- R31, R52, R78, R79: all that a reverse step does, where no compare waits to be taken. -/
def Obligations.ReverseStepRaisesPurgeAtLimit : Prop :=
  ∀ (st : Station) (q : List Instr), st.heldInReset = false → (∀ c ∈ st.position.compares, c.progress ≠ .due) →
    exec (.encoderStep .reverse) ⟨st, q⟩ = .next ⟨{ st with
      position := { st.position with
        counter := st.position.counter - 1, direction := .reverse,
        reverseTravel := BitVec.ofNat 16 (min 65535 (st.position.reverseTravel.toNat + 1)) }
      edge := { st.edge with frozen := true }
      probe :=
        if st.probe.state = .parked then { st.probe with state := .warming, warmTimer := some st.loc.warmUpTime }
        else if st.probe.state = .ready then { st.probe with parkTimer := some st.loc.parkTime }
        else st.probe
      engine :=
        if st.start.node = .running ∧ st.position.reverseTravel.toNat < 65535 ∧
            st.position.reverseTravel.toNat + 1 = st.shared.reverseLimit.toNat then
          { st.engine with requests := { st.engine.requests with purge := .all } }
        else st.engine }, q⟩

/-- R34, R56: the pulse and the restart mark, each with the released time that follows it, follow one another on the scan trigger
line, which is driven in a pulse and in the mark only. -/
def Obligations.TriggerLineFollowsPulses : Prop :=
  ∀ (st : Station) (q : List Instr), st.heldInReset = false →
    (st.scanTriggerDriven = true ↔ st.position.triggerLine = .pulse ∨ st.position.triggerLine = .mark) ∧
    (st.position.triggerLine = .pulse →
      exec .triggerPulseEnd ⟨st, q⟩ = .next ⟨{ st with position := { st.position with triggerLine := .gap } }, q⟩) ∧
    (st.position.triggerLine = .gap → st.position.pulsesOwed = 0 →
      exec .triggerPulseEnd ⟨st, q⟩ = .next ⟨{ st with position := { st.position with triggerLine := .idle } }, q⟩) ∧
    (st.position.triggerLine = .gap → st.position.pulsesOwed ≠ 0 →
      exec .triggerPulseEnd ⟨st, q⟩ = .next ⟨{ st with position := { st.position with
        triggerLine := .pulse, pulsesOwed := st.position.pulsesOwed - 1 } }, q⟩) ∧
    (st.position.triggerLine = .mark →
      exec .restartMarkEnd ⟨st, q⟩ = .next ⟨{ st with position := { st.position with triggerLine := .markGap } }, q⟩) ∧
    (st.position.triggerLine = .markGap → st.position.pulsesOwed = 0 →
      exec .restartMarkEnd ⟨st, q⟩ = .next ⟨{ st with position := { st.position with triggerLine := .idle } }, q⟩) ∧
    (st.position.triggerLine = .markGap → st.position.pulsesOwed ≠ 0 →
      exec .restartMarkEnd ⟨st, q⟩ = .next ⟨{ st with position := { st.position with
        triggerLine := .pulse, pulsesOwed := st.position.pulsesOwed - 1 } }, q⟩)

/-! ## Edge Unit (chapter 2) -/

/-- R41, R43, R44, R49: what the appearance of presence does in IDLE, FALLING and BLANKED, and its loss in RISING, PRESENT and
BLANKED. -/
def Obligations.PresenceChangesByEdgeState : Prop :=
  (∀ (st : Station) (q : List Instr),
    st.start.node.onLine = true → st.edge.frozen = false → st.presenceHeld = false →
    (st.edge.state = .idle → ∃ t : Station, exec .presenceAppears ⟨st, q⟩ = .next ⟨t, q⟩ ∧
      t.edge = { st.edge with
        state := .rising, pin := !st.edge.pin, testDeferred := false,
        pending := some { rise := st.position.counter, qualified := false, fall := none } } ∧
      t.position = st.position.store .qualification (st.position.counter + counts st.shared.qualification) .waiting ∧
      t.probe = st.probe ∧ t.line = st.line ∧ t.start = st.start ∧ t.outlet = st.outlet ∧ t.port = st.port ∧
      (st.edge.pending = none → t.table = st.table ∧ t.engine = st.engine ∧ t.scan = st.scan)) ∧
    (st.edge.state = .falling → exec .presenceAppears ⟨st, q⟩ = .next ⟨{ st with
      edge := { st.edge with state := .present, fall := none, pin := !st.edge.pin }
      position := st.position.drop .bridging }, q⟩) ∧
    (st.edge.state = .blanked → st.edge.absence.isSome = true → exec .presenceAppears ⟨st, q⟩ = .next ⟨{ st with
      edge := { st.edge with absence := none, pin := !st.edge.pin }
      position := st.position.drop .blankRelease }, q⟩)) ∧
  (∀ (st : Station) (q : List Instr),
    st.start.node.onLine = true → st.edge.frozen = false → st.presenceHeld = true →
    (st.edge.state = .rising → ∃ t : Station, exec .presenceLost ⟨st, q⟩ = .next ⟨t, q⟩ ∧
      t.edge = { st.edge with state := .idle, pending := none, testDeferred := false, pin := !st.edge.pin } ∧
      t.position = st.position.drop .qualification ∧
      t.engine.requests.opening = st.engine.requests.opening ∧
      t.probe = st.probe ∧ t.line = st.line ∧ t.start = st.start ∧ t.outlet = st.outlet ∧ t.port = st.port) ∧
    (st.edge.state = .present → exec .presenceLost ⟨st, q⟩ = .next ⟨{ st with
      edge := { st.edge with state := .falling, fall := some st.position.counter, pin := !st.edge.pin }
      position := st.position.store .bridging (st.position.counter + counts st.shared.bridge) .waiting }, q⟩) ∧
    (st.edge.state = .blanked → st.edge.absence = none → st.shared.bridge ≠ 0 →
      exec .presenceLost ⟨st, q⟩ = .next ⟨{ st with
        edge := { st.edge with absence := some st.position.counter, pin := !st.edge.pin }
        position := st.position.store .blankRelease (st.position.counter + counts st.shared.bridge) .waiting }, q⟩))

/-- R51: the resume on the step that passes the high-water position. The presence input is compared with the state first, and a
difference is taken as a change at the new counter value; then the kept compares act, in the order of their positions. -/
def Obligations.ResumeActsOnPresenceAndKept : Prop :=
  ∀ (st : Station) (q : List Instr),
    st.heldInReset = false → st.start.node.onLine = true → st.edge.frozen = true →
    isAfter (st.position.counter + 1) st.position.highWater = true →
    st.position.counter + 1 ≠ st.position.triggerPos + counts st.shared.scanPitch →
    (∀ c ∈ st.position.compares, c.progress ≠ .due) → (st.position.compares.map (·.id)).Nodup →
    let now := st.position.counter + 1
    let moved : PositionUnit :=
      { st.position with counter := now, direction := .forward, highWater := now, reverseTravel := 0 }
    let resumed := fun (edge : EdgeUnit) (position : PositionUnit) => Host.Outcome.next (φ := Fault) (ρ := Refusal)
      (⟨{ st with
          edge := { edge with frozen := false }
          position := position.markReached
          probe := st.probe.encoderStep st.loc.warmUpTime st.loc.parkTime }, q⟩ : State)
    let along := fun (pos : Pos) => (pos - now + 2147483648#32).toNat
    ((∀ c ∈ st.position.compares, c.progress ≠ .kept) →
      ((st.edge.state = .idle ∧ st.presenceHeld = false) ∨ (st.edge.state = .rising ∧ st.presenceHeld = true) ∨
        (st.edge.state = .present ∧ st.presenceHeld = true) ∨ (st.edge.state = .falling ∧ st.presenceHeld = false) ∨
        (st.edge.state = .blanked ∧ (st.edge.absence = none ↔ st.presenceHeld = true)) →
        exec (.encoderStep .forward) ⟨st, q⟩ = resumed st.edge moved) ∧
      (st.edge.state = .idle → st.edge.pending = none → st.presenceHeld = true →
        exec (.encoderStep .forward) ⟨st, q⟩ =
          resumed { st.edge with
            state := .rising, testDeferred := false, pending := some { rise := now, qualified := false, fall := none } }
            (moved.store .qualification (now + counts st.shared.qualification) .waiting)) ∧
      (st.edge.state = .present → st.presenceHeld = false → exec (.encoderStep .forward) ⟨st, q⟩ =
        resumed { st.edge with state := .falling, fall := some now }
          (moved.store .bridging (now + counts st.shared.bridge) .waiting))) ∧
    (st.edge.state = .falling → st.presenceHeld = true →
      (∀ c ∈ st.position.compares, c.progress = .kept → c.id = .bridging) → exec (.encoderStep .forward) ⟨st, q⟩ =
        resumed { st.edge with state := .present, fall := none } (moved.drop .bridging)) ∧
    (∀ f c, st.edge.state = .falling → st.presenceHeld = false → st.edge.fall = some f → st.openRecord = none →
      c ∈ st.position.compares → c.id = .bridging → c.progress = .kept →
      (∀ x ∈ st.position.compares, x.progress = .kept → x = c) → exec (.encoderStep .forward) ⟨st, q⟩ =
        resumed { st.edge with
          state := .idle, fall := none, pending := st.edge.pending.map fun e => { e with fall := some f } }
          (moved.drop .bridging)) ∧
    (∀ f e r bridging overlength, st.edge.state = .falling → st.presenceHeld = false → st.edge.fall = some f →
      st.seqsDistinct → st.openRecord = some r → r.band.lead = some e →
      bridging ∈ st.position.compares → bridging.id = .bridging → bridging.progress = .kept →
      overlength ∈ st.position.compares → overlength.id = .overlength → overlength.progress = .kept →
      (∀ x ∈ st.position.compares, x.progress = .kept → x = bridging ∨ x = overlength) →
      ∃ (t : Station) (b : Record), exec (.encoderStep .forward) ⟨st, q⟩ = .next ⟨t, q⟩ ∧
        t.edge.frozen = false ∧ t.edge.fall = none ∧ t.stores .bridging = false ∧ t.stores .overlength = false ∧
        t.record r.seq = some b ∧ (b.band.state = .closing ∨ b.band.state = .closed) ∧ b.band.lead = some e ∧
        (along bridging.pos < along overlength.pos →
          b.band.trail = some f ∧ b.band.summary.overlength = r.band.summary.overlength ∧ t.edge.state = .idle) ∧
        (along overlength.pos < along bridging.pos →
          b.band.trail = some (e + counts st.shared.overlength) ∧ b.band.summary.overlength = true))

/-- R39, R51: a frozen Edge Unit, and one before JOINING, takes no change of presence; a compare of the frozen Edge Unit is
kept, and nothing else changes. -/
def Obligations.FrozenEdgeUnitHoldsStill : Prop :=
  (∀ (st : Station) (q : List Instr), (st.edge.frozen = true ∨ st.start.node.onLine = false) →
    (st.presenceHeld = false →
      exec .presenceAppears ⟨st, q⟩ = .next ⟨{ st with edge := { st.edge with pin := !st.edge.pin } }, q⟩) ∧
    (st.presenceHeld = true →
      exec .presenceLost ⟨st, q⟩ = .next ⟨{ st with edge := { st.edge with pin := !st.edge.pin } }, q⟩)) ∧
  (∀ (st : Station) (q : List Instr), st.heldInReset = false → st.edge.frozen = true →
    (st.position.isDue .qualification = true → exec .qualificationCompare ⟨st, q⟩ =
      .next ⟨{ st with position := st.position.setProgress .qualification .kept }, q⟩) ∧
    (st.position.isDue .bridging = true → exec .bridgingCompare ⟨st, q⟩ =
      .next ⟨{ st with position := st.position.setProgress .bridging .kept }, q⟩) ∧
    (st.position.isDue .blankRelease = true → exec .blankReleaseCompare ⟨st, q⟩ =
      .next ⟨{ st with position := st.position.setProgress .blankRelease .kept }, q⟩) ∧
    (st.position.isDue .overlength = true → exec .overlengthCompare ⟨st, q⟩ =
      .next ⟨{ st with position := st.position.setProgress .overlength .kept }, q⟩))

/-! ## Compares (chapters 1, 2, 4 and 8) -/

/-- R12, R42: the qualification compare makes the edge qualified and the state PRESENT; the test waits for a round whose kind is not
known or is OPEN, or raises OPEN where the edge does not attach. A test that waits is made at the end of the wait, and goes on
waiting where the kind turns out to be OPEN. That a rise exactly 2 147 483 648 counts from P + W does not attach is the model's
choice (log 34). -/
def Obligations.QualificationQualifiesEdge : Prop :=
  let unattached := fun (e : PendingEdge) (st : Station) =>
    st.table = [] ∨ st.openRecord.isSome = true ∨ (∃ r, st.newest = some r ∧ (r.band.state ≠ .none ∨
      atOrAfter (r.refPos + counts st.shared.attachWindow) e.rise = false))
  (∀ (e : PendingEdge) (st : Station) (q : List Instr),
    st.heldInReset = false → st.edge.frozen = false → st.position.isDue .qualification = true →
    st.edge.state = .rising → st.edge.pending = some e →
    ((∃ r, st.line.round = some r ∧ (r.kind = none ∨ r.kind = some .opening)) →
      exec .qualificationCompare ⟨st, q⟩ = .next ⟨{ st with
        position := st.position.drop .qualification
        edge := { st.edge with state := .present, pending := some { e with qualified := true }, testDeferred := true } }, q⟩) ∧
    ((∀ r, st.line.round = some r → r.kind ≠ none ∧ r.kind ≠ some .opening) → unattached e st →
      exec .qualificationCompare ⟨st, q⟩ = .next ⟨{ st with
        position := st.position.drop .qualification
        edge := { st.edge with state := .present, pending := some { e with qualified := true }, testDeferred := false }
        engine := { st.engine with requests := { st.engine.requests with opening := true } } }, q⟩)) ∧
  (∀ (c : Instr) (e : PendingEdge) (st : Station) (q : List Instr),
    st.edge.testDeferred = true → st.edge.pending = some e → e.qualified = true → unattached e st →
    st.makesWaitingTest c → ∃ t : Station, exec c ⟨st, q⟩ = .next ⟨t, q⟩ ∧
      t.edge = { st.edge with testDeferred := false } ∧ t.engine.requests.opening = true ∧ t.table = st.table ∧
      t.position.compares = st.position.compares ∧ t.scan = st.scan ∧ t.probe = st.probe) ∧
  (∀ (peers : List (BitVec 3)) (r : Round) (st : Station) (q : List Instr),
    st.heldInReset = false → st.line.state = .inRound → st.line.longDrive = false → st.line.round = some r →
    r.kind = none → (contestField.run r.offers.contest (peers.map (·.toNat))).result = some 5 → ∃ t : Station,
      exec (.kindContestEnd peers) ⟨st, q⟩ = .next ⟨t, q⟩ ∧ t.edge = st.edge ∧ t.engine = st.engine ∧ t.table = st.table)

/-- R12, R42, R46, R59, R80: a qualified edge that attaches, at its qualification or where a waiting test is made, is no longer
pending; an edge with no fall position opens the band, with its overlength compare and first sample compare stored, or is forced
closed where that overlength compare is already reached; a closed one gives the band its trail at once. The overrun mark is
carried into the band. "At or before P + W" is read as in log 34. -/
def Obligations.QualifiedEdgeAttachesToNewest : Prop :=
  (∀ (e : PendingEdge) (r : Record) (st : Station) (q : List Instr),
    st.heldInReset = false → st.edge.frozen = false → st.position.isDue .qualification = true →
    st.edge.state = .rising → st.edge.pending = some e → e.fall = none →
    (∀ x, st.line.round = some x → x.kind ≠ none ∧ x.kind ≠ some .opening) → st.seqsDistinct →
    st.newest = some r → r.band.state = .none → st.openRecord = none →
    atOrAfter (r.refPos + counts st.shared.attachWindow) e.rise = true →
    atOrAfter st.position.counter (e.rise + counts st.shared.overlength) = false → ∃ t : Station,
      exec .qualificationCompare ⟨st, q⟩ = .next ⟨t, q⟩ ∧
      t.edge = { st.edge with state := .present, pending := none, testDeferred := false } ∧
      t.scan.overrun = false ∧
      t.position = ((st.position.drop .qualification).store .sample
        (nextSample st.position.counter e.rise st.shared.samplePitch) .waiting).store .overlength
          (e.rise + counts st.shared.overlength) .waiting ∧
      (∃ b, t.record r.seq = some b ∧ b.band.state = .opened ∧ b.band.lead = some e.rise ∧
        b.band.trail = r.band.trail) ∧
      t.engine.requests.opening = st.engine.requests.opening ∧
      t.probe = st.probe ∧ t.line = st.line ∧ t.start = st.start ∧ t.outlet = st.outlet ∧ t.port = st.port) ∧
  (∀ (c : Instr) (e : PendingEdge) (r : Record) (st : Station) (q : List Instr),
    st.heldInReset = false → st.seqsDistinct → st.newest = some r → r.band.state = .none → st.openRecord = none →
    atOrAfter (r.refPos + counts st.shared.attachWindow) e.rise = true → st.edge.pending = some e →
    ((c = .qualificationCompare ∧ st.position.isDue .qualification = true ∧ st.edge.frozen = false ∧
        st.edge.state = .rising ∧ ∀ x, st.line.round = some x → x.kind ≠ none ∧ x.kind ≠ some .opening) ∨
      (st.edge.testDeferred = true ∧ e.qualified = true ∧ st.makesWaitingTest c)) →
    let limit := e.rise + counts st.shared.overlength
    let ended := fun (b : Band) => b.state = .closing ∨ b.state = .closed
    ∃ (t : Station) (b : Record), exec c ⟨st, q⟩ = .next ⟨t, q⟩ ∧ t.record r.seq = some b ∧
      b.band.lead = some e.rise ∧ t.edge.pending = none ∧ t.edge.testDeferred = false ∧ t.scan.overrun = false ∧
      (st.scan.overrun = true → b.band.summary.incomplete = true) ∧
      (e.fall = none → atOrAfter st.position.counter limit = false →
        b.band.state = .opened ∧ t.stores .overlength = true ∧ t.stores .sample = true) ∧
      (e.fall = none → atOrAfter st.position.counter limit = true → st.edge.frozen = false →
        ended b.band ∧ b.band.trail = some limit ∧ b.band.summary.overlength = true ∧ t.stores .overlength = false ∧
        t.stores .sample = false ∧ (t.edge.state = .blanked ∨ t.edge.state = .idle)) ∧
      (∀ f, e.fall = some f →
        ended b.band ∧ b.band.trail = some (if atOrAfter f limit then limit else f) ∧
        (atOrAfter f limit = true → b.band.summary.overlength = true) ∧
        (st.edge.state ≠ .rising → t.edge.state = st.edge.state)))

/-- R15, R45, R49: the trailing edge closes the pending edge where no band is OPEN, and otherwise gives the OPEN band its trail;
the blank release compare leads from BLANKED to IDLE. -/
def Obligations.AbsenceComparesReturnToIdle : Prop :=
  (∀ (f : Pos) (st : Station) (q : List Instr),
    st.heldInReset = false → st.edge.frozen = false → st.position.isDue .bridging = true →
    st.edge.state = .falling → st.edge.fall = some f →
    (st.openRecord = none → exec .bridgingCompare ⟨st, q⟩ = .next ⟨{ st with
      position := st.position.drop .bridging
      edge := { st.edge with
        state := .idle, fall := none, pending := st.edge.pending.map fun e => { e with fall := some f } } }, q⟩) ∧
    (∀ r, st.openRecord = some r → st.seqsDistinct → ∃ t : Station,
      exec .bridgingCompare ⟨st, q⟩ = .next ⟨t, q⟩ ∧
      t.edge = { st.edge with state := .idle, fall := none } ∧
      t.stores .overlength = false ∧ t.stores .sample = false ∧ t.stores .bridging = false ∧
      (∃ b, t.record r.seq = some b ∧ (b.band.state = .closing ∨ b.band.state = .closed) ∧ b.band.lead = r.band.lead ∧
        b.band.trail = some f) ∧
      t.probe = st.probe ∧ t.line = st.line ∧ t.start = st.start ∧ t.outlet = st.outlet ∧ t.port = st.port)) ∧
  (∀ (st : Station) (q : List Instr),
    st.heldInReset = false → st.edge.frozen = false → st.position.isDue .blankRelease = true → st.edge.state = .blanked →
    exec .blankReleaseCompare ⟨st, q⟩ = .next ⟨{ st with
      position := st.position.drop .blankRelease
      edge := { st.edge with state := .idle, absence := none } }, q⟩)

/-- R16, R47, R48, R49: the band is forced closed at lead + M with OVERLENGTH, and the Edge Unit is blanked; in FALLING its start
of absence is the fall position, and where that lies H or more back it is IDLE at once. -/
def Obligations.OverlengthForcesBandClosed : Prop :=
  ∀ (r : Record) (e : Pos) (st : Station) (q : List Instr),
    st.heldInReset = false → st.edge.frozen = false → st.position.isDue .overlength = true → st.seqsDistinct →
    st.openRecord = some r → r.band.lead = some e →
    ((st.edge.state = .present ∧ st.presenceHeld = true) ∨
      (st.edge.state = .falling ∧ st.edge.fall.isSome = true ∧ st.presenceHeld = false)) → ∃ t : Station,
      exec .overlengthCompare ⟨st, q⟩ = .next ⟨t, q⟩ ∧
      (st.edge.state = .present → t.edge = { st.edge with
        state := .blanked, pending := none, fall := none, absence := none, testDeferred := false }) ∧
      (∀ f, st.edge.state = .falling → st.edge.fall = some f →
        atOrAfter st.position.counter (f + counts st.shared.bridge) = false →
          t.edge = { st.edge with
            state := .blanked, pending := none, fall := none, absence := some f, testDeferred := false } ∧
          t.position.find .blankRelease = some ⟨.blankRelease, f + counts st.shared.bridge, .waiting⟩) ∧
      (∀ f, st.edge.state = .falling → st.edge.fall = some f →
        atOrAfter st.position.counter (f + counts st.shared.bridge) = true →
          t.edge = { st.edge with
            state := .idle, pending := none, fall := none, absence := none, testDeferred := false }) ∧
      t.stores .overlength = false ∧ t.stores .sample = false ∧ t.stores .bridging = false ∧
      (∃ b, t.record r.seq = some b ∧ (b.band.state = .closing ∨ b.band.state = .closed) ∧ b.band.lead = some e ∧
        b.band.trail = some (e + counts st.shared.overlength) ∧ b.band.summary.overlength = true) ∧
      t.probe = st.probe ∧ t.line = st.line ∧ t.start = st.start ∧ t.outlet = st.outlet ∧ t.port = st.port

/-- R14: the empty compare makes a band NONE EMPTY, stores the own entry and raises TALLY; any other band it leaves. -/
def Obligations.EmptyCompareEndsUnusedBand : Prop :=
  ∀ (seq : Seq) (r : Record) (st : Station) (q : List Instr),
    st.heldInReset = false → st.position.isDue (.empty seq) = true → st.record seq = some r →
    (r.band.state ≠ .none →
      exec (.emptyCompare seq) ⟨st, q⟩ = .next ⟨{ st with position := st.position.drop (.empty seq) }, q⟩) ∧
    (r.band.state = .none → ∃ t : Station, exec (.emptyCompare seq) ⟨st, q⟩ = .next ⟨t, q⟩ ∧
      (∃ b, t.record seq = some b ∧ b.band = { r.band with state := .empty } ∧
        b.entries = r.entries.set st.start.index (some .empty) ∧ b.frozen = r.frozen ∧ b.outcome = r.outcome) ∧
      (⟨seq, false⟩ : Held) ∈ t.engine.requests.tally ∧
      t.position = st.position.drop (.empty seq) ∧ t.edge = st.edge ∧ t.probe = st.probe ∧ t.line = st.line ∧
      t.start = st.start ∧ t.outlet = st.outlet ∧ t.port = st.port)

/-- R17, R18: the lag compare closes the CLOSING band where the scan head condition holds and no sample in flight targets it;
otherwise the lag condition is recorded and nothing else changes. -/
def Obligations.LagCompareClosesBand : Prop :=
  ∀ (seq : Seq) (r : Record) (st : Station) (q : List Instr),
    st.heldInReset = false → st.seqsDistinct → st.position.isDue (.lag seq) = true → st.record seq = some r →
    r.band.state = .closing → ∀ trail, r.band.trail = some trail →
    (st.probe.target = some (.held seq) ∨ ¬ st.headClear trail → exec (.lagCompare seq) ⟨st, q⟩ = .next ⟨{ st with
      position := st.position.drop (.lag seq)
      table := st.table.map fun x => if x.seq = seq then { x with band := { x.band with lagPassed := true } } else x }, q⟩) ∧
    (st.probe.target ≠ some (.held seq) → st.headClear trail → ∃ t : Station,
      exec (.lagCompare seq) ⟨st, q⟩ = .next ⟨t, q⟩ ∧
      (∃ b, t.record seq = some b ∧ b.band = { r.band with state := .closed, lagPassed := true } ∧
        b.entries = r.entries.set st.start.index (some (.closed r.band.summary))) ∧
      (⟨seq, false⟩ : Held) ∈ t.engine.requests.tally ∧
      t.position = st.position.drop (.lag seq) ∧ t.edge = st.edge ∧ t.probe = st.probe ∧ t.line = st.line ∧
      t.start = st.start ∧ t.outlet = st.outlet ∧ t.port = st.port)

/-- R22: the decision compare freezes the record; a GATHERING one gets MANUAL and INCOMPLETE, and a record not DECIDED has a
VERDICT request. -/
def Obligations.DecisionCompareFreezesRecord : Prop :=
  ∀ (seq : Seq) (r : Record) (st : Station) (q : List Instr),
    st.heldInReset = false → st.position.isDue (.decision seq) = true → st.record seq = some r →
    let frozen := fun (f : Record → Record) (requests : Requests) => Host.Outcome.next (φ := Fault) (ρ := Refusal)
      (⟨{ st with
          position := st.position.drop (.decision seq)
          table := st.table.map fun x => if x.seq = seq then f x else x
          engine := { st.engine with requests := requests } }, q⟩ : State)
    let released := st.engine.requests.markVerdict seq false
    (r.phase = .gathering → exec (.decisionCompare seq) ⟨st, q⟩ =
      frozen (fun x => { x with verdict := some .manual, frozen := true, flags := { x.flags with incomplete := true } })
        (released.raiseVerdict seq false)) ∧
    (r.phase = .tallied → exec (.decisionCompare seq) ⟨st, q⟩ =
      frozen (fun x => { x with frozen := true }) (released.raiseVerdict seq false)) ∧
    (r.phase = .decided → exec (.decisionCompare seq) ⟨st, q⟩ = frozen (fun x => { x with frozen := true }) released)

/-- R19, R25, R48, R160, R164, R165, R168, R184, R185: the gate compare removes the oldest record that is due, with one result record
of its outcome, flags and removal tally; where its own band is OPEN the Edge Unit is blanked. -/
def Obligations.GateCompareDispatchesOldestDue : Prop :=
  ∀ (seq : Seq) (r : Record) (st : Station) (q : List Instr),
    st.heldInReset = false → oldestGateDue st = some seq → st.record seq = some r →
    ∃ (t : Station) (result : ResultRecord), exec .gateCompare ⟨st, q⟩ = .next ⟨t, q⟩ ∧
      t.table.map (·.seq) = (st.table.map (·.seq)).filter (· != seq) ∧
      (∀ h ∈ t.engine.requests.verdict, h.subject ≠ seq) ∧
      t.stores (.decision seq) = false ∧ t.stores (.gate seq) = false ∧
      result.carries st.shared r ∧ result.flags.purged = r.flags.purged ∧
      result.flags.undecided = (r.flags.undecided || r.phase != .decided) ∧
      result.flags.gateBusy = (r.flags.gateBusy || (st.start.outlet && r.phase == .decided &&
        st.shared.binMap.get (r.outcome.getD .manual).index != 0 && st.outlet.window.isSome)) ∧
      (r.phase = .decided → ∀ v, r.outcome = some v → result.outcome = v) ∧
      (r.phase ≠ .decided → result.outcome = .manual) ∧
      (st.port.fifo.length < 16 → t.port.fifo = st.port.fifo ++ [{ result with lost := st.port.lost }] ∧ t.port.lost = 0) ∧
      (16 ≤ st.port.fifo.length → t.port.fifo = st.port.fifo ∧ t.port.causes.resultOverflow = true ∧
        t.port.lost.toNat = min 255 (st.port.lost.toNat + 1)) ∧
      (r.band.state ≠ .opened → t.edge = st.edge) ∧
      (r.band.state = .opened → st.entersBlanked t ∧ t.stores .overlength = false ∧ t.stores .sample = false) ∧
      t.line = st.line ∧ t.start = st.start ∧ t.engine.nextSeq = st.engine.nextSeq

/-- R162, R163, R165, R166: the gate command of a dispatch, GATE_BUSY in the result record of a command refused, and the end of
the gate window. -/
def Obligations.GateWindowOpensAndCloses : Prop :=
  (∀ (seq : Seq) (r : Record) (st : Station) (q : List Instr),
    st.heldInReset = false → oldestGateDue st = some seq → st.record seq = some r →
    ∃ t : Station, exec .gateCompare ⟨st, q⟩ = .next ⟨t, q⟩ ∧
      ((st.start.outlet = false ∨ r.phase ≠ .decided) → t.outlet = st.outlet) ∧
      (∀ v, st.start.outlet = true → r.phase = .decided → r.outcome = some v →
        (st.shared.binMap.get v.index = 0 → t.outlet = st.outlet) ∧
        (st.shared.binMap.get v.index ≠ 0 → st.outlet.window.isSome = true → t.outlet = st.outlet ∧
          (st.port.fifo.length < 16 → ∃ x, t.port.fifo = st.port.fifo ++ [x] ∧ x.flags.gateBusy = true)) ∧
        (st.shared.binMap.get v.index ≠ 0 → st.outlet.window = none →
          atOrAfter st.position.counter (r.gatePos + counts st.shared.gateWindow) = false →
            t.outlet.window = some ⟨st.shared.binMap.get v.index, r.gatePos + counts st.shared.gateWindow⟩ ∧
            t.binSelect = st.shared.binMap.get v.index ∧ t.stores .windowEnd = true) ∧
        (st.shared.binMap.get v.index ≠ 0 → st.outlet.window = none →
          atOrAfter st.position.counter (r.gatePos + counts st.shared.gateWindow) = true → t.outlet.window = none))) ∧
  (∀ (st : Station) (q : List Instr), st.heldInReset = false → st.position.isDue .windowEnd = true → ∃ t : Station,
    exec .gateWindowEndCompare ⟨st, q⟩ = .next ⟨t, q⟩ ∧
    t = { st with position := st.position.drop .windowEnd, outlet := { window := none } } ∧ t.binSelect = 0)

/-- R74, R80, R81: a sample that falls due stores the next compare, and starts in READY, with the excite output at excitation, or is
skipped; the next sample position is the first multiple of the pitch beyond the lead that lies after the counter. -/
def Obligations.SampleCompareStartsOrSkips : Prop :=
  (∀ (r : Record) (st : Station) (q : List Instr),
    st.heldInReset = false → st.position.isDue .sample = true → st.openRecord = some r →
    let next := st.position.store .sample (nextSample st.position.counter (r.band.lead.getD 0) st.shared.samplePitch) .waiting
    ∃ t : Station, exec .sampleCompare ⟨st, q⟩ = .next ⟨t, q⟩ ∧
      (st.probe.state = .ready → t.probeExcite = .excitation ∧ t = { st with
        position := next
        probe := { st.probe with
          state := .sampling, parkTimer := none, timing := .settle, target := some (.held r.seq) } }) ∧
      (st.probe.state ≠ .ready → t.probeExcite = st.probeExcite ∧ t = { st with position := next })) ∧
  (∀ (counter lead : Pos) (pitch : BitVec 16), pitch ≠ 0 → (counter - lead).toNat < 2000000000 →
    ∃ k : Nat, 1 ≤ k ∧ nextSample counter lead pitch = lead + BitVec.ofNat 32 (k * pitch.toNat) ∧
      isAfter (nextSample counter lead pitch) counter = true ∧
      ∀ j : Nat, 1 ≤ j → j < k → isAfter (lead + BitVec.ofNat 32 (j * pitch.toNat)) counter = false)

/-! ## Scan Unit (chapter 3), and creation (chapter 1) -/

/-- R53, R54, R55, R57, R58, R59, R62: a frame is taken from JOINING on; a broken or an invalid one raises SCAN_FAULT and leaves
all else; a valid report joins an empty FIFO with the head takes at once, one that holds 1 to 15 reports at its tail, and overruns
one of 16. -/
def Obligations.ScanFrameTakenDiscardedOrQueued : Prop :=
  (∀ (bits : List Bool) (st : Station) (q : List Instr),
    (st.scan.frame = .released → exec .scanFrameDriven ⟨st, q⟩ = .next ⟨{ st with scan := { st.scan with
      frame := if st.start.node.onLine then .taken else .ignored } }, q⟩) ∧
    (st.scan.frame = .ignored →
      exec (.scanFrameEnd bits) ⟨st, q⟩ = .next ⟨{ st with scan := { st.scan with frame := .released } }, q⟩) ∧
    (st.scan.frame = .taken → (readFrame bits = .broken ∨ readFrame bits = .invalid) →
      exec (.scanFrameEnd bits) ⟨st, q⟩ = .next ⟨{ st with
        scan := { st.scan with frame := .released }
        port := { st.port with causes := { st.port.causes with scanFault := true } } }, q⟩)) ∧
  (∀ (bits : List Bool) (r : Report) (st : Station) (q : List Instr),
    st.scan.frame = .taken → readFrame bits = .report r →
    let joined : Station := { st with scan := { st.scan with frame := .released, fifo := st.scan.fifo ++ [r] } }
    (st.scan.fifo = [] → exec (.scanFrameEnd bits) ⟨st, q⟩ = .next ⟨headTakes joined, q⟩ ∧
      ((∀ x ∈ st.table, x.band.state ≠ .closing) → headTakes joined = (headTake joined).1)) ∧
    (0 < st.scan.fifo.length → st.scan.fifo.length < 16 → exec (.scanFrameEnd bits) ⟨st, q⟩ = .next ⟨joined, q⟩) ∧
    (16 ≤ st.scan.fifo.length → exec (.scanFrameEnd bits) ⟨st, q⟩ = .next ⟨{ st with
      scan := { st.scan with frame := .released, overrun := st.scan.overrun || st.edge.pending.isSome }
      table := st.table.map fun x =>
        if x.band.state = .opened ∨ x.band.state = .closing then
          { x with band := { x.band with summary := { x.band.summary with incomplete := true } } }
        else x
      port := { st.port with causes := { st.port.causes with scanFault := true } } }, q⟩))

/-- R60, R61, R64: the assignment rule at the head of the FIFO. A position exactly 2 147 483 648 counts from the trail lies outside
[lead, trail] by the model's choice (log 34). -/
def Obligations.HeadTakeFollowsAssignmentRule : Prop :=
  ∀ (rep : Report) (rest : List Report) (st : Station), st.scan.fifo = rep :: rest →
    let difference := (st.position.triggerCount - rep.line).toNat
    let p := st.position.triggerPos - BitVec.ofNat 32 (difference * st.shared.scanPitch.toNat)
    let left : ScanUnit := { st.scan with fifo := rest, head := none }
    let isOpen := fun (r : Record) => r.band.state == .opened && atOrAfter p (r.band.lead.getD 0)
    let isClosing := fun (r : Record) => r.band.state == .closing && inRange p (r.band.lead.getD 0) (r.band.trail.getD 0)
    let folded := fun (seq : Seq) (refPos : Pos) => st.table.map fun x =>
      if x.seq = seq then { x with band := { x.band with summary := x.band.summary.fold st.shared refPos p rep } } else x
    let waits := st.edge.pending.any fun e => atOrAfter p e.rise
    (32768 ≤ difference → headTake st = ({ st with scan := left }, true)) ∧
    (difference < 32768 →
      (∀ r, st.table.find? isOpen = some r →
        headTake st = ({ st with scan := left, table := folded r.seq r.refPos }, true)) ∧
      (∀ r, st.table.find? isOpen = none → st.table.find? isClosing = some r →
        headTake st = ({ st with scan := left, table := folded r.seq r.refPos }, true)) ∧
      (st.table.find? isOpen = none → st.table.find? isClosing = none → waits = true →
        headTake st = ({ st with scan := { st.scan with head := some p } }, false)) ∧
      (st.table.find? isOpen = none → st.table.find? isClosing = none → waits = false →
        headTake st = ({ st with
          scan := left
          table := st.table.map fun x =>
            if x.band.state = .closed ∧ inRange p (x.band.lead.getD 0) (x.band.trail.getD 0) = true then
              { x with flags := { x.flags with late := true } }
            else x }, true)))

/-- R69 to R72: a folded report changes the figures of its class, each saturating, and of no other class; with a side it adds a
boundary record, or sets the overflow marker where four are held. -/
def Obligations.FoldedReportUpdatesSummary : Prop :=
  (∀ (sh : Shared) (refPos p : Pos) (rep : Report) (s : Summary) (c : DefectClass),
    let before := s.figures.get c
    let after := (s.fold sh refPos p rep).figures.get c
    (c ≠ rep.cls → after = before) ∧
    (c = rep.cls →
      after.count.toNat = min 255 (before.count.toNat + 1) ∧
      after.largest.toNat = max before.largest.toNat rep.extent.toNat ∧
      after.aggregate.toNat = min 65535 (before.aggregate.toNat + rep.extent.toNat))) ∧
  (∀ (sh : Shared) (refPos p : Pos) (rep : Report) (s : Summary),
    let after := s.fold sh refPos p rep
    let atLeft : Bool := decide (rep.acrossStart = 0)
    let atRight : Bool := decide (sh.bandWidth.toNat - 1 ≤ rep.acrossEnd.toNat)
    let side : Side := if atLeft && atRight then .both else if atLeft then .left else .right
    (after.moisture = s.moisture ∧ after.incomplete = s.incomplete ∧ after.overlength = s.overlength) ∧
    (atLeft = false → atRight = false → after.boundary = s.boundary ∧ after.overflow = s.overflow) ∧
    ((atLeft = true ∨ atRight = true) → 4 ≤ s.boundary.length →
      after.boundary = s.boundary ∧ after.overflow = true) ∧
    ((atLeft = true ∨ atRight = true) → s.boundary.length < 4 → ∃ b : BoundaryRecord,
      after.boundary = s.boundary ++ [b] ∧ after.overflow = s.overflow ∧ b.cls = rep.cls ∧ b.side = side ∧
      b.extent = rep.extent ∧
      b.alongStart.toNat = (if atOrAfter p refPos then min 65535 (p - refPos).toNat else 0) ∧
      b.alongEnd.toNat = min 65535 (b.alongStart.toNat + rep.alongLength.toNat * sh.scanPitch.toNat)))

/-- R9, R10, R12, R167, R197: the compares of a new record. One ahead of the counter is stored; one already reached is taken, after
the attachment test, in the order empty, decision, gate; where the gate is reached, every older record whose gate compare is due
is dispatched first. "At or before P + W" is read as in log 34. -/
def Obligations.CreationTakesReachedCompares : Prop :=
  ∀ (r : Round) (p : Nat) (st : Station) (q : List Instr), st.heldInReset = false → completing .opening st = some r →
    st.start.node = .running → r.result 0 = some p → creationRefused st = false → st.seqsDistinct → st.subjectsHeld →
    let seq := st.engine.nextSeq
    let refPos := creationP st (BitVec.ofNat 32 p)
    let emptyPos := refPos + counts st.shared.attachWindow + counts st.shared.qualification
    let decisionPos := refPos + counts st.shared.decisionDistance
    let gatePos := refPos + counts st.shared.gateDistance
    let reached := fun (pos : Pos) => atOrAfter st.position.counter pos
    let gateDue := fun (x : Record) => st.position.isDue (.gate x.seq)
    ∃ t : Station, exec .openRoundComplete ⟨st, q⟩ = .next ⟨t, q⟩ ∧
      (reached gatePos = false → ∃ b, t.record seq = some b ∧
        t.position.find (.gate seq) = some ⟨.gate seq, gatePos, .waiting⟩ ∧
        (reached decisionPos = false →
          t.position.find (.decision seq) = some ⟨.decision seq, decisionPos, .waiting⟩ ∧ b.frozen = false) ∧
        (reached decisionPos = true → t.stores (.decision seq) = false ∧ b.frozen = true ∧ b.verdict.isSome = true) ∧
        (reached emptyPos = false → t.position.find (.empty seq) = some ⟨.empty seq, emptyPos, .waiting⟩) ∧
        (reached emptyPos = true → t.stores (.empty seq) = false ∧ (st.edge.pending = none →
          b.band.state = .empty ∧ b.entries.get st.start.index = some .empty)) ∧
        (∀ e, st.edge.pending = some e → e.qualified = true → st.openRecord = none →
          atOrAfter (refPos + counts st.shared.attachWindow) e.rise = true →
          t.edge.pending = none ∧ b.band.lead = some e.rise)) ∧
      (reached gatePos = true → t.record seq = none ∧ (∀ x ∈ st.table, gateDue x = true → t.record x.seq = none) ∧
        (st.port.fifo.length + st.table.length < 16 →
          t.port.fifo.map (·.seq) = st.port.fifo.map (·.seq) ++ (st.table.filter gateDue).map (·.seq) ++ [seq]))

/-! ## Probe Unit (chapter 4), and completeness (chapter 1) -/

/-- R74, R77, R78, R82: the level of the probe excite output by probe state; the ends of the settle time, the warm-up time and the
park time. -/
def Obligations.ProbeTimersMoveProbe : Prop :=
  ∀ (st : Station) (q : List Instr), st.heldInReset = false →
    (st.probeExcite = .released ↔ st.probe.state = .off ∨ st.probe.state = .parked) ∧
    (st.probeExcite = .bias ↔ st.probe.state = .warming ∨ st.probe.state = .ready) ∧
    (st.probeExcite = .excitation ↔ st.probe.state = .sampling) ∧
    (st.probe.timing = .settle →
      exec .settleEnd ⟨st, q⟩ = .next ⟨{ st with probe := { st.probe with timing := .conversion } }, q⟩) ∧
    (st.probe.state = .warming →
      exec .warmUpExpiry ⟨st, q⟩ = .next ⟨{ st with probe := { st.probe with
        state := .ready, warmTimer := none, parkTimer := some st.loc.parkTime } }, q⟩) ∧
    (st.probe.state = .ready →
      exec .parkExpiry ⟨st, q⟩ = .next ⟨{ st with probe := { st.probe with state := .parked, parkTimer := none } }, q⟩)

/-- R17, R83, R84, R86: a completed sample trims its reading with the trim of the local section, r + (t - 128) clamped to 0 to 1023, and
folds it into an OPEN or CLOSING target band, or discards it where the target is lost; the probe is READY. A CLOSING band whose
other closing conditions hold then closes with that reading. -/
def Obligations.SampleCompletionFoldsReading : Prop :=
  (∀ (raw : BitVec 10) (trim : Byte),
    ((trimmed raw trim).toNat : Int) = max 0 (min 1023 ((raw.toNat : Int) + ((trim.toNat : Int) - 128)))) ∧
  (∀ (raw : BitVec 10) (st : Station) (q : List Instr), st.heldInReset = false → st.probe.timing = .conversion →
    let ready : ProbeUnit := { st.probe with
      state := .ready, parkTimer := some st.loc.parkTime, timing := .stopped, target := none }
    let reading := trimmed raw st.loc.trim
    let folded := fun (s : Summary) => { s with moisture := match s.moisture with
      | none => some reading
      | some m => if m < reading then some reading else some m }
    (st.probe.target = some .lost →
      exec (.sampleCompletion raw) ⟨st, q⟩ = .next ⟨{ st with probe := ready }, q⟩) ∧
    (∀ (seq : Seq) (r : Record), st.probe.target = some (.held seq) → st.record seq = some r →
      (r.band.state = .opened ∨ (r.band.state = .closing ∧
        (r.band.lagPassed = false ∨ ∃ trail, r.band.trail = some trail ∧ ¬ st.headClear trail))) →
      exec (.sampleCompletion raw) ⟨st, q⟩ = .next ⟨{ st with
        probe := ready
        table := st.table.map fun x =>
          if x.seq = seq then { x with band := { x.band with summary := folded x.band.summary } } else x }, q⟩) ∧
    (∀ (seq : Seq) (r : Record) (trail : Pos),
      st.probe.target = some (.held seq) → st.record seq = some r → r.band.state = .closing → r.band.trail = some trail →
      r.band.lagPassed = true → st.headClear trail → st.seqsDistinct → ∃ (t : Station) (b : Record),
        exec (.sampleCompletion raw) ⟨st, q⟩ = .next ⟨t, q⟩ ∧ t.probe = ready ∧ t.record seq = some b ∧
        b.band = { r.band with state := .closed, summary := folded r.band.summary } ∧
        b.entries = r.entries.set st.start.index (some (.closed (folded r.band.summary))) ∧
        (⟨seq, false⟩ : Held) ∈ t.engine.requests.tally ∧ t.position = st.position ∧ t.edge = st.edge ∧
        t.line = st.line ∧ t.start = st.start ∧ t.outlet = st.outlet ∧ t.port = st.port))

/-- R14, R18, R20, R23, R124, R131: the completeness test. At the store of the own entry, a GATHERING record whose every member then has a
stored entry becomes TALLIED; where it is not frozen its local verdict is graded from its entries and VERDICT is raised held back,
and its TALLY request is kept: for an EMPTY entry at the empty compare, for a CLOSED one at the lag compare, the completion of a
sample, a trailing edge and an overlength that close the band at once, and the head takes of any command. After a TALLY or ROLL round no complete record is GATHERING; one that the TALLY round completes has
no TALLY request, and where it was not frozen a graded verdict and a VERDICT request. -/
def Obligations.CompletenessTest : Prop :=
  (∀ (seq : Seq) (r : Record) (st : Station) (q : List Instr),
    st.heldInReset = false → st.position.isDue (.empty seq) = true → st.record seq = some r → r.band.state = .none →
    let entries := r.entries.set st.start.index (some .empty)
    let complete := r.phase = .gathering ∧ ∀ k : Index, (st.engine.peers.get k).isSome = true → (entries.get k).isSome = true
    ∃ (t : Station) (b : Record), exec (.emptyCompare seq) ⟨st, q⟩ = .next ⟨t, q⟩ ∧ t.record seq = some b ∧
      b.entries = entries ∧ (⟨seq, false⟩ : Held) ∈ t.engine.requests.tally ∧
      (¬ complete → b.phase = r.phase ∧ b.verdict = r.verdict ∧ b.flags = r.flags ∧
        t.engine.requests.verdict = st.engine.requests.verdict) ∧
      (complete → b.phase = .tallied ∧
        (r.frozen = true → b.verdict = r.verdict ∧ t.engine.requests.verdict = st.engine.requests.verdict) ∧
        (r.frozen = false → b.verdict.isSome = true ∧ b.verdict = (gradeRecord st.shared b).verdict ∧
          t.engine.requests.verdict =
            if st.engine.requests.verdict.any (·.subject == seq) then st.engine.requests.verdict
            else st.engine.requests.verdict ++ [⟨seq, true⟩]))) ∧
  (∀ (r : Record) (trail : Pos) (st : Station) (q : List Instr), st.heldInReset = false → st.seqsDistinct → r ∈ st.table →
    (r.band.state = .closing → r.band.trail = some trail → st.headClear trail →
      (st.position.isDue (.lag r.seq) = true → st.probe.target ≠ some (.held r.seq) → ∃ t : Station,
        exec (.lagCompare r.seq) ⟨st, q⟩ = .next ⟨t, q⟩ ∧ st.storesOwnEntry r (.closed r.band.summary) t) ∧
      (∀ raw : BitVec 10, r.band.lagPassed = true → st.probe.target = some (.held r.seq) → st.probe.timing = .conversion →
        ∃ (t : Station) (s : Summary), exec (.sampleCompletion raw) ⟨st, q⟩ = .next ⟨t, q⟩ ∧
          s = { r.band.summary with moisture := s.moisture } ∧ s.moisture.isSome = true ∧
          st.storesOwnEntry r (.closed s) t)) ∧
    (r.band.state = .opened → st.openRecord = some r → st.edge.frozen = false → st.headClear trail →
      st.probe.target ≠ some (.held r.seq) → atOrAfter st.position.counter (trail + counts st.shared.lag) = true →
      (st.position.isDue .bridging = true → st.edge.state = .falling → st.edge.fall = some trail → ∃ t : Station,
        exec .bridgingCompare ⟨st, q⟩ = .next ⟨t, q⟩ ∧ st.storesOwnEntry r (.closed r.band.summary) t) ∧
      (∀ e, st.position.isDue .overlength = true → r.band.lead = some e → trail = e + counts st.shared.overlength →
        ∃ t : Station, exec .overlengthCompare ⟨st, q⟩ = .next ⟨t, q⟩ ∧
          st.storesOwnEntry r (.closed { r.band.summary with overlength := true }) t))) ∧
  (∀ (r b : Record) (st : Station), st.seqsDistinct → r ∈ st.table → r.band.state = .closing →
    (headTakes st).record r.seq = some b → b.band.state = .closed →
    st.storesOwnEntry r (.closed b.band.summary) (headTakes st)) ∧
  (∀ (slots : List (BitVec 448)) (r : Round) (sent : TallyEntry) (subject : Nat) (st : Station) (q : List Instr),
    st.heldInReset = false → completing .tally st = some r → r.result 0 = some subject →
    r.slotEntry = some (.tally sent) → st.start.node = .running →
    (st.record (BitVec.ofNat 16 subject)).isSome = true → st.seqsDistinct → ∃ t : Station,
    exec (.tallyRoundComplete slots) ⟨st, q⟩ = .next ⟨t, q⟩ ∧
      (∀ b ∈ t.table, b.phase = .gathering → ∃ k : Index, (t.engine.peers.get k).isSome = true ∧ b.entries.get k = none) ∧
      (∀ x ∈ st.table, x.phase = .gathering → ∀ b, t.record x.seq = some b → b.phase = .tallied →
        (∀ h ∈ t.engine.requests.tally, h.subject ≠ x.seq) ∧
        (x.frozen = true → b.verdict = x.verdict) ∧
        (x.frozen = false → b.verdict.isSome = true ∧ b.verdict = (gradeRecord st.shared b).verdict ∧
          ∃ h ∈ t.engine.requests.verdict, h.subject = x.seq))) ∧
  (∀ (slots : List (BitVec 52)) (order : List CompareId) (r : Round) (entry : RollEntry) (alignment sequence : Nat)
    (st : Station) (q : List Instr),
    st.heldInReset = false → completing .roll st = some r → r.slotEntry = some (.roll entry) →
    r.result 0 = some alignment → r.result 1 = some sequence → st.seqsDistinct → ∃ t : Station,
    exec (.rollRoundComplete slots order) ⟨st, q⟩ = .next ⟨t, q⟩ ∧
      ∀ b ∈ t.table, b.phase = .gathering → ∃ k : Index, (t.engine.peers.get k).isSome = true ∧ b.entries.get k = none)

/-! ## Line Controller (chapter 5) -/

/-- R89, R91, R92, R94, R98, R102, R103, R104, R117: what the station drives on the Grade Line in each line state but IN_ROUND, whatever
cells it has heard; an opener drives opening pulse and pattern. The station joins a quiet line, opens a round where it has an offer, and listens where the
wire is driven; a round of kind NONE completes with nothing taken, and the guard leads to IDLE. -/
def Obligations.LineIdlesOpensAndEndsRounds : Prop :=
  ∀ (st : Station) (q : List Instr), st.heldInReset = false →
    (∀ heard : List Bool,
      (st.line.state = .off ∨ st.line.state = .idle ∨ st.line.state = .guard ∨ st.line.state = .mute →
        st.gradeLineDriven heard = false) ∧
      (st.line.state = .opening ∨ st.line.state = .inRound → st.line.longDrive = true → st.gradeLineDriven heard = false) ∧
      (st.line.state = .opening → st.line.opener = false → st.gradeLineDriven heard = false) ∧
      (st.line.state = .breaking → st.line.breakSender = false → st.gradeLineDriven heard = false) ∧
      (st.line.state = .opening → st.line.opener = true → st.line.longDrive = false →
        (st.gradeLineDriven heard = true ↔ heard.length ∈ [0, 1, 3, 5, 7, 9]))) ∧
    (st.line.state = .off → st.start.node = .joining →
      exec .lineQuietJoin ⟨st, q⟩ = .next ⟨{ st with line := { st.line with state := .idle, quiet := 32 } }, q⟩) ∧
    (st.line.state = .idle → st.line.longDrive = false → (contestOffer st).isSome = true →
      exec .roundOpen ⟨st, q⟩ = .next ⟨{ st with line := { st.line with state := .opening, opener := true } }, q⟩) ∧
    (st.line.state = .idle → (contestOffer st).isSome = false → exec .roundOpen ⟨st, q⟩ = .next ⟨st, q⟩) ∧
    (st.line.state = .idle → st.line.longDrive = false →
      exec .openingAsListener ⟨st, q⟩ = .next ⟨{ st with line := { st.line with state := .opening, opener := false } }, q⟩) ∧
    (∀ r : Round, st.line.state = .inRound → st.line.longDrive = false → st.line.round = some r →
      (r.kind = some .nothing ∨ (r.kind = none ∧ r.offers.contest = none ∧ st.edge.testDeferred = false)) →
      exec .roundCompleteNone ⟨st, q⟩ = .next ⟨{ st with
        position := { st.position with capture := none }
        line := { st.line with state := .guard, opener := false, round := none } }, q⟩) ∧
    (st.line.state = .guard → st.line.longDrive = false →
      exec .guardEnd ⟨st, q⟩ = .next ⟨{ st with line := { st.line with state := .idle, roundCell := none } }, q⟩)

/-- R98, R111, R115: which code a station offers in the kind contest. -/
def Obligations.ContestOfferIsSmallestCode : Prop :=
  ∀ st : Station,
    (st.start.node.onLine = false → contestOffer st = none) ∧
    ((st.start.node = .joining ∨ st.start.node = .mismatch) →
      contestOffer st = if st.engine.requests.roll then some 2 else none) ∧
    (st.start.node = .running → ∀ n : Nat, contestOffer st = some n ↔
      (n = 1 ∧ st.engine.requests.purge ≠ .none) ∨
      (n = 2 ∧ st.engine.requests.purge = .none ∧ st.engine.requests.roll = true) ∨
      (n = 3 ∧ st.engine.requests.purge = .none ∧ st.engine.requests.roll = false ∧
        ∃ h ∈ st.engine.requests.verdict, h.heldBack = false) ∨
      (n = 4 ∧ st.engine.requests.purge = .none ∧ st.engine.requests.roll = false ∧
        (∀ h ∈ st.engine.requests.verdict, h.heldBack = true) ∧ ∃ h ∈ st.engine.requests.tally, h.heldBack = false) ∨
      (n = 5 ∧ st.engine.requests.purge = .none ∧ st.engine.requests.roll = false ∧
        (∀ h ∈ st.engine.requests.verdict, h.heldBack = true) ∧ (∀ h ∈ st.engine.requests.tally, h.heldBack = true) ∧
        st.engine.requests.opening = true ∧ ∃ e, st.edge.pending = some e ∧ e.qualified = true))

/-- R36, R93, R94, R115, R116: a pulse of 1.5 to 3 nominal cells opens the round with the capture, the contest, alignment and OPEN
position offers, and the requests that count then; the other offers wait for the end of their fields. A shorter one is no opening
to a listener, and a longer one is watched as a long drive. The pattern is accepted where each spacing lies between 1.75 and 2.25
nominal cells; any other pattern puts the station in MUTE. -/
def Obligations.OpeningPulseAndPatternStartRound : Prop :=
  (∀ (length : Nat) (st : Station) (q : List Instr),
    st.heldInReset = false → st.line.state = .opening → st.line.round = none → st.line.longDrive = false →
    let cell := Config.nominalCell st.shared.lineRate
    let running := st.start.node = .running
    let clear := fun (l : List Held) => (l.filter fun h => !h.heldBack).map (·.subject)
    (3 * cell ≤ 2 * length → length ≤ 3 * cell → ∃ r : Round,
      exec (.openingPulseEnd length) ⟨st, q⟩ = .next ⟨{ st with
        position := { st.position with capture := some st.position.counter }
        line := { st.line with round := some r } }, q⟩ ∧
      r.kind = none ∧ r.contest = none ∧ r.passes = [] ∧ r.slotEntry = none ∧ r.slotRead = false ∧ r.cells = 0 ∧
      r.offers = { contest := contestOffer st, alignment := some st.position.counter.toNat, sequence := none,
                   position := r.offers.position, tallySubject := none, verdictSubject := none, ready := none,
                   verdictCode := none, scope := none, purgeSubject := none } ∧
      (∀ e, running → st.engine.requests.opening = true → st.edge.pending = some e → e.qualified = true →
        r.offers.position = some e.rise.toNat) ∧
      (¬ (running ∧ st.engine.requests.opening = true ∧ ∃ e, st.edge.pending = some e ∧ e.qualified = true) →
        r.offers.position = none) ∧
      (running → r.counted = ⟨clear st.engine.requests.tally, clear st.engine.requests.verdict, st.engine.requests.purge⟩) ∧
      (¬ running → r.counted = ⟨[], [], .none⟩)) ∧
    (2 * length < 3 * cell → st.line.opener = false →
      exec (.openingPulseEnd length) ⟨st, q⟩ = .next ⟨{ st with line := { st.line with state := .idle } }, q⟩) ∧
    (3 * cell < length →
      exec (.openingPulseEnd length) ⟨st, q⟩ = .next ⟨{ st with line := { st.line with longDrive := true } }, q⟩)) ∧
  (∀ (a b c : Nat) (st : Station) (q : List Instr),
    st.heldInReset = false → st.line.state = .opening → st.line.round.isSome = true →
    let cell := Config.nominalCell st.shared.lineRate
    let inside := fun n : Nat => 7 * cell ≤ 4 * n ∧ 4 * n ≤ 9 * cell
    (inside a ∧ inside b ∧ inside c → exec (.alignmentPatternAccepted a b c) ⟨st, q⟩ =
      .next ⟨{ st with line := { st.line with state := .inRound, roundCell := some (a + b + c) } }, q⟩) ∧
    (¬ (inside a ∧ inside b ∧ inside c) → ∃ t : Station,
      exec (.alignmentPatternAccepted a b c) ⟨st, q⟩ = .next ⟨t, q⟩ ∧ t.line.state = .mute ∧ t.line.round = none ∧
      t.position.capture = none ∧ t.port.causes.lineError = true ∧ t.engine.requests.roll = st.engine.requests.roll ∧
      t.engine.nextSeq = st.engine.nextSeq))

/-- R88, R95, R96, R97, R99, R194: the result of a low pass is the smallest value offered and that of a high pass the largest, or
NO OFFER; it stands on the wire when every station with an offer drives its cells and releases them once it is outbid; the cells of
a pass read back as its result; the body of a round has the cells of the table of R194, with a released
spacer after every eighth and none after the last, and the whole round 14 cells more for opening pulse, pattern, gap and guard. -/
def Obligations.PassesYieldSmallestAndLargestOffer : Prop :=
  (∀ (w : Nat) (offers : List Nat), (∀ v ∈ offers, v < 2 ^ w) → offers ≠ [] →
    ∃ m ∈ offers, lowPass w offers = some m ∧ ∀ v ∈ offers, m ≤ v) ∧
  (∀ w : Nat, lowPass w [] = none) ∧
  (∀ (w : Nat) (offers : List Nat), (∀ v ∈ offers, v < 2 ^ w) → offers ≠ [] →
    ∃ m ∈ offers, highPass w offers = some m ∧ ∀ v ∈ offers, v ≤ m) ∧
  (∀ w : Nat, highPass w [] = none) ∧
  (∀ (f : PassField) (v : Nat), v < 2 ^ f.width → f.read (f.cells (some v)) = some v) ∧
  (∀ f : PassField, f.read (f.cells none) = none) ∧
  (∀ (f : PassField) (result : Option Nat), (f.cells result).length = 1 + f.width) ∧
  (∀ (f : PassField) (own : Option Nat) (peers : List Nat),
    let wire := f.cells (f.run own peers).result
    ∀ n, n < 1 + f.width → (wire[n]? = some false ↔
      ∃ offer ∈ own.toList ++ peers, f.drives (some offer) (wire.take n) = true)) ∧
  (∀ (f : PassField) (read : List Bool), f.drives none read = false) ∧
  (∀ cells : List Bool, withoutSpacers (withSpacers cells) = cells) ∧
  (∀ cells : List Bool, (withSpacers cells).length = cells.length + (cells.length - 1) / 8 ∧
    (∀ i, i < cells.length → (withSpacers cells)[i + i / 8]? = cells[i]?) ∧
    (∀ j, 8 * (j + 1) < cells.length → (withSpacers cells)[9 * j + 8]? = some true)) ∧
  (∀ (k : RoundKind) (contest : Option Nat) (results : List (Option Nat)) (slots : List (List Bool)),
    results.length = k.passes.length → slots.length = (if k.slotCells = 0 then 0 else 8) →
    (∀ s ∈ slots, s.length = k.slotCells) →
    (k.bodyCells contest results slots).length = k.cells ∧
    (k.roundCells contest results slots).length = 14 + k.cells + (k.cells - 1) / 8) ∧
  RoundKind.nothing.cells = 4 ∧ RoundKind.purge.cells = 24 ∧ RoundKind.roll.cells = 470 ∧ RoundKind.verdict.cells = 31 ∧
  RoundKind.tally.cells = 3605 ∧ RoundKind.opening.cells = 37

/-- R98, R112, R116, R119, R137: the kind contest decides the kind at every station, and fixes the ROLL entry and sequence, and the
TALLY, VERDICT and PURGE offers from the requests that counted at the opening and are still held; the codes that name no kind end
in MUTE. -/
def Obligations.KindContestNamesKind : Prop :=
  ∀ (peers : List (BitVec 3)) (r : Round) (st : Station) (q : List Instr),
    st.heldInReset = false → st.line.state = .inRound → st.line.longDrive = false → st.line.round = some r →
    r.kind = none → (∀ c, r.offers.contest = some c → 1 ≤ c ∧ c ≤ 5) →
    let offered := r.offers.contest.toList ++ peers.map (·.toNat)
    let held := fun (l : List Held) (s : Seq) => ∃ h ∈ l, h.subject = s
    let oldest := fun (counted : List Seq) (l : List Held) (s : Seq) =>
      s ∈ counted ∧ held l s ∧ ∀ u ∈ counted, held l u → u = s ∨ olderSeq s u = true
    let offers := fun (counted : List Seq) (l : List Held) (offer : Option Nat) =>
      (∀ s, oldest counted l s → offer = some s.toNat) ∧ ((∀ s ∈ counted, ¬ held l s) → offer = none)
    ∃ t : Station, exec (.kindContestEnd peers) ⟨st, q⟩ = .next ⟨t, q⟩ ∧
      (offered = [] → ∃ x, t.line.round = some x ∧ x.kind = some .nothing ∧ x.slotEntry = r.slotEntry ∧ x.offers = r.offers) ∧
      (∀ n : Nat, n ∈ offered → (∀ v ∈ offered, n ≤ v) →
        (∀ k, RoundKind.ofCode n = some k → t.line.state = .inRound ∧ ∃ x, t.line.round = some x ∧ x.kind = some k ∧
          x.passes = r.passes ∧ x.counted = r.counted ∧ x.cells = 4 ∧
          (k = .roll → x.slotEntry = some (.roll (ownRollEntry st)) ∧
            x.offers = { r.offers with sequence := some st.engine.nextSeq.toNat }) ∧
          (k ≠ .roll → x.slotEntry = r.slotEntry) ∧ (k = .opening → x.offers = r.offers) ∧
          (k = .tally → x.offers = { r.offers with tallySubject := x.offers.tallySubject } ∧
            offers r.counted.tally st.engine.requests.tally x.offers.tallySubject) ∧
          (k = .verdict → x.offers = { r.offers with verdictSubject := x.offers.verdictSubject } ∧
            offers r.counted.verdict st.engine.requests.verdict x.offers.verdictSubject) ∧
          (k = .purge → x.offers = { r.offers with scope := x.offers.scope } ∧
            (r.counted.purge = .none → x.offers.scope = none) ∧
            (r.counted.purge = .all → st.engine.requests.purge = .all → x.offers.scope = some 1) ∧
            (r.counted.purge = .opened → st.engine.requests.purge = .opened → x.offers.scope = some 2) ∧
            (∀ l m, r.counted.purge = .ones l → st.engine.requests.purge = .ones m →
              x.offers.scope = if l.any (fun s => m.contains s) then some 3 else none) ∧
            (st.engine.requests.purge = .none → x.offers.scope = none))) ∧
        (RoundKind.ofCode n = none → t.line.state = .mute ∧ t.line.round = none ∧ t.port.causes.lineError = true))

/-- R89, R95, R96, R97, R99, R116, R127, R133, R137: in the contest and in a pass the station drives its own offer's cells, and no
spacer. The end of a pass adds its result to the round's results, in layout order, from the own
offer and the peers' offers, and fixes what its end fixes: the own TALLY entry, the ready and code offers of a VERDICT round, the
subject of a PURGE round of scope ONE. -/
def Obligations.PassEndAddsResult : Prop :=
  (∀ (peers : List (BitVec 32)) (r : Round) (k : RoundKind) (field : PassField) (st : Station) (q : List Instr),
    st.heldInReset = false → st.line.state = .inRound → st.line.longDrive = false → st.line.round = some r →
    r.kind = some k → k.passes[r.passes.length]? = some field → ∃ x : Round,
      exec (.passEnd peers) ⟨st, q⟩ = .next ⟨{ st with line := { st.line with round := some x } }, q⟩ ∧
      x.passes = r.passes ++ [field.run (passOffer k r) (peers.map (·.toNat))] ∧ x.kind = r.kind ∧
      x.contest = r.contest ∧ x.slotRead = r.slotRead ∧ x.counted = r.counted ∧
      x.cells = k.cellsThrough (r.passes.length + 1) ∧
      (k = .tally → st.start.node = .running → ∀ s, x.result 0 = some s →
        x.slotEntry = some (.tally (ownTallyEntry st (BitVec.ofNat 16 s)))) ∧
      (k ≠ .tally → x.slotEntry = r.slotEntry) ∧
      (k = .roll ∨ k = .opening ∨ k = .tally → x.offers = r.offers) ∧
      (k = .verdict → r.passes = [] → st.start.node = .running → ∀ s, x.result 0 = some s →
        (∀ rec, st.record (BitVec.ofNat 16 s) = some rec → x.offers = { r.offers with
          ready := some (if rec.verdict.isSome then 1 else 0), verdictCode := rec.verdict.map Verdict.code }) ∧
        (st.record (BitVec.ofNat 16 s) = none → x.offers = r.offers)) ∧
      (k = .verdict → r.passes ≠ [] ∨ st.start.node ≠ .running → x.offers = r.offers) ∧
      (k = .purge → (r.passes ≠ [] ∨ x.result 0 ≠ some 3) → x.offers = r.offers) ∧
      (k = .purge → r.passes = [] → x.result 0 = some 3 → ∀ l m, r.counted.purge = .ones l →
        st.engine.requests.purge = .ones m →
        (∀ s, s ∈ l → s ∈ m → (∀ u ∈ l, u ∈ m → u = s ∨ olderSeq s u = true) → x.offers.purgeSubject = some s.toNat) ∧
        ((∀ s ∈ l, s ∉ m) → x.offers.purgeSubject = none))) ∧
  (∀ r : Round, (r.passes.length = 0 → passOffer .verdict r = r.offers.verdictSubject) ∧
    (r.passes.length = 1 → passOffer .verdict r = r.offers.ready) ∧
    (2 ≤ r.passes.length →
      passOffer .verdict r = if r.result 1 = some 0 then none else r.offers.verdictCode)) ∧
  (∀ (k : RoundKind) (n : Nat), let body := 4 + ((k.passes.take n).map fun f => 1 + f.width).sum
    k.cellsThrough n = body + (body - 1) / 8) ∧
  (∀ (r : Round) (st : Station) (heard : List Bool),
    st.heldInReset = false → st.line.state = .inRound → st.line.longDrive = false → st.line.round = some r →
    let body := withoutSpacers heard
    (heard.length % 9 = 8 → st.gradeLineDriven heard = false) ∧
    (heard.length % 9 ≠ 8 →
      (r.kind = none → st.gradeLineDriven heard = contestField.drives r.offers.contest body) ∧
      (∀ k field, r.kind = some k → k.passes[r.passes.length]? = some field →
        let start := 4 + ((k.passes.take r.passes.length).map fun f => 1 + f.width).sum
        start ≤ body.length → st.gradeLineDriven heard = field.drives (passOffer k r) (body.drop start))))

/-- R89, R95, R100, R109: the station drives the 0s of its own slot while each of its cells reads as sent, no cell of another slot, and
none where it was handed no entry; the own-slot mismatch count and the cell count after a correct read-back; the third mismatch in a row is the
index fault restart, which puts every block at its value after reset and sets the index fault mark. -/
def Obligations.OwnSlotCountsMismatches : Prop :=
  (∀ (straps : Straps) (r : Round) (k : RoundKind) (st : Station) (q : List Instr),
    st.heldInReset = false → ownSlot st = some r → r.kind = some k →
    exec .ownSlotReadBack ⟨st, q⟩ = .next ⟨{ st with line := { st.line with
      mismatch := 0, round := some { r with slotRead := true, cells := k.cellsThroughSlot st.start.index } } }, q⟩ ∧
    (st.line.mismatch < 2 → ∃ t : Station, exec (.ownSlotMismatch straps) ⟨st, q⟩ = .next ⟨t, q⟩ ∧
      t.line.state = .mute ∧ t.line.mismatch = st.line.mismatch + 1 ∧ t.line.round = none ∧ t.position.capture = none ∧
      t.port.causes.lineError = true) ∧
    (st.line.mismatch = 2 → ∃ t : Station, exec (.ownSlotMismatch straps) ⟨st, q⟩ = .next ⟨t, q⟩ ∧
      st.resetFrom straps true t)) ∧
  (∀ (r : Round) (k : RoundKind) (st : Station) (heard : List Bool),
    st.heldInReset = false → st.line.state = .inRound → st.line.longDrive = false → st.line.round = some r →
    r.kind = some k → r.passes.length = k.passes.length →
    let start := 4 + (k.passes.map fun f => 1 + f.width).sum + k.slotCells * st.start.index.val
    let body := withoutSpacers heard
    (r.slotEntry = none → st.gradeLineDriven heard = false) ∧
    (∀ entry, r.slotEntry = some entry →
      (body.length < start ∨ start + entry.cells.length ≤ body.length → st.gradeLineDriven heard = false) ∧
      (∀ sent rest, heard.length % 9 ≠ 8 → start ≤ body.length → entry.cells = sent ++ rest →
        (body.drop start = sent → (st.gradeLineDriven heard = true ↔ rest.head? = some false)) ∧
        ((body.drop start).length = sent.length → body.drop start ≠ sent → st.gradeLineDriven heard = false))))

/-- R93 to R96, R104, R106: every line error, and a long drive that is released, put the station in MUTE with nothing of the round
taken; an edge within a quarter of a round cell of a cell boundary is counted from there. -/
def Obligations.LineErrorsEnterMute : Prop :=
  ∀ (st : Station) (q : List Instr), st.heldInReset = false → st.edge.testDeferred = false →
    let muted := Host.Outcome.next (φ := Fault) (ρ := Refusal) (⟨{ st with
      position := { st.position with capture := none }
      line := { st.line with
        state := .mute, opener := false, breakSender := false, longDrive := false, roundCell := none, round := none,
        quiet := 0 }
      port := { st.port with causes := { st.port.causes with lineError := true } } }, q⟩ : State)
    let sent := fun (r : Round) (offer : Option Nat) =>
      (r.kind = none ∧ offer = r.offers.contest) ∨
      (∃ k, r.kind = some k ∧ r.passes.length < k.passes.length ∧ offer = passOffer k r)
    (st.line.state = .opening → st.line.opener = true → st.line.round = none → st.line.longDrive = false →
      exec (.lineError .openingDrive) ⟨st, q⟩ = muted) ∧
    (st.line.state = .opening → st.line.round.isSome = true → st.line.longDrive = false →
      exec (.lineError .pattern) ⟨st, q⟩ = muted) ∧
    (∀ (r : Round) (sixCells time : Nat), st.line.state = .inRound → st.line.longDrive = false →
      st.line.round = some r → st.line.roundCell = some sixCells → 0 < sixCells →
      (∀ n, 24 * time ≤ (4 * n + 1) * sixCells → 4 * n * sixCells ≤ 24 * time + sixCells →
        exec (.lineError (.edge time)) ⟨st, q⟩ =
          .next ⟨{ st with line := { st.line with round := some { r with cells := r.cells + n } } }, q⟩) ∧
      ((∀ n, ¬ (24 * time ≤ (4 * n + 1) * sixCells ∧ 4 * n * sixCells ≤ 24 * time + sixCells)) →
        exec (.lineError (.edge time)) ⟨st, q⟩ = muted)) ∧
    (∀ (r : Round) (offer : Option Nat), st.line.state = .inRound → st.line.longDrive = false →
      st.line.round = some r → sent r offer →
      (offer.isSome = true → exec (.lineError .drivenReadsReleased) ⟨st, q⟩ = muted ∧
        exec (.lineError .valueWithoutOffer) ⟨st, q⟩ = .next ⟨st, q⟩) ∧
      (offer = none → exec (.lineError .valueWithoutOffer) ⟨st, q⟩ = muted ∧
        exec (.lineError .drivenReadsReleased) ⟨st, q⟩ = .next ⟨st, q⟩)) ∧
    (st.line.longDrive = true → exec .longDriveReleased ⟨st, q⟩ = muted) ∧
    ((st.line.state = .inRound ∨ st.line.state = .guard) →
      exec .longDriveStart ⟨st, q⟩ = .next ⟨{ st with line := { st.line with longDrive := true } }, q⟩)

/-- R89, R91, R105, R107, R108: a received BREAK cancels the round in flight and holds the line in BREAKING; in OFF it only clears the
quiet count. From MUTE the station sends a BREAK of 30 driven cells; heard, it raises ROLL and leads to GUARD; unheard, the station is MUTE again.
That a BREAK ends the round capture, against R28, is the model's choice (log 35). -/
def Obligations.BreakCancelsRoundAndMuteSendsIt : Prop :=
  ∀ (st : Station) (q : List Instr), st.heldInReset = false →
    (st.line.state = .off →
      exec .breakReceived ⟨st, q⟩ = .next ⟨{ st with line := { st.line with quiet := 0 } }, q⟩) ∧
    (st.line.state ≠ .off → st.line.state ≠ .breaking → st.edge.testDeferred = false →
      exec .breakReceived ⟨st, q⟩ = .next ⟨{ st with
        position := { st.position with capture := none }
        line := { st.line with
          state := .breaking, opener := false, breakSender := false, longDrive := false, roundCell := none, round := none,
          quiet := if st.line.state = .mute then 0 else st.line.quiet } }, q⟩) ∧
    (st.line.state = .breaking → st.line.breakSender = false →
      exec .breakWireReleased ⟨st, q⟩ = .next ⟨{ st with line := { st.line with state := .guard } }, q⟩) ∧
    (st.line.state = .mute → exec .muteQuietCountFull ⟨st, q⟩ =
      .next ⟨{ st with line := { st.line with state := .breaking, breakSender := true, quiet := 32 } }, q⟩) ∧
    (st.line.state = .breaking → st.line.breakSender = true →
      (∀ heard : List Bool,
        (st.gradeLineDriven heard = true ↔ heard.length < 30 ∧ ∀ released ∈ heard, released = false)) ∧
      exec (.breakSendEnd true) ⟨st, q⟩ = .next ⟨{ st with
        line := { st.line with state := .guard, breakSender := false }
        engine := { st.engine with requests := { st.engine.requests with roll := true } } }, q⟩ ∧
      exec (.breakSendEnd false) ⟨st, q⟩ = .next ⟨{ st with
        line := { st.line with state := .mute, breakSender := false, quiet := 0 }
        port := { st.port with causes := { st.port.causes with lineError := true } } }, q⟩)

/-! ## Round Engine (chapter 6), and alignment (chapter 2) -/

/-- R131, R132, R135: the hold marks after a TALLY round at a RUNNING station that holds the subject. Where a slot read DAMAGED and
the record is still GATHERING, TALLY is raised with a clear mark; else the mark is held back where the own answer is the one sent,
and kept where it is a new one; a VERDICT request for the subject is released. That a TALLIED record's request leaves also where it
was raised in flight is the model's choice (log 36). -/
def Obligations.HoldMarksAfterTallyRound : Prop :=
  ∀ (slots : List (BitVec 448)) (r : Round) (sent : TallyEntry) (subject : Nat) (st : Station) (q : List Instr),
    st.heldInReset = false → completing .tally st = some r → r.result 0 = some subject →
    r.slotEntry = some (.tally sent) → st.start.node = .running →
    let s : Seq := BitVec.ofNat 16 subject
    let readings := tallyReadings st.start.index sent slots
    let damaged := ∃ k : Index, (st.engine.peers.get k).isSome = true ∧ readings.get k = .damaged
    (st.record s).isSome = true → ∃ (t : Station) (b : Record),
      exec (.tallyRoundComplete slots) ⟨st, q⟩ = .next ⟨t, q⟩ ∧ t.record s = some b ∧
      (b.phase = .gathering → damaged → (⟨s, false⟩ : Held) ∈ t.engine.requests.tally ∧
        ∀ h ∈ t.engine.requests.tally, h.subject = s → h.heldBack = false) ∧
      (b.phase = .gathering → ¬ damaged → ownTallyEntry st s = sent →
        ∀ h ∈ t.engine.requests.tally, h.subject = s → h.heldBack = true) ∧
      (b.phase = .gathering → ¬ damaged →
        (t.engine.requests.tally.filter fun h => h.subject == s).map (·.subject) =
          (st.engine.requests.tally.filter fun h => h.subject == s).map (·.subject) ∧
        (ownTallyEntry st s ≠ sent → (t.engine.requests.tally.filter fun h => h.subject == s) =
          st.engine.requests.tally.filter fun h => h.subject == s)) ∧
      (b.phase = .tallied → ∀ h ∈ t.engine.requests.tally, h.subject ≠ s) ∧
      (∀ h ∈ t.engine.requests.tally, h.subject ≠ s → h ∈ st.engine.requests.tally) ∧
      (∀ h ∈ t.engine.requests.verdict, h.subject = s → h.heldBack = false) ∧
      (∀ h ∈ st.engine.requests.verdict, h.subject ≠ s → h ∈ t.engine.requests.verdict)

/-- R37, R51: the compares at an alignment. A forward jump leaves no compare due: each one it carries across has been taken, so a
record whose gate compare it carries has left the table, one whose decision compare it carries is frozen, and a compare of the
frozen Edge Unit is kept. A backward jump, and one of 0, take none. -/
def Obligations.AlignmentTakesCarriedCompares : Prop :=
  ∀ (slots : List (BitVec 52)) (order : List CompareId) (r : Round) (entry : RollEntry) (alignment sequence : Nat)
    (capture : Pos) (st : Station) (q : List Instr),
    st.heldInReset = false → completing .roll st = some r → r.slotEntry = some (.roll entry) →
    r.result 0 = some alignment → r.result 1 = some sequence → st.position.capture = some capture →
    let d := BitVec.ofNat 32 alignment - capture
    let carried := fun (c : Compare) => c.progress = .waiting ∧ atOrAfter st.position.counter c.pos = false ∧
      atOrAfter (st.position.counter + d) c.pos = true
    ∃ t : Station, exec (.rollRoundComplete slots order) ⟨st, q⟩ = .next ⟨t, q⟩ ∧
      (d ≠ 0 → d.toNat < 2147483648 →
        (∀ c ∈ t.position.compares, c.progress ≠ .due) ∧
        (∀ x ∈ st.table, (∃ c ∈ st.position.compares, c.id = .gate x.seq ∧ carried c) → t.record x.seq = none) ∧
        (∀ x ∈ st.table, (∃ c ∈ st.position.compares, c.id = .decision x.seq ∧ carried c) →
          ∀ b, t.record x.seq = some b → b.frozen = true) ∧
        (∀ c, st.position.compares = [c] → CompareId.owner c.id = .edge → carried c → st.edge.frozen = true →
          st.start.node = .running → t.position.compares = [{ c with progress := .kept }] ∧ t.edge = st.edge)) ∧
      ((d = 0 ∨ 2147483648 ≤ d.toNat) →
        ∀ c ∈ st.position.compares, CompareId.owner c.id ≠ .edge → c ∈ t.position.compares)

/-- R21, R36, R48, R76, R120, R121, R122, R124: what every completed ROLL round does. At an entry to RUNNING a probe that is OFF
begins its warm-up, and a pending edge is discarded with the Edge Unit blanked; Edge and Probe Unit are stated whole where the
alignment takes no compare. -/
def Obligations.RollRoundAlignsAndAgrees : Prop :=
  ∀ (slots : List (BitVec 52)) (order : List CompareId) (r : Round) (entry : RollEntry) (alignment sequence : Nat)
    (capture : Pos) (st : Station) (q : List Instr),
    st.heldInReset = false → completing .roll st = some r → r.slotEntry = some (.roll entry) →
    r.result 0 = some alignment → r.result 1 = some sequence → st.position.capture = some capture →
    let d := BitVec.ofNat 32 alignment - capture
    let readings := rollReadings st.start.index entry slots
    let entering := st.start.node ≠ .running ∧ agreement entry.digest readings = true
    let takesNone := d = 0 ∨ 2147483648 ≤ d.toNat ∨ ∀ c ∈ st.position.compares, c.progress ≠ .due ∧
      ¬ (c.progress = .waiting ∧ atOrAfter st.position.counter c.pos = false ∧
        atOrAfter (st.position.counter + d) c.pos = true)
    let moved : Station := { st with position := { st.position with counter := st.position.counter + d } }
    ∃ t : Station, exec (.rollRoundComplete slots order) ⟨st, q⟩ = .next ⟨t, q⟩ ∧
      t.position.counter = st.position.counter + d ∧ t.position.highWater = st.position.highWater + d ∧
      t.position.triggerPos = st.position.triggerPos + d ∧ t.position.triggerCount = st.position.triggerCount ∧
      t.position.reverseTravel = st.position.reverseTravel ∧ t.position.direction = st.position.direction ∧
      t.position.capture = none ∧
      t.engine.nextSeq = BitVec.ofNat 16 sequence ∧ t.engine.openCount = 0 ∧
      t.engine.peers = newPeers st.engine.peers readings ∧
      t.engine.requests.roll = readings.toList.any (fun x => x == .damaged) ∧
      (∀ h ∈ t.engine.requests.tally, h.heldBack = false) ∧
      t.start = { st.start with node := if agreement entry.digest readings then .running else .mismatch } ∧
      (agreement entry.digest readings = false → t.port.causes.mismatch = true) ∧
      (st.engine.peers.toList.map Option.isSome ≠ t.engine.peers.toList.map Option.isSome →
        t.port.causes.peerChange = true) ∧
      (∀ b ∈ t.table, b.phase = .gathering → ∀ k : Index,
        ((t.engine.peers.get k).isSome = true →
          (st.engine.peers.get k = none ∨ ∃ e, readings.get k = .entry e ∧ e.node = .joining) → b.entries.get k ≠ none) ∧
        ((st.engine.peers.get k).isSome = true → t.engine.peers.get k = none → b.entries.get k = none →
          b.flags.blind = true)) ∧
      (entering → t.edge.pending = none ∧ (st.probe.state = .off →
        t.probe.state = .warming ∧ t.probe.warmTimer = some st.loc.warmUpTime ∧ t.probeExcite = .bias)) ∧
      (takesNone →
        (entering → st.edge.pending.isSome = true → moved.entersBlanked t) ∧
        (¬ entering ∨ st.edge.pending = none → t.edge = st.edge) ∧
        (¬ entering ∨ st.probe.state ≠ .off → t.probe = st.probe)) ∧
      t.line = { st.line with state := .guard, opener := false, longDrive := false, round := none }

/-- R21, R121, R122: the peer map and the agreement that a station forms from the slot readings; the UNKNOWN entries and BLIND of a
record when an index that it awaits joins or leaves. -/
def Obligations.PeerMapAndAgreementFromSlots : Prop :=
  (∀ (before : Eight (Option Nat)) (readings : Eight (Reading RollEntry)) (k : Index),
    (readings.get k = .silent → (newPeers before readings).get k = none) ∧
    (∀ e, readings.get k = .entry e → (newPeers before readings).get k = some 0) ∧
    (readings.get k = .damaged →
      (newPeers before readings).get k = if (before.get k).isSome then some 0 else none)) ∧
  (∀ (digest : BitVec 32) (readings : Eight (Reading RollEntry)), agreement digest readings = true ↔
    (∀ (k : Index) (e : RollEntry), readings.get k = .entry e → e.digest = digest) ∧
    (∀ (j k : Index) (e f : RollEntry), readings.get j = .entry e → readings.get k = .entry f →
      e.outlet = true → f.outlet = true → j = k)) ∧
  (∀ (joined left : Index → Bool) (r : Record),
    let x := r.peersChanged joined left
    (∀ k : Index, x.entries.get k = if joined k && (r.entries.get k).isNone then some .unknown else r.entries.get k) ∧
    (x.flags.blind = true ↔ r.flags.blind = true ∨
      ∃ k : Index, (joined k = true ∨ left k = true) ∧ r.entries.get k = none) ∧
    x = { r with entries := x.entries, flags := { r.flags with blind := x.flags.blind } })

/-- R10, R11, R13, R48, R114, R123, R126: what a completed OPEN round does; a refused creation blanks the Edge Unit. The OPEN request is
served, and stands again exactly where a qualified pending edge is left unattached; outside RUNNING it is kept. The cases of R11, and
the P of R10. -/
def Obligations.OpenRoundCreatesOrRefuses : Prop :=
  (∀ st : Station,
    (creationRefused st = true ↔ 12 ≤ st.table.length ∨
      (∃ n, st.newest = some n ∧ olderSeq n.seq st.engine.nextSeq = false) ∨ ∃ x ∈ st.table, x.seq = st.engine.nextSeq) ∧
    ∀ p : Pos, (st.table = [] → creationP st p = p) ∧
      (∀ n, st.newest = some n → creationP st p = if atOrAfter p n.refPos then p else n.refPos)) ∧
  ∀ (r : Round) (st : Station) (q : List Instr), st.heldInReset = false → completing .opening st = some r →
    let unattached := fun (x : Station) => ∃ e, x.edge.pending = some e ∧ e.qualified = true
    ∃ t : Station, exec .openRoundComplete ⟨st, q⟩ = .next ⟨t, q⟩ ∧
      t.line = { st.line with state := .guard, opener := false, longDrive := false, round := none } ∧
      t.position.capture = none ∧
      (st.start.node ≠ .running → t.engine.nextSeq = st.engine.nextSeq ∧ t.engine.openCount = st.engine.openCount ∧
        (st.edge.testDeferred = false → t.engine.requests = st.engine.requests) ∧
        (st.engine.requests.opening = true → t.engine.requests.opening = true)) ∧
      (st.start.node = .running →
        t.engine.openCount.toNat = min 255 (st.engine.openCount.toNat + 1) ∧
        ((st.engine.openCount.toNat + 1 = st.shared.rollPeriod.toNat) → t.engine.requests.roll = true) ∧
        (¬ unattached st → t.engine.requests.opening = false) ∧
        (unattached t → t.engine.requests.opening = true) ∧
        (r.result 0 = none → t.engine.nextSeq = st.engine.nextSeq ∧
          (t.engine.requests.opening = true ↔ unattached t)) ∧
        (∀ p, r.result 0 = some p → t.engine.nextSeq = st.engine.nextSeq + 1) ∧
        (∀ p, r.result 0 = some p → creationRefused st = true →
          t.port.causes.tableFull = true ∧ st.entersBlanked t ∧ t.engine.requests.opening = false ∧
          t.table.map (·.seq) = st.table.map (·.seq)) ∧
        (∀ p, r.result 0 = some p → creationRefused st = false →
          atOrAfter st.position.counter (creationP st (BitVec.ofNat 32 p) + counts st.shared.gateDistance) = false →
            (t.engine.requests.opening = true ↔ unattached t) ∧ t.table.map Record.identity = st.table.map Record.identity ++
              [(st.engine.nextSeq, creationP st (BitVec.ofNat 32 p),
                creationP st (BitVec.ofNat 32 p) + counts st.shared.decisionDistance,
                creationP st (BitVec.ofNat 32 p) + counts st.shared.gateDistance)]))

/-- R115, R127 to R130, R132: a station that is not RUNNING, does not hold the subject record, or heard NO OFFER in the subject pass
passes over a TALLY round. At a RUNNING station that holds it: what the round stores in the record, with BLIND for an UNKNOWN entry,
and the members' silence counts, with BLIND where a removed member is awaited. -/
def Obligations.TallyRoundStoresEntries : Prop :=
  (∀ (slots : List (BitVec 448)) (r : Round) (st : Station) (q : List Instr),
    st.heldInReset = false → completing .tally st = some r →
    (st.start.node ≠ .running ∨ r.result 0 = none ∨
      ∃ subject, r.result 0 = some subject ∧ st.record (BitVec.ofNat 16 subject) = none) →
    exec (.tallyRoundComplete slots) ⟨st, q⟩ = .next ⟨{ st with
      position := { st.position with capture := none }
      line := { st.line with state := .guard, opener := false, longDrive := false, round := none } }, q⟩) ∧
  (∀ (slots : List (BitVec 448)) (r : Round) (sent : TallyEntry) (subject : Nat) (rec : Record) (st : Station)
    (q : List Instr),
    st.heldInReset = false → completing .tally st = some r → r.result 0 = some subject →
    r.slotEntry = some (.tally sent) → st.start.node = .running → st.record (BitVec.ofNat 16 subject) = some rec →
    let s : Seq := BitVec.ofNat 16 subject
    let readings := tallyReadings st.start.index sent slots
    ∃ t : Station, exec (.tallyRoundComplete slots) ⟨st, q⟩ = .next ⟨t, q⟩ ∧
      t.line = { st.line with state := .guard, opener := false, longDrive := false, round := none } ∧
      t.position = { st.position with capture := none } ∧
      t.engine.nextSeq = st.engine.nextSeq ∧ t.engine.openCount = st.engine.openCount ∧
      t.start = st.start ∧ t.edge = st.edge ∧ t.scan = st.scan ∧ t.probe = st.probe ∧ t.outlet = st.outlet ∧
      (∃ b, t.record s = some b ∧ b.outcome = rec.outcome ∧ b.band = rec.band ∧
        (rec.phase ≠ .gathering → b.phase = rec.phase ∧ b.verdict = rec.verdict) ∧
        (b.flags.blind = true ↔ rec.flags.blind = true ∨
          (∃ k : Index, (st.engine.peers.get k).isSome = true ∧ readings.get k = .entry .unknown) ∨
          (rec.phase = .gathering ∧ ∃ k : Index, (st.engine.peers.get k).isSome = true ∧ t.engine.peers.get k = none ∧
            rec.entries.get k = none)) ∧
        ∀ k : Index, b.entries.get k =
          if (st.engine.peers.get k).isSome then
            match readings.get k with
            | .entry (.closed x) => some (.closed x)
            | .entry .empty => some .empty
            | .entry .unknown => some .unknown
            | .entry .pending => rec.entries.get k
            | .silent => rec.entries.get k
            | .damaged => rec.entries.get k
          else rec.entries.get k) ∧
      (∀ b ∈ t.table, b.phase = .gathering → ∀ k : Index, (st.engine.peers.get k).isSome = true →
        t.engine.peers.get k = none → b.entries.get k = none → b.flags.blind = true) ∧
      ((∃ k : Index, (st.engine.peers.get k).isSome = true ∧ t.engine.peers.get k = none) →
        t.port.causes.peerChange = true) ∧
      ∀ k : Index, t.engine.peers.get k =
        match st.engine.peers.get k with
        | none => none
        | some n => match readings.get k with
          | .entry _ => some 0
          | .silent => if 4 ≤ n + 1 then none else some (n + 1)
          | .damaged => if 4 ≤ n then none else some n)

/-- R24, R115, R134, R135: a completed VERDICT round decides a held record, or holds the request back. A station that is not RUNNING,
does not hold the subject record, or heard NO OFFER in the subject pass passes over it. -/
def Obligations.VerdictRoundDecidesRecord : Prop :=
  (∀ (r : Round) (st : Station) (q : List Instr), st.heldInReset = false → completing .verdict st = some r →
    (st.start.node ≠ .running ∨ r.result 0 = none ∨ ∃ subject, r.result 0 = some subject ∧
      st.record (BitVec.ofNat 16 subject) = none ∧
      ∀ h ∈ st.engine.requests.verdict, h.subject ≠ BitVec.ofNat 16 subject) →
    exec .verdictRoundComplete ⟨st, q⟩ = .next ⟨{ st with
      position := { st.position with capture := none }
      line := { st.line with state := .guard, opener := false, longDrive := false, round := none } }, q⟩) ∧
  ∀ (r : Round) (subject : Nat) (rec : Record) (st : Station) (q : List Instr),
    st.heldInReset = false → completing .verdict st = some r → r.result 0 = some subject →
    st.start.node = .running → st.record (BitVec.ofNat 16 subject) = some rec →
    let s : Seq := BitVec.ofNat 16 subject
    let ended := fun (table : List Record) (requests : Requests) => Host.Outcome.next (φ := Fault) (ρ := Refusal)
      (⟨{ st with
          position := { st.position with capture := none }
          line := { st.line with state := .guard, opener := false, longDrive := false, round := none }
          table := table
          engine := { st.engine with requests := requests } }, q⟩ : State)
    let decided := fun (v : Verdict) (disputed : Bool) => st.table.map fun x =>
      if x.seq = s then
        { x with phase := .decided, outcome := some v, flags := { x.flags with disputed := x.flags.disputed || disputed } }
      else x
    (r.result 1 = some 0 → exec .verdictRoundComplete ⟨st, q⟩ =
      ended st.table (if r.offers.ready = some 1 then st.engine.requests.markVerdict s true else st.engine.requests)) ∧
    (r.result 1 ≠ some 0 → (rec.phase = .decided ∨ r.result 2 = none ∨ r.result 3 = none) →
      exec .verdictRoundComplete ⟨st, q⟩ = ended st.table st.engine.requests) ∧
    (∀ low high, r.result 1 ≠ some 0 → rec.phase ≠ .decided → r.result 2 = some low → r.result 3 = some high →
      exec .verdictRoundComplete ⟨st, q⟩ =
        ended (if low = high then decided (Verdict.ofCode low) false else decided .manual true)
          ((st.engine.requests.dropVerdict s).dropTally s))

/-- R25, R48, R50, R68, R138, R139, R140, R160: what a completed PURGE round removes at a RUNNING station, and the result records of
the removed records, oldest first, with PURGED and MANUAL, where the result FIFO has room for them; the Edge Unit after each
scope. -/
def Obligations.PurgeRoundRemovesRecords : Prop :=
  ∀ (r : Round) (st : Station) (q : List Instr), st.heldInReset = false → completing .purge st = some r →
    let results := fun (t : Station) (removed : List Record) =>
      st.port.fifo.length + removed.length ≤ 16 → ∃ l : List ResultRecord, t.port.fifo = st.port.fifo ++ l ∧
        List.Forall₂ (fun (x : ResultRecord) (y : Record) =>
          x.carries st.shared y ∧ x.outcome = .manual ∧ x.flags.purged = true) l removed
    let blanksIfOpen := fun (t : Station) (removed : List Record) =>
      ((∃ x ∈ removed, x.band.state = .opened) → st.oneOpenBand → st.entersBlanked t) ∧
      ((∀ x ∈ removed, x.band.state ≠ .opened) → t.edge = st.edge)
    ∃ t : Station, exec .purgeRoundComplete ⟨st, q⟩ = .next ⟨t, q⟩ ∧
      t.line = { st.line with state := .guard, opener := false, longDrive := false, round := none } ∧
      t.engine.nextSeq = st.engine.nextSeq ∧ t.engine.requests.roll = st.engine.requests.roll ∧
      ((st.start.node ≠ .running ∨ r.result 0 = none) →
        t.table = st.table ∧ t.engine = st.engine ∧ t.edge = st.edge ∧ t.port = st.port) ∧
      (st.start.node = .running → st.seqsDistinct →
        (r.result 0 = some 1 → t.table = [] ∧ t.scan.fifo = [] ∧ t.scan.overrun = false ∧ t.edge.pending = none ∧
          t.engine.requests = { opening := false, roll := st.engine.requests.roll, tally := [], verdict := [],
                                purge := .none } ∧
          (st.presenceHeld = true → st.entersBlanked t) ∧
          (st.presenceHeld = false → st.oneOpenBand → st.openRecord.isSome = true → st.entersBlanked t) ∧
          (st.presenceHeld = false → st.openRecord = none → t.edge = { st.edge with
            state := .idle, pending := none, fall := none, absence := none, testDeferred := false }) ∧
          results t st.table) ∧
        (r.result 0 = some 2 → t.table.map (·.seq) = (st.table.filter fun x => x.phase == .decided).map (·.seq) ∧
          t.engine.requests.purge ≠ .opened ∧ results t (st.table.filter fun x => x.phase != .decided) ∧
          blanksIfOpen t (st.table.filter fun x => x.phase != .decided)) ∧
        (∀ s : Nat, r.result 0 = some 3 → r.result 1 = some s →
          t.table.map (·.seq) = (st.table.map (·.seq)).filter (· != BitVec.ofNat 16 s) ∧
          results t (st.table.filter fun x => x.seq == BitVec.ofNat 16 s) ∧
          blanksIfOpen t (st.table.filter fun x => x.seq == BitVec.ofNat 16 s)))

/-! ## Requests, and the records with their compares -/

/-- R31, R112, R113, R183, R187, R195: what a raised PURGE request makes of the request set, and that a ONE request raised in flight
does not count in the round in flight; the answers and effects of REQUEST PURGE and
REQUEST ROLL; which command the bytes of a transaction give; a code that names no command has no effect on the station beyond the
transaction's answer (the answer's length is the model's choice, log 27). -/
def Obligations.RequestCommandsAnswer : Prop :=
  ((∀ p : PurgeSet, p.take .all = (.all, .accepted)) ∧
    PurgeSet.none.take .opened = (.opened, .accepted) ∧
    PurgeSet.all.take .opened = (.all, .accepted) ∧
    PurgeSet.opened.take .opened = (.opened, .accepted) ∧
    (∀ l : List Seq, (PurgeSet.ones l).take .opened = (.ones l, .busy)) ∧
    (∀ s : Seq, PurgeSet.none.take (.one s) = (.ones [s], .accepted)) ∧
    (∀ (s : Seq) (l : List Seq), s ∈ l → (PurgeSet.ones l).take (.one s) = (.ones l, .accepted)) ∧
    (∀ (s : Seq) (l : List Seq), s ∉ l → l.length < 4 →
      (PurgeSet.ones l).take (.one s) = (.ones (l ++ [s]), .accepted)) ∧
    (∀ (s : Seq) (l : List Seq), s ∉ l → l.length = 4 → (PurgeSet.ones l).take (.one s) = (.ones l, .busy)) ∧
    (∀ s : Seq, PurgeSet.all.take (.one s) = (.all, .accepted)) ∧
    (∀ s : Seq, PurgeSet.opened.take (.one s) = (.opened, .busy))) ∧
  (∀ (st : Station) (q : List Instr), st.heldInReset = false → ∃ t : Station,
    exec (.encoderStep .reverse) ⟨st, q⟩ = .next ⟨t, q⟩ ∧
    (st.start.node ≠ .running → (∀ c ∈ st.position.compares, c.progress ≠ .due) →
      t.engine.requests.purge = st.engine.requests.purge)) ∧
  (∀ (seq : Seq) (st : Station) (q : List Instr), st.heldInReset = false →
    let answered := fun (n : Byte) (requests : Requests) (line : LineUnit) => Host.Outcome.next (φ := Fault) (ρ := Refusal)
      (⟨{ st with
          port := { st.port with selected := true, answer := [n], read := none }
          engine := { st.engine with requests := requests }
          line := line }, q⟩ : State)
    let purged := fun (scope : PurgeScope) => answered
      (if (st.engine.requests.purge.take scope).2 = .busy then 2 else 1)
      { st.engine.requests with purge := (st.engine.requests.purge.take scope).1 }
    let discounted := fun (r : Round) =>
      { r with counted := { r.counted with purge := r.counted.purge.dropOne seq } }
    (st.start.node = .running →
      exec (.requestPurge 1 seq) ⟨st, q⟩ = purged .all st.line ∧
      exec (.requestPurge 2 seq) ⟨st, q⟩ = purged .opened st.line ∧
      (seq ∈ st.engine.requests.purge.subjects → exec (.requestPurge 3 seq) ⟨st, q⟩ = purged (.one seq) st.line) ∧
      (seq ∉ st.engine.requests.purge.subjects → exec (.requestPurge 3 seq) ⟨st, q⟩ =
        purged (.one seq) { st.line with round := st.line.round.map discounted }) ∧
      ∀ scope : Byte, scope ≠ 1 → scope ≠ 2 → scope ≠ 3 →
        exec (.requestPurge scope seq) ⟨st, q⟩ = answered 3 st.engine.requests st.line) ∧
    (st.start.node ≠ .running → ∀ scope : Byte,
      exec (.requestPurge scope seq) ⟨st, q⟩ = answered 3 st.engine.requests st.line) ∧
    (st.start.node.onLine = true →
      exec .requestRoll ⟨st, q⟩ = answered 1 { st.engine.requests with roll := true } st.line) ∧
    (st.start.node.onLine = false → exec .requestRoll ⟨st, q⟩ = answered 3 st.engine.requests st.line)) ∧
  (∀ (code : Byte) (st : Station) (q : List Instr), st.heldInReset = false → (code = 0 ∨ 5#8 < code) →
    exec (.unknownCommand code) ⟨st, q⟩ =
      .next ⟨{ st with port := { st.port with selected := true, answer := [], read := none } }, q⟩) ∧
  (commandTaken [1] = some .readResult ∧ commandTaken [2] = some .readStatus ∧ commandTaken [3] = some .readCause ∧
    (∀ scope high low : Byte, commandTaken [4, scope, high, low] = some (.requestPurge scope (high ++ low))) ∧
    (∀ arguments : List Byte, arguments.length < 3 → commandTaken (4 :: arguments) = none) ∧
    commandTaken [5] = some .requestRoll ∧
    ∀ code : Byte, (code = 0 ∨ 5#8 < code) → commandTaken [code] = some (.unknownCommand code))

/-- R3, R4, R7, R25, R35, R38, R84, R111: every step keeps the pending edge, the fall position, the start of absence and the edge
compares as the edge state asks, the window end compare with the gate window, every record as its phase and its own band state
ask, every compare and request of a record with the record, and the target of a sample with its band. -/
def Obligations.EveryStepKeepsRecordsEdgeAndCompares : Prop :=
  (∀ s t : State, s.station.seqsDistinct → s.station.offLineQuiet → s.station.edge.fits → s.station.comparesFit →
    step s = .next t → t.station.edge.fits ∧ t.station.comparesFit) ∧
  (∀ s t : State, s.station.seqsDistinct → s.station.recordsFit → s.station.subjectsHeld → s.station.targetFits →
    step s = .next t → t.station.recordsFit ∧ t.station.subjectsHeld ∧ t.station.targetFits)

/-! ## Result Port (chapter 10) -/

/-- R183, R184, R190: READ RESULT answers from the head record, which leaves when the answer is out; an empty marker removes
nothing. Data out carries the answer, most significant bit first, then ones, and is released while select is high. -/
def Obligations.ReadResultReturnsHeadRecord : Prop :=
  (∀ (st : Station) (q : List Instr), st.heldInReset = false →
    (st.port.fifo = [] → exec .readResult ⟨st, q⟩ = .next ⟨{ st with port := { st.port with
      selected := true, answer := List.replicate 31 0, read := some (.result false) } }, q⟩) ∧
    (∀ r rest, st.port.fifo = r :: rest → exec .readResult ⟨st, q⟩ = .next ⟨{ st with port := { st.port with
      selected := true, answer := 1 :: r.bytes, read := some (.result true) } }, q⟩) ∧
    (st.port.read = some (.result false) →
      exec .readResultShiftedOut ⟨st, q⟩ = .next ⟨{ st with port := { st.port with read := none } }, q⟩) ∧
    (st.port.read = some (.result true) →
      exec .readResultShiftedOut ⟨st, q⟩ = .next ⟨{ st with port := { st.port with
        fifo := st.port.fifo.tail, read := none,
        causes := { st.port.causes with
          resultReady := decide (st.port.watermark.toNat ≤ st.port.fifo.tail.length) } } }, q⟩) ∧
    exec .resultPortSelectReleased ⟨st, q⟩ =
      .next ⟨{ st with port := { st.port with selected := false, answer := [], read := none } }, q⟩) ∧
  (∀ (st : Station) (n : Nat), st.heldInReset = false →
    (st.port.selected = false → st.resultDataOut n = none) ∧
    (∀ b, st.port.selected = true → st.port.answer[n / 8]? = some b →
      st.resultDataOut n = some (b.getLsbD (7 - n % 8))) ∧
    (st.port.selected = true → 8 * st.port.answer.length ≤ n → st.resultDataOut n = some true))

/-- R186: READ STATUS answers seven bytes from the state then standing, and changes no other state. -/
def Obligations.ReadStatusAnswersStandingState : Prop :=
  ∀ (st : Station) (q : List Instr), st.heldInReset = false → ∃ a b c d e f g : Byte,
    exec .readStatus ⟨st, q⟩ =
      .next ⟨{ st with port := { st.port with
        selected := true, answer := [a, b, c, d, e, f, g], read := none } }, q⟩ ∧
    a = st.start.node.code ∧
    (st.start.node ≠ .configFault → b = 0) ∧ (st.start.node = .configFault → b = FaultReason.code st.start.fault) ∧
    c = st.line.state.code ∧
    (∀ k : Index, d.getLsbD k.val = (st.engine.peers.get k).isSome) ∧
    (st.table.length ≤ 12 → e.toNat = st.table.length) ∧
    f = st.probe.state.code ∧
    (st.port.fifo.length ≤ 16 → g.toNat = st.port.fifo.length)

/-- R188 to R191: READ CAUSE answers the pending cause of highest priority, and clears it when the answer is out; the attention line
is driven exactly while a pending cause is enabled, so the raise of an enabled cause drives it and the reading of the last such
cause releases it. -/
def Obligations.ReadCauseReturnsHighestPending : Prop :=
  ∀ (st : Station) (q : List Instr), st.heldInReset = false →
    (st.attentionDriven = true ↔ ∃ x : Cause, st.port.causes.has x = true ∧ st.port.enable.has x = true) ∧
    (st.line.state = .breaking → st.line.breakSender = true → ∃ t : Station,
      exec (.breakSendEnd false) ⟨st, q⟩ = .next ⟨t, q⟩ ∧ t.port.causes.has .lineError = true ∧
      (st.port.enable.has .lineError = true → t.attentionDriven = true) ∧
      (st.port.enable.has .lineError = false → t.attentionDriven = st.attentionDriven)) ∧
    (∃ c : Option Cause, exec .readCause ⟨st, q⟩ = .next ⟨{ st with port := { st.port with
        selected := true, answer := [Cause.priority c], read := some (.cause c) } }, q⟩ ∧
      (c = none ↔ ∀ x : Cause, st.port.causes.has x = false) ∧
      (∀ x, c = some x → st.port.causes.has x = true ∧
        ∀ y, st.port.causes.has y = true → Cause.priority (some x) ≤ Cause.priority (some y))) ∧
    (∀ c, st.port.read = some (.cause (some c)) → ∃ t : Station,
      exec .readCauseShiftedOut ⟨st, q⟩ = .next ⟨t, q⟩ ∧
      t = { st with port := { st.port with read := none, causes := t.port.causes } } ∧
      (c ≠ .resultReady → t.port.causes.has c = false) ∧ t.resultReadyLevel ∧
      (c ≠ .resultReady → st.resultReadyLevel →
        (t.attentionDriven = true ↔ ∃ x, x ≠ c ∧ st.port.causes.has x = true ∧ st.port.enable.has x = true)) ∧
      ∀ x, x ≠ c → x ≠ .resultReady → t.port.causes.has x = st.port.causes.has x) ∧
    (st.port.read = some (.cause none) →
      exec .readCauseShiftedOut ⟨st, q⟩ = .next ⟨{ st with port := { st.port with read := none } }, q⟩)

/-! ## Grading (chapter 7) -/

/-- R144, R147, R152 to R157: the local verdict computed for a record is given by the first line that applies, with UNMEASURED
where the sheet has no valid reading. -/
def Obligations.LocalVerdictByFirstLine : Prop :=
  ∀ (sh : Shared) (r : Record),
    let t := sheetTally sh.mergeTolerance.toNat r.entries
    let flags := r.flags.withBandFlags r.entries
    let closed := (closedSummaries r.entries).length
    let meets := fun (g : PerClass Limits) => ∀ c : DefectClass,
      (t.figures.get c).count ≤ (g.get c).count.toNat ∧ (t.figures.get c).largest ≤ (g.get c).largest.toNat ∧
      (t.figures.get c).aggregate ≤ (g.get c).aggregate.toNat
    let g := sh.gradeTable
    let flagged := flags.incomplete = true ∨ flags.blind = true ∨ flags.overlength = true
    let meetsAny := meets g.face1 ∨ meets g.face2 ∨ meets g.back ∨ meets g.core
    let v := (gradeRecord sh r).verdict
    (flagged → v = some .manual) ∧
    (¬ flagged → t.moisture = none → v = some .manual) ∧
    (∀ m, ¬ flagged → t.moisture = some m →
      (sh.redryLimit.toNat < m.toNat → v = some .redry) ∧
      (m.toNat ≤ sh.redryLimit.toNat →
        (¬ meetsAny → v = some .reject) ∧
        (meetsAny → closed < sh.fullBandCount.toNat → v = some .strip) ∧
        (meetsAny → sh.fullBandCount.toNat ≤ closed →
          (meets g.face1 → v = some .face1) ∧ (¬ meets g.face1 → meets g.face2 → v = some .face2) ∧
          (¬ meets g.face1 → ¬ meets g.face2 → meets g.back → v = some .back) ∧
          (¬ meets g.face1 → ¬ meets g.face2 → ¬ meets g.back → v = some .core)))) ∧
    (gradeRecord sh r).flags = { flags with unmeasured := flags.unmeasured || t.moisture.isNone } ∧
    (gradeRecord sh r).entries = r.entries ∧ (gradeRecord sh r).band = r.band ∧ (gradeRecord sh r).phase = r.phase

/-- R145, R146, R148 to R151: the sheet's max moisture is the greatest among the stored CLOSED entries that have one. Where no boundary record has a match, the sheet tally's figures are the sums and the greatest values
over the stored CLOSED entries; each chain lowers the count of its class by one less than its records, and a linear one may raise
the largest extent. Which record a source finds, and which chains two and three bands of one record each form. -/
def Obligations.SheetTallySumsAndMergesEntries : Prop :=
  (∀ (tolerance : Nat) (entries : Eight (Option Entry)),
    let has := fun (m : BitVec 10) => ∃ k s, entries.get k = some (.closed s) ∧ s.moisture = some m
    ((sheetTally tolerance entries).moisture = none ↔ ∀ m, ¬ has m) ∧
    (∀ m, (sheetTally tolerance entries).moisture = some m ↔ has m ∧ ∀ n, has n → n ≤ m)) ∧
  (∀ (tolerance : Nat) (entries : Eight (Option Entry)), chains tolerance entries = [] →
    ∀ c : DefectClass,
      let figures := (closedSummaries entries).map fun s => s.figures.get c
      let f := (sheetTally tolerance entries).figures.get c
      f.count = min 255 (figures.map (·.count.toNat)).sum ∧
      f.aggregate = min 65535 (figures.map (·.aggregate.toNat)).sum ∧
      (∀ x ∈ figures, x.largest.toNat ≤ f.largest) ∧
      (f.largest = 0 ∨ ∃ x ∈ figures, x.largest.toNat = f.largest)) ∧
  (∀ (tolerance : Nat) (entries : Eight (Option Entry)) (c : DefectClass),
    let figures := (closedSummaries entries).map fun s => s.figures.get c
    let ofClass := (chains tolerance entries).filter fun ch => decide (ch.cls = c)
    let lowered := (ofClass.map fun ch => ch.length - 1).sum
    let f := (sheetTally tolerance entries).figures.get c
    (lowered ≤ min 255 (figures.map (·.count.toNat)).sum →
      f.count + lowered = min 255 (figures.map (·.count.toNat)).sum) ∧
    f.aggregate = min 65535 (figures.map (·.aggregate.toNat)).sum ∧
    f.largest = (figures.map (·.largest.toNat) ++ ofClass.map Chain.extent).foldl max 0) ∧
  (∀ ch : Chain, ch.extent =
    if ch.cls = .split ∨ ch.cls = .resinStreak then min 4095 ch.total else ch.greatest) ∧
  (∀ (tolerance : Nat) (source : BoundaryRecord) (used : List Nat) (targets : List BoundaryRecord) (j : Nat),
    let fitting := fun (i : Nat) => ∃ x, targets[i]? = some x ∧ (x.side = .left ∨ x.side = .both) ∧ i ∉ used ∧
      x.cls = source.cls ∧ source.alongStart.toNat ≤ x.alongEnd.toNat + tolerance ∧
      x.alongStart.toNat ≤ source.alongEnd.toNat + tolerance
    findMatch tolerance source used targets = some j ↔ fitting j ∧ ∀ i, i < j → ¬ fitting i) ∧
  (∀ (tolerance : Nat) (x y z : BoundaryRecord) (a b d : Summary),
    a.boundary = [x] → b.boundary = [y] → d.boundary = [z] →
    let linked := fun (u v : BoundaryRecord) => (u.side = .right ∨ u.side = .both) ∧ (v.side = .left ∨ v.side = .both) ∧
      v.cls = u.cls ∧ u.alongStart.toNat ≤ v.alongEnd.toNat + tolerance ∧ v.alongStart.toNat ≤ u.alongEnd.toNat + tolerance
    let two := chains tolerance ⟨some (.closed a), some (.closed b), none, none, none, none, none, none⟩
    let three := chains tolerance ⟨some (.closed a), some (.closed b), some (.closed d), none, none, none, none, none⟩
    let sum := x.extent.toNat + y.extent.toNat
    let greatest := max x.extent.toNat y.extent.toNat
    (a.overflow = false → b.overflow = false → linked x y → two = [⟨x.cls, 2, sum, greatest⟩]) ∧
    (a.overflow = true ∨ b.overflow = true ∨ ¬ linked x y → two = []) ∧
    (a.overflow = false → b.overflow = false → d.overflow = false → linked x y → linked y z →
      three = [⟨x.cls, 3, sum + z.extent.toNat, max greatest z.extent.toNat⟩]))

/-! ## Encodings (chapter 10) -/

/-- R54, R55, R100, R101, R192 to R194: a report frame and a slot entry read back as sent, with every field at every value. A
frame of another length than 67 bits is broken; class 0 or 7, or across-start above across-end, is invalid; an all-released
slot reads SILENT. -/
def Obligations.FramesAndSlotsReadBackAsSent : Prop :=
  (∀ r : Report, r.acrossStart ≤ r.acrossEnd → readFrame (frameBits r) = .report r) ∧
  (∀ r : Report, r.acrossEnd < r.acrossStart → readFrame (frameBits r) = .invalid) ∧
  (∀ bits : List Bool, bits.length ≠ 67 ↔ readFrame bits = .broken) ∧
  (∀ rest : List Bool, rest.length = 64 → readFrame (putBits 0#3 ++ rest) = .invalid ∧
    readFrame (putBits 7#3 ++ rest) = .invalid) ∧
  (∀ e : RollEntry, readRollSlot e.cells = .entry e) ∧
  (∀ e : TallyEntry, (∀ s, e = .closed s → s.boundary.length ≤ 4) → readTallySlot e.cells = .entry e) ∧
  readRollSlot (BitVec.allOnes 52) = .silent ∧ readTallySlot (BitVec.allOnes 448) = .silent

/-! ## Invariants -/

/-- The state after reset meets every invariant below. -/
def Obligations.ResetStateMeetsInvariants : Prop :=
  let st := State.reset.station
  st.fits ∧ st.resultReadyLevel ∧ st.probe.fits ∧ st.captureFits ∧ st.roundFits ∧ st.startFits ∧ st.seqsDistinct ∧
    st.oneOpenBand ∧ st.recordsFit ∧ st.edge.fits ∧ st.comparesFit ∧ st.subjectsHeld ∧ st.targetFits ∧ st.offLineQuiet ∧
    st.configFits ∧ State.reset.pending = []

/-- R1, R111, R184, R190, section 3.2: no step takes the table, a FIFO or the PURGE requests over their capacities, and after
every step RESULT_READY is pending exactly while the FIFO count is at or above the watermark. -/
def Obligations.EveryStepKeepsCapacitiesAndReadyLevel : Prop :=
  (∀ s t : State, s.station.fits → step s = .next t → t.station.fits) ∧
  (∀ s t : State, s.station.resultReadyLevel → step s = .next t → t.station.resultReadyLevel)

/-- R36, R74, R89, R93: every step keeps the timers and the sample in flight as the probe state asks, the capture with the round
in flight, and the round with its line states. -/
def Obligations.EveryStepKeepsProbeAndRoundInFlight : Prop :=
  (∀ s t : State, s.station.probe.fits → step s = .next t → t.station.probe.fits) ∧
  (∀ s t : State, s.station.captureFits → s.station.roundFits → step s = .next t →
    t.station.captureFits ∧ t.station.roundFits)

/-- R174, R176, R178, R180: every step keeps the configuration, the digest and the fault reason with the node state, the loaded
configuration in its ranges, and the blocks quiet in LOADING and CONFIG_FAULT. -/
def Obligations.EveryStepKeepsNodeState : Prop :=
  (∀ s t : State, s.station.startFits → s.station.offLineQuiet → step s = .next t →
    t.station.startFits ∧ t.station.offLineQuiet) ∧
  (∀ s t : State, s.station.configFits → step s = .next t → t.station.configFits)

/-- R11, R12: every step keeps the sequence numbers of the table distinct and at most one band OPEN. -/
def Obligations.EveryStepKeepsOneOpenBand : Prop :=
  ∀ s t : State, s.station.seqsDistinct → s.station.oneOpenBand → step s = .next t →
    t.station.seqsDistinct ∧ t.station.oneOpenBand
end

