-- ==== Sys2Proof/Laws/Bits.lean ====
section
/-! SUPPORT. That fields, report frames and slot entries read back as sent, what a pass yields, and which subject is the oldest. -/

namespace Sys2Proof.Machine

/-! ## Fields -/

theorem natToBits_length (w n : Nat) : (natToBits w n).length = w := by
  induction w with
  | zero => rfl
  | succ w ih => simp [natToBits, ih]

theorem bitsToNat_append (a b : List Bool) : bitsToNat (a ++ b) = bitsToNat a * 2 ^ b.length + bitsToNat b := by
  have : ∀ (l : List Bool) (n : Nat),
      l.foldl (fun n b => 2 * n + b.toNat) n = n * 2 ^ l.length + l.foldl (fun n b => 2 * n + b.toNat) 0 := by
    intro l
    induction l with
    | nil => intro n; simp
    | cons x rest ih =>
      intro n
      rw [List.foldl_cons, List.foldl_cons, ih, ih (2 * 0 + x.toNat), List.length_cons, pow_succ]
      ring
  unfold bitsToNat
  rw [List.foldl_append, this]

theorem mod_two_pow_succ (n w : Nat) : n % 2 ^ (w + 1) = (n.testBit w).toNat * 2 ^ w + n % 2 ^ w := by
  rw [Nat.mod_pow_succ, Nat.testBit_eq_decide_div_mod_eq, Nat.add_comm, Nat.mul_comm]
  rcases Nat.mod_two_eq_zero_or_one (n / 2 ^ w) with h | h <;> simp [h]

theorem bitsToNat_natToBits (w n : Nat) : bitsToNat (natToBits w n) = n % 2 ^ w := by
  induction w with
  | zero => simp [natToBits, bitsToNat, Nat.mod_one]
  | succ w ih =>
    have h : bitsToNat (natToBits (w + 1) n) = (n.testBit w).toNat * 2 ^ w + bitsToNat (natToBits w n) := by
      have := bitsToNat_append [n.testBit w] (natToBits w n)
      rw [natToBits_length] at this
      simpa [natToBits, bitsToNat] using this
    rw [h, ih, mod_two_pow_succ]

theorem natToBits_bitsToNat (l : List Bool) : natToBits l.length (bitsToNat l) = l := by
  have hlt : ∀ l : List Bool, bitsToNat l < 2 ^ l.length := by
    intro l
    induction l with
    | nil => simp [bitsToNat]
    | cons x rest ih =>
      have := bitsToNat_append [x] rest
      simp only [List.singleton_append] at this
      rw [this, List.length_cons, pow_succ]
      cases x <;> simp [bitsToNat] at * <;> omega
  have hmod : ∀ (w n k : Nat), natToBits w (k * 2 ^ w + n) = natToBits w n := by
    intro w
    induction w with
    | zero => intro n k; rfl
    | succ w ih =>
      intro n k
      have h1 : k * 2 ^ (w + 1) + n = (2 * k) * 2 ^ w + n := by rw [pow_succ]; ring
      simp only [natToBits]
      rw [h1, ih]
      congr 1
      have h2 : (2 * k * 2 ^ w + n) / 2 ^ w = 2 * k + n / 2 ^ w := by
        rw [Nat.mul_comm, Nat.mul_add_div (by positivity)]
      rw [Nat.testBit_eq_decide_div_mod_eq, Nat.testBit_eq_decide_div_mod_eq, h2]
      congr 2
      omega
  induction l with
  | nil => rfl
  | cons x rest ih =>
    have h := bitsToNat_append [x] rest
    simp only [List.singleton_append] at h
    have hx : bitsToNat [x] = x.toNat := by simp [bitsToNat]
    rw [List.length_cons, natToBits, h, hmod, ih]
    congr 1
    rw [hx, Nat.testBit_eq_decide_div_mod_eq, Nat.mul_comm, Nat.mul_add_div (by positivity),
      Nat.div_eq_of_lt (hlt rest)]
    cases x <;> simp

theorem putBits_length {w : Nat} (v : BitVec w) : (putBits v).length = w := natToBits_length w _

/-- The field at the front of some bits reads back as it was put. -/
theorem getBits_putBits {w : Nat} (v : BitVec w) (rest : List Bool) : getBits w (putBits v ++ rest) = (v, rest) := by
  unfold getBits
  rw [List.take_left' (putBits_length v), List.drop_left' (putBits_length v)]
  congr 1
  unfold putBits
  rw [bitsToNat_natToBits, Nat.mod_eq_of_lt v.isLt]
  exact BitVec.ofNat_toNat w v |>.trans (by simp)

theorem getBits_one (b : Bool) (rest : List Bool) : getBits 1 (b :: rest) = (BitVec.ofBool b, rest) := by
  cases b <;> rfl

/-- The bits of a vector made from some bits are those bits. -/
theorem putBits_ofBits {w : Nat} (l : List Bool) (h : l.length = w) : putBits (BitVec.ofNat w (bitsToNat l)) = l := by
  subst h
  unfold putBits
  have hm : natToBits l.length (bitsToNat l) = l := natToBits_bitsToNat l
  have h2 := bitsToNat_natToBits l.length (bitsToNat l)
  rw [hm] at h2
  rw [BitVec.toNat_ofNat, ← h2]
  exact hm

/-! ## Report frames and slots read back (R192 to R194) -/

theorem getBits_putBits_all {w} (v : BitVec w) : getBits w (putBits v) = (v, []) := by
  have := getBits_putBits v []
  simpa using this

theorem frameBits_length (r : Report) : (frameBits r).length = 67 := by
  simp [frameBits, putBits_length]

theorem defectClass_ofCode_code (c : DefectClass) : DefectClass.ofCode c.code = some c := by cases c <;> rfl

theorem side_ofCode_code (c : Side) : Side.ofCode c.code = some c := by cases c <;> rfl

theorem rollNode_ofCode_code (c : RollNode) : RollNode.ofCode c.code = some c := by cases c <;> rfl

theorem readSlot_slotBits {α} (n : Nat) (parse : List Bool → Option α) (e : List Bool) (x : α) (hn : e.length = n) (hp : parse e = some x) :
   readSlot n parse (slotBits e) = .entry x := by
  unfold readSlot slotBits
  simp only [List.cons_append]
  simp [← hn, getBits_putBits_all, hp]

theorem classFigures_parse_bits (f : ClassFigures) (rest) : ClassFigures.parse (f.bits ++ rest) = (f, rest) := by
  simp [ClassFigures.parse, ClassFigures.bits, List.append_assoc, getBits_putBits]

theorem boundaryRecord_parse_bits (f : BoundaryRecord) (rest) : BoundaryRecord.parse (f.bits ++ rest) = some (f, rest) := by
  simp [BoundaryRecord.parse, BoundaryRecord.bits, List.append_assoc, getBits_putBits, defectClass_ofCode_code, side_ofCode_code]

theorem parseBoundary_bits (l : List BoundaryRecord) (rest) : parseBoundary l.length (l.flatMap BoundaryRecord.bits ++ rest) = some l := by
  induction l with
  | nil => rfl
  | cons x l ih => simp [parseBoundary, List.append_assoc, boundaryRecord_parse_bits, ih]

theorem classFigures_bits_length (f : ClassFigures) : f.bits.length = 36 := by simp [ClassFigures.bits, putBits_length]

theorem boundaryRecord_bits_length (f : BoundaryRecord) : f.bits.length = 49 := by simp [BoundaryRecord.bits, putBits_length]

theorem boundaryRecords_bits_length (l : List BoundaryRecord) : (l.flatMap BoundaryRecord.bits).length = 49 * l.length := by
  induction l with
  | nil => rfl
  | cons x l ih => simp only [List.flatMap_cons, List.length_append, boundaryRecord_bits_length, List.length_cons]; omega

theorem moistureBits_length (m) : (moistureBits m).length = 11 := by
  cases m <;> simp [moistureBits, putBits_length, releasedCells]

theorem summary_bits_length (s : Summary) : s.bits.length = 429 := by
  simp only [Summary.bits, List.length_append, classFigures_bits_length, moistureBits_length, boundaryRecords_bits_length, putBits_length, releasedCells, List.length_replicate, List.length_cons, List.length_nil, List.length_take, Config.boundaryCapacity]
  omega

theorem getBits_moistureBits (m : Option (BitVec 10)) (rest) : 
   let v := getBits 1 (moistureBits m ++ rest)
   let w := getBits 10 v.2
   parseMoisture v.1 w.1 = some m ∧ w.2 = rest := by
  cases m with
  | some v => simp [moistureBits, getBits_one, getBits_putBits, parseMoisture]
  | none => simp [moistureBits, releasedCells, getBits]; rfl

theorem summary_parse_bits (s : Summary) (h : s.boundary.length ≤ 4) : Summary.parse s.bits = some s := by
  have ht : s.boundary.take Config.boundaryCapacity = s.boundary := List.take_of_length_le h
  have hc : (BitVec.ofNat 3 s.boundary.length).toNat = s.boundary.length := by
    rw [BitVec.toNat_ofNat, Nat.mod_eq_of_lt (by omega)]
  unfold Summary.parse Summary.bits
  simp only [ht, List.append_assoc, List.cons_append, List.nil_append, getBits_one, classFigures_parse_bits]
  have g := getBits_moistureBits s.moisture (s.overflow :: (putBits (BitVec.ofNat 3 s.boundary.length) ++ (s.boundary.flatMap BoundaryRecord.bits ++ releasedCells (49 * (Config.boundaryCapacity - s.boundary.length)))))
  simp only at g
  rw [g.1, g.2]
  simp only [getBits_one, getBits_putBits, hc, parseBoundary_bits]
  rw [if_neg (by unfold Config.boundaryCapacity; omega)]
  obtain ⟨⟨a,b,c,d,e,f⟩, m, bd, o, i, v⟩ := s
  simp

theorem tallyEntry_parse_bits (e : TallyEntry) (h : ∀ s, e = .closed s → s.boundary.length ≤ 4) : TallyEntry.parse e.bits = some e := by
  cases e with
  | closed s => 
    simp only [TallyEntry.parse, TallyEntry.bits, getBits_putBits, summary_parse_bits s (h s rfl)]; rfl
  | pending => simp only [TallyEntry.parse, TallyEntry.bits, getBits_putBits]; rfl
  | empty => simp only [TallyEntry.parse, TallyEntry.bits, getBits_putBits]; rfl
  | unknown => simp only [TallyEntry.parse, TallyEntry.bits, getBits_putBits]; rfl

theorem tallyEntry_bits_length (e : TallyEntry) : e.bits.length = 431 := by
  cases e <;> simp only [TallyEntry.bits, List.length_append, putBits_length, summary_bits_length, releasedCells, List.length_replicate]

/-! ## The oldest of some subjects (log 18) -/

theorem oldestSeq_mem {l : List Seq} {s : Seq} (h : oldestSeq l = some s) : s ∈ l := by
  unfold oldestSeq at h
  split at h
  · next x hx =>
    have := List.mem_of_find?_eq_some hx
    simp_all
  · exact List.mem_of_getElem? h

theorem oldestSeq_isSome (l : List Seq) : (oldestSeq l).isSome = true ↔ l ≠ [] := by
  constructor
  · intro h he
    subst he
    simp [oldestSeq] at h
  · intro h
    unfold oldestSeq
    split
    · rfl
    · have : Config.freeOldest l % l.length < l.length := Nat.mod_lt _ (List.length_pos_of_ne_nil h)
      simp [List.getElem?_eq_getElem this]

/-- The subject older than every other is the oldest, whatever the free value is. -/
theorem oldestSeq_of_older {l : List Seq} {s : Seq} (hs : s ∈ l) (h : ∀ x ∈ l, x ≠ s → olderSeq s x = true) :
    oldestSeq l = some s := by
  unfold oldestSeq
  have hanti : ∀ a b : Seq, olderSeq a b = true → olderSeq b a = true → False := by
    intro a b h1 h2
    simp only [olderSeq, Bool.and_eq_true, decide_eq_true_eq, bne_iff_ne, ne_eq] at h1 h2
    have : (a - b) = -(b - a) := by ring
    have hne : (b - a) ≠ 0 := fun e => h1.1 (sub_eq_zero.1 e).symm
    bv_omega
  split
  · next x hx =>
    have hm := List.mem_of_find?_eq_some hx
    have hp := List.find?_some hx
    by_contra hne
    have hne' : x ≠ s := fun e => hne (by rw [e])
    have h1 := h x hm hne'
    have h2 := List.all_eq_true.1 hp s hs
    simp only [Bool.or_eq_true, beq_iff_eq] at h2
    rcases h2 with h2 | h2
    · exact hne' h2.symm
    · exact hanti _ _ h1 h2
  · next hnone =>
    exfalso
    have := List.find?_eq_none.1 hnone s hs
    apply this
    rw [List.all_eq_true]
    intro x hx
    by_cases e : x = s
    · simp [e]
    · simp [h x hx e]

/-! ## Passes (R96, R97) -/

theorem contend_lt (w : Nat) : ∀ offers : List Nat, contend w offers < 2 ^ w := by
  induction w with
  | zero => intro _; simp [contend]
  | succ w ih =>
    intro offers
    simp only [contend]
    split
    · have := ih offers; rw [pow_succ]; omega
    · have := ih (offers.filter fun v => !v.testBit w); rw [pow_succ]; omega

/-- The wire carries the smallest value offered. -/
theorem contend_isLeast (w : Nat) : ∀ offers : List Nat, offers ≠ [] → (∀ v ∈ offers, v < 2 ^ w) →
    contend w offers ∈ offers ∧ ∀ v ∈ offers, contend w offers ≤ v := by
  have key : ∀ (w : Nat) (offers : List Nat), offers ≠ [] →
      (∃ v ∈ offers, contend w offers = v % 2 ^ w) ∧ ∀ v ∈ offers, contend w offers ≤ v % 2 ^ w := by
    intro w
    induction w with
    | zero =>
      intro offers hne
      obtain ⟨v, hv⟩ := List.exists_mem_of_ne_nil offers hne
      exact ⟨⟨v, hv, by simp [contend, Nat.mod_one]⟩, fun v _ => by simp [contend]⟩
    | succ w ih =>
      intro offers hne
      have hbit : ∀ v : Nat, v % 2 ^ (w + 1) = (v.testBit w).toNat * 2 ^ w + v % 2 ^ w := by
        intro v; exact mod_two_pow_succ v w
      simp only [contend]
      split
      · rename_i hd
        have hall : ∀ v ∈ offers, v.testBit w = true := by
          intro v hv
          rw [List.isEmpty_iff, List.filter_eq_nil_iff] at hd
          simpa using hd v hv
        obtain ⟨⟨v, hv, he⟩, hle⟩ := ih offers hne
        refine ⟨⟨v, hv, ?_⟩, ?_⟩
        · rw [hbit, hall v hv, he]; simp
        · intro u hu
          rw [hbit, hall u hu]
          have := hle u hu
          simp; omega
      · rename_i hd
        rw [List.isEmpty_iff] at hd
        obtain ⟨⟨v, hv, he⟩, hle⟩ := ih _ hd
        have hv' := List.mem_filter.1 hv
        refine ⟨⟨v, hv'.1, ?_⟩, ?_⟩
        · rw [hbit, he]
          have : v.testBit w = false := by simpa using hv'.2
          simp [this]
        · intro u hu
          rw [hbit]
          by_cases hb : u.testBit w = true
          · have := contend_lt w (offers.filter fun v => !v.testBit w)
            rw [hb]; simp; omega
          · have hb' : u.testBit w = false := by simpa using hb
            have := hle u (List.mem_filter.2 ⟨hu, by simp [hb']⟩)
            rw [hb']; simpa using this
  intro offers hne hlt
  obtain ⟨⟨v, hv, he⟩, hle⟩ := key w offers hne
  refine ⟨?_, fun u hu => ?_⟩
  · rw [he, Nat.mod_eq_of_lt (hlt v hv)]; exact hv
  · have := hle u hu
    rwa [Nat.mod_eq_of_lt (hlt u hu)] at this

end Sys2Proof.Machine
end

