-- ==== Sys2Proof/Laws/Cells.lean ====
section
/-! SUPPORT. The cells of a round and the bits of an answer: how many there are and which stands where; the boundary that an edge
is taken as; the requests still held. -/

namespace Sys2Proof.Machine

/-! ## Bits of bytes -/

/-- Eight bits for each byte. -/
theorem byteBits_length (l : List Byte) : (byteBits l).length = 8 * l.length := by
  induction l with
  | nil => rfl
  | cons b r ih => 
    simp only [byteBits, List.flatMap_cons, List.length_append, List.length_cons] at *
    rw [ih]; simp [putBits, natToBits]; omega

/-- Bit `n` of the bytes is bit `n % 8` of byte `n / 8`, the most significant first. -/
theorem byteBits_get (l : List Byte) : ∀ (n : Nat) (b : Byte), l[n / 8]? = some b →
    (byteBits l)[n]? = some (b.getLsbD (7 - n % 8)) := by
  induction l with
  | nil => intro n b h; simp at h
  | cons x r ih =>
    intro n b h
    by_cases hn : n < 8
    · have : n / 8 = 0 := by omega
      rw [this] at h; simp at h; subst h
      simp only [byteBits, List.flatMap_cons]
      rw [List.getElem?_append_left (by simp [putBits, natToBits]; omega)]
      have : n % 8 = n := by omega
      rw [this]
      interval_cases n <;> simp [putBits, natToBits, BitVec.getLsbD]
    · simp only [byteBits, List.flatMap_cons]
      rw [List.getElem?_append_right (by simp [putBits, natToBits]; omega)]
      have h8 : (putBits x).length = 8 := by simp [putBits, natToBits]
      rw [h8]
      have : n / 8 = (n - 8) / 8 + 1 := by omega
      rw [this] at h
      have := ih (n-8) b (by simpa using h)
      rw [show (n-8) % 8 = n % 8 by omega] at this
      exact this

/-! ## Passes -/

theorem passField_cells_length (f : PassField) (r : Option Nat) : (f.cells r).length = 1 + f.width := by
  cases r
  · simp [PassField.cells, releasedCells]
  · simp [PassField.cells, natToBits_length]; omega

/-- A pass reads back as the value that its cells carry. -/
theorem passField_read_cells (f : PassField) (v : Nat) (h : v < 2 ^ f.width) : f.read (f.cells (some v)) = some v := by
  have hv : v % 2 ^ f.width = v := Nat.mod_eq_of_lt h
  have hc : (2 ^ f.width - 1 - v) % 2 ^ f.width = 2 ^ f.width - 1 - v := Nat.mod_eq_of_lt (by omega)
  cases f with
  | low w => simpa [PassField.cells, PassField.read, PassField.width, bitsToNat_natToBits] using hv
  | high w =>
    simp only [PassField.width] at h hc
    simp only [PassField.cells, PassField.read, PassField.width, bitsToNat_natToBits, hc]
    simp; omega

/-! ## Spacers -/

/-- The spacers of a part of the body that begins after `base` cells of `total`. -/
theorem spacers_length (cells : List Bool) : ∀ (base : Nat) (total : Nat), base + cells.length = total → 
    ((cells.zipIdx (base+1)).flatMap fun (c, n) => if n % 8 = 0 && n < total then [c, true] else [c]).length =
      cells.length + ((total - 1) / 8 - base / 8) := by
  induction cells with
  | nil => intro base total h; simp at h; subst h; simp; omega
  | cons c r ih =>
    intro base total h
    simp only [List.zipIdx_cons, List.flatMap_cons, List.length_append]
    rw [ih (base+1) total (by simp at h; omega)]
    simp only [List.length_cons] at *
    split
    · next hc => simp at hc; simp; omega
    · next hc => simp at hc; simp; omega

/-- Where the cells and the spacers of such a part stand. -/
theorem spacers_get (cells : List Bool) : ∀ (base total : Nat), base + cells.length = total → 
   let out := ((cells.zipIdx (base+1)).flatMap fun (c, n) => if n % 8 = 0 && n < total then [c, true] else [c])
   (∀ i, i < cells.length → out[i + ((base + i)/8 - base/8)]? = cells[i]?) ∧
   (∀ i, i < cells.length → (base + i + 1) % 8 = 0 → base + i + 1 < total → out[i + ((base + i)/8 - base/8) + 1]? = some true) := by
  induction cells with
  | nil => intro base total h; simp
  | cons c r ih =>
    intro base total h
    simp only [List.zipIdx_cons, List.flatMap_cons]
    have ih := ih (base+1) total (by simp at h; omega)
    dsimp only at ih
    simp only [List.length_cons] at h
    by_cases hc : ((base+1) % 8 = 0 && decide (base+1 < total)) = true
    · simp only [hc, if_true]
      simp at hc
      refine ⟨?_, ?_⟩
      · intro i hi
        rcases i with _ | i
        · simp
        · have := ih.1 i (by simp at hi; omega)
          rw [show i + 1 + ((base + (i + 1)) / 8 - base / 8) = (i + ((base + 1 + i) / 8 - (base + 1) / 8)) + 2 by omega]
          simpa using this
      · intro i hi h1 h2
        rcases i with _ | i
        · simp
        · have := ih.2 i (by simp at hi; omega) (by omega) (by omega)
          rw [show i + 1 + ((base + (i + 1)) / 8 - base / 8) + 1 = (i + ((base + 1 + i) / 8 - (base + 1) / 8) + 1) + 2 by omega]
          simpa using this
    · simp only [hc]
      simp at hc
      refine ⟨?_, ?_⟩
      · intro i hi
        rcases i with _ | i
        · simp
        · have := ih.1 i (by simp at hi; omega)
          by_cases hh : (base + 1) % 8 = 0
          · have : r = [] := List.eq_nil_of_length_eq_zero (by have := hc hh; omega)
            subst this; simp at hi
          · rw [show i + 1 + ((base + (i + 1)) / 8 - base / 8) = (i + ((base + 1 + i) / 8 - (base + 1) / 8)) + 1 by omega]
            simpa using this
      · intro i hi h1 h2
        rcases i with _ | i
        · have := hc (by simpa using h1); omega
        · have := ih.2 i (by simp at hi; omega) (by omega) (by omega)
          by_cases hh : (base + 1) % 8 = 0
          · have := hc hh; omega
          · rw [show i + 1 + ((base + (i + 1)) / 8 - base / 8) + 1 = (i + ((base + 1 + i) / 8 - (base + 1) / 8) + 1) + 1 by omega]
            simpa using this

theorem withSpacers_length (l : List Bool) : (withSpacers l).length = l.length + (l.length - 1) / 8 := by
  have h := spacers_length l 0 l.length (by omega)
  simpa [withSpacers] using h

/-- Cell `i` of the body follows `i / 8` spacers. -/
theorem withSpacers_get (l : List Bool) (i : Nat) (hi : i < l.length) : (withSpacers l)[i + i / 8]? = l[i]? := by
  have h := (spacers_get l 0 l.length (by omega)).1 i hi
  simpa [withSpacers] using h

/-- The place after each eighth cell but the last is a released spacer. -/
theorem withSpacers_spacer (l : List Bool) (j : Nat) (hj : 8 * (j + 1) < l.length) :
    (withSpacers l)[9 * j + 8]? = some true := by
  have h := (spacers_get l 0 l.length (by omega)).2 (8 * j + 7) (by omega) (by omega) (by omega)
  rw [show 9 * j + 8 = 8 * j + 7 + ((0 + (8 * j + 7)) / 8 - 0 / 8) + 1 by omega]
  simpa [withSpacers] using h

/-! ## The boundary of an edge (R95) -/

/-- An edge within a quarter of a round cell of boundary `n` is taken as that boundary. -/
theorem edgeBoundary_of_near (six time n : Nat) (h0 : 0 < six) (h1 : 24 * time ≤ (4 * n + 1) * six)
    (h2 : 4 * n * six ≤ 24 * time + six) : edgeBoundary six time = some n := by
  have hn : (12 * time + six) / (2 * six) = n := by
    apply Nat.div_eq_of_lt_le <;> nlinarith
  unfold edgeBoundary
  simp only [hn]
  rw [if_pos]
  have e1 : (4 * n + 1) * six = 4 * (n * six) + six := by ring
  have e2 : 4 * n * six = 4 * (n * six) := by ring
  omega

/-- An edge near no boundary is taken as none. -/
theorem edgeBoundary_of_far (six time : Nat) (h0 : 0 < six)
    (h : ∀ n, ¬ (24 * time ≤ (4 * n + 1) * six ∧ 4 * n * six ≤ 24 * time + six)) : edgeBoundary six time = none := by
  unfold edgeBoundary
  simp only
  rw [if_neg]
  intro hc
  apply h ((12 * time + six) / (2 * six))
  generalize (12 * time + six) / (2 * six) = n at *
  have e1 : (4 * n + 1) * six = 4 * (n * six) + six := by ring
  have e2 : 4 * n * six = 4 * (n * six) := by ring
  omega

/-! ## Requests still held (R116) -/

theorem mem_stillHeld (c : List Seq) (l : List Held) (s : Seq) : s ∈ stillHeld c l ↔ s ∈ c ∧ ∃ h ∈ l, h.subject = s := by
  simp [stillHeld]

end Sys2Proof.Machine
end

