-- ==== Sys2Proof/Laws/State.lean ====
section
/-! SUPPORT. What each one-step update leaves unchanged, field by field, and what it writes. -/

namespace Sys2Proof.Machine

@[simp] theorem storeCompare_heldInReset (id : CompareId) (pos : Pos) (progress : Progress) (st : Station) : (storeCompare id pos progress st).heldInReset = st.heldInReset := rfl
@[simp] theorem storeCompare_start (id : CompareId) (pos : Pos) (progress : Progress) (st : Station) : (storeCompare id pos progress st).start = st.start := rfl
@[simp] theorem storeCompare_edge (id : CompareId) (pos : Pos) (progress : Progress) (st : Station) : (storeCompare id pos progress st).edge = st.edge := rfl
@[simp] theorem storeCompare_scan (id : CompareId) (pos : Pos) (progress : Progress) (st : Station) : (storeCompare id pos progress st).scan = st.scan := rfl
@[simp] theorem storeCompare_probe (id : CompareId) (pos : Pos) (progress : Progress) (st : Station) : (storeCompare id pos progress st).probe = st.probe := rfl
@[simp] theorem storeCompare_line (id : CompareId) (pos : Pos) (progress : Progress) (st : Station) : (storeCompare id pos progress st).line = st.line := rfl
@[simp] theorem storeCompare_engine (id : CompareId) (pos : Pos) (progress : Progress) (st : Station) : (storeCompare id pos progress st).engine = st.engine := rfl
@[simp] theorem storeCompare_table (id : CompareId) (pos : Pos) (progress : Progress) (st : Station) : (storeCompare id pos progress st).table = st.table := rfl
@[simp] theorem storeCompare_outlet (id : CompareId) (pos : Pos) (progress : Progress) (st : Station) : (storeCompare id pos progress st).outlet = st.outlet := rfl
@[simp] theorem storeCompare_port (id : CompareId) (pos : Pos) (progress : Progress) (st : Station) : (storeCompare id pos progress st).port = st.port := rfl

@[simp] theorem dropCompare_heldInReset (id : CompareId) (st : Station) : (dropCompare id st).heldInReset = st.heldInReset := rfl
@[simp] theorem dropCompare_start (id : CompareId) (st : Station) : (dropCompare id st).start = st.start := rfl
@[simp] theorem dropCompare_edge (id : CompareId) (st : Station) : (dropCompare id st).edge = st.edge := rfl
@[simp] theorem dropCompare_scan (id : CompareId) (st : Station) : (dropCompare id st).scan = st.scan := rfl
@[simp] theorem dropCompare_probe (id : CompareId) (st : Station) : (dropCompare id st).probe = st.probe := rfl
@[simp] theorem dropCompare_line (id : CompareId) (st : Station) : (dropCompare id st).line = st.line := rfl
@[simp] theorem dropCompare_engine (id : CompareId) (st : Station) : (dropCompare id st).engine = st.engine := rfl
@[simp] theorem dropCompare_table (id : CompareId) (st : Station) : (dropCompare id st).table = st.table := rfl
@[simp] theorem dropCompare_outlet (id : CompareId) (st : Station) : (dropCompare id st).outlet = st.outlet := rfl
@[simp] theorem dropCompare_port (id : CompareId) (st : Station) : (dropCompare id st).port = st.port := rfl

@[simp] theorem withRequests_heldInReset (f : Requests → Requests) (st : Station) : (withRequests f st).heldInReset = st.heldInReset := rfl
@[simp] theorem withRequests_start (f : Requests → Requests) (st : Station) : (withRequests f st).start = st.start := rfl
@[simp] theorem withRequests_position (f : Requests → Requests) (st : Station) : (withRequests f st).position = st.position := rfl
@[simp] theorem withRequests_edge (f : Requests → Requests) (st : Station) : (withRequests f st).edge = st.edge := rfl
@[simp] theorem withRequests_scan (f : Requests → Requests) (st : Station) : (withRequests f st).scan = st.scan := rfl
@[simp] theorem withRequests_probe (f : Requests → Requests) (st : Station) : (withRequests f st).probe = st.probe := rfl
@[simp] theorem withRequests_line (f : Requests → Requests) (st : Station) : (withRequests f st).line = st.line := rfl
@[simp] theorem withRequests_table (f : Requests → Requests) (st : Station) : (withRequests f st).table = st.table := rfl
@[simp] theorem withRequests_outlet (f : Requests → Requests) (st : Station) : (withRequests f st).outlet = st.outlet := rfl
@[simp] theorem withRequests_port (f : Requests → Requests) (st : Station) : (withRequests f st).port = st.port := rfl

@[simp] theorem raiseOpen_heldInReset (st : Station) : (raiseOpen st).heldInReset = st.heldInReset := rfl
@[simp] theorem raiseOpen_start (st : Station) : (raiseOpen st).start = st.start := rfl
@[simp] theorem raiseOpen_position (st : Station) : (raiseOpen st).position = st.position := rfl
@[simp] theorem raiseOpen_edge (st : Station) : (raiseOpen st).edge = st.edge := rfl
@[simp] theorem raiseOpen_scan (st : Station) : (raiseOpen st).scan = st.scan := rfl
@[simp] theorem raiseOpen_probe (st : Station) : (raiseOpen st).probe = st.probe := rfl
@[simp] theorem raiseOpen_line (st : Station) : (raiseOpen st).line = st.line := rfl
@[simp] theorem raiseOpen_table (st : Station) : (raiseOpen st).table = st.table := rfl
@[simp] theorem raiseOpen_outlet (st : Station) : (raiseOpen st).outlet = st.outlet := rfl
@[simp] theorem raiseOpen_port (st : Station) : (raiseOpen st).port = st.port := rfl

@[simp] theorem raiseRoll_heldInReset (st : Station) : (raiseRoll st).heldInReset = st.heldInReset := rfl
@[simp] theorem raiseRoll_start (st : Station) : (raiseRoll st).start = st.start := rfl
@[simp] theorem raiseRoll_position (st : Station) : (raiseRoll st).position = st.position := rfl
@[simp] theorem raiseRoll_edge (st : Station) : (raiseRoll st).edge = st.edge := rfl
@[simp] theorem raiseRoll_scan (st : Station) : (raiseRoll st).scan = st.scan := rfl
@[simp] theorem raiseRoll_probe (st : Station) : (raiseRoll st).probe = st.probe := rfl
@[simp] theorem raiseRoll_line (st : Station) : (raiseRoll st).line = st.line := rfl
@[simp] theorem raiseRoll_table (st : Station) : (raiseRoll st).table = st.table := rfl
@[simp] theorem raiseRoll_outlet (st : Station) : (raiseRoll st).outlet = st.outlet := rfl
@[simp] theorem raiseRoll_port (st : Station) : (raiseRoll st).port = st.port := rfl

@[simp] theorem waitForOpening_heldInReset (scope : PurgeScope) (st : Station) : (waitForOpening scope st).heldInReset = st.heldInReset := by
  unfold waitForOpening; (repeat' split) <;> rfl
@[simp] theorem waitForOpening_start (scope : PurgeScope) (st : Station) : (waitForOpening scope st).start = st.start := by
  unfold waitForOpening; (repeat' split) <;> rfl
@[simp] theorem waitForOpening_position (scope : PurgeScope) (st : Station) : (waitForOpening scope st).position = st.position := by
  unfold waitForOpening; (repeat' split) <;> rfl
@[simp] theorem waitForOpening_edge (scope : PurgeScope) (st : Station) : (waitForOpening scope st).edge = st.edge := by
  unfold waitForOpening; (repeat' split) <;> rfl
@[simp] theorem waitForOpening_scan (scope : PurgeScope) (st : Station) : (waitForOpening scope st).scan = st.scan := by
  unfold waitForOpening; (repeat' split) <;> rfl
@[simp] theorem waitForOpening_probe (scope : PurgeScope) (st : Station) : (waitForOpening scope st).probe = st.probe := by
  unfold waitForOpening; (repeat' split) <;> rfl
@[simp] theorem waitForOpening_table (scope : PurgeScope) (st : Station) : (waitForOpening scope st).table = st.table := by
  unfold waitForOpening; (repeat' split) <;> rfl
@[simp] theorem waitForOpening_outlet (scope : PurgeScope) (st : Station) : (waitForOpening scope st).outlet = st.outlet := by
  unfold waitForOpening; (repeat' split) <;> rfl
@[simp] theorem waitForOpening_port (scope : PurgeScope) (st : Station) : (waitForOpening scope st).port = st.port := by
  unfold waitForOpening; (repeat' split) <;> rfl
@[simp] theorem waitForOpening_engine (scope : PurgeScope) (st : Station) : (waitForOpening scope st).engine = st.engine := by
  unfold waitForOpening; (repeat' split) <;> rfl
/-- All that a raised PURGE request can change of the Line Controller is which ONE subjects count in the round in flight. -/
theorem waitForOpening_line (scope : PurgeScope) (st : Station) : ∃ f : Round → Round,
    (waitForOpening scope st).line = { st.line with round := st.line.round.map f } := by
  unfold waitForOpening
  (repeat' split)
  · exact ⟨id, by simp⟩
  · exact ⟨id, by simp⟩
  · exact ⟨id, by simp⟩
  · exact ⟨_, rfl⟩
@[simp] theorem waitForOpening_round (scope : PurgeScope) (st : Station) :
    (waitForOpening scope st).line.round.isSome = st.line.round.isSome := by
  obtain ⟨f, h⟩ := waitForOpening_line scope st; rw [h]; simp
@[simp] theorem waitForOpening_state (scope : PurgeScope) (st : Station) :
    (waitForOpening scope st).line.state = st.line.state := by
  obtain ⟨f, h⟩ := waitForOpening_line scope st; rw [h]
@[simp] theorem raisePurge_heldInReset (scope : PurgeScope) (st : Station) : (raisePurge scope st).heldInReset = st.heldInReset :=
  waitForOpening_heldInReset scope st
@[simp] theorem raisePurge_start (scope : PurgeScope) (st : Station) : (raisePurge scope st).start = st.start :=
  waitForOpening_start scope st
@[simp] theorem raisePurge_position (scope : PurgeScope) (st : Station) : (raisePurge scope st).position = st.position :=
  waitForOpening_position scope st
@[simp] theorem raisePurge_edge (scope : PurgeScope) (st : Station) : (raisePurge scope st).edge = st.edge :=
  waitForOpening_edge scope st
@[simp] theorem raisePurge_scan (scope : PurgeScope) (st : Station) : (raisePurge scope st).scan = st.scan :=
  waitForOpening_scan scope st
@[simp] theorem raisePurge_probe (scope : PurgeScope) (st : Station) : (raisePurge scope st).probe = st.probe :=
  waitForOpening_probe scope st
@[simp] theorem raisePurge_line (scope : PurgeScope) (st : Station) :
    (raisePurge scope st).line = (waitForOpening scope st).line := rfl
@[simp] theorem raisePurge_table (scope : PurgeScope) (st : Station) : (raisePurge scope st).table = st.table :=
  waitForOpening_table scope st
@[simp] theorem raisePurge_outlet (scope : PurgeScope) (st : Station) : (raisePurge scope st).outlet = st.outlet :=
  waitForOpening_outlet scope st
@[simp] theorem raisePurge_port (scope : PurgeScope) (st : Station) : (raisePurge scope st).port = st.port :=
  waitForOpening_port scope st

@[simp] theorem raiseCause_heldInReset (c : Cause) (st : Station) : (raiseCause c st).heldInReset = st.heldInReset := rfl
@[simp] theorem raiseCause_start (c : Cause) (st : Station) : (raiseCause c st).start = st.start := rfl
@[simp] theorem raiseCause_position (c : Cause) (st : Station) : (raiseCause c st).position = st.position := rfl
@[simp] theorem raiseCause_edge (c : Cause) (st : Station) : (raiseCause c st).edge = st.edge := rfl
@[simp] theorem raiseCause_scan (c : Cause) (st : Station) : (raiseCause c st).scan = st.scan := rfl
@[simp] theorem raiseCause_probe (c : Cause) (st : Station) : (raiseCause c st).probe = st.probe := rfl
@[simp] theorem raiseCause_line (c : Cause) (st : Station) : (raiseCause c st).line = st.line := rfl
@[simp] theorem raiseCause_engine (c : Cause) (st : Station) : (raiseCause c st).engine = st.engine := rfl
@[simp] theorem raiseCause_table (c : Cause) (st : Station) : (raiseCause c st).table = st.table := rfl
@[simp] theorem raiseCause_outlet (c : Cause) (st : Station) : (raiseCause c st).outlet = st.outlet := rfl

@[simp] theorem updateRecord_heldInReset (seq : Seq) (f : Record → Record) (st : Station) : (updateRecord seq f st).heldInReset = st.heldInReset := rfl
@[simp] theorem updateRecord_start (seq : Seq) (f : Record → Record) (st : Station) : (updateRecord seq f st).start = st.start := rfl
@[simp] theorem updateRecord_position (seq : Seq) (f : Record → Record) (st : Station) : (updateRecord seq f st).position = st.position := rfl
@[simp] theorem updateRecord_edge (seq : Seq) (f : Record → Record) (st : Station) : (updateRecord seq f st).edge = st.edge := rfl
@[simp] theorem updateRecord_scan (seq : Seq) (f : Record → Record) (st : Station) : (updateRecord seq f st).scan = st.scan := rfl
@[simp] theorem updateRecord_probe (seq : Seq) (f : Record → Record) (st : Station) : (updateRecord seq f st).probe = st.probe := rfl
@[simp] theorem updateRecord_line (seq : Seq) (f : Record → Record) (st : Station) : (updateRecord seq f st).line = st.line := rfl
@[simp] theorem updateRecord_engine (seq : Seq) (f : Record → Record) (st : Station) : (updateRecord seq f st).engine = st.engine := rfl
@[simp] theorem updateRecord_outlet (seq : Seq) (f : Record → Record) (st : Station) : (updateRecord seq f st).outlet = st.outlet := rfl
@[simp] theorem updateRecord_port (seq : Seq) (f : Record → Record) (st : Station) : (updateRecord seq f st).port = st.port := rfl

@[simp] theorem updateBand_heldInReset (seq : Seq) (f : Band → Band) (st : Station) : (updateBand seq f st).heldInReset = st.heldInReset := rfl
@[simp] theorem updateBand_start (seq : Seq) (f : Band → Band) (st : Station) : (updateBand seq f st).start = st.start := rfl
@[simp] theorem updateBand_position (seq : Seq) (f : Band → Band) (st : Station) : (updateBand seq f st).position = st.position := rfl
@[simp] theorem updateBand_edge (seq : Seq) (f : Band → Band) (st : Station) : (updateBand seq f st).edge = st.edge := rfl
@[simp] theorem updateBand_scan (seq : Seq) (f : Band → Band) (st : Station) : (updateBand seq f st).scan = st.scan := rfl
@[simp] theorem updateBand_probe (seq : Seq) (f : Band → Band) (st : Station) : (updateBand seq f st).probe = st.probe := rfl
@[simp] theorem updateBand_line (seq : Seq) (f : Band → Band) (st : Station) : (updateBand seq f st).line = st.line := rfl
@[simp] theorem updateBand_engine (seq : Seq) (f : Band → Band) (st : Station) : (updateBand seq f st).engine = st.engine := rfl
@[simp] theorem updateBand_outlet (seq : Seq) (f : Band → Band) (st : Station) : (updateBand seq f st).outlet = st.outlet := rfl
@[simp] theorem updateBand_port (seq : Seq) (f : Band → Band) (st : Station) : (updateBand seq f st).port = st.port := rfl

@[simp] theorem updateGathering_heldInReset (f : Record → Record) (st : Station) : (updateGathering f st).heldInReset = st.heldInReset := rfl
@[simp] theorem updateGathering_start (f : Record → Record) (st : Station) : (updateGathering f st).start = st.start := rfl
@[simp] theorem updateGathering_position (f : Record → Record) (st : Station) : (updateGathering f st).position = st.position := rfl
@[simp] theorem updateGathering_edge (f : Record → Record) (st : Station) : (updateGathering f st).edge = st.edge := rfl
@[simp] theorem updateGathering_scan (f : Record → Record) (st : Station) : (updateGathering f st).scan = st.scan := rfl
@[simp] theorem updateGathering_probe (f : Record → Record) (st : Station) : (updateGathering f st).probe = st.probe := rfl
@[simp] theorem updateGathering_line (f : Record → Record) (st : Station) : (updateGathering f st).line = st.line := rfl
@[simp] theorem updateGathering_engine (f : Record → Record) (st : Station) : (updateGathering f st).engine = st.engine := rfl
@[simp] theorem updateGathering_outlet (f : Record → Record) (st : Station) : (updateGathering f st).outlet = st.outlet := rfl
@[simp] theorem updateGathering_port (f : Record → Record) (st : Station) : (updateGathering f st).port = st.port := rfl

@[simp] theorem markLate_heldInReset (p : Pos) (st : Station) : (markLate p st).heldInReset = st.heldInReset := rfl
@[simp] theorem markLate_start (p : Pos) (st : Station) : (markLate p st).start = st.start := rfl
@[simp] theorem markLate_position (p : Pos) (st : Station) : (markLate p st).position = st.position := rfl
@[simp] theorem markLate_edge (p : Pos) (st : Station) : (markLate p st).edge = st.edge := rfl
@[simp] theorem markLate_scan (p : Pos) (st : Station) : (markLate p st).scan = st.scan := rfl
@[simp] theorem markLate_probe (p : Pos) (st : Station) : (markLate p st).probe = st.probe := rfl
@[simp] theorem markLate_line (p : Pos) (st : Station) : (markLate p st).line = st.line := rfl
@[simp] theorem markLate_engine (p : Pos) (st : Station) : (markLate p st).engine = st.engine := rfl
@[simp] theorem markLate_outlet (p : Pos) (st : Station) : (markLate p st).outlet = st.outlet := rfl
@[simp] theorem markLate_port (p : Pos) (st : Station) : (markLate p st).port = st.port := rfl

@[simp] theorem dropHead_heldInReset (st : Station) : (dropHead st).heldInReset = st.heldInReset := rfl
@[simp] theorem dropHead_start (st : Station) : (dropHead st).start = st.start := rfl
@[simp] theorem dropHead_position (st : Station) : (dropHead st).position = st.position := rfl
@[simp] theorem dropHead_edge (st : Station) : (dropHead st).edge = st.edge := rfl
@[simp] theorem dropHead_probe (st : Station) : (dropHead st).probe = st.probe := rfl
@[simp] theorem dropHead_line (st : Station) : (dropHead st).line = st.line := rfl
@[simp] theorem dropHead_engine (st : Station) : (dropHead st).engine = st.engine := rfl
@[simp] theorem dropHead_table (st : Station) : (dropHead st).table = st.table := rfl
@[simp] theorem dropHead_outlet (st : Station) : (dropHead st).outlet = st.outlet := rfl
@[simp] theorem dropHead_port (st : Station) : (dropHead st).port = st.port := rfl

@[simp] theorem discardPending_heldInReset (st : Station) : (discardPending st).heldInReset = st.heldInReset := rfl
@[simp] theorem discardPending_start (st : Station) : (discardPending st).start = st.start := rfl
@[simp] theorem discardPending_probe (st : Station) : (discardPending st).probe = st.probe := rfl
@[simp] theorem discardPending_line (st : Station) : (discardPending st).line = st.line := rfl
@[simp] theorem discardPending_engine (st : Station) : (discardPending st).engine = st.engine := rfl
@[simp] theorem discardPending_table (st : Station) : (discardPending st).table = st.table := rfl
@[simp] theorem discardPending_outlet (st : Station) : (discardPending st).outlet = st.outlet := rfl
@[simp] theorem discardPending_port (st : Station) : (discardPending st).port = st.port := rfl

@[simp] theorem releaseBlank_heldInReset (st : Station) : (releaseBlank st).heldInReset = st.heldInReset := rfl
@[simp] theorem releaseBlank_start (st : Station) : (releaseBlank st).start = st.start := rfl
@[simp] theorem releaseBlank_scan (st : Station) : (releaseBlank st).scan = st.scan := rfl
@[simp] theorem releaseBlank_probe (st : Station) : (releaseBlank st).probe = st.probe := rfl
@[simp] theorem releaseBlank_line (st : Station) : (releaseBlank st).line = st.line := rfl
@[simp] theorem releaseBlank_engine (st : Station) : (releaseBlank st).engine = st.engine := rfl
@[simp] theorem releaseBlank_table (st : Station) : (releaseBlank st).table = st.table := rfl
@[simp] theorem releaseBlank_outlet (st : Station) : (releaseBlank st).outlet = st.outlet := rfl
@[simp] theorem releaseBlank_port (st : Station) : (releaseBlank st).port = st.port := rfl

@[simp] theorem loseTarget_heldInReset (seq : Seq) (st : Station) : (loseTarget seq st).heldInReset = st.heldInReset := rfl
@[simp] theorem loseTarget_start (seq : Seq) (st : Station) : (loseTarget seq st).start = st.start := rfl
@[simp] theorem loseTarget_position (seq : Seq) (st : Station) : (loseTarget seq st).position = st.position := rfl
@[simp] theorem loseTarget_edge (seq : Seq) (st : Station) : (loseTarget seq st).edge = st.edge := rfl
@[simp] theorem loseTarget_scan (seq : Seq) (st : Station) : (loseTarget seq st).scan = st.scan := rfl
@[simp] theorem loseTarget_line (seq : Seq) (st : Station) : (loseTarget seq st).line = st.line := rfl
@[simp] theorem loseTarget_engine (seq : Seq) (st : Station) : (loseTarget seq st).engine = st.engine := rfl
@[simp] theorem loseTarget_table (seq : Seq) (st : Station) : (loseTarget seq st).table = st.table := rfl
@[simp] theorem loseTarget_outlet (seq : Seq) (st : Station) : (loseTarget seq st).outlet = st.outlet := rfl
@[simp] theorem loseTarget_port (seq : Seq) (st : Station) : (loseTarget seq st).port = st.port := rfl

@[simp] theorem closeWindow_heldInReset (st : Station) : (closeWindow st).heldInReset = st.heldInReset := rfl
@[simp] theorem closeWindow_start (st : Station) : (closeWindow st).start = st.start := rfl
@[simp] theorem closeWindow_edge (st : Station) : (closeWindow st).edge = st.edge := rfl
@[simp] theorem closeWindow_scan (st : Station) : (closeWindow st).scan = st.scan := rfl
@[simp] theorem closeWindow_probe (st : Station) : (closeWindow st).probe = st.probe := rfl
@[simp] theorem closeWindow_line (st : Station) : (closeWindow st).line = st.line := rfl
@[simp] theorem closeWindow_engine (st : Station) : (closeWindow st).engine = st.engine := rfl
@[simp] theorem closeWindow_table (st : Station) : (closeWindow st).table = st.table := rfl
@[simp] theorem closeWindow_port (st : Station) : (closeWindow st).port = st.port := rfl

@[simp] theorem toGuard_heldInReset (st : Station) : (toGuard st).heldInReset = st.heldInReset := rfl
@[simp] theorem toGuard_start (st : Station) : (toGuard st).start = st.start := rfl
@[simp] theorem toGuard_edge (st : Station) : (toGuard st).edge = st.edge := rfl
@[simp] theorem toGuard_scan (st : Station) : (toGuard st).scan = st.scan := rfl
@[simp] theorem toGuard_probe (st : Station) : (toGuard st).probe = st.probe := rfl
@[simp] theorem toGuard_engine (st : Station) : (toGuard st).engine = st.engine := rfl
@[simp] theorem toGuard_table (st : Station) : (toGuard st).table = st.table := rfl
@[simp] theorem toGuard_outlet (st : Station) : (toGuard st).outlet = st.outlet := rfl
@[simp] theorem toGuard_port (st : Station) : (toGuard st).port = st.port := rfl

@[simp] theorem withRound_heldInReset (r : Round) (st : Station) : (withRound r st).heldInReset = st.heldInReset := rfl
@[simp] theorem withRound_start (r : Round) (st : Station) : (withRound r st).start = st.start := rfl
@[simp] theorem withRound_position (r : Round) (st : Station) : (withRound r st).position = st.position := rfl
@[simp] theorem withRound_edge (r : Round) (st : Station) : (withRound r st).edge = st.edge := rfl
@[simp] theorem withRound_scan (r : Round) (st : Station) : (withRound r st).scan = st.scan := rfl
@[simp] theorem withRound_probe (r : Round) (st : Station) : (withRound r st).probe = st.probe := rfl
@[simp] theorem withRound_engine (r : Round) (st : Station) : (withRound r st).engine = st.engine := rfl
@[simp] theorem withRound_table (r : Round) (st : Station) : (withRound r st).table = st.table := rfl
@[simp] theorem withRound_outlet (r : Round) (st : Station) : (withRound r st).outlet = st.outlet := rfl
@[simp] theorem withRound_port (r : Round) (st : Station) : (withRound r st).port = st.port := rfl

@[simp] theorem probeStep_heldInReset (st : Station) : (probeStep st).heldInReset = st.heldInReset := rfl
@[simp] theorem probeStep_start (st : Station) : (probeStep st).start = st.start := rfl
@[simp] theorem probeStep_position (st : Station) : (probeStep st).position = st.position := rfl
@[simp] theorem probeStep_edge (st : Station) : (probeStep st).edge = st.edge := rfl
@[simp] theorem probeStep_scan (st : Station) : (probeStep st).scan = st.scan := rfl
@[simp] theorem probeStep_line (st : Station) : (probeStep st).line = st.line := rfl
@[simp] theorem probeStep_engine (st : Station) : (probeStep st).engine = st.engine := rfl
@[simp] theorem probeStep_table (st : Station) : (probeStep st).table = st.table := rfl
@[simp] theorem probeStep_outlet (st : Station) : (probeStep st).outlet = st.outlet := rfl
@[simp] theorem probeStep_port (st : Station) : (probeStep st).port = st.port := rfl

@[simp] theorem markDue_heldInReset (st : Station) : (markDue st).heldInReset = st.heldInReset := rfl
@[simp] theorem markDue_start (st : Station) : (markDue st).start = st.start := rfl
@[simp] theorem markDue_edge (st : Station) : (markDue st).edge = st.edge := rfl
@[simp] theorem markDue_scan (st : Station) : (markDue st).scan = st.scan := rfl
@[simp] theorem markDue_probe (st : Station) : (markDue st).probe = st.probe := rfl
@[simp] theorem markDue_line (st : Station) : (markDue st).line = st.line := rfl
@[simp] theorem markDue_engine (st : Station) : (markDue st).engine = st.engine := rfl
@[simp] theorem markDue_table (st : Station) : (markDue st).table = st.table := rfl
@[simp] theorem markDue_outlet (st : Station) : (markDue st).outlet = st.outlet := rfl
@[simp] theorem markDue_port (st : Station) : (markDue st).port = st.port := rfl

@[simp] theorem answer_heldInReset (bytes : List Byte) (read : Option PortRead) (st : Station) : (answer bytes read st).heldInReset = st.heldInReset := rfl
@[simp] theorem answer_start (bytes : List Byte) (read : Option PortRead) (st : Station) : (answer bytes read st).start = st.start := rfl
@[simp] theorem answer_position (bytes : List Byte) (read : Option PortRead) (st : Station) : (answer bytes read st).position = st.position := rfl
@[simp] theorem answer_edge (bytes : List Byte) (read : Option PortRead) (st : Station) : (answer bytes read st).edge = st.edge := rfl
@[simp] theorem answer_scan (bytes : List Byte) (read : Option PortRead) (st : Station) : (answer bytes read st).scan = st.scan := rfl
@[simp] theorem answer_probe (bytes : List Byte) (read : Option PortRead) (st : Station) : (answer bytes read st).probe = st.probe := rfl
@[simp] theorem answer_line (bytes : List Byte) (read : Option PortRead) (st : Station) : (answer bytes read st).line = st.line := rfl
@[simp] theorem answer_engine (bytes : List Byte) (read : Option PortRead) (st : Station) : (answer bytes read st).engine = st.engine := rfl
@[simp] theorem answer_table (bytes : List Byte) (read : Option PortRead) (st : Station) : (answer bytes read st).table = st.table := rfl
@[simp] theorem answer_outlet (bytes : List Byte) (read : Option PortRead) (st : Station) : (answer bytes read st).outlet = st.outlet := rfl

@[simp] theorem answer_bytes (bytes : List Byte) (read : Option PortRead) (st : Station) : (answer bytes read st).port.answer = bytes := rfl
@[simp] theorem answer_read (bytes : List Byte) (read : Option PortRead) (st : Station) : (answer bytes read st).port.read = read := rfl
@[simp] theorem answer_selected (bytes : List Byte) (read : Option PortRead) (st : Station) : (answer bytes read st).port.selected = true := rfl
@[simp] theorem withRound_round (r : Round) (st : Station) : (withRound r st).line.round = some r := rfl
@[simp] theorem withRound_state (r : Round) (st : Station) : (withRound r st).line.state = st.line.state := rfl

@[simp] theorem storeCompare_position (id : CompareId) (pos : Pos) (progress : Progress) (st : Station) :
    (storeCompare id pos progress st).position = st.position.store id pos progress := rfl
@[simp] theorem dropCompare_position (id : CompareId) (st : Station) :
    (dropCompare id st).position = st.position.drop id := rfl
@[simp] theorem withRequests_requests (f : Requests → Requests) (st : Station) :
    (withRequests f st).engine.requests = f st.engine.requests := rfl
@[simp] theorem withRequests_peers (f : Requests → Requests) (st : Station) :
    (withRequests f st).engine.peers = st.engine.peers := rfl
@[simp] theorem withRequests_nextSeq (f : Requests → Requests) (st : Station) :
    (withRequests f st).engine.nextSeq = st.engine.nextSeq := rfl
@[simp] theorem withRequests_openCount (f : Requests → Requests) (st : Station) :
    (withRequests f st).engine.openCount = st.engine.openCount := rfl
@[simp] theorem raiseCause_port (c : Cause) (st : Station) : (raiseCause c st).port = st.port.raise c := rfl
@[simp] theorem updateRecord_table (seq : Seq) (f : Record → Record) (st : Station) :
    (updateRecord seq f st).table = st.table.map fun r => if r.seq = seq then f r else r := rfl

end Sys2Proof.Machine
end

