-- ==== Sys2Proof/Laws/Frames.lean ====
section
/-! SUPPORT. What the shared operations leave unchanged: a chain of head takes, the taking of compares, a dispatch and an
alignment. A proof cites these instead of unfolding the operations. -/

namespace Sys2Proof.Machine

/-- What a chain of head takes, and every closing of a band in it, leaves unchanged. -/
structure HeadFrame (a b : Station) : Prop where
  heldInReset : b.heldInReset = a.heldInReset
  start : b.start = a.start
  position : b.position = a.position
  edge : b.edge = a.edge
  frame : b.scan.frame = a.scan.frame
  overrun : b.scan.overrun = a.scan.overrun
  probe : b.probe = a.probe
  line : b.line = a.line
  outlet : b.outlet = a.outlet
  port : b.port = a.port
  peers : b.engine.peers = a.engine.peers
  nextSeq : b.engine.nextSeq = a.engine.nextSeq
  openCount : b.engine.openCount = a.engine.openCount
  opening : b.engine.requests.opening = a.engine.requests.opening
  roll : b.engine.requests.roll = a.engine.requests.roll
  purge : b.engine.requests.purge = a.engine.requests.purge
  identities : b.table.map Record.identity = a.table.map Record.identity

theorem HeadFrame.refl (a : Station) : HeadFrame a a := by constructor <;> rfl

theorem HeadFrame.trans {a b c : Station} (h : HeadFrame a b) (k : HeadFrame b c) : HeadFrame a c := by
  constructor
  · exact k.heldInReset.trans h.heldInReset
  · exact k.start.trans h.start
  · exact k.position.trans h.position
  · exact k.edge.trans h.edge
  · exact k.frame.trans h.frame
  · exact k.overrun.trans h.overrun
  · exact k.probe.trans h.probe
  · exact k.line.trans h.line
  · exact k.outlet.trans h.outlet
  · exact k.port.trans h.port
  · exact k.peers.trans h.peers
  · exact k.nextSeq.trans h.nextSeq
  · exact k.openCount.trans h.openCount
  · exact k.opening.trans h.opening
  · exact k.roll.trans h.roll
  · exact k.purge.trans h.purge
  · exact k.identities.trans h.identities

/-- An update of records that keeps what is fixed at creation. -/
theorem HeadFrame.ofUpdate (seq : Seq) (f : Record → Record) (hf : ∀ r, (f r).identity = r.identity) (st : Station) :
    HeadFrame st (updateRecord seq f st) := by
  constructor <;> try rfl
  simp only [updateRecord_table, List.map_map]
  apply List.map_congr_left
  intro r _
  by_cases h : r.seq = seq <;> simp [h, hf]

theorem HeadFrame.ofRequests (f : Requests → Requests) (ho : ∀ q, (f q).opening = q.opening) (hr : ∀ q, (f q).roll = q.roll)
    (hp : ∀ q, (f q).purge = q.purge) (st : Station) : HeadFrame st (withRequests f st) := by
  constructor <;> first
    | rfl
    | exact ho _
    | exact hr _
    | exact hp _

theorem gradeRecord_identity (sh : Shared) (r : Record) : (gradeRecord sh r).identity = r.identity := rfl

theorem Requests.raiseTally_opening (s : Seq) (q : Requests) : (q.raiseTally s).opening = q.opening := by
  unfold Requests.raiseTally; split <;> rfl
theorem Requests.raiseTally_roll (s : Seq) (q : Requests) : (q.raiseTally s).roll = q.roll := by
  unfold Requests.raiseTally; split <;> rfl
theorem Requests.raiseTally_purge (s : Seq) (q : Requests) : (q.raiseTally s).purge = q.purge := by
  unfold Requests.raiseTally; split <;> rfl
theorem Requests.raiseVerdict_opening (s : Seq) (b : Bool) (q : Requests) :
    (q.raiseVerdict s b).opening = q.opening := by unfold Requests.raiseVerdict; split <;> rfl
theorem Requests.raiseVerdict_roll (s : Seq) (b : Bool) (q : Requests) :
    (q.raiseVerdict s b).roll = q.roll := by unfold Requests.raiseVerdict; split <;> rfl
theorem Requests.raiseVerdict_purge (s : Seq) (b : Bool) (q : Requests) :
    (q.raiseVerdict s b).purge = q.purge := by unfold Requests.raiseVerdict; split <;> rfl

theorem HeadFrame.ofRaiseTally (s : Seq) (st : Station) : HeadFrame st (withRequests (Requests.raiseTally s) st) :=
  HeadFrame.ofRequests _ (Requests.raiseTally_opening s) (Requests.raiseTally_roll s) (Requests.raiseTally_purge s) st

theorem HeadFrame.ofRaiseVerdict (s : Seq) (b : Bool) (st : Station) :
    HeadFrame st (withRequests (Requests.raiseVerdict s b) st) :=
  HeadFrame.ofRequests _ (Requests.raiseVerdict_opening s b) (Requests.raiseVerdict_roll s b)
    (Requests.raiseVerdict_purge s b) st

theorem HeadFrame.ofDropTally (s : Seq) (st : Station) : HeadFrame st (withRequests (Requests.dropTally s) st) :=
  HeadFrame.ofRequests (Requests.dropTally s) (fun _ => rfl) (fun _ => rfl) (fun _ => rfl) st

/-- The completeness test of one record changes records and their TALLY and VERDICT requests only. -/
theorem completeRecord_frame (own : Bool) (seq : Seq) (st : Station) : HeadFrame st (completeRecord own seq st) := by
  unfold completeRecord
  cases hr : st.record seq with
  | none => exact HeadFrame.refl st
  | some r =>
    simp only
    by_cases hc : r.phase = .gathering ∧ recordComplete st.engine.peers r = true
    · rw [if_pos hc]
      have h1 : HeadFrame st (updateRecord seq
          (fun x => { (if x.frozen then x else gradeRecord st.shared x) with phase := .tallied }) st) := by
        apply HeadFrame.ofUpdate
        intro x
        by_cases hx : x.frozen = true <;> simp [hx, Record.identity, gradeRecord]
      cases own <;> by_cases hf : r.frozen = true <;>
        simp only [hf, if_true, if_false, Bool.false_eq_true]
      · exact h1.trans (HeadFrame.ofDropTally seq _)
      · exact (h1.trans (HeadFrame.ofDropTally seq _)).trans (HeadFrame.ofRaiseVerdict seq _ _)
      · exact h1
      · exact h1.trans (HeadFrame.ofRaiseVerdict seq _ _)
    · rw [if_neg hc]
      exact HeadFrame.refl st

theorem foldl_headFrame {α : Type} (f : Station → α → Station) (hf : ∀ st x, HeadFrame st (f st x)) (l : List α) :
    ∀ st, HeadFrame st (l.foldl f st) := by
  induction l with
  | nil => exact HeadFrame.refl
  | cons x rest ih => exact fun st => (hf st x).trans (ih (f st x))

theorem completeAll_frame (st : Station) : HeadFrame st (completeAll st) :=
  foldl_headFrame _ (fun s q => completeRecord_frame false q s) _ st

/-- The end of an own band changes its record and requests for its subject only. -/
theorem settleBand_frame (state : BandState) (entry : Record → Entry) (seq : Seq) (st : Station) :
    HeadFrame st (settleBand state entry seq st) := by
  unfold settleBand
  refine HeadFrame.trans (HeadFrame.trans ?_ (HeadFrame.ofRaiseTally seq _)) (completeRecord_frame true seq _)
  refine HeadFrame.ofUpdate seq _ ?_ st
  exact fun _ => rfl

theorem testClosing_frame (seq : Seq) (st : Station) : HeadFrame st (testClosing seq st) := by
  unfold testClosing
  cases st.record seq with
  | none => exact HeadFrame.refl st
  | some r =>
    simp only
    by_cases h : closingHolds st r = true
    · rw [if_pos h]; exact settleBand_frame _ _ seq st
    · rw [if_neg h]; exact HeadFrame.refl st

theorem testAllClosing_frame (st : Station) : HeadFrame st (testAllClosing st) :=
  foldl_headFrame _ (fun s q => testClosing_frame q s) _ st

theorem dropHead_frame (st : Station) : HeadFrame st (dropHead st) := by constructor <;> rfl

theorem markLate_frame (p : Pos) (st : Station) : HeadFrame st (markLate p st) := by
  constructor <;> try rfl
  simp only [markLate, List.map_map]
  apply List.map_congr_left
  intro r _
  simp only [Function.comp]
  split <;> rfl

theorem headTake_frame (st : Station) : HeadFrame st (headTake st).1 := by
  unfold headTake
  split
  · constructor <;> rfl
  · split
    · exact dropHead_frame st
    · split
      · refine HeadFrame.trans ?_ (dropHead_frame _)
        refine HeadFrame.ofUpdate _ _ ?_ st
        exact fun _ => rfl
      · split
        · constructor <;> rfl
        · exact (markLate_frame _ st).trans (dropHead_frame _)

theorem headLoop_frame (n : Nat) : ∀ st, HeadFrame st (headLoop n st) := by
  induction n with
  | zero => exact HeadFrame.refl
  | succ n ih =>
    intro st
    have h := (headTake_frame st).trans (testAllClosing_frame (headTake st).1)
    simp only [headLoop]
    split
    · exact h.trans (ih _)
    · exact h

/-- What a chain of head takes leaves unchanged. -/
theorem headTakes_frame (st : Station) : HeadFrame st (headTakes st) := headLoop_frame _ st

@[simp] theorem headTakes_heldInReset (st : Station) : (headTakes st).heldInReset = st.heldInReset :=
  (headTakes_frame st).heldInReset
@[simp] theorem headTakes_start (st : Station) : (headTakes st).start = st.start := (headTakes_frame st).start
@[simp] theorem headTakes_position (st : Station) : (headTakes st).position = st.position := (headTakes_frame st).position
@[simp] theorem headTakes_edge (st : Station) : (headTakes st).edge = st.edge := (headTakes_frame st).edge
@[simp] theorem headTakes_probe (st : Station) : (headTakes st).probe = st.probe := (headTakes_frame st).probe
@[simp] theorem headTakes_line (st : Station) : (headTakes st).line = st.line := (headTakes_frame st).line
@[simp] theorem headTakes_outlet (st : Station) : (headTakes st).outlet = st.outlet := (headTakes_frame st).outlet
@[simp] theorem headTakes_port (st : Station) : (headTakes st).port = st.port := (headTakes_frame st).port

/-! ## Taking compares -/

/-- The causes with RESULT_OVERFLOW and RESULT_READY cleared: a dispatch changes no other. -/
def Causes.otherThanResults (cs : Causes) : Causes := { cs with resultOverflow := false, resultReady := false }

/-- A result record offered to the FIFO changes the FIFO, its lost count and two causes only (R184, R185, R190). -/
theorem ResultPort.offer_frame (r : ResultRecord) (p : ResultPort) :
    (p.offer r).enable = p.enable ∧ (p.offer r).watermark = p.watermark ∧ (p.offer r).read = p.read ∧
      (p.offer r).answer = p.answer ∧ (p.offer r).selected = p.selected ∧
      (p.offer r).causes.otherThanResults = p.causes.otherThanResults := by
  unfold ResultPort.offer
  split <;> exact ⟨rfl, rfl, rfl, rfl, rfl, rfl⟩

/-- What the taking of any compare leaves unchanged. -/
structure CompareFrame (a b : Station) : Prop where
  heldInReset : b.heldInReset = a.heldInReset
  start : b.start = a.start
  line : b.line = a.line
  counter : b.position.counter = a.position.counter
  direction : b.position.direction = a.position.direction
  highWater : b.position.highWater = a.position.highWater
  reverseTravel : b.position.reverseTravel = a.position.reverseTravel
  triggerCount : b.position.triggerCount = a.position.triggerCount
  triggerPos : b.position.triggerPos = a.position.triggerPos
  pulsesOwed : b.position.pulsesOwed = a.position.pulsesOwed
  triggerLine : b.position.triggerLine = a.position.triggerLine
  capture : b.position.capture = a.position.capture
  frozen : b.edge.frozen = a.edge.frozen
  pin : b.edge.pin = a.edge.pin
  frame : b.scan.frame = a.scan.frame
  peers : b.engine.peers = a.engine.peers
  nextSeq : b.engine.nextSeq = a.engine.nextSeq
  openCount : b.engine.openCount = a.engine.openCount
  roll : b.engine.requests.roll = a.engine.requests.roll
  enable : b.port.enable = a.port.enable
  watermark : b.port.watermark = a.port.watermark
  read : b.port.read = a.port.read
  answer : b.port.answer = a.port.answer
  selected : b.port.selected = a.port.selected
  causes : b.port.causes.otherThanResults = a.port.causes.otherThanResults

theorem CompareFrame.refl (a : Station) : CompareFrame a a := by constructor <;> rfl

theorem CompareFrame.trans {a b c : Station} (h : CompareFrame a b) (k : CompareFrame b c) : CompareFrame a c := by
  constructor
  · exact k.heldInReset.trans h.heldInReset
  · exact k.start.trans h.start
  · exact k.line.trans h.line
  · exact k.counter.trans h.counter
  · exact k.direction.trans h.direction
  · exact k.highWater.trans h.highWater
  · exact k.reverseTravel.trans h.reverseTravel
  · exact k.triggerCount.trans h.triggerCount
  · exact k.triggerPos.trans h.triggerPos
  · exact k.pulsesOwed.trans h.pulsesOwed
  · exact k.triggerLine.trans h.triggerLine
  · exact k.capture.trans h.capture
  · exact k.frozen.trans h.frozen
  · exact k.pin.trans h.pin
  · exact k.frame.trans h.frame
  · exact k.peers.trans h.peers
  · exact k.nextSeq.trans h.nextSeq
  · exact k.openCount.trans h.openCount
  · exact k.roll.trans h.roll
  · exact k.enable.trans h.enable
  · exact k.watermark.trans h.watermark
  · exact k.read.trans h.read
  · exact k.answer.trans h.answer
  · exact k.selected.trans h.selected
  · exact k.causes.trans h.causes

theorem HeadFrame.toCompare {a b : Station} (h : HeadFrame a b) : CompareFrame a b := by
  constructor <;> first
    | exact h.heldInReset
    | exact h.start
    | exact h.line
    | exact h.frame
    | exact h.peers
    | exact h.nextSeq
    | exact h.openCount
    | exact h.roll
    | rw [h.position]
    | rw [h.edge]
    | rw [h.port]

theorem storeCompare_frame (id : CompareId) (pos : Pos) (g : Progress) (st : Station) :
    CompareFrame st (storeCompare id pos g st) := by constructor <;> rfl

theorem dropCompare_frame (id : CompareId) (st : Station) : CompareFrame st (dropCompare id st) := by
  constructor <;> rfl

theorem discardPending_frame (st : Station) : CompareFrame st (discardPending st) := by constructor <;> rfl

theorem releaseBlank_frame (st : Station) : CompareFrame st (releaseBlank st) := by constructor <;> rfl

theorem followAbsence_frame (st : Station) : CompareFrame st (followAbsence st) := by
  unfold followAbsence
  split
  · exact dropCompare_frame _ st
  · simp only
    split
    · split
      · exact storeCompare_frame _ _ _ st
      · exact releaseBlank_frame st
    · exact storeCompare_frame _ _ _ st

theorem enterBlanked_frame (st : Station) : CompareFrame st (enterBlanked st) := by
  have h := (discardPending_frame st).trans (dropCompare_frame .bridging _)
  unfold enterBlanked
  simp only
  split
  · exact h
  · refine CompareFrame.trans ?_ (followAbsence_frame _)
    exact h.trans (by constructor <;> rfl)

theorem updateRecord_frame (seq : Seq) (f : Record → Record) (st : Station) : CompareFrame st (updateRecord seq f st) := by
  constructor <;> rfl

theorem updateBand_frame (seq : Seq) (f : Band → Band) (st : Station) : CompareFrame st (updateBand seq f st) :=
  updateRecord_frame _ _ st

theorem withRequests_frame (f : Requests → Requests) (hf : ∀ q, (f q).roll = q.roll) (st : Station) :
    CompareFrame st (withRequests f st) := by
  constructor <;> first
    | rfl
    | exact hf _

theorem enterClosing_frame (seq : Seq) (trail : Pos) (st : Station) : CompareFrame st (enterClosing seq trail st) := by
  have h : ∀ b : Bool, CompareFrame st (updateBand seq
      (fun x => { x with state := .closing, trail := some trail, lagPassed := b })
      (dropCompare .overlength (dropCompare .sample st))) := fun b =>
    ((dropCompare_frame _ st).trans (dropCompare_frame _ _)).trans (updateBand_frame _ _ _)
  unfold enterClosing
  simp only
  refine CompareFrame.trans ?_ (testClosing_frame seq _).toCompare
  split
  · exact h _
  · exact (h _).trans (storeCompare_frame _ _ _ _)

theorem headTakes_compareFrame (st : Station) : CompareFrame st (headTakes st) := (headTakes_frame st).toCompare

theorem forceOverlength_frame (st : Station) : CompareFrame st (forceOverlength st) := by
  unfold forceOverlength
  split
  · exact CompareFrame.refl st
  · exact (((updateBand_frame _ _ st).trans (enterBlanked_frame _)).trans (enterClosing_frame _ _ _)).trans
      (headTakes_compareFrame _)

theorem removeRecord_frame (outcome : Verdict) (mark : SheetFlags → SheetFlags) (seq : Seq) (st : Station) :
    CompareFrame st (removeRecord outcome mark seq st) := by
  unfold removeRecord
  cases st.record seq with
  | none => exact CompareFrame.refl st
  | some r =>
    simp only
    have h1 : CompareFrame st
        { st with
          table := st.table.filter fun x => x.seq != seq
          position := st.position.dropRecord seq
          engine := { st.engine with requests := st.engine.requests.dropSubject seq } } := by
      constructor <;> rfl
    by_cases hb : r.band.state = .opened
    · simp only [hb, if_true]
      have h2 := ((h1.trans (dropCompare_frame .sample _)).trans (dropCompare_frame .overlength _)).trans
        (enterBlanked_frame _)
      refine h2.trans ?_
      constructor <;> first
        | rfl
        | simp only [ResultPort.offer_frame, loseTarget]
    · simp only [hb, if_false]
      refine h1.trans ?_
      constructor <;> first
        | rfl
        | simp only [ResultPort.offer_frame, loseTarget]

theorem closeWindow_frame (st : Station) : CompareFrame st (closeWindow st) := by constructor <;> rfl

theorem gateCommand_frame (r : Record) (outcome : Verdict) (st : Station) :
    CompareFrame st (gateCommand r outcome st).1 := by
  unfold gateCommand
  simp only
  split
  · exact CompareFrame.refl st
  · split
    · exact CompareFrame.refl st
    · split <;> constructor <;> rfl

theorem dispatch_frame (seq : Seq) (st : Station) : CompareFrame st (dispatch seq st) := by
  unfold dispatch
  cases st.record seq with
  | none => exact CompareFrame.refl st
  | some r =>
    simp only
    split
    · refine CompareFrame.trans (CompareFrame.trans ?_ (removeRecord_frame _ _ seq _)) (headTakes_compareFrame _)
      split
      · exact gateCommand_frame _ _ st
      · exact CompareFrame.refl st
    · exact (removeRecord_frame _ _ seq st).trans (headTakes_compareFrame _)

theorem takeEmpty_frame (seq : Seq) (st : Station) : CompareFrame st (takeEmpty seq st) := by
  unfold takeEmpty
  split
  · exact CompareFrame.refl st
  · split
    · exact (settleBand_frame _ _ seq st).toCompare
    · exact CompareFrame.refl st

theorem takeDecision_frame (seq : Seq) (st : Station) : CompareFrame st (takeDecision seq st) := by
  have h := withRequests_frame (Requests.markVerdict seq false) (fun _ => rfl) st
  have hv := fun x => withRequests_frame (Requests.raiseVerdict seq false) (Requests.raiseVerdict_roll seq false) x
  unfold takeDecision
  split
  · exact CompareFrame.refl st
  · simp only
    split
    · exact (h.trans (updateRecord_frame _ _ _)).trans (hv _)
    · exact (h.trans (updateRecord_frame _ _ _)).trans (hv _)
    · exact h.trans (updateRecord_frame _ _ _)

theorem takeLag_frame (seq : Seq) (st : Station) : CompareFrame st (takeLag seq st) := by
  have h := (updateBand_frame seq (fun b => { b with lagPassed := true }) st).trans (testClosing_frame seq _).toCompare
  unfold takeLag
  simp only
  split
  · exact h.trans (headTakes_compareFrame _)
  · exact h

theorem storeSample_frame (st : Station) : CompareFrame st (storeSample st) := by
  unfold storeSample
  split
  · exact dropCompare_frame _ st
  · exact storeCompare_frame _ _ _ st

theorem takeSample_frame (st : Station) : CompareFrame st (takeSample st) := by
  unfold takeSample
  split
  · exact dropCompare_frame _ st
  · simp only
    split
    · exact (storeSample_frame st).trans (by constructor <;> rfl)
    · exact storeSample_frame st

theorem raiseOpen_frame (st : Station) : CompareFrame st (raiseOpen st) := by constructor <;> rfl

theorem openBand_frame (seq : Seq) (e : Pos) (st : Station) : CompareFrame st (openBand seq e st) := by
  constructor <;> rfl

theorem attachEdge_frame (edge : PendingEdge) (seq : Seq) (st : Station) : CompareFrame st (attachEdge edge seq st) := by
  have h := openBand_frame seq edge.rise st
  unfold attachEdge
  simp only
  split
  · have hs := h.trans (storeSample_frame _)
    split
    · split
      · exact (hs.trans (storeCompare_frame _ _ _ _)).trans (headTakes_compareFrame _)
      · exact hs.trans (forceOverlength_frame _)
    · exact (hs.trans (storeCompare_frame _ _ _ _)).trans (headTakes_compareFrame _)
  · split
    · exact ((h.trans (updateBand_frame _ _ _)).trans (enterClosing_frame _ _ _)).trans (headTakes_compareFrame _)
    · exact (h.trans (enterClosing_frame _ _ _)).trans (headTakes_compareFrame _)

theorem attachTest_frame (st : Station) : CompareFrame st (attachTest st) := by
  have h : CompareFrame st { st with edge := { st.edge with testDeferred := false } } := by constructor <;> rfl
  unfold attachTest
  simp only
  split
  · exact h
  · split
    · split
      · split
        · exact h.trans (attachEdge_frame _ _ _)
        · exact h.trans (raiseOpen_frame _)
      · exact h.trans (raiseOpen_frame _)
    · exact h

theorem deferredTest_frame (st : Station) : CompareFrame st (deferredTest st) := by
  unfold deferredTest
  split
  · exact attachTest_frame st
  · exact CompareFrame.refl st

theorem takeQualification_frame (st : Station) : CompareFrame st (takeQualification st) := by
  unfold takeQualification
  split
  · simp only
    split
    · constructor <;> rfl
    · exact CompareFrame.trans (by constructor <;> rfl) (attachTest_frame _)
  · exact CompareFrame.refl st

theorem takeBridging_frame (st : Station) : CompareFrame st (takeBridging st) := by
  unfold takeBridging
  split
  · simp only
    split
    · refine CompareFrame.trans (CompareFrame.trans ?_ (enterClosing_frame _ _ _)) (headTakes_compareFrame _)
      constructor <;> rfl
    · constructor <;> rfl
  · exact CompareFrame.refl st

theorem compareEffect_frame (id : CompareId) (st : Station) : CompareFrame st (compareEffect id st) := by
  cases id with
  | qualification => exact takeQualification_frame st
  | bridging => exact takeBridging_frame st
  | blankRelease => exact releaseBlank_frame st
  | overlength => exact forceOverlength_frame st
  | empty seq => exact takeEmpty_frame seq st
  | lag seq => exact takeLag_frame seq st
  | decision seq => exact takeDecision_frame seq st
  | gate seq => exact dispatch_frame seq st
  | sample => exact takeSample_frame st
  | windowEnd => exact closeWindow_frame st

theorem takeCompare_frame (id : CompareId) (st : Station) : CompareFrame st (takeCompare id st) := by
  unfold takeCompare
  split
  · constructor <;> rfl
  · exact (dropCompare_frame id st).trans (compareEffect_frame id _)

/-- What the taking of one due compare leaves unchanged. -/
theorem takeDue_frame (id : CompareId) (st : Station) : CompareFrame st (takeDue id st) := by
  unfold takeDue
  split
  · exact takeCompare_frame id st
  · exact CompareFrame.refl st

theorem takeOrdered_frame (order : List CompareId) : ∀ st, CompareFrame st (takeOrdered order st) := by
  induction order with
  | nil => exact CompareFrame.refl
  | cons id rest ih =>
    intro st
    simp only [takeOrdered]
    refine CompareFrame.trans ?_ (ih _)
    split
    · exact takeCompare_frame id st
    · exact CompareFrame.refl st

theorem takeRest_frame (n : Nat) : ∀ st, CompareFrame st (takeRest n st) := by
  induction n with
  | zero => exact CompareFrame.refl
  | succ n ih =>
    intro st
    simp only [takeRest]
    split
    · exact CompareFrame.refl st
    · exact (takeCompare_frame _ st).trans (ih _)

/-- What the taking of every due compare leaves unchanged. -/
theorem takeAllDue_frame (order : List CompareId) (st : Station) : CompareFrame st (takeAllDue order st) :=
  (takeOrdered_frame order st).trans (takeRest_frame _ _)

theorem actOnKept_frame (n : Nat) : ∀ st, CompareFrame st (actOnKept n st) := by
  induction n with
  | zero => exact CompareFrame.refl
  | succ n ih =>
    intro st
    simp only [actOnKept]
    split
    · exact CompareFrame.refl st
    · exact ((dropCompare_frame _ st).trans (compareEffect_frame _ _)).trans (ih _)

theorem riseAt_frame (e : Pos) (st : Station) : CompareFrame st (riseAt e st) := by
  have h : CompareFrame st (discardPending st) := discardPending_frame st
  unfold riseAt
  simp only
  split
  · refine CompareFrame.trans (h.trans ?_) (headTakes_compareFrame _)
    constructor <;> rfl
  · exact h.trans (by constructor <;> rfl)

theorem takeChange_frame (st : Station) : CompareFrame st (takeChange st) := by
  unfold takeChange
  split <;> try exact CompareFrame.refl st
  · exact riseAt_frame _ st
  · exact (discardPending_frame st).trans (CompareFrame.trans (by constructor <;> rfl) (headTakes_compareFrame _))
  · constructor <;> rfl
  · constructor <;> rfl
  · split
    · exact CompareFrame.trans (by constructor <;> rfl) (followAbsence_frame _)
    · exact CompareFrame.refl st
  · split
    · exact CompareFrame.trans (by constructor <;> rfl) (followAbsence_frame _)
    · exact CompareFrame.refl st

end Sys2Proof.Machine
end

