-- ==== Sys2Proof/Laws/EdgeFrames.lean ====
section
/-! SUPPORT. What the Edge Unit's operations leave unchanged beside what every taken compare leaves (Frames.lean): the Probe
Unit, the Outlet Unit, the Result Port, and what a record's creation fixed. -/

namespace Sys2Proof.Machine

/-- What an operation of the Edge Unit leaves unchanged, the band it opens or closes included. -/
structure EdgeFrame (a b : Station) : Prop extends CompareFrame a b where
  probe : b.probe = a.probe
  outlet : b.outlet = a.outlet
  port : b.port = a.port
  purge : b.engine.requests.purge = a.engine.requests.purge
  identities : b.table.map Record.identity = a.table.map Record.identity

theorem EdgeFrame.refl (a : Station) : EdgeFrame a a := ⟨CompareFrame.refl a, rfl, rfl, rfl, rfl, rfl⟩

theorem EdgeFrame.trans {a b c : Station} (h : EdgeFrame a b) (k : EdgeFrame b c) : EdgeFrame a c :=
  ⟨h.toCompareFrame.trans k.toCompareFrame, k.probe.trans h.probe, k.outlet.trans h.outlet, k.port.trans h.port,
    k.purge.trans h.purge, k.identities.trans h.identities⟩

theorem HeadFrame.toEdge {a b : Station} (h : HeadFrame a b) : EdgeFrame a b :=
  ⟨h.toCompare, h.probe, h.outlet, h.port, h.purge, h.identities⟩

theorem storeCompare_edgeFrame (id : CompareId) (pos : Pos) (g : Progress) (st : Station) :
    EdgeFrame st (storeCompare id pos g st) := ⟨storeCompare_frame id pos g st, rfl, rfl, rfl, rfl, rfl⟩

theorem dropCompare_edgeFrame (id : CompareId) (st : Station) : EdgeFrame st (dropCompare id st) :=
  ⟨dropCompare_frame id st, rfl, rfl, rfl, rfl, rfl⟩

theorem discardPending_edgeFrame (st : Station) : EdgeFrame st (discardPending st) :=
  ⟨discardPending_frame st, rfl, rfl, rfl, rfl, rfl⟩

theorem releaseBlank_edgeFrame (st : Station) : EdgeFrame st (releaseBlank st) :=
  ⟨releaseBlank_frame st, rfl, rfl, rfl, rfl, rfl⟩

theorem followAbsence_edgeFrame (st : Station) : EdgeFrame st (followAbsence st) := by
  unfold followAbsence
  split
  · exact dropCompare_edgeFrame _ st
  · simp only
    split
    · split
      · exact storeCompare_edgeFrame _ _ _ st
      · exact releaseBlank_edgeFrame st
    · exact storeCompare_edgeFrame _ _ _ st

/-- A change of the edge fields other than the freeze and the pin. -/
theorem EdgeFrame.ofEdge (e : EdgeUnit) (st : Station) (hf : e.frozen = st.edge.frozen) (hp : e.pin = st.edge.pin) :
    EdgeFrame st { st with edge := e } := by
  refine ⟨?_, rfl, rfl, rfl, rfl, rfl⟩
  constructor <;> first
    | rfl
    | exact hf
    | exact hp

theorem enterBlanked_edgeFrame (st : Station) : EdgeFrame st (enterBlanked st) := by
  have h := (discardPending_edgeFrame st).trans (dropCompare_edgeFrame .bridging _)
  unfold enterBlanked
  simp only
  split
  · exact h
  · refine EdgeFrame.trans ?_ (followAbsence_edgeFrame _)
    refine h.trans (EdgeFrame.ofEdge _ _ ?_ ?_) <;> rfl

/-- A change of the own band keeps what is fixed at creation. -/
theorem updateBand_edgeFrame (seq : Seq) (f : Band → Band) (st : Station) : EdgeFrame st (updateBand seq f st) :=
  (HeadFrame.ofUpdate seq (fun r => { r with band := f r.band }) (fun _ => rfl) st).toEdge

theorem enterClosing_edgeFrame (seq : Seq) (trail : Pos) (st : Station) : EdgeFrame st (enterClosing seq trail st) := by
  have h : ∀ b : Bool, EdgeFrame st (updateBand seq
      (fun x => { x with state := .closing, trail := some trail, lagPassed := b })
      (dropCompare .overlength (dropCompare .sample st))) := fun b =>
    ((dropCompare_edgeFrame _ st).trans (dropCompare_edgeFrame _ _)).trans (updateBand_edgeFrame _ _ _)
  unfold enterClosing
  simp only
  refine EdgeFrame.trans ?_ (testClosing_frame seq _).toEdge
  split
  · exact h _
  · exact (h _).trans (storeCompare_edgeFrame _ _ _ _)

theorem headTakes_edgeFrame (st : Station) : EdgeFrame st (headTakes st) := (headTakes_frame st).toEdge

theorem forceOverlength_edgeFrame (st : Station) : EdgeFrame st (forceOverlength st) := by
  unfold forceOverlength
  split
  · exact EdgeFrame.refl st
  · exact (((updateBand_edgeFrame _ _ st).trans (enterBlanked_edgeFrame _)).trans (enterClosing_edgeFrame _ _ _)).trans
      (headTakes_edgeFrame _)

theorem storeSample_edgeFrame (st : Station) : EdgeFrame st (storeSample st) := by
  unfold storeSample
  split
  · exact dropCompare_edgeFrame _ st
  · exact storeCompare_edgeFrame _ _ _ st

theorem openBand_edgeFrame (seq : Seq) (e : Pos) (st : Station) : EdgeFrame st (openBand seq e st) := by
  have h := updateBand_edgeFrame seq (fun b =>
    { b with state := .opened, lead := some e,
             summary := { b.summary with incomplete := b.summary.incomplete || st.scan.overrun } }) st
  exact ⟨openBand_frame seq e st, rfl, rfl, rfl, rfl, h.identities⟩

theorem attachEdge_edgeFrame (edge : PendingEdge) (seq : Seq) (st : Station) :
    EdgeFrame st (attachEdge edge seq st) := by
  have h := openBand_edgeFrame seq edge.rise st
  unfold attachEdge
  simp only
  split
  · have hs := h.trans (storeSample_edgeFrame _)
    split
    · split
      · exact (hs.trans (storeCompare_edgeFrame _ _ _ _)).trans (headTakes_edgeFrame _)
      · exact hs.trans (forceOverlength_edgeFrame _)
    · exact (hs.trans (storeCompare_edgeFrame _ _ _ _)).trans (headTakes_edgeFrame _)
  · split
    · exact ((h.trans (updateBand_edgeFrame _ _ _)).trans (enterClosing_edgeFrame _ _ _)).trans (headTakes_edgeFrame _)
    · exact (h.trans (enterClosing_edgeFrame _ _ _)).trans (headTakes_edgeFrame _)

theorem raiseOpen_edgeFrame (st : Station) : EdgeFrame st (raiseOpen st) :=
  ⟨raiseOpen_frame st, rfl, rfl, rfl, rfl, rfl⟩

/-- What the attachment test leaves unchanged. -/
theorem attachTest_edgeFrame (st : Station) : EdgeFrame st (attachTest st) := by
  have h : EdgeFrame st { st with edge := { st.edge with testDeferred := false } } := EdgeFrame.ofEdge _ st rfl rfl
  unfold attachTest
  simp only
  split
  · exact h
  · split
    · split
      · split
        · exact h.trans (attachEdge_edgeFrame _ _ _)
        · exact h.trans (raiseOpen_edgeFrame _)
      · exact h.trans (raiseOpen_edgeFrame _)
    · exact h

theorem deferredTest_edgeFrame (st : Station) : EdgeFrame st (deferredTest st) := by
  unfold deferredTest
  split
  · exact attachTest_edgeFrame st
  · exact EdgeFrame.refl st

theorem takeQualification_edgeFrame (st : Station) : EdgeFrame st (takeQualification st) := by
  unfold takeQualification
  split
  · simp only
    split
    · exact EdgeFrame.ofEdge _ st rfl rfl
    · refine EdgeFrame.trans (EdgeFrame.ofEdge _ st ?_ ?_) (attachTest_edgeFrame _) <;> rfl
  · exact EdgeFrame.refl st

theorem takeBridging_edgeFrame (st : Station) : EdgeFrame st (takeBridging st) := by
  unfold takeBridging
  split
  · simp only
    split
    · refine EdgeFrame.trans (EdgeFrame.trans (EdgeFrame.ofEdge _ st ?_ ?_) (enterClosing_edgeFrame _ _ _))
        (headTakes_edgeFrame _) <;> rfl
    · exact EdgeFrame.ofEdge _ st rfl rfl
  · exact EdgeFrame.refl st

theorem riseAt_edgeFrame (e : Pos) (st : Station) : EdgeFrame st (riseAt e st) := by
  have h : EdgeFrame st (storeCompare .qualification (e + counts st.shared.qualification) .waiting
      { discardPending st with
        edge := { (discardPending st).edge with
          state := .rising, pending := some { rise := e, qualified := false, fall := none } } }) := by
    refine ((discardPending_edgeFrame st).trans (EdgeFrame.ofEdge _ _ ?_ ?_)).trans (storeCompare_edgeFrame _ _ _ _) <;> rfl
  unfold riseAt
  simp only
  split
  · exact h.trans (headTakes_edgeFrame _)
  · exact h

theorem failRise_edgeFrame (st : Station) : EdgeFrame st (failRise st) := by
  refine ((discardPending_edgeFrame st).trans (EdgeFrame.ofEdge _ _ ?_ ?_)).trans (headTakes_edgeFrame _) <;> rfl

theorem fallAt_edgeFrame (f : Pos) (st : Station) : EdgeFrame st (fallAt f st) := by
  refine (EdgeFrame.ofEdge { st.edge with state := .falling, fall := some f } st ?_ ?_).trans
    (storeCompare_edgeFrame _ _ _ _) <;> rfl

theorem bridgeGap_edgeFrame (st : Station) : EdgeFrame st (bridgeGap st) := by
  refine (dropCompare_edgeFrame .bridging st).trans (EdgeFrame.ofEdge _ _ ?_ ?_) <;> rfl

/-- What a change of presence leaves unchanged. -/
theorem takeChange_edgeFrame (st : Station) : EdgeFrame st (takeChange st) := by
  unfold takeChange
  split <;> try exact EdgeFrame.refl st
  · exact riseAt_edgeFrame _ st
  · exact failRise_edgeFrame st
  · exact fallAt_edgeFrame _ st
  · exact bridgeGap_edgeFrame st
  · split
    · refine EdgeFrame.trans (EdgeFrame.ofEdge _ st ?_ ?_) (followAbsence_edgeFrame _) <;> rfl
    · exact EdgeFrame.refl st
  · split
    · refine EdgeFrame.trans (EdgeFrame.ofEdge _ st ?_ ?_) (followAbsence_edgeFrame _) <;> rfl
    · exact EdgeFrame.refl st

end Sys2Proof.Machine
end

