-- ==== Sys2Proof/Laws/Records.lean ====
section
/-! SUPPORT. What a chain of head takes, and every closing of a band in it, does to the records, the FIFO and the requests: the
only change of a band's state is from CLOSING to CLOSED. -/

namespace Sys2Proof.Machine

/-- What head takes and closings may do to one record. -/
structure RecordStep (r x : Record) : Prop where
  identity : x.identity = r.identity
  lead : x.band.lead = r.band.lead
  trail : x.band.trail = r.band.trail
  lagPassed : x.band.lagPassed = r.band.lagPassed
  overlength : x.band.summary.overlength = r.band.summary.overlength
  incomplete : x.band.summary.incomplete = r.band.summary.incomplete
  state : x.band.state = r.band.state ∨ r.band.state = .closing ∧ x.band.state = .closed
  frozen : x.frozen = r.frozen
  outcome : x.outcome = r.outcome

theorem RecordStep.refl (r : Record) : RecordStep r r := ⟨rfl, rfl, rfl, rfl, rfl, rfl, .inl rfl, rfl, rfl⟩

theorem RecordStep.trans {r x y : Record} (h : RecordStep r x) (k : RecordStep x y) : RecordStep r y := by
  refine ⟨k.identity.trans h.identity, k.lead.trans h.lead, k.trail.trans h.trail, k.lagPassed.trans h.lagPassed,
    k.overlength.trans h.overlength, k.incomplete.trans h.incomplete, ?_, k.frozen.trans h.frozen,
    k.outcome.trans h.outcome⟩
  rcases h.state with h1 | ⟨h1, h2⟩
  · rcases k.state with k1 | ⟨k1, k2⟩
    · exact .inl (k1.trans h1)
    · exact .inr ⟨h1 ▸ k1, k2⟩
  · rcases k.state with k1 | ⟨k1, _⟩
    · exact .inr ⟨h1, k1.trans h2⟩
    · rw [h2] at k1; cases k1

theorem RecordStep.seq {r x : Record} (h : RecordStep r x) : x.seq = r.seq := congrArg Prod.fst h.identity

theorem RecordStep.refPos {r x : Record} (h : RecordStep r x) : x.refPos = r.refPos :=
  congrArg (fun i => i.2.1) h.identity

/-- What head takes and closings may do to the station. -/
structure TakeStep (a b : Station) : Prop where
  records : List.Forall₂ RecordStep a.table b.table
  fifo : b.scan.fifo.length ≤ a.scan.fifo.length
  tally : ∀ s, (⟨s, false⟩ : Held) ∈ a.engine.requests.tally → (⟨s, false⟩ : Held) ∈ b.engine.requests.tally
  verdict : ∀ h ∈ b.engine.requests.verdict, h ∈ a.engine.requests.verdict ∨ h.subject ∈ a.table.map (·.seq)

theorem TakeStep.refl (a : Station) : TakeStep a a :=
  ⟨List.forall₂_same.2 fun r _ => RecordStep.refl r, le_refl _, fun _ h => h, fun _ h => .inl h⟩

theorem TakeStep.seqs {a b : Station} (h : TakeStep a b) : b.table.map (·.seq) = a.table.map (·.seq) := by
  have : ∀ {l m : List Record}, List.Forall₂ RecordStep l m → m.map (·.seq) = l.map (·.seq) := by
    intro l m hf
    induction hf with
    | nil => rfl
    | cons hx _ ih => simp [hx.seq, ih]
  exact this h.records

theorem TakeStep.trans {a b c : Station} (h : TakeStep a b) (k : TakeStep b c) : TakeStep a c := by
  refine ⟨?_, k.fifo.trans h.fifo, fun s hs => k.tally s (h.tally s hs), ?_⟩
  · have : ∀ {l m : List Record}, List.Forall₂ RecordStep l m → ∀ {n}, List.Forall₂ RecordStep m n →
        List.Forall₂ RecordStep l n := by
      intro l m hf
      induction hf with
      | nil => intro n hn; cases hn; exact .nil
      | cons hx _ ih =>
        intro n hn
        cases hn with
        | cons hy hrest => exact .cons (hx.trans hy) (ih hrest)
    exact this h.records k.records
  · intro x hx
    rcases k.verdict x hx with h1 | h1
    · exact h.verdict x h1
    · exact .inr (h.seqs ▸ h1)

/-- The record with a sequence number after the takes is the one before, taken along. -/
theorem TakeStep.record {a b : Station} (h : TakeStep a b) {s : Seq} {r : Record} (hr : a.record s = some r) :
    ∃ x, b.record s = some x ∧ RecordStep r x := by
  have : ∀ {l m : List Record}, List.Forall₂ RecordStep l m → ∀ {r}, (l.find? fun r => r.seq == s) = some r →
      ∃ x, (m.find? fun r => r.seq == s) = some x ∧ RecordStep r x := by
    intro l m hf
    induction hf with
    | nil => intro r hr; cases hr
    | @cons y z _ _ hx _ ih =>
      intro r hr
      simp only [List.find?_cons] at hr ⊢
      rw [hx.seq]
      cases hy : (y.seq == s) with
      | true => simp only [hy] at hr ⊢; cases hr; exact ⟨z, rfl, hx⟩
      | false => simp only [hy] at hr ⊢; exact ih hr
  exact this h.records hr

theorem forall₂_map_self {l : List Record} {f : Record → Record} (hf : ∀ r ∈ l, RecordStep r (f r)) :
    List.Forall₂ RecordStep l (l.map f) := by
  induction l with
  | nil => exact .nil
  | cons x rest ih =>
    exact .cons (hf x (List.mem_cons_self ..)) (ih fun r hr => hf r (List.mem_cons_of_mem _ hr))

theorem TakeStep.ofUpdate (s : Seq) (f : Record → Record) (st : Station)
    (hf : ∀ r ∈ st.table, r.seq = s → RecordStep r (f r)) : TakeStep st (updateRecord s f st) := by
  refine ⟨?_, le_refl _, fun _ h => h, fun _ h => .inl h⟩
  refine forall₂_map_self fun r hr => ?_
  by_cases h : r.seq = s
  · simp only [h, if_true]; exact hf r hr h
  · simp only [h, if_false]; exact RecordStep.refl r

theorem mem_raiseTally {s t : Seq} {q : Requests} (h : (⟨t, false⟩ : Held) ∈ q.tally) :
    (⟨t, false⟩ : Held) ∈ (q.raiseTally s).tally := by
  unfold Requests.raiseTally
  split
  · refine List.mem_map.2 ⟨⟨t, false⟩, h, ?_⟩
    split <;> rfl
  · exact List.mem_append_left _ h

theorem raiseTally_mem (s : Seq) (q : Requests) : (⟨s, false⟩ : Held) ∈ (q.raiseTally s).tally := by
  unfold Requests.raiseTally
  split
  · rename_i h
    obtain ⟨x, hx, hs⟩ := List.any_eq_true.1 h
    have hs' : x.subject = s := by simpa using hs
    refine List.mem_map.2 ⟨x, hx, ?_⟩
    simp [hs']
  · simp

theorem Requests.raiseTally_verdict (s : Seq) (q : Requests) : (q.raiseTally s).verdict = q.verdict := by
  unfold Requests.raiseTally; split <;> rfl
theorem Requests.raiseVerdict_tally (s : Seq) (b : Bool) (q : Requests) : (q.raiseVerdict s b).tally = q.tally := by
  unfold Requests.raiseVerdict; split <;> rfl

theorem mem_raiseVerdict {s : Seq} {b : Bool} {q : Requests} {h : Held} (hh : h ∈ (q.raiseVerdict s b).verdict) :
    h ∈ q.verdict ∨ h.subject = s := by
  unfold Requests.raiseVerdict at hh
  split at hh
  · exact .inl hh
  · rcases List.mem_append.1 hh with h1 | h1
    · exact .inl h1
    · simp only [List.mem_singleton] at h1; subst h1; exact .inr rfl

theorem record_seq {st : Station} {s : Seq} {r : Record} (h : st.record s = some r) : r.seq = s := by
  have := List.find?_some h
  simpa using this

theorem record_mem {st : Station} {s : Seq} {r : Record} (h : st.record s = some r) : r ∈ st.table :=
  List.mem_of_find?_eq_some h

theorem record_mem_seqs {st : Station} {s : Seq} {r : Record} (h : st.record s = some r) : s ∈ st.table.map (·.seq) :=
  List.mem_map.2 ⟨r, record_mem h, record_seq h⟩

/-- The completeness test made with the own entry's storing changes the phase, the verdict and the flags of its record. -/
theorem completeRecord_takeStep (s : Seq) (st : Station) : TakeStep st (completeRecord true s st) := by
  unfold completeRecord
  cases hr : st.record s with
  | none => exact TakeStep.refl st
  | some r =>
    simp only
    split
    · have h1 : TakeStep st (updateRecord s
          (fun x => { (if x.frozen then x else gradeRecord st.shared x) with phase := .tallied }) st) := by
        refine TakeStep.ofUpdate _ _ _ fun x _ _ => ?_
        cases hx : x.frozen <;> simp only [if_true, if_false, Bool.false_eq_true] <;>
          exact ⟨rfl, rfl, rfl, rfl, rfl, rfl, .inl rfl, by simp [hx, gradeRecord], rfl⟩
      split
      · exact h1
      · refine h1.trans ⟨List.forall₂_same.2 fun r _ => RecordStep.refl r, le_refl _, ?_, ?_⟩
        · intro t ht
          simpa [withRequests, Requests.raiseVerdict_tally] using ht
        · intro h hh
          rcases mem_raiseVerdict hh with h2 | h2
          · exact .inl h2
          · refine .inr ?_
            rw [h2]
            exact h1.seqs ▸ record_mem_seqs hr
    · exact TakeStep.refl st

/-- Closing a band is a step of its record from CLOSING to CLOSED. -/
theorem testClosing_takeStep (s : Seq) (st : Station) (hd : st.seqsDistinct) : TakeStep st (testClosing s st) := by
  unfold testClosing
  cases hr : st.record s with
  | none => exact TakeStep.refl st
  | some r =>
    simp only
    split
    · rename_i hc
      have hclosing : r.band.state = .closing := by
        simp only [closingHolds, Bool.and_eq_true, beq_iff_eq] at hc
        exact hc.1.1.1
      unfold settleBand
      refine TakeStep.trans (TakeStep.trans (TakeStep.ofUpdate s (fun x =>
        { x.storeEntry st.start.index (.closed x.band.summary) with band := { x.band with state := .closed } }) st ?_) ?_)
        (completeRecord_takeStep s _)
      · intro x hx hxs
        have : x = r := List.inj_on_of_nodup_map hd hx (record_mem hr) (hxs.trans (record_seq hr).symm)
        subst this
        exact ⟨rfl, rfl, rfl, rfl, rfl, rfl, .inr ⟨hclosing, rfl⟩, rfl, rfl⟩
      · refine ⟨List.forall₂_same.2 fun r _ => RecordStep.refl r, le_refl _, ?_, ?_⟩
        · intro t ht; exact mem_raiseTally ht
        · intro h hh; left; simpa [withRequests, Requests.raiseTally_verdict] using hh
    · exact TakeStep.refl st

theorem TakeStep.distinct {a b : Station} (h : TakeStep a b) (hd : a.seqsDistinct) : b.seqsDistinct := by
  unfold Station.seqsDistinct
  rw [h.seqs]
  exact hd

theorem testAllClosing_takeStep (st : Station) (hd : st.seqsDistinct) : TakeStep st (testAllClosing st) := by
  unfold testAllClosing
  have : ∀ (l : List Seq) (x : Station), x.seqsDistinct → TakeStep x (l.foldl (fun s q => testClosing q s) x) := by
    intro l
    induction l with
    | nil => exact fun x _ => TakeStep.refl x
    | cons q rest ih =>
      intro x hx
      have h := testClosing_takeStep q x hx
      exact h.trans (ih _ (h.distinct hx))
  exact this _ st hd

theorem fold_flags (sh : Shared) (refPos p : Pos) (rep : Report) (s : Summary) :
    (s.fold sh refPos p rep).overlength = s.overlength ∧ (s.fold sh refPos p rep).incomplete = s.incomplete := by
  unfold Summary.fold
  simp only
  split
  · exact ⟨rfl, rfl⟩
  · split <;> exact ⟨rfl, rfl⟩

theorem dropHead_takeStep (st : Station) : TakeStep st (dropHead st) :=
  ⟨List.forall₂_same.2 fun r _ => RecordStep.refl r, by simp [dropHead], fun _ h => h, fun _ h => .inl h⟩

theorem headTake_takeStep (st : Station) : TakeStep st (headTake st).1 := by
  unfold headTake
  split
  · exact ⟨List.forall₂_same.2 fun r _ => RecordStep.refl r, le_refl _, fun _ h => h, fun _ h => .inl h⟩
  · split
    · exact dropHead_takeStep st
    · split
      · refine TakeStep.trans (TakeStep.ofUpdate _ _ st ?_) (dropHead_takeStep _)
        intro x _ _
        exact ⟨rfl, rfl, rfl, rfl, (fold_flags _ _ _ _ _).1, (fold_flags _ _ _ _ _).2, .inl rfl, rfl, rfl⟩
      · split
        · exact ⟨List.forall₂_same.2 fun r _ => RecordStep.refl r, le_refl _, fun _ h => h, fun _ h => .inl h⟩
        · rename_i p _ _ _ _
          refine TakeStep.trans (b := markLate p st) ⟨?_, le_refl _, fun _ h => h, fun _ h => .inl h⟩ (dropHead_takeStep _)
          refine forall₂_map_self fun x _ => ?_
          split
          · exact ⟨rfl, rfl, rfl, rfl, rfl, rfl, .inl rfl, rfl, rfl⟩
          · exact RecordStep.refl x

theorem headLoop_takeStep (n : Nat) : ∀ st : Station, st.seqsDistinct → TakeStep st (headLoop n st) := by
  induction n with
  | zero => exact fun st _ => TakeStep.refl st
  | succ n ih =>
    intro st hd
    have h1 := headTake_takeStep st
    have h := h1.trans (testAllClosing_takeStep _ (h1.distinct hd))
    simp only [headLoop]
    split
    · exact h.trans (ih _ (h.distinct hd))
    · exact h

/-- What a chain of head takes does to the records, the FIFO and the requests. -/
theorem headTakes_takeStep (st : Station) (hd : st.seqsDistinct) : TakeStep st (headTakes st) := headLoop_takeStep _ st hd

/-! ## Records found again after an update -/

theorem record_updateRecord {st : Station} {s : Seq} {r : Record} (f : Record → Record) (hf : ∀ x, (f x).seq = x.seq)
    (h : st.record s = some r) : (updateRecord s f st).record s = some (f r) := by
  have : ∀ l : List Record, l.find? (fun r => r.seq == s) = some r →
      (l.map fun r => if r.seq = s then f r else r).find? (fun r => r.seq == s) = some (f r) := by
    intro l
    induction l with
    | nil => intro h; cases h
    | cons x l ih =>
      intro h
      by_cases hx : x.seq = s
      · simp [hx, hf] at h ⊢; rw [h]
      · simp [hx] at h ⊢; simpa using ih (by simpa using h)
  exact this _ h

theorem record_of_mem {st : Station} (hd : st.seqsDistinct) {r : Record} (h : r ∈ st.table) :
    st.record r.seq = some r := by
  cases hr : st.record r.seq with
  | none => have := List.find?_eq_none.1 hr r h; simp at this
  | some x => rw [List.inj_on_of_nodup_map hd (record_mem hr) h (record_seq hr)]

theorem newest_mem {st : Station} {r : Record} (h : st.newest = some r) : r ∈ st.table := List.mem_of_getLast? h

theorem openRecord_mem {st : Station} {r : Record} (h : st.openRecord = some r) :
    r ∈ st.table ∧ r.band.state = .opened :=
  ⟨List.mem_of_find?_eq_some h, by simpa using List.find?_some h⟩

theorem seqs_of_identities {a b : Station} (h : b.table.map Record.identity = a.table.map Record.identity) :
    b.table.map (·.seq) = a.table.map (·.seq) := by
  have := congrArg (List.map Prod.fst) h
  simpa [List.map_map, Function.comp_def, Record.identity] using this

theorem EdgeFrame.seqs {a b : Station} (h : EdgeFrame a b) : b.table.map (·.seq) = a.table.map (·.seq) :=
  seqs_of_identities h.identities

theorem EdgeFrame.distinct {a b : Station} (h : EdgeFrame a b) (hd : a.seqsDistinct) : b.seqsDistinct := by
  unfold Station.seqsDistinct
  rw [h.seqs]
  exact hd

/-! ## The attachment test (R12) -/

/-- The edge does not attach where a condition of R12 fails: OPEN is raised, and no test waits. -/
theorem attachTest_raise (st : Station) (e : PendingEdge) (h : st.edge.pending = some e) (hq : e.qualified = true)
    (hc : st.table = [] ∨ st.openRecord.isSome = true ∨
      (∃ r, st.newest = some r ∧ (r.band.state ≠ .none ∨
        atOrAfter (r.refPos + counts st.shared.attachWindow) e.rise = false))) :
    attachTest st = raiseOpen { st with edge := { st.edge with testDeferred := false } } := by
  unfold attachTest
  simp only [h, hq, if_true]
  have hat : ∀ r, st.newest = some r → attaches st e.rise r = false := by
    intro r hr
    unfold attaches
    rcases hc with hc | hc | ⟨r', hr', hc⟩
    · simp [Station.newest, hc] at hr
    · rw [show st.openRecord.isNone = false by cases hh : st.openRecord <;> simp_all]; simp
    · rw [hr] at hr'; cases hr'
      rcases hc with hc | hc
      · rw [show (r.band.state == .none) = false by simpa using hc]; rfl
      · rw [hc]; simp
  split
  · rename_i r hr
    have := hat r hr
    exact if_neg (by show ¬ attaches st e.rise r = true; rw [this]; simp)
  · rfl

/-- The edge attaches to the newest record where the conditions of R12 hold. -/
theorem attachTest_attach (st : Station) (e : PendingEdge) (r : Record) (h : st.edge.pending = some e)
    (hq : e.qualified = true) (hn : st.newest = some r) (ha : attaches st e.rise r = true) :
    attachTest st = attachEdge e r.seq { st with edge := { st.edge with testDeferred := false } } := by
  unfold attachTest
  simp only [h, hq, if_true]
  split
  · rename_i r' hr
    have : r' = r := Option.some.inj (hr.symm.trans hn)
    subst this
    exact if_pos ha
  · rename_i hr; rw [show st.newest = none from hr] at hn; cases hn

/-- Once a band opens where none is OPEN, the OPEN record has its lead. -/
theorem openRecord_openBand {st : Station} {r : Record} (h : r ∈ st.table) (e : Pos) (ho : st.openRecord = none) :
    ∃ x, (openBand r.seq e st).openRecord = some x ∧ x.band.lead = some e := by
  have hx : ∃ x ∈ (openBand r.seq e st).table, x.band.state = .opened := by
    refine ⟨_, List.mem_map.2 ⟨r, h, rfl⟩, ?_⟩; simp
  cases hh : (openBand r.seq e st).openRecord with
  | none =>
    obtain ⟨x, hx, hx'⟩ := hx
    have := List.find?_eq_none.1 hh x hx; simp [hx'] at this
  | some x =>
    refine ⟨x, rfl, ?_⟩
    have hm := List.mem_of_find?_eq_some hh
    have hs := List.find?_some hh
    obtain ⟨y, hy, rfl⟩ := List.mem_map.1 hm
    by_cases hys : y.seq = r.seq
    · simp [hys]
    · simp [hys] at hs
      have := List.find?_eq_none.1 ho y hy; simp [hs] at this

/-! ## Stored compares -/

theorem drop_store (id : CompareId) (pos : Pos) (g : Progress) (p : PositionUnit) :
    (p.drop id).store id pos g = p.store id pos g := by
  simp [PositionUnit.store, PositionUnit.drop, List.filter_filter]

theorem drop_drop (id : CompareId) (p : PositionUnit) : (p.drop id).drop id = p.drop id := by
  simp [PositionUnit.drop, List.filter_filter]

theorem HeadFrame.stores {a b : Station} (h : HeadFrame a b) (id : CompareId) : b.stores id = a.stores id := by
  simp [Station.stores, h.position]

theorem stores_drop (st : Station) (a b : CompareId) :
    (dropCompare a st).stores b = (st.stores b && b != a) := by
  rw [Bool.eq_iff_iff]
  simp only [Station.stores, dropCompare, PositionUnit.drop, List.any_eq_true, List.mem_filter, Bool.and_eq_true,
    bne_iff_ne, beq_iff_eq, ne_eq]
  constructor
  · rintro ⟨c, ⟨h1, h2⟩, rfl⟩; exact ⟨⟨c, h1, rfl⟩, h2⟩
  · rintro ⟨⟨c, h1, rfl⟩, h2⟩; exact ⟨c, ⟨h1, h2⟩, rfl⟩

theorem stores_store (st : Station) (a b : CompareId) (pos : Pos) (g : Progress) :
    (storeCompare a pos g st).stores b = (st.stores b || b == a) := by
  rw [Bool.eq_iff_iff]
  simp only [Station.stores, storeCompare, PositionUnit.store, PositionUnit.drop, List.any_append, List.any_cons,
    List.any_nil, Bool.or_false, List.any_eq_true, List.mem_filter, Bool.or_eq_true, bne_iff_ne, beq_iff_eq, ne_eq]
  constructor
  · rintro (⟨c, ⟨h1, h2⟩, rfl⟩ | h)
    · exact .inl ⟨c, h1, rfl⟩
    · exact .inr h.symm
  · rintro (⟨c, h1, rfl⟩ | h)
    · by_cases hc : c.id = a
      · exact .inr hc.symm
      · exact .inl ⟨c, ⟨h1, hc⟩, rfl⟩
    · exact .inr h.symm

/-- R15, R16, R17: what entering CLOSING does to the record, the compares and the Edge Unit. -/
theorem enterClosing_spec (seq : Seq) (trail : Pos) (st : Station) (hd : st.seqsDistinct) {r : Record}
    (hr : st.record seq = some r) :
    (∃ x, (enterClosing seq trail st).record seq = some x ∧ (x.band.state = .closing ∨ x.band.state = .closed) ∧
      x.band.lead = r.band.lead ∧ x.band.trail = some trail ∧
      x.band.summary.overlength = r.band.summary.overlength) ∧
    (∀ id, (enterClosing seq trail st).stores id = ((st.stores id && id != .sample && id != .overlength) ||
      (id == .lag seq && !st.position.reached (trail + counts st.shared.lag)))) ∧
    (enterClosing seq trail st).edge = st.edge := by
  have hf : ∀ b : Bool, EdgeFrame st (updateBand seq
      (fun x => { x with state := .closing, trail := some trail, lagPassed := b })
      (dropCompare .overlength (dropCompare .sample st))) := fun b =>
    ((dropCompare_edgeFrame _ st).trans (dropCompare_edgeFrame _ _)).trans (updateBand_edgeFrame _ _ _)
  unfold enterClosing
  simp only
  set passed := st.position.reached (trail + counts st.shared.lag) with hp
  set b := updateBand seq (fun x => { x with state := .closing, trail := some trail, lagPassed := passed })
    (dropCompare .overlength (dropCompare .sample st)) with hb
  have hrec := record_updateRecord (st := dropCompare .overlength (dropCompare .sample st)) (s := seq)
    (fun x => { x with band := { x.band with state := .closing, trail := some trail, lagPassed := passed } })
    (fun _ => rfl) hr
  change b.record seq = _ at hrec
  have hbd : b.seqsDistinct := (hf passed).distinct hd
  have key : ∀ c : Station, c.seqsDistinct → c.table = b.table → c.edge = st.edge →
      (∀ id, c.stores id = ((st.stores id && id != .sample && id != .overlength) || (id == .lag seq && !passed))) →
      (∃ x, (testClosing seq c).record seq = some x ∧ (x.band.state = .closing ∨ x.band.state = .closed) ∧
        x.band.lead = r.band.lead ∧ x.band.trail = some trail ∧
        x.band.summary.overlength = r.band.summary.overlength) ∧
      (∀ id, (testClosing seq c).stores id =
        ((st.stores id && id != .sample && id != .overlength) || (id == .lag seq && !passed))) ∧
      (testClosing seq c).edge = st.edge := by
    intro c hcd hct hce hcs
    have hcr : c.record seq = b.record seq := by simp [Station.record, hct]
    have ht := testClosing_takeStep seq c hcd
    have hfr := testClosing_frame seq c
    obtain ⟨y, hy, hs⟩ := ht.record (hcr.trans hrec)
    refine ⟨⟨y, hy, ?_, hs.lead, hs.trail, hs.overlength⟩, ?_, ?_⟩
    · rcases hs.state with h | ⟨_, h⟩
      · exact .inl h
      · exact .inr h
    · intro id; rw [HeadFrame.stores hfr, hcs]
    · rw [hfr.edge, hce]
  have hbs : ∀ id, b.stores id = (st.stores id && id != .sample && id != .overlength) := by
    intro id
    rw [show b.stores id = (dropCompare .overlength (dropCompare .sample st)).stores id from rfl, stores_drop, stores_drop]
  split
  · rename_i hh
    refine key b hbd rfl rfl ?_
    intro id; rw [hbs, hh]; simp
  · rename_i hh
    refine key _ ((storeCompare_edgeFrame _ _ _ _).distinct hbd) rfl rfl ?_
    intro id; rw [stores_store, hbs]; simp [hh]

/-- A due compare of a block other than the frozen Edge Unit is removed and acted on (R35). -/
theorem takeDue_acts (id : CompareId) (st : Station) (h : st.position.isDue id = true)
    (hf : CompareId.owner id ≠ .edge ∨ st.edge.frozen = false) :
    takeDue id st = compareEffect id (dropCompare id st) := by
  unfold takeDue takeCompare
  rw [if_pos h, if_neg]
  rintro ⟨h1, h2⟩
  rcases hf with hf | hf
  · exact hf h1
  · rw [hf] at h2; cases h2

end Sys2Proof.Machine
end

