-- ==== Sys2Proof/Laws/Keeps.lean ====
section
/-! SUPPORT. That the operations keep the invariants of Safety.lean, each from itself alone: the capacities, the RESULT_READY
level, the probe's table, the round in flight with its capture, and one OPEN band in a table of distinct records. -/

namespace Sys2Proof.Machine

/-- The invariants that `b` meets where `a` meets them. -/
structure Keeps (a b : Station) : Prop where
  fits : a.fits → b.fits
  ready : a.resultReadyLevel → b.resultReadyLevel
  probe : a.probe.fits → b.probe.fits
  round : a.captureFits → a.roundFits → b.captureFits ∧ b.roundFits
  bands : a.seqsDistinct → a.oneOpenBand → b.seqsDistinct ∧ b.oneOpenBand

theorem Keeps.refl (a : Station) : Keeps a a := ⟨id, id, id, fun h k => ⟨h, k⟩, fun h k => ⟨h, k⟩⟩

theorem Keeps.trans {a b c : Station} (h : Keeps a b) (k : Keeps b c) : Keeps a c :=
  ⟨fun x => k.fits (h.fits x), fun x => k.ready (h.ready x), fun x => k.probe (h.probe x),
    fun x y => k.round (h.round x y).1 (h.round x y).2, fun x y => k.bands (h.bands x y).1 (h.bands x y).2⟩

/-- What a station must share with another to keep the invariants other than that of the bands. -/
theorem Keeps.ofParts {a b : Station} (ht : b.table.length ≤ a.table.length)
    (hf : b.scan.fifo.length ≤ a.scan.fifo.length)
    (hp : b.engine.requests.purge.subjects.length ≤ a.engine.requests.purge.subjects.length)
    (hport : b.port.fifo = a.port.fifo ∧ b.port.watermark = a.port.watermark ∧
      b.port.causes.resultReady = a.port.causes.resultReady)
    (hprobe : a.probe.fits → b.probe.fits)
    (hround : a.captureFits → a.roundFits → b.captureFits ∧ b.roundFits)
    (hbands : a.seqsDistinct → a.oneOpenBand → b.seqsDistinct ∧ b.oneOpenBand) : Keeps a b := by
  refine ⟨?_, ?_, hprobe, hround, hbands⟩
  · rintro ⟨h1, h2, h3, h4⟩
    exact ⟨ht.trans h1, hf.trans h2, hport.1 ▸ h3, hp.trans h4⟩
  · intro h
    unfold Station.resultReadyLevel
    rw [hport.1, hport.2.1, hport.2.2]
    exact h

/-- A change of parts that no invariant of `Keeps` reads. -/
theorem Keeps.ofSame {a b : Station} (ht : b.table = a.table) (hf : b.scan.fifo = a.scan.fifo)
    (hp : b.engine.requests.purge = a.engine.requests.purge) (hport : b.port.fifo = a.port.fifo ∧
      b.port.watermark = a.port.watermark ∧ b.port.causes.resultReady = a.port.causes.resultReady)
    (hprobe : b.probe = a.probe) (hc : b.position.capture = a.position.capture)
    (hr : b.line.round = a.line.round) (hl : b.line.state = a.line.state) : Keeps a b := by
  refine Keeps.ofParts (by rw [ht]) (by rw [hf]) (by rw [hp]) hport (by rw [hprobe]; exact id) ?_ ?_
  · intro h k
    refine ⟨?_, ?_⟩
    · unfold Station.captureFits; rw [hc, hr]; exact h
    · unfold Station.roundFits; rw [hr, hl]; exact k
  · intro h k
    refine ⟨?_, ?_⟩
    · unfold Station.seqsDistinct; rw [ht]; exact h
    · unfold Station.oneOpenBand; rw [ht]; exact k

/-- How many bands are OPEN. -/
def Station.openCount (st : Station) : Nat := st.table.countP fun r => r.band.state == .opened

theorem TakeStep.openCount {a b : Station} (h : TakeStep a b) : b.openCount = a.openCount := by
  have : ∀ {l m : List Record}, List.Forall₂ RecordStep l m →
      m.countP (fun r => r.band.state == .opened) = l.countP (fun r => r.band.state == .opened) := by
    intro l m hf
    induction hf with
    | nil => rfl
    | @cons x y _ _ hx _ ih =>
      simp only [List.countP_cons, ih]
      rcases hx.state with h | ⟨h1, h2⟩
      · rw [h]
      · simp [h1, h2]
  exact this h.records

theorem length_of_identities {a b : Station} (h : b.table.map Record.identity = a.table.map Record.identity) :
    b.table.length = a.table.length := by
  simpa using congrArg List.length h

/-- An operation of the Edge Unit keeps the invariants if it adds no report and no second OPEN band. -/
theorem Keeps.ofEdge {a b : Station} (h : EdgeFrame a b) (hf : b.scan.fifo.length ≤ a.scan.fifo.length)
    (ho : a.seqsDistinct → a.oneOpenBand → b.oneOpenBand) : Keeps a b := by
  refine Keeps.ofParts (length_of_identities h.identities).le hf (by rw [h.purge]) (by simp [h.port])
    (by rw [h.probe]; exact id) ?_ fun hd hb => ⟨h.distinct hd, ho hd hb⟩
  intro hc hr
  refine ⟨?_, ?_⟩
  · unfold Station.captureFits; rw [h.capture, h.line]; exact hc
  · unfold Station.roundFits; rw [h.line]; exact hr

theorem completeRecord_fifo (own : Bool) (s : Seq) (st : Station) : (completeRecord own s st).scan = st.scan := by
  unfold completeRecord
  split
  · rfl
  · simp only
    split
    · cases own <;> simp only [if_true, if_false, Bool.false_eq_true] <;> split <;> rfl
    · rfl

theorem testClosing_scan (s : Seq) (st : Station) : (testClosing s st).scan = st.scan := by
  unfold testClosing
  split
  · rfl
  · split
    · unfold settleBand; rw [completeRecord_fifo]; rfl
    · rfl

theorem testAllClosing_scan (st : Station) : (testAllClosing st).scan = st.scan := by
  unfold testAllClosing
  have : ∀ (l : List Seq) (x : Station), (l.foldl (fun s q => testClosing q s) x).scan = x.scan := by
    intro l
    induction l with
    | nil => exact fun _ => rfl
    | cons q rest ih => intro x; rw [List.foldl_cons, ih, testClosing_scan]
  exact this _ st

theorem headTakes_fifo (st : Station) : (headTakes st).scan.fifo.length ≤ st.scan.fifo.length := by
  have : ∀ n x, (headLoop n x).scan.fifo.length ≤ x.scan.fifo.length := by
    intro n
    induction n with
    | zero => exact fun x => le_refl _
    | succ n ih =>
      intro x
      have h := (headTake_takeStep x).fifo
      simp only [headLoop]
      split
      · refine (ih _).trans ?_
        rw [testAllClosing_scan]; exact h
      · rw [testAllClosing_scan]; exact h
  exact this _ st

theorem headTakes_keeps (st : Station) : Keeps st (headTakes st) :=
  Keeps.ofEdge (headTakes_edgeFrame st) (headTakes_fifo st) fun hd ho => by
    have h := (headTakes_takeStep st hd).openCount
    unfold Station.openCount at h
    unfold Station.oneOpenBand
    rw [h]
    exact ho

theorem testClosing_keeps (s : Seq) (st : Station) : Keeps st (testClosing s st) :=
  Keeps.ofEdge (testClosing_frame s st).toEdge (by rw [testClosing_scan]) fun hd ho => by
    have h := (testClosing_takeStep s st hd).openCount
    unfold Station.openCount at h
    unfold Station.oneOpenBand
    rw [h]
    exact ho

theorem storeCompare_keeps (id : CompareId) (pos : Pos) (g : Progress) (st : Station) :
    Keeps st (storeCompare id pos g st) := Keeps.ofSame rfl rfl rfl ⟨rfl, rfl, rfl⟩ rfl rfl rfl rfl

theorem dropCompare_keeps (id : CompareId) (st : Station) : Keeps st (dropCompare id st) :=
  Keeps.ofSame rfl rfl rfl ⟨rfl, rfl, rfl⟩ rfl rfl rfl rfl

theorem discardPending_keeps (st : Station) : Keeps st (discardPending st) :=
  Keeps.ofSame rfl rfl rfl ⟨rfl, rfl, rfl⟩ rfl rfl rfl rfl

theorem releaseBlank_keeps (st : Station) : Keeps st (releaseBlank st) :=
  Keeps.ofSame rfl rfl rfl ⟨rfl, rfl, rfl⟩ rfl rfl rfl rfl

theorem ofEdgeUnit_keeps (e : EdgeUnit) (st : Station) : Keeps st { st with edge := e } :=
  Keeps.ofSame rfl rfl rfl ⟨rfl, rfl, rfl⟩ rfl rfl rfl rfl

theorem followAbsence_keeps (st : Station) : Keeps st (followAbsence st) := by
  unfold followAbsence
  split
  · exact dropCompare_keeps _ st
  · simp only
    split
    · split
      · exact storeCompare_keeps _ _ _ st
      · exact releaseBlank_keeps st
    · exact storeCompare_keeps _ _ _ st

theorem enterBlanked_keeps (st : Station) : Keeps st (enterBlanked st) := by
  have h := (discardPending_keeps st).trans (dropCompare_keeps .bridging _)
  unfold enterBlanked
  simp only
  split
  · exact h
  · exact (h.trans (ofEdgeUnit_keeps _ _)).trans (followAbsence_keeps _)

/-- An update that opens no band. -/
theorem countP_map_le {p : Record → Bool} {f : Record → Record} (l : List Record)
    (hf : ∀ r ∈ l, p (f r) = true → p r = true) : (l.map f).countP p ≤ l.countP p := by
  rw [List.countP_map]
  exact List.countP_mono_left hf

theorem map_if_seq (s : Seq) (f : Record → Record) (hs : ∀ r, (f r).seq = r.seq) (l : List Record) :
    (l.map fun r => if r.seq = s then f r else r).map (·.seq) = l.map (·.seq) := by
  rw [List.map_map]
  apply List.map_congr_left
  intro r _
  simp only [Function.comp]
  split
  · exact hs r
  · rfl

/-- A table changed record by record, with no sequence number changed and no band opened. -/
theorem Keeps.ofTable (st : Station) (f : Record → Record) (hs : ∀ r, (f r).seq = r.seq)
    (ho : ∀ r ∈ st.table, (f r).band.state = .opened → r.band.state = .opened) :
    Keeps st { st with table := st.table.map f } := by
  refine Keeps.ofParts (by simp) le_rfl le_rfl ⟨rfl, rfl, rfl⟩ id (fun h k => ⟨h, k⟩) fun hd hb => ⟨?_, ?_⟩
  · unfold Station.seqsDistinct
    rw [List.map_map]
    have : ((fun x : Record => x.seq) ∘ f) = fun x => x.seq := funext hs
    rw [this]
    exact hd
  · refine (countP_map_le _ ?_).trans hb
    intro r hr h
    simp only [beq_iff_eq] at h ⊢
    exact ho r hr h

theorem updateRecord_keeps (s : Seq) (f : Record → Record) (hs : ∀ r, (f r).seq = r.seq) (st : Station)
    (ho : ∀ r ∈ st.table, (f r).band.state = .opened → r.band.state = .opened) : Keeps st (updateRecord s f st) := by
  refine Keeps.ofTable st (fun r => if r.seq = s then f r else r) ?_ ?_
  · intro r; split
    · exact hs r
    · rfl
  · intro r hr
    split
    · exact ho r hr
    · exact id

/-- A change of the requests that adds no PURGE ONE request. -/
theorem withRequests_keeps (f : Requests → Requests) (st : Station)
    (hp : (f st.engine.requests).purge.subjects.length ≤ st.engine.requests.purge.subjects.length) :
    Keeps st (withRequests f st) :=
  Keeps.ofParts le_rfl le_rfl hp ⟨rfl, rfl, rfl⟩ id (fun h k => ⟨h, k⟩) fun h k => ⟨h, k⟩

theorem enterClosing_keeps (s : Seq) (trail : Pos) (st : Station) : Keeps st (enterClosing s trail st) := by
  have h : ∀ b : Bool, Keeps st (updateBand s
      (fun x => { x with state := .closing, trail := some trail, lagPassed := b })
      (dropCompare .overlength (dropCompare .sample st))) := fun b =>
    ((dropCompare_keeps _ st).trans (dropCompare_keeps _ _)).trans
      (updateRecord_keeps s (fun r => { r with band := { r.band with
        state := .closing, trail := some trail, lagPassed := b } }) (fun _ => rfl) _ (by intro r _ h; simp at h))
  unfold enterClosing
  simp only
  refine Keeps.trans ?_ (testClosing_keeps s _)
  split
  · exact h _
  · exact (h _).trans (storeCompare_keeps _ _ _ _)

theorem forceOverlength_keeps (st : Station) : Keeps st (forceOverlength st) := by
  unfold forceOverlength
  split
  · exact Keeps.refl st
  · rename_i r _
    exact (((updateRecord_keeps r.seq (fun r => { r with band := { r.band with
        summary := { r.band.summary with overlength := true } } }) (fun _ => rfl) st (fun _ _ h => h)).trans
      (enterBlanked_keeps _)).trans (enterClosing_keeps _ _ _)).trans (headTakes_keeps _)

theorem storeSample_keeps (st : Station) : Keeps st (storeSample st) := by
  unfold storeSample
  split
  · exact dropCompare_keeps _ st
  · exact storeCompare_keeps _ _ _ st

/-- Of distinct records, an update of one changes the number with a property by at most one. -/
theorem countP_update_le {p : Record → Bool} {s : Seq} {f : Record → Record} :
    ∀ l : List Record, (l.map (·.seq)).Nodup → (∀ r ∈ l, p r = false) →
      (l.map fun r => if r.seq = s then f r else r).countP p ≤ 1 := by
  intro l
  induction l with
  | nil => intro _ _; simp
  | cons x rest ih =>
    intro hd hp
    rw [List.map_cons, List.nodup_cons] at hd
    have hrest : ∀ r ∈ rest, p r = false := fun r hr => hp r (List.mem_cons_of_mem _ hr)
    rw [List.map_cons, List.countP_cons]
    by_cases hx : x.seq = s
    · have h0 : (rest.map fun r => if r.seq = s then f r else r) = rest := by
        refine (List.map_congr_left fun r hr => ?_).trans (List.map_id _)
        have : r.seq ≠ s := fun h => hd.1 (List.mem_map.2 ⟨r, hr, h.trans hx.symm⟩)
        simp [this]
      rw [h0, List.countP_eq_zero.2 (fun r hr => by simp [hrest r hr])]
      simp only [hx, if_true]
      split <;> omega
    · have hpx : p x = false := hp x (List.mem_cons_self ..)
      simp only [hx, if_false, hpx, Bool.false_eq_true, Nat.add_zero]
      exact ih hd.2 hrest

/-- A band opens where none is OPEN. -/
theorem openBand_keeps (s : Seq) (e : Pos) (st : Station) (ho : st.openRecord = none) : Keeps st (openBand s e st) := by
  refine Keeps.ofEdge (openBand_edgeFrame s e st) le_rfl fun hd _ => ?_
  refine countP_update_le st.table hd fun r hr => ?_
  simpa using List.find?_eq_none.1 ho r hr

theorem attachEdge_keeps (edge : PendingEdge) (s : Seq) (st : Station) (ho : st.openRecord = none) :
    Keeps st (attachEdge edge s st) := by
  have h := openBand_keeps s edge.rise st ho
  unfold attachEdge
  simp only
  split
  · have hs := h.trans (storeSample_keeps _)
    split
    · split
      · exact (hs.trans (storeCompare_keeps _ _ _ _)).trans (headTakes_keeps _)
      · exact hs.trans (forceOverlength_keeps _)
    · exact (hs.trans (storeCompare_keeps _ _ _ _)).trans (headTakes_keeps _)
  · split
    · refine ((h.trans ?_).trans (enterClosing_keeps _ _ _)).trans (headTakes_keeps _)
      exact updateRecord_keeps s (fun r => { r with band := { r.band with
        summary := { r.band.summary with overlength := true } } }) (fun _ => rfl) _ (fun _ _ h => h)
    · exact (h.trans (enterClosing_keeps _ _ _)).trans (headTakes_keeps _)

theorem raiseOpen_keeps (st : Station) : Keeps st (raiseOpen st) := withRequests_keeps _ st le_rfl

theorem attachTest_keeps (st : Station) : Keeps st (attachTest st) := by
  have h : Keeps st { st with edge := { st.edge with testDeferred := false } } := ofEdgeUnit_keeps _ st
  unfold attachTest
  simp only
  split
  · exact h
  · split
    · split
      · split
        · rename_i ha
          refine h.trans (attachEdge_keeps _ _ _ ?_)
          simp only [attaches, Bool.and_eq_true] at ha
          exact Option.isNone_iff_eq_none.1 ha.1.2
        · exact h.trans (raiseOpen_keeps _)
      · exact h.trans (raiseOpen_keeps _)
    · exact h

theorem deferredTest_keeps (st : Station) : Keeps st (deferredTest st) := by
  unfold deferredTest
  split
  · exact attachTest_keeps st
  · exact Keeps.refl st

theorem completeRecord_keeps (own : Bool) (s : Seq) (st : Station) : Keeps st (completeRecord own s st) := by
  unfold completeRecord
  split
  · exact Keeps.refl st
  · simp only
    split
    · have h1 : Keeps st (updateRecord s
          (fun x => { (if x.frozen then x else gradeRecord st.shared x) with phase := .tallied }) st) := by
        refine updateRecord_keeps s _ ?_ st ?_
        · intro x; cases x.frozen <;> rfl
        · intro x _ h; cases hx : x.frozen <;> simp only [hx, if_true, if_false, Bool.false_eq_true] at h <;> exact h
      have hdt : ∀ x, Keeps x (withRequests (Requests.dropTally s) x) := fun x => withRequests_keeps _ x le_rfl
      have hrv : ∀ b x, Keeps x (withRequests (Requests.raiseVerdict s b) x) := fun b x =>
        withRequests_keeps _ x (by rw [Requests.raiseVerdict_purge])
      cases own <;> simp only [if_true, if_false, Bool.false_eq_true] <;> split
      · exact h1.trans (hdt _)
      · exact (h1.trans (hdt _)).trans (hrv _ _)
      · exact h1
      · exact h1.trans (hrv _ _)
    · exact Keeps.refl st

theorem foldl_keeps {α : Type} (f : Station → α → Station) (hf : ∀ st x, Keeps st (f st x)) (l : List α) :
    ∀ st, Keeps st (l.foldl f st) := by
  induction l with
  | nil => exact Keeps.refl
  | cons x rest ih => exact fun st => (hf st x).trans (ih (f st x))

theorem completeAll_keeps (st : Station) : Keeps st (completeAll st) :=
  foldl_keeps _ (fun s q => completeRecord_keeps false q s) _ st

/-- The end of an own band in a state other than OPEN. -/
theorem settleBand_keeps (state : BandState) (hs : state ≠ .opened) (entry : Record → Entry) (s : Seq) (st : Station) :
    Keeps st (settleBand state entry s st) := by
  unfold settleBand
  refine Keeps.trans (Keeps.trans ?_ (withRequests_keeps _ _ (by rw [Requests.raiseTally_purge])))
    (completeRecord_keeps true s _)
  exact updateRecord_keeps s (fun r => { r.storeEntry st.start.index (entry r) with
    band := { r.band with state := state } }) (fun _ => rfl) st (fun _ _ h => absurd h hs)

/-! ## Removal and the Result Port -/

theorem offer_keeps (r : ResultRecord) (p : ResultPort) :
    (p.fifo.length ≤ 16 → (p.offer r).fifo.length ≤ 16) ∧
    (p.causes.resultReady = decide (p.watermark.toNat ≤ p.fifo.length) →
      (p.offer r).causes.resultReady = decide ((p.offer r).watermark.toNat ≤ (p.offer r).fifo.length)) := by
  unfold ResultPort.offer
  split
  · rename_i h
    refine ⟨fun _ => ?_, fun _ => rfl⟩
    have : (p.fifo ++ [{ r with lost := p.lost }]).length ≤ 16 := by
      rw [List.length_append]; exact h
    exact this
  · exact ⟨id, id⟩

theorem dropOne_length (s : Seq) (p : PurgeSet) : (p.dropOne s).subjects.length ≤ p.subjects.length := by
  cases p with
  | none => exact le_rfl
  | all => exact le_rfl
  | opened => exact le_rfl
  | ones l =>
    simp only [PurgeSet.dropOne, PurgeSet.ofOnes]
    split
    · exact Nat.zero_le _
    · exact List.length_filter_le _ _

theorem removeRecord_keeps (outcome : Verdict) (mark : SheetFlags → SheetFlags) (s : Seq) (st : Station) :
    Keeps st (removeRecord outcome mark s st) := by
  unfold removeRecord
  split
  · exact Keeps.refl st
  · rename_i r _
    simp only
    set st1 : Station := { st with
      table := st.table.filter fun x => x.seq != s
      position := st.position.dropRecord s
      engine := { st.engine with requests := st.engine.requests.dropSubject s } } with hst1
    have h1 : Keeps st st1 := by
      refine Keeps.ofParts (List.length_filter_le _ _) le_rfl (dropOne_length s _) ⟨rfl, rfl, rfl⟩ id
        (fun h k => ⟨h, k⟩) fun hd hb => ⟨?_, ?_⟩
      · exact List.Nodup.sublist (List.Sublist.map _ List.filter_sublist) hd
      · exact (List.Sublist.countP_le List.filter_sublist).trans hb
    have h2 : Keeps st (if r.band.state = .opened then
        enterBlanked (dropCompare .overlength (dropCompare .sample st1)) else st1) := by
      split
      · exact ((h1.trans (dropCompare_keeps _ _)).trans (dropCompare_keeps _ _)).trans (enterBlanked_keeps _)
      · exact h1
    refine h2.trans ?_
    generalize (if r.band.state = .opened then
        enterBlanked (dropCompare .overlength (dropCompare .sample st1)) else st1) = x
    have ho := offer_keeps (resultOf st.shared outcome { r with flags := mark r.flags }) x.port
    refine ⟨?_, ?_, ?_, fun h k => ⟨h, k⟩, fun h k => ⟨h, k⟩⟩
    · rintro ⟨f1, f2, f3, f4⟩
      exact ⟨f1, f2, ho.1 f3, f4⟩
    · exact fun h => ho.2 h
    · intro h
      refine ⟨h.1, h.2.1, ?_, h.2.2.2⟩
      show (if x.probe.target = some (.held s) then some .lost else x.probe.target).isSome = true ↔
        x.probe.state = .sampling
      rw [← h.2.2.1]
      by_cases ht : x.probe.target = some (.held s) <;> simp [ht]

theorem closeWindow_keeps (st : Station) : Keeps st (closeWindow st) :=
  Keeps.ofSame rfl rfl rfl ⟨rfl, rfl, rfl⟩ rfl rfl rfl rfl

theorem gateCommand_keeps (r : Record) (outcome : Verdict) (st : Station) : Keeps st (gateCommand r outcome st).1 := by
  have h : ∀ b e, Keeps st (storeCompare .windowEnd e .waiting { st with outlet := { window := some ⟨b, e⟩ } }) :=
    fun _ _ => Keeps.ofSame rfl rfl rfl ⟨rfl, rfl, rfl⟩ rfl rfl rfl rfl
  unfold gateCommand
  simp only
  split
  · exact Keeps.refl st
  · split
    · exact Keeps.refl st
    · split
      · exact (h _ _).trans (closeWindow_keeps _)
      · exact h _ _

theorem dispatch_keeps (s : Seq) (st : Station) : Keeps st (dispatch s st) := by
  unfold dispatch
  split
  · exact Keeps.refl st
  · simp only
    split
    · refine Keeps.trans (Keeps.trans ?_ (removeRecord_keeps _ _ s _)) (headTakes_keeps _)
      split
      · exact gateCommand_keeps _ _ st
      · exact Keeps.refl st
    · exact (removeRecord_keeps _ _ s st).trans (headTakes_keeps _)

/-! ## Compares -/

theorem takeEmpty_keeps (s : Seq) (st : Station) : Keeps st (takeEmpty s st) := by
  unfold takeEmpty
  split
  · exact Keeps.refl st
  · split
    · exact settleBand_keeps _ (by decide) _ s st
    · exact Keeps.refl st

theorem takeDecision_keeps (s : Seq) (st : Station) : Keeps st (takeDecision s st) := by
  have h : Keeps st (withRequests (Requests.markVerdict s false) st) := withRequests_keeps _ st le_rfl
  have hv : ∀ x, Keeps x (withRequests (Requests.raiseVerdict s false) x) := fun x =>
    withRequests_keeps _ x (by rw [Requests.raiseVerdict_purge])
  unfold takeDecision
  split
  · exact Keeps.refl st
  · simp only
    split
    · refine (h.trans ?_).trans (hv _)
      exact updateRecord_keeps s (fun x => { x with
        verdict := some .manual, frozen := true, flags := { x.flags with incomplete := true } }) (fun _ => rfl) _
        (fun _ _ h => h)
    · refine (h.trans ?_).trans (hv _)
      exact updateRecord_keeps s (fun x => { x with frozen := true }) (fun _ => rfl) _ (fun _ _ h => h)
    · refine h.trans ?_
      exact updateRecord_keeps s (fun x => { x with frozen := true }) (fun _ => rfl) _ (fun _ _ h => h)

theorem takeLag_keeps (s : Seq) (st : Station) : Keeps st (takeLag s st) := by
  have h : Keeps st (testClosing s (updateBand s (fun b => { b with lagPassed := true }) st)) :=
    (updateRecord_keeps s (fun r => { r with band := { r.band with lagPassed := true } }) (fun _ => rfl) st
      (fun _ _ h => h)).trans (testClosing_keeps s _)
  unfold takeLag
  simp only
  split
  · exact h.trans (headTakes_keeps _)
  · exact h

theorem takeSample_keeps (st : Station) : Keeps st (takeSample st) := by
  unfold takeSample
  split
  · exact dropCompare_keeps _ st
  · simp only
    split
    · refine (storeSample_keeps st).trans ?_
      rename_i hs
      refine Keeps.ofParts le_rfl le_rfl le_rfl ⟨rfl, rfl, rfl⟩ ?_ (fun h k => ⟨h, k⟩) fun h k => ⟨h, k⟩
      rintro ⟨h1, h2, h3, h4⟩
      refine ⟨?_, ?_, ?_, ?_⟩
      · rw [hs] at h1; simpa using h1
      · simp
      · simp
      · simp
    · exact storeSample_keeps st

theorem takeQualification_keeps (st : Station) : Keeps st (takeQualification st) := by
  unfold takeQualification
  split
  · simp only
    split
    · exact ofEdgeUnit_keeps _ st
    · exact (ofEdgeUnit_keeps _ st).trans (attachTest_keeps _)
  · exact Keeps.refl st

theorem takeBridging_keeps (st : Station) : Keeps st (takeBridging st) := by
  unfold takeBridging
  split
  · simp only
    split
    · exact ((ofEdgeUnit_keeps _ st).trans (enterClosing_keeps _ _ _)).trans (headTakes_keeps _)
    · exact ofEdgeUnit_keeps _ st
  · exact Keeps.refl st

theorem compareEffect_keeps (id : CompareId) (st : Station) : Keeps st (compareEffect id st) := by
  cases id with
  | qualification => exact takeQualification_keeps st
  | bridging => exact takeBridging_keeps st
  | blankRelease => exact releaseBlank_keeps st
  | overlength => exact forceOverlength_keeps st
  | empty s => exact takeEmpty_keeps s st
  | lag s => exact takeLag_keeps s st
  | decision s => exact takeDecision_keeps s st
  | gate s => exact dispatch_keeps s st
  | sample => exact takeSample_keeps st
  | windowEnd => exact closeWindow_keeps st

theorem takeCompare_keeps (id : CompareId) (st : Station) : Keeps st (takeCompare id st) := by
  unfold takeCompare
  split
  · exact Keeps.ofSame rfl rfl rfl ⟨rfl, rfl, rfl⟩ rfl rfl rfl rfl
  · exact (dropCompare_keeps id st).trans (compareEffect_keeps id _)

theorem takeDue_keeps (id : CompareId) (st : Station) : Keeps st (takeDue id st) := by
  unfold takeDue
  split
  · exact takeCompare_keeps id st
  · exact Keeps.refl st

theorem takeOrdered_keeps (order : List CompareId) : ∀ st, Keeps st (takeOrdered order st) := by
  induction order with
  | nil => exact Keeps.refl
  | cons id rest ih =>
    intro st
    simp only [takeOrdered]
    refine Keeps.trans ?_ (ih _)
    split
    · exact takeCompare_keeps id st
    · exact Keeps.refl st

theorem takeRest_keeps (n : Nat) : ∀ st, Keeps st (takeRest n st) := by
  induction n with
  | zero => exact Keeps.refl
  | succ n ih =>
    intro st
    simp only [takeRest]
    split
    · exact Keeps.refl st
    · exact (takeCompare_keeps _ st).trans (ih _)

theorem takeAllDue_keeps (order : List CompareId) (st : Station) : Keeps st (takeAllDue order st) :=
  (takeOrdered_keeps order st).trans (takeRest_keeps _ _)

theorem actOnKept_keeps (n : Nat) : ∀ st, Keeps st (actOnKept n st) := by
  induction n with
  | zero => exact Keeps.refl
  | succ n ih =>
    intro st
    simp only [actOnKept]
    split
    · exact Keeps.refl st
    · exact ((dropCompare_keeps _ st).trans (compareEffect_keeps _ _)).trans (ih _)

/-! ## Presence and encoder steps -/

theorem takeChange_keeps (st : Station) : Keeps st (takeChange st) := by
  have hr : ∀ e, Keeps st (riseAt e st) := by
    intro e
    have h : Keeps st (storeCompare .qualification (e + counts st.shared.qualification) .waiting
        { discardPending st with
          edge := { (discardPending st).edge with
            state := .rising, pending := some { rise := e, qualified := false, fall := none } } }) :=
      ((discardPending_keeps st).trans (ofEdgeUnit_keeps _ _)).trans (storeCompare_keeps _ _ _ _)
    unfold riseAt
    simp only
    split
    · exact h.trans (headTakes_keeps _)
    · exact h
  unfold takeChange
  split <;> try exact Keeps.refl st
  · exact hr _
  · exact ((discardPending_keeps st).trans (ofEdgeUnit_keeps _ _)).trans (headTakes_keeps _)
  · exact (ofEdgeUnit_keeps { st.edge with state := .falling, fall := some st.position.counter } st).trans
      (storeCompare_keeps _ _ _ _)
  · exact (dropCompare_keeps .bridging st).trans (ofEdgeUnit_keeps _ _)
  · split
    · exact (ofEdgeUnit_keeps { st.edge with absence := none } st).trans (followAbsence_keeps _)
    · exact Keeps.refl st
  · split
    · exact (ofEdgeUnit_keeps { st.edge with absence := some st.position.counter } st).trans (followAbsence_keeps _)
    · exact Keeps.refl st

theorem presenceInput_keeps (held : Bool) (st : Station) : Keeps st (presenceInput held st) := by
  have h : Keeps st { st with edge := { st.edge with pin := !st.edge.pin } } := ofEdgeUnit_keeps _ st
  unfold presenceInput
  split
  · exact Keeps.refl st
  · simp only
    split
    · exact h.trans (takeChange_keeps _)
    · exact h

theorem resumeEdge_keeps (st : Station) : Keeps st (resumeEdge st) := by
  unfold resumeEdge
  split
  · simp only
    split
    · exact ((ofEdgeUnit_keeps { st.edge with frozen := false } st).trans (takeChange_keeps _)).trans
        (actOnKept_keeps _ _)
    · exact ofEdgeUnit_keeps _ st
  · exact Keeps.refl st

/-- A change of the Position Unit that keeps the round capture. -/
theorem ofPosition_keeps (p : PositionUnit) (st : Station) (hc : p.capture = st.position.capture) :
    Keeps st { st with position := p } := Keeps.ofSame rfl rfl rfl ⟨rfl, rfl, rfl⟩ rfl hc rfl rfl

theorem beginPulse_capture (p : PositionUnit) : p.beginPulse.capture = p.capture := by
  unfold PositionUnit.beginPulse
  split <;> rfl

/-- Raising a cause other than RESULT_READY. -/
theorem raiseCause_keeps (c : Cause) (hc : c ≠ .resultReady) (st : Station) : Keeps st (raiseCause c st) := by
  refine Keeps.ofSame rfl rfl rfl ⟨rfl, rfl, ?_⟩ rfl rfl rfl rfl
  cases c <;> first
    | rfl
    | exact absurd rfl hc

theorem owePulse_keeps (st : Station) : Keeps st (owePulse st) := by
  unfold owePulse
  split
  · exact raiseCause_keeps .scanFault (by decide) st
  · exact ofPosition_keeps _ st (beginPulse_capture _)

theorem triggerTest_keeps (st : Station) : Keeps st (triggerTest st) := by
  unfold triggerTest
  simp only
  split
  · refine Keeps.trans (Keeps.trans ?_ (owePulse_keeps _)) (headTakes_keeps _)
    exact Keeps.ofSame rfl rfl rfl ⟨rfl, rfl, rfl⟩ rfl rfl rfl rfl
  · exact Keeps.refl st

theorem passHighWater_keeps (st : Station) : Keeps st (passHighWater st) := by
  refine Keeps.trans (Keeps.trans ?_ (triggerTest_keeps _)) (resumeEdge_keeps _)
  exact Keeps.ofSame rfl rfl rfl ⟨rfl, rfl, rfl⟩ rfl rfl rfl rfl

theorem encoderStep_fits (w k : Byte) (p : ProbeUnit) (h : p.fits) : (p.encoderStep w k).fits := by
  obtain ⟨h1, h2, h3, h4⟩ := h
  unfold ProbeUnit.encoderStep
  split
  · rename_i hs
    rw [hs] at h2 h3 h4
    exact ⟨by simp, by simpa using h2, by simpa using h3, by simpa using h4⟩
  · rename_i hs
    rw [hs] at h1 h3 h4
    refine ⟨?_, ?_, ?_, ?_⟩ <;> simp only [hs] <;> first
      | exact h1
      | exact h3
      | exact h4
      | simp
  · exact ⟨h1, h2, h3, h4⟩
  · exact ⟨h1, h2, h3, h4⟩
  · exact ⟨h1, h2, h3, h4⟩

theorem probeStep_keeps (st : Station) : Keeps st (probeStep st) :=
  Keeps.ofParts le_rfl le_rfl le_rfl ⟨rfl, rfl, rfl⟩ (encoderStep_fits _ _ _) (fun h k => ⟨h, k⟩) fun h k => ⟨h, k⟩

theorem purge_take_length (scope : PurgeScope) (p : PurgeSet) (h : p.subjects.length ≤ 4) :
    (p.take scope).1.subjects.length ≤ 4 := by
  cases scope with
  | all => cases p <;> simp [PurgeSet.take, PurgeSet.subjects]
  | opened => cases p <;> exact h
  | one s =>
    cases p with
    | none => simp [PurgeSet.take, PurgeSet.subjects]
    | all => simp [PurgeSet.take, PurgeSet.subjects]
    | opened => simp [PurgeSet.take, PurgeSet.subjects]
    | ones l =>
      have hl : l.length ≤ 4 := h
      simp only [PurgeSet.take]
      split
      · exact hl
      · split
        · rename_i hlt
          have h4 : l.length < 4 := hlt
          have : (l ++ [s]).length ≤ 4 := by simp; omega
          exact this
        · exact hl

theorem waitForOpening_keeps (scope : PurgeScope) (st : Station) : Keeps st (waitForOpening scope st) := by
  refine Keeps.ofParts (by simp) (by simp) (by simp) (by simp) (by simp) ?_ ?_
  · intro h k
    unfold Station.captureFits Station.roundFits
    simp only [waitForOpening_position, waitForOpening_round, waitForOpening_state]
    exact ⟨h, k⟩
  · intro h k
    unfold Station.seqsDistinct Station.oneOpenBand
    rw [waitForOpening_table]
    exact ⟨h, k⟩

theorem raisePurge_keeps (scope : PurgeScope) (st : Station) : Keeps st (raisePurge scope st) :=
  (waitForOpening_keeps scope st).trans
    ⟨fun h => ⟨h.1, h.2.1, h.2.2.1, purge_take_length scope _ h.2.2.2⟩, id, id, fun h k => ⟨h, k⟩, fun h k => ⟨h, k⟩⟩

theorem encoderStep_keeps (dir : Direction) (st : Station) : Keeps st (encoderStep dir st) := by
  unfold encoderStep
  refine (takeAllDue_keeps [] st).trans ?_
  generalize takeAllDue [] st = x
  cases dir with
  | forward =>
    simp only [stepForward]
    have h : Keeps x (probeStep
        { x with position := { x.position with counter := x.position.counter + 1, direction := .forward } }) :=
      Keeps.trans (b := { x with position := { x.position with
          counter := x.position.counter + 1, direction := .forward } })
        (Keeps.ofSame rfl rfl rfl ⟨rfl, rfl, rfl⟩ rfl rfl rfl rfl) (probeStep_keeps _)
    refine Keeps.trans ?_ (ofPosition_keeps _ _ rfl)
    split
    · exact h.trans (passHighWater_keeps _)
    · exact h
  | reverse =>
    simp only [stepReverse]
    have h : Keeps x (probeStep
        { x with
          position := { x.position with counter := x.position.counter - 1, direction := .reverse,
                                        reverseTravel := satAdd x.position.reverseTravel 1 }
          edge := { x.edge with frozen := true } }) :=
      Keeps.trans (b := { x with
          position := { x.position with counter := x.position.counter - 1, direction := .reverse,
                                        reverseTravel := satAdd x.position.reverseTravel 1 }
          edge := { x.edge with frozen := true } })
        (Keeps.ofSame rfl rfl rfl ⟨rfl, rfl, rfl⟩ rfl rfl rfl rfl) (probeStep_keeps _)
    split
    · exact h.trans (raisePurge_keeps _ _)
    · exact h

end Sys2Proof.Machine
end

