-- ==== Sys2Proof/Laws/KeepsRounds.lean ====
section
/-! SUPPORT. That the operations of the scan port, the probe, the line, the rounds, the start-up and the result port keep the
invariants of `Keeps` (Keeps.lean). -/

namespace Sys2Proof.Machine

theorem Keeps.ite {a b : Station} (c : Prop) [Decidable c] {f : Station → Station} (hf : ∀ x, Keeps x (f x))
    (h : Keeps a b) : Keeps a (if c then f b else b) := by
  split
  · exact h.trans (hf b)
  · exact h

/-! ## Scan port and probe -/

/-- A change of the scan unit other than a report that joins. -/
theorem ofScan_keeps (s : ScanUnit) (st : Station) (hf : s.fifo = st.scan.fifo) : Keeps st { st with scan := s } :=
  Keeps.ofSame rfl hf rfl ⟨rfl, rfl, rfl⟩ rfl rfl rfl rfl

theorem frameDriven_keeps (st : Station) : Keeps st (frameDriven st) := by
  unfold frameDriven
  split
  · exact ofScan_keeps _ st rfl
  · exact Keeps.refl st

theorem overrun_keeps (st : Station) : Keeps st (overrun st) := by
  unfold overrun
  refine Keeps.trans ?_ (raiseCause_keeps .scanFault (by decide) _)
  refine Keeps.trans (b := { st with table := st.table.map Record.markOverrun })
    (Keeps.ofTable st Record.markOverrun ?_ ?_) ?_
  · intro r; unfold Record.markOverrun; split <;> rfl
  · intro r _ h; unfold Record.markOverrun at h; split at h <;> exact h
  · exact Keeps.ofSame rfl rfl rfl ⟨rfl, rfl, rfl⟩ rfl rfl rfl rfl

theorem reportArrives_keeps (r : Report) (st : Station) : Keeps st (reportArrives r st) := by
  unfold reportArrives
  split
  · rename_i hlt
    have h : Keeps st { st with scan := { st.scan with fifo := st.scan.fifo ++ [r] } } := by
      refine ⟨?_, id, id, fun h k => ⟨h, k⟩, fun h k => ⟨h, k⟩⟩
      rintro ⟨h1, _, h3, h4⟩
      refine ⟨h1, ?_, h3, h4⟩
      show (st.scan.fifo ++ [r]).length ≤ 16
      rw [List.length_append]
      exact hlt
    simp only
    split
    · exact h.trans (headTakes_keeps _)
    · exact h
  · exact overrun_keeps st

theorem frameEnd_keeps (bits : List Bool) (st : Station) : Keeps st (frameEnd bits st) := by
  have h : Keeps st { st with scan := { st.scan with frame := .released } } := ofScan_keeps _ st rfl
  unfold frameEnd
  simp only
  split
  · exact Keeps.refl st
  · exact h
  · split
    · exact h.trans (raiseCause_keeps .scanFault (by decide) _)
    · exact h.trans (raiseCause_keeps .scanFault (by decide) _)
    · exact h.trans (reportArrives_keeps _ _)

/-- A change of the probe that keeps its table (R74). -/
theorem ofProbe_keeps (p : ProbeUnit) (st : Station) (hp : st.probe.fits → p.fits) : Keeps st { st with probe := p } :=
  Keeps.ofParts le_rfl le_rfl le_rfl ⟨rfl, rfl, rfl⟩ hp (fun h k => ⟨h, k⟩) fun h k => ⟨h, k⟩

theorem settleEnd_fits (p : ProbeUnit) (h : p.fits) : p.settleEnd.fits := by
  obtain ⟨h1, h2, h3, h4⟩ := h
  unfold ProbeUnit.settleEnd
  split
  · rename_i ht
    refine ⟨h1, h2, h3, ?_⟩
    have : p.state = .sampling := by
      by_contra hs
      rw [h4.2 hs] at ht
      cases ht
    simp [this]
  · exact ⟨h1, h2, h3, h4⟩

theorem warmUpExpiry_fits (t : Byte) (p : ProbeUnit) (h : p.fits) : (p.warmUpExpiry t).fits := by
  obtain ⟨h1, h2, h3, h4⟩ := h
  unfold ProbeUnit.warmUpExpiry
  split
  · rename_i hs
    rw [hs] at h3 h4
    exact ⟨by simp, by simp, by simpa using h3, by simpa using h4⟩
  · exact ⟨h1, h2, h3, h4⟩

theorem parkExpiry_fits (p : ProbeUnit) (h : p.fits) : p.parkExpiry.fits := by
  obtain ⟨h1, h2, h3, h4⟩ := h
  unfold ProbeUnit.parkExpiry
  split
  · rename_i hs
    rw [hs] at h1 h3 h4
    exact ⟨by simpa using h1, by simp, by simpa using h3, by simpa using h4⟩
  · exact ⟨h1, h2, h3, h4⟩

theorem sampleOver_fits (t : Byte) (p : ProbeUnit) (h : p.fits) (ht : p.timing = .conversion) :
    (p.sampleOver t).fits := by
  obtain ⟨h1, _, _, h4⟩ := h
  have hs : p.state = .sampling := by
    by_contra hs
    rw [h4.2 hs] at ht
    cases ht
  rw [hs] at h1
  have hw : p.warmTimer = none := by simpa using h1
  refine ⟨?_, ?_, ?_, ?_⟩ <;> simp [ProbeUnit.sampleOver, hw]

theorem sampleCompletion_keeps (raw : BitVec 10) (st : Station) : Keeps st (sampleCompletion raw st) := by
  unfold sampleCompletion
  split
  · rename_i ht
    have h : ∀ x : Station, x.probe = st.probe → Keeps x { x with probe := x.probe.sampleOver x.loc.parkTime } :=
      fun x hx => ofProbe_keeps _ x fun hf => sampleOver_fits _ _ hf (by rw [hx]; exact ht)
    simp only
    split
    · rename_i seq _
      have hr : Keeps st (foldReading (trimmed raw st.loc.trim) seq st) :=
        updateRecord_keeps seq (fun r => { r with band := { r.band with summary := { r.band.summary with
          moisture := some (foldMoisture (trimmed raw st.loc.trim) r.band.summary.moisture) } } }) (fun _ => rfl) st
          (fun _ _ h => h)
      have h2 := (hr.trans (h _ rfl)).trans (testClosing_keeps seq _)
      split
      · exact h2.trans (headTakes_keeps _)
      · exact h2
    · exact h st rfl
    · exact h st rfl
  · exact Keeps.refl st

/-! ## The line -/

/-- A change of the line that leaves the round in flight and its line state alone. -/
theorem ofLine_keeps (l : LineUnit) (st : Station) (hr : l.round = st.line.round)
    (hl : st.roundFits → (l.round.isSome = true → l.state = .opening ∨ l.state = .inRound) ∧
      (l.state = .inRound → l.round.isSome = true)) : Keeps st { st with line := l } := by
  refine Keeps.ofParts le_rfl le_rfl le_rfl ⟨rfl, rfl, rfl⟩ id ?_ fun h k => ⟨h, k⟩
  intro h k
  refine ⟨?_, hl k⟩
  unfold Station.captureFits
  rw [hr]
  exact h

/-- A round that ends leaves no capture, in any line state but IN_ROUND. -/
theorem endRound_keeps (l : LineUnit) (st : Station) (hr : l.round = none) (hs : l.state ≠ .inRound) :
    Keeps st { st with position := { st.position with capture := none }, line := l } := by
  refine Keeps.ofParts le_rfl le_rfl le_rfl ⟨rfl, rfl, rfl⟩ id ?_ fun h k => ⟨h, k⟩
  intro _ _
  refine ⟨?_, ?_, ?_⟩
  · simp [Station.captureFits, hr]
  · simp [hr]
  · exact fun h => absurd h hs

/-- A test that waited on a round, made once the round has gone, and the line state set after it. -/
theorem dropRound_keeps (f : LineUnit → LineUnit) (hf : ∀ l, (f l).round = l.round) (hs : ∀ l, (f l).state ≠ .inRound)
    (st : Station) : Keeps st { dropRound st with line := f (dropRound st).line } := by
  unfold dropRound
  set x : Station :=
    { st with
      position := { st.position with capture := none }
      line := { st.line with opener := false, breakSender := false, longDrive := false, roundCell := none, round := none } }
    with hx
  have hk := deferredTest_keeps x
  have he := deferredTest_edgeFrame x
  refine ⟨fun h => hk.fits h, fun h => hk.ready h, fun h => hk.probe h, fun _ _ => ⟨?_, ?_, ?_⟩, fun h k => hk.bands h k⟩
  · unfold Station.captureFits
    rw [hf, he.capture, he.line]
    rfl
  · rw [hf, he.line]; simp [hx]
  · exact fun h => absurd h (hs _)

theorem enterMute_keeps (st : Station) : Keeps st (enterMute st) := by
  unfold enterMute
  exact (dropRound_keeps (fun l => { l with state := .mute, quiet := 0 }) (fun _ => rfl) (fun _ => by simp) st).trans
    (raiseCause_keeps .lineError (by decide) _)

theorem quietJoin_keeps (st : Station) : Keeps st (quietJoin st) := by
  unfold quietJoin
  split
  · rename_i h
    refine ofLine_keeps _ st rfl fun k => ⟨fun hr => ?_, fun hc => ?_⟩
    · rcases k.1 hr with h2 | h2 <;> rw [h.1] at h2 <;> cases h2
    · cases hc
  · exact Keeps.refl st

theorem roundOpen_keeps (st : Station) : Keeps st (roundOpen st) := by
  unfold roundOpen
  split
  · exact ofLine_keeps _ st rfl fun _ => ⟨fun _ => .inl rfl, fun hc => by cases hc⟩
  · exact Keeps.refl st

theorem listen_keeps (st : Station) : Keeps st (listen st) := by
  unfold listen
  split
  · exact ofLine_keeps _ st rfl fun _ => ⟨fun _ => .inl rfl, fun hc => by cases hc⟩
  · exact Keeps.refl st

theorem openingPulseEnd_keeps (length : Nat) (st : Station) : Keeps st (openingPulseEnd length st) := by
  unfold openingPulseEnd
  split
  · rename_i h
    simp only
    split
    · split
      · exact enterMute_keeps st
      · exact ofLine_keeps _ st rfl fun _ => ⟨fun hr => by simp [h.2.1] at hr, fun hc => by cases hc⟩
    · split
      · refine Keeps.ofParts le_rfl le_rfl le_rfl ⟨rfl, rfl, rfl⟩ id ?_ fun h k => ⟨h, k⟩
        exact fun _ _ => ⟨rfl, fun _ => .inl h.1, fun _ => rfl⟩
      · exact ofLine_keeps _ st rfl fun k => k
  · exact Keeps.refl st

theorem alignmentPattern_keeps (a b c : Nat) (st : Station) : Keeps st (alignmentPattern a b c st) := by
  unfold alignmentPattern
  split
  · rename_i h
    simp only
    split
    · exact ofLine_keeps _ st rfl fun _ => ⟨fun _ => .inr rfl, fun _ => h.2⟩
    · exact enterMute_keeps st
  · exact Keeps.refl st

theorem followed_spec {st : Station} {r : Round} (h : followed st = some r) :
    st.line.state = .inRound ∧ st.line.longDrive = false ∧ st.line.round = some r := by
  unfold followed at h
  split at h
  · rename_i hc; exact ⟨hc.1, hc.2, h⟩
  · cases h

/-- A round in flight replaced by another state of it. -/
theorem withRound_keeps (x : Round) (st : Station) (h : st.line.round.isSome = true) : Keeps st (withRound x st) := by
  refine Keeps.ofParts le_rfl le_rfl le_rfl ⟨rfl, rfl, rfl⟩ id ?_ fun h k => ⟨h, k⟩
  intro hc k
  refine ⟨?_, ?_, ?_⟩
  · unfold Station.captureFits at hc ⊢
    rw [h] at hc
    exact hc
  · exact fun _ => k.1 h
  · exact fun _ => rfl

theorem kindContestEnd_keeps (peers : List (BitVec 3)) (st : Station) : Keeps st (kindContestEnd peers st) := by
  unfold kindContestEnd
  split
  · exact Keeps.refl st
  · rename_i r hr
    have hs : st.line.round.isSome = true := by rw [(followed_spec hr).2.2]; rfl
    split
    · simp only
      split
      · split
        · exact withRound_keeps _ st hs
        · exact (withRound_keeps _ st hs).trans (deferredTest_keeps _)
      · split
        · split
          · exact withRound_keeps _ st hs
          · exact (withRound_keeps _ st hs).trans (deferredTest_keeps _)
        · exact enterMute_keeps st
    · exact Keeps.refl st

theorem passEnd_keeps (peers : List (BitVec 32)) (st : Station) : Keeps st (passEnd peers st) := by
  unfold passEnd
  split
  · exact Keeps.refl st
  · rename_i r hr
    have hs : st.line.round.isSome = true := by rw [(followed_spec hr).2.2]; rfl
    split
    · exact Keeps.refl st
    · split
      · exact Keeps.refl st
      · exact withRound_keeps _ st hs

theorem ownSlot_followed {st : Station} {r : Round} (h : ownSlot st = some r) : followed st = some r := by
  unfold ownSlot at h
  split at h
  · cases h
  · rename_i x hx
    split at h
    · cases h
    · split at h
      · cases h; exact hx
      · cases h

theorem ownSlotReadBack_keeps (st : Station) : Keeps st (ownSlotReadBack st) := by
  unfold ownSlotReadBack
  split
  · exact Keeps.refl st
  · rename_i r hr
    have hs := followed_spec (ownSlot_followed hr)
    refine Keeps.ofParts le_rfl le_rfl le_rfl ⟨rfl, rfl, rfl⟩ id ?_ fun h k => ⟨h, k⟩
    intro hc _
    refine ⟨?_, fun _ => .inr hs.1, fun _ => rfl⟩
    unfold Station.captureFits at hc ⊢
    rw [hs.2.2] at hc
    exact hc

/-- After any reset every invariant of `Keeps` holds. -/
theorem resetWith_keeps (straps : Straps) (mark pin : Bool) (frame : Frame) (st : Station) :
    Keeps st (Station.resetWith straps mark pin frame) :=
  ⟨fun _ => ⟨Nat.zero_le _, Nat.zero_le _, Nat.zero_le _, Nat.zero_le _⟩, fun _ => rfl,
    fun _ => ⟨⟨nofun, nofun⟩, ⟨nofun, nofun⟩, ⟨nofun, nofun⟩, ⟨fun _ => nofun, fun _ => rfl⟩⟩,
    fun _ _ => ⟨rfl, nofun, nofun⟩, fun _ _ => ⟨List.nodup_nil, Nat.zero_le _⟩⟩

theorem ownSlotMismatch_keeps (straps : Straps) (st : Station) : Keeps st (ownSlotMismatch straps st) := by
  unfold ownSlotMismatch
  split
  · exact Keeps.refl st
  · split
    · exact resetWith_keeps _ _ _ _ _
    · exact Keeps.trans (b := { st with line := { st.line with mismatch := st.line.mismatch + 1 } })
        (ofLine_keeps _ st rfl fun k => k) (enterMute_keeps _)

theorem bodyEdge_keeps (time : Nat) (st : Station) : Keeps st (bodyEdge time st) := by
  unfold bodyEdge
  split
  · exact Keeps.refl st
  · rename_i r hr
    have hs : st.line.round.isSome = true := by rw [(followed_spec hr).2.2]; rfl
    split
    · exact withRound_keeps _ st hs
    · exact enterMute_keeps st

theorem lineError_keeps (fault : WireFault) (st : Station) : Keeps st (lineError fault st) := by
  have h : ∀ (c : Prop) [Decidable c], Keeps st (if c then enterMute st else st) := by
    intro c _
    split
    · exact enterMute_keeps st
    · exact Keeps.refl st
  cases fault with
  | openingDrive => exact h _
  | pattern => exact h _
  | edge time => exact bodyEdge_keeps time st
  | drivenReadsReleased => exact h _
  | valueWithoutOffer => exact h _

theorem longDriveStart_keeps (st : Station) : Keeps st (longDriveStart st) := by
  unfold longDriveStart
  split
  · exact ofLine_keeps _ st rfl fun k => k
  · exact Keeps.refl st

theorem longDriveReleased_keeps (st : Station) : Keeps st (longDriveReleased st) := by
  unfold longDriveReleased
  split
  · exact enterMute_keeps st
  · exact Keeps.refl st

theorem breakReceived_keeps (st : Station) : Keeps st (breakReceived st) := by
  unfold breakReceived
  simp only
  split
  · exact ofLine_keeps _ st rfl fun k => k
  · exact Keeps.refl st
  all_goals exact dropRound_keeps (fun l => { l with state := .breaking, quiet := _ }) (fun _ => rfl) (fun _ => by simp) st

theorem breakWireReleased_keeps (st : Station) : Keeps st (breakWireReleased st) := by
  unfold breakWireReleased
  split
  · rename_i h
    refine ofLine_keeps _ st rfl fun k => ⟨fun hr => ?_, fun hc => by cases hc⟩
    rcases k.1 hr with h2 | h2 <;> rw [h.1] at h2 <;> cases h2
  · exact Keeps.refl st

theorem sendBreak_keeps (st : Station) : Keeps st (sendBreak st) := by
  unfold sendBreak
  split
  · rename_i h
    refine ofLine_keeps _ st rfl fun k => ⟨fun hr => ?_, fun hc => by cases hc⟩
    rcases k.1 hr with h2 | h2 <;> rw [h] at h2 <;> cases h2
  · exact Keeps.refl st

theorem raiseRoll_keeps (st : Station) : Keeps st (raiseRoll st) := withRequests_keeps _ st le_rfl

theorem breakSendEnd_keeps (heard : Bool) (st : Station) : Keeps st (breakSendEnd heard st) := by
  unfold breakSendEnd
  split
  · rename_i h
    have hl : ∀ l : LineUnit, l.round = st.line.round → l.state ≠ .inRound → Keeps st { st with line := l } := by
      intro l hr hs
      refine ofLine_keeps l st hr fun k => ⟨fun hx => ?_, fun hc => absurd hc hs⟩
      rw [hr] at hx
      rcases k.1 hx with h2 | h2 <;> rw [h.1] at h2 <;> cases h2
    split
    · exact (hl { st.line with state := .guard, breakSender := false } rfl (by simp)).trans (raiseRoll_keeps _)
    · exact (hl { st.line with state := .mute, breakSender := false, quiet := 0 } rfl (by simp)).trans
        (raiseCause_keeps .lineError (by decide) _)
  · exact Keeps.refl st

theorem guardEnd_keeps (st : Station) : Keeps st (guardEnd st) := by
  unfold guardEnd
  split
  · rename_i h
    refine ofLine_keeps _ st rfl fun k => ⟨fun hr => ?_, fun hc => by cases hc⟩
    rcases k.1 hr with h2 | h2 <;> rw [h.1] at h2 <;> cases h2
  · exact Keeps.refl st

/-! ## Rounds -/

theorem toGuard_keeps (st : Station) : Keeps st (toGuard st) := endRound_keeps _ st rfl (by simp)

theorem completeNone_keeps (st : Station) : Keeps st (completeNone st) := by
  unfold completeNone
  split
  · exact Keeps.refl st
  · split
    · exact toGuard_keeps st
    · split
      · exact (kindContestEnd_keeps [] st).trans (toGuard_keeps _)
      · exact Keeps.refl st

theorem updateGathering_keeps (f : Record → Record) (hs : ∀ r, (f r).seq = r.seq) (hb : ∀ r, (f r).band = r.band)
    (st : Station) : Keeps st (updateGathering f st) := by
  refine Keeps.ofTable st (fun r => if r.phase = .gathering then f r else r) ?_ ?_
  · intro r; split
    · exact hs r
    · rfl
  · intro r _; split
    · rw [hb]; exact id
    · exact id

/-- A change of the engine's parts other than the requests. -/
theorem ofEngine_keeps (e : RoundEngine) (st : Station) (hp : e.requests.purge = st.engine.requests.purge) :
    Keeps st { st with engine := e } := Keeps.ofSame rfl rfl hp ⟨rfl, rfl, rfl⟩ rfl rfl rfl rfl

theorem peersChanged_fixed (joined left : Index → Bool) (r : Record) :
    (r.peersChanged joined left).seq = r.seq ∧ (r.peersChanged joined left).band = r.band := by
  unfold Record.peersChanged
  have : ∀ (l : List Index) (x : Record),
      (l.foldl (fun x k => if joined k then x.joined k else if left k then x.left k else x) x).seq = x.seq ∧
      (l.foldl (fun x k => if joined k then x.joined k else if left k then x.left k else x) x).band = x.band := by
    intro l
    induction l with
    | nil => exact fun _ => ⟨rfl, rfl⟩
    | cons k rest ih =>
      intro x
      rw [List.foldl_cons]
      refine ⟨(ih _).1.trans ?_, (ih _).2.trans ?_⟩ <;>
        (split
         · unfold Record.joined; split <;> rfl
         · split
           · unfold Record.left; split <;> rfl
           · rfl)
  exact this indices r

theorem applyAlignment_keeps (d : Pos) (order : List CompareId) (st : Station) : Keeps st (applyAlignment d order st) := by
  have h : Keeps st (headTakes { st with position := { st.position with
      counter := st.position.counter + d, highWater := st.position.highWater + d,
      triggerPos := st.position.triggerPos + d } }) := by
    refine Keeps.trans ?_ (headTakes_keeps _)
    exact Keeps.ofSame rfl rfl rfl ⟨rfl, rfl, rfl⟩ rfl rfl rfl rfl
  unfold applyAlignment
  simp only
  split
  · refine (h.trans ?_).trans (takeAllDue_keeps order _)
    exact Keeps.ofSame rfl rfl rfl ⟨rfl, rfl, rfl⟩ rfl rfl rfl rfl
  · exact h

theorem enterRunning_keeps (st : Station) : Keeps st (enterRunning st) := by
  have h : Keeps st { st with
      start := { st.start with node := .running }
      probe := if st.probe.state = .off then
          { st.probe with state := .warming, warmTimer := some st.loc.warmUpTime }
        else st.probe } := by
    refine Keeps.ofParts le_rfl le_rfl le_rfl ⟨rfl, rfl, rfl⟩ ?_ (fun h k => ⟨h, k⟩) fun h k => ⟨h, k⟩
    intro hp
    simp only
    split
    · rename_i hs
      obtain ⟨h1, h2, h3, h4⟩ := hp
      rw [hs] at h2 h3 h4
      exact ⟨by simp, by simpa using h2, by simpa using h3, by simpa using h4⟩
    · exact hp
  unfold enterRunning
  simp only
  split
  · exact (h.trans (enterBlanked_keeps _)).trans (headTakes_keeps _)
  · exact h

theorem applyAgreement_keeps (agreed : Bool) (st : Station) : Keeps st (applyAgreement agreed st) := by
  unfold applyAgreement
  split
  · split
    · exact Keeps.refl st
    · exact enterRunning_keeps st
  · exact Keeps.trans (b := { st with start := { st.start with node := .mismatch } })
      (Keeps.ofSame rfl rfl rfl ⟨rfl, rfl, rfl⟩ rfl rfl rfl rfl) (raiseCause_keeps .mismatch (by decide) _)

theorem settleRoll_keeps (before after : Eight (Option Nat)) (readings : Eight (Reading RollEntry)) (st : Station) :
    Keeps st (settleRoll before after readings st) := by
  have h : Keeps st { st with engine := { st.engine with
      openCount := 0, requests := { st.engine.requests with roll := anyDamaged readings } } } := ofEngine_keeps _ st rfl
  unfold settleRoll
  simp only
  refine Keeps.trans (Keeps.trans (Keeps.trans ?_ (updateGathering_keeps _ ?_ ?_ _)) (completeAll_keeps _))
    (withRequests_keeps _ _ le_rfl)
  · split
    · exact h
    · exact h.trans (raiseCause_keeps .peerChange (by decide) _)
  · exact fun r => (peersChanged_fixed _ _ r).1
  · exact fun r => (peersChanged_fixed _ _ r).2

theorem completeRoll_keeps (slots : List (BitVec 52)) (order : List CompareId) (st : Station) :
    Keeps st (completeRoll slots order st) := by
  unfold completeRoll
  split
  · exact Keeps.refl st
  · split
    · unfold rollEffects
      simp only
      refine Keeps.trans (Keeps.trans (Keeps.trans ((toGuard_keeps st).trans (applyAlignment_keeps _ order _))
        (ofEngine_keeps _ _ ?_)) (applyAgreement_keeps _ _)) (settleRoll_keeps _ _ _ _)
      rfl
    · exact Keeps.refl st

theorem countOpenRound_keeps (st : Station) : Keeps st (countOpenRound st) := by
  have h : Keeps st { st with engine := { st.engine with openCount := satAdd st.engine.openCount 1 } } :=
    ofEngine_keeps _ st rfl
  unfold countOpenRound
  simp only
  split
  · exact h.trans (raiseRoll_keeps _)
  · exact h

theorem refuseCreation_keeps (st : Station) : Keeps st (refuseCreation st) := by
  refine Keeps.trans (Keeps.trans (Keeps.trans ?_ (enterBlanked_keeps _)) (raiseCause_keeps .tableFull (by decide) _))
    (headTakes_keeps _)
  exact ofEngine_keeps _ st rfl

theorem storeCreationCompare_keeps (id : CompareId) (pos : Pos) (st : Station) :
    Keeps st (storeCreationCompare id pos st) := by
  unfold storeCreationCompare
  split
  · exact Keeps.refl st
  · exact storeCompare_keeps _ _ _ st

theorem takeDueGates_keeps (st : Station) : Keeps st (takeDueGates st) := by
  refine foldl_keeps _ (fun x s => ?_) _ st
  split
  · exact (dropCompare_keeps _ x).trans (dispatch_keeps s _)
  · exact Keeps.refl x

theorem createRecord_keeps (result : Pos) (st : Station) (hr : creationRefused st = false) :
    Keeps st (createRecord result st) := by
  simp only [creationRefused, Bool.or_eq_false_iff, decide_eq_false_iff_not, not_le] at hr
  have h : Keeps st { st with
      table := st.table ++ [newRecord st.shared st.engine.nextSeq (creationP st result)]
      engine := { st.engine with nextSeq := st.engine.nextSeq + 1 } } := by
    refine ⟨?_, id, id, fun h k => ⟨h, k⟩, fun hd ho => ⟨?_, ?_⟩⟩
    · rintro ⟨_, h2, h3, h4⟩
      refine ⟨?_, h2, h3, h4⟩
      simp only [List.length_append, List.length_singleton]
      exact hr.1.1
    · simp only [Station.seqsDistinct, List.map_append, List.map_cons, List.map_nil]
      refine List.Nodup.append hd (by simp) ?_
      simp only [List.disjoint_singleton, List.mem_map, not_exists, not_and]
      intro x hx hxs
      have := List.any_eq_false.1 hr.2 x hx
      simp [hxs, newRecord] at this
    · simpa [Station.oneOpenBand, List.countP_append, newRecord] using ho
  unfold createRecord
  simp only
  have hc : ∀ x : Station, Keeps st x → Keeps st (headTakes (attachTest x)) := fun x hx =>
    (hx.trans (attachTest_keeps _)).trans (headTakes_keeps _)
  exact Keeps.ite _ (fun x => (takeDueGates_keeps x).trans (dispatch_keeps _ _)) (Keeps.ite _ (takeDecision_keeps _) (Keeps.ite _ (takeEmpty_keeps _) (hc _
    (((h.trans (storeCreationCompare_keeps _ _ _)).trans (storeCreationCompare_keeps _ _ _)).trans
      (storeCreationCompare_keeps _ _ _)))))

theorem completeOpen_keeps (st : Station) : Keeps st (completeOpen st) := by
  unfold completeOpen
  split
  · exact Keeps.refl st
  · simp only
    split
    · have h : Keeps st (countOpenRound (withRequests (fun q => { q with opening := false }) (toGuard st))) :=
        ((toGuard_keeps st).trans (withRequests_keeps _ _ le_rfl)).trans (countOpenRound_keeps _)
      split
      · exact h.trans (attachTest_keeps _)
      · split
        · exact h.trans (refuseCreation_keeps _)
        · rename_i hr
          exact h.trans (createRecord_keeps _ _ (by simpa using hr))
    · exact (toGuard_keeps st).trans (deferredTest_keeps _)

theorem takeReading_fixed (k : Index) (reading : Reading TallyEntry) (r : Record) :
    (r.takeReading k reading).seq = r.seq ∧ (r.takeReading k reading).band = r.band := by
  unfold Record.takeReading
  split <;> exact ⟨rfl, rfl⟩

theorem takeSlot_keeps (s : Seq) (readings : Eight (Reading TallyEntry)) (st : Station) (k : Index) :
    Keeps st (takeSlot s readings st k) := by
  unfold takeSlot
  split
  · exact Keeps.refl st
  · simp only
    refine Keeps.trans ?_ (updateRecord_keeps s _ ?_ _ ?_)
    · exact ofEngine_keeps _ st rfl
    · exact fun r => (takeReading_fixed k _ r).1
    · intro r _; rw [(takeReading_fixed k _ r).2]; exact id

theorem removeMembers_keeps (st : Station) : Keeps st (removeMembers st) := by
  unfold removeMembers
  simp only
  split
  · refine Keeps.trans (Keeps.trans ?_ (updateGathering_keeps _ ?_ ?_ _))
      (raiseCause_keeps .peerChange (by decide) _)
    · exact ofEngine_keeps _ st rfl
    · exact fun r => (peersChanged_fixed _ _ r).1
    · exact fun r => (peersChanged_fixed _ _ r).2
  · exact Keeps.refl st

theorem settleTally_keeps (s : Seq) (raised : Bool) (sent : TallyEntry) (st : Station) :
    Keeps st (settleTally s raised sent st) := by
  unfold settleTally
  simp only
  refine Keeps.trans ?_ (withRequests_keeps _ _ le_rfl)
  refine Keeps.ite _ (fun x => withRequests_keeps (Requests.dropTally s) x le_rfl) ?_
  split
  · exact withRequests_keeps _ st (by rw [Requests.raiseTally_purge])
  · split
    · exact withRequests_keeps _ st le_rfl
    · exact Keeps.refl st

theorem completeTally_keeps (slots : List (BitVec 448)) (st : Station) : Keeps st (completeTally slots st) := by
  unfold completeTally
  split
  · exact Keeps.refl st
  · simp only
    split
    · split
      · unfold tallyEffects
        simp only
        exact ((((toGuard_keeps st).trans (foldl_keeps _ (fun x k => takeSlot_keeps _ _ x k) _ _)).trans
          (removeMembers_keeps _)).trans (completeAll_keeps _)).trans (settleTally_keeps _ _ _ _)
      · exact toGuard_keeps st
    · exact toGuard_keeps st

theorem decideRecord_keeps (s : Seq) (low high : Nat) (st : Station) : Keeps st (decideRecord s low high st) := by
  unfold decideRecord
  split
  · exact Keeps.refl st
  · split
    · exact Keeps.refl st
    · refine Keeps.trans (updateRecord_keeps s _ ?_ st ?_) (withRequests_keeps _ _ le_rfl)
      · intro r; unfold Record.decide; split <;> rfl
      · intro r _; unfold Record.decide; split <;> exact id

theorem completeVerdict_keeps (st : Station) : Keeps st (completeVerdict st) := by
  unfold completeVerdict
  split
  · exact Keeps.refl st
  · simp only
    split
    · exact toGuard_keeps st
    · split
      · unfold verdictEffects
        split
        · split
          · exact (toGuard_keeps st).trans (decideRecord_keeps _ _ _ _)
          · exact toGuard_keeps st
        · split
          · exact (toGuard_keeps st).trans (withRequests_keeps _ _ le_rfl)
          · exact toGuard_keeps st
      · exact toGuard_keeps st

theorem purgeRecords_keeps (l : List Seq) (st : Station) : Keeps st (l.foldl purgeRecord st) :=
  foldl_keeps purgeRecord (fun x s => removeRecord_keeps _ _ s x) l st

theorem purgeEdge_keeps (b : Bool) (st : Station) : Keeps st (purgeEdge b st) := by
  unfold purgeEdge
  simp only
  split
  · exact (discardPending_keeps st).trans (enterBlanked_keeps _)
  · split
    · exact discardPending_keeps st
    · exact (((discardPending_keeps st).trans (dropCompare_keeps _ _)).trans (dropCompare_keeps _ _)).trans
        (ofEdgeUnit_keeps _ _)

theorem purgeAll_keeps (st : Station) : Keeps st (purgeAll st) := by
  unfold purgeAll
  simp only
  refine Keeps.trans ?_ (withRequests_keeps _ _ (Nat.zero_le _))
  have hc : ∀ x : Station, Keeps x { x with scan := { x.scan with fifo := [], head := none, overrun := false } } :=
    fun x => Keeps.ofParts le_rfl (Nat.zero_le _) le_rfl ⟨rfl, rfl, rfl⟩ id (fun h k => ⟨h, k⟩) fun h k => ⟨h, k⟩
  exact ((purgeRecords_keeps _ st).trans (purgeEdge_keeps _ _)).trans (hc _)

theorem afterOpen_length (d : Seq → Bool) (p : PurgeSet) : (p.afterOpen d).subjects.length ≤ p.subjects.length := by
  cases p with
  | none => exact le_rfl
  | all => exact le_rfl
  | opened => exact le_rfl
  | ones l =>
    simp only [PurgeSet.afterOpen, PurgeSet.ofOnes]
    split
    · exact Nat.zero_le _
    · exact List.length_filter_le _ _

theorem completePurge_keeps (st : Station) : Keeps st (completePurge st) := by
  have ho : ∀ x : Station, Keeps x (purgeOpen x) := by
    intro x
    unfold purgeOpen
    simp only
    refine Keeps.trans ?_ (withRequests_keeps _ _ (afterOpen_length _ _))
    split
    · exact Keeps.refl x
    · exact (purgeRecords_keeps _ x).trans (headTakes_keeps _)
  have h1 : ∀ (s : Seq) (x : Station), Keeps x (purgeOne s x) := by
    intro s x
    unfold purgeOne
    refine Keeps.trans ?_ (withRequests_keeps _ _ (dropOne_length s _))
    split
    · exact (removeRecord_keeps _ _ s x).trans (headTakes_keeps _)
    · exact Keeps.refl x
  unfold completePurge
  split
  · exact Keeps.refl st
  · simp only
    split
    · split
      · exact (toGuard_keeps st).trans (purgeAll_keeps _)
      · exact (toGuard_keeps st).trans (ho _)
      · exact (toGuard_keeps st).trans (h1 _ _)
      · exact toGuard_keeps st
    · exact toGuard_keeps st

/-! ## Start-up and the result port -/

theorem supplyLow_keeps (st : Station) : Keeps st (supplyLow st) :=
  (resetWith_keeps ⟨st.start.index, st.start.outlet⟩ false st.edge.pin st.scan.frame st).trans
    (Keeps.ofSame rfl rfl rfl ⟨rfl, rfl, rfl⟩ rfl rfl rfl rfl)

theorem enterConfigFault_keeps (reason : FaultReason) (st : Station) : Keeps st (enterConfigFault reason st) := by
  unfold enterConfigFault
  refine Keeps.trans ?_ (raiseCause_keeps .configFault (by decide) _)
  exact Keeps.ofSame rfl rfl rfl ⟨rfl, rfl, rfl⟩ rfl rfl rfl rfl

theorem headerRead_keeps (header : List Byte) (st : Station) : Keeps st (headerRead header st) := by
  unfold headerRead
  split
  · split
    · exact enterConfigFault_keeps _ st
    · exact Keeps.ofSame rfl rfl rfl ⟨rfl, rfl, rfl⟩ rfl rfl rfl rfl
  · exact Keeps.refl st

/-- A change of the result port that adds no record and keeps or renews the level of RESULT_READY. -/
theorem ofPort_keeps (p : ResultPort) (st : Station) (hf : p.fifo.length ≤ st.port.fifo.length)
    (hr : st.resultReadyLevel → p.causes.resultReady = decide (p.watermark.toNat ≤ p.fifo.length)) :
    Keeps st { st with port := p } :=
  ⟨fun h => ⟨h.1, h.2.1, hf.trans h.2.2.1, h.2.2.2⟩, hr, id, fun h k => ⟨h, k⟩, fun h k => ⟨h, k⟩⟩

theorem enterJoining_keeps (bytes : List Byte) (st : Station) : Keeps st (enterJoining bytes st) := by
  unfold enterJoining
  simp only
  refine Keeps.trans ?_ (raiseRoll_keeps _)
  have hw : ∀ x : Station, Keeps x (watchBand x) := by
    intro x
    unfold watchBand
    split
    · exact ofEdgeUnit_keeps _ _
    · exact Keeps.refl _
  refine Keeps.trans ?_ (hw _)
  exact Keeps.trans (ofPort_keeps
      ({ st.port with enable := Causes.ofMask (readLocal bytes).enableMask,
                      watermark := (readLocal bytes).watermark }.levelResultReady) st le_rfl fun _ => rfl)
    (Keeps.ofSame rfl rfl rfl ⟨rfl, rfl, rfl⟩ rfl rfl rfl rfl)

theorem readEnd_keeps (sections : List Byte) (st : Station) : Keeps st (readEnd sections st) := by
  unfold readEnd
  split
  · split
    · exact enterConfigFault_keeps _ st
    · split
      · exact enterConfigFault_keeps _ st
      · exact enterJoining_keeps _ st
  · exact Keeps.refl st

theorem answer_keeps (bytes : List Byte) (read : Option PortRead) (st : Station) : Keeps st (answer bytes read st) :=
  ofPort_keeps _ st le_rfl id

theorem readResultShiftedOut_keeps (st : Station) : Keeps st (readResultShiftedOut st) := by
  unfold readResultShiftedOut
  split
  · refine ofPort_keeps _ st ?_ fun _ => rfl
    show st.port.fifo.tail.length ≤ _
    simp
  · exact ofPort_keeps _ st le_rfl id
  · exact Keeps.refl st
  · exact Keeps.refl st

theorem readCauseShiftedOut_keeps (st : Station) : Keeps st (readCauseShiftedOut st) := by
  unfold readCauseShiftedOut
  split
  · exact ofPort_keeps _ st le_rfl fun _ => rfl
  · exact ofPort_keeps _ st le_rfl id
  · exact Keeps.refl st
  · exact Keeps.refl st

theorem requestPurge_keeps (scope : Byte) (s : Seq) (st : Station) : Keeps st (requestPurge scope s st) := by
  unfold requestPurge
  split
  · exact answer_keeps _ _ st
  · exact (raisePurge_keeps _ st).trans (answer_keeps _ _ _)

theorem requestRoll_keeps (st : Station) : Keeps st (requestRoll st) := by
  unfold requestRoll
  split
  · exact (raiseRoll_keeps st).trans (answer_keeps _ _ _)
  · exact answer_keeps _ _ st

theorem unknownCommand_keeps (code : Byte) (st : Station) : Keeps st (unknownCommand code st) := by
  unfold unknownCommand
  split
  · exact answer_keeps _ _ st
  · exact Keeps.refl st

theorem selectReleased_keeps (st : Station) : Keeps st (selectReleased st) := ofPort_keeps _ st le_rfl id

end Sys2Proof.Machine
end

