-- ==== Sys2Proof/Laws/EdgeSound.lean ====
section
/-! SUPPORT. That the operations keep the Edge Unit, its compares and the gate window as edge.fits and comparesFit of Safety.lean
ask. -/

namespace Sys2Proof.Machine

/-- The two invariants together. -/
def Station.edgeSound (st : Station) : Prop := st.edge.fits ∧ st.comparesFit

/-! ## Compares -/

theorem drop_nodup {p : PositionUnit} (id : CompareId) (h : (p.compares.map (·.id)).Nodup) :
    ((p.drop id).compares.map (·.id)).Nodup := List.Nodup.sublist (List.Sublist.map _ List.filter_sublist) h

theorem store_nodup {p : PositionUnit} (id : CompareId) (pos : Pos) (g : Progress) (h : (p.compares.map (·.id)).Nodup) :
    ((p.store id pos g).compares.map (·.id)).Nodup := by
  simp only [PositionUnit.store, List.map_append, List.map_cons, List.map_nil]
  refine List.Nodup.append (drop_nodup id h) (by simp) ?_
  simp [PositionUnit.drop]

theorem stores_of_due {st : Station} {id : CompareId} (h : st.position.isDue id = true) : st.stores id = true := by
  simp only [PositionUnit.isDue, List.any_eq_true, Bool.and_eq_true] at h
  obtain ⟨c, hc, h1, _⟩ := h
  exact List.any_eq_true.2 ⟨c, hc, h1⟩

theorem stores_of_mayBeNext {st : Station} {id : CompareId} (h : mayBeNext st id = true) : st.stores id = true := by
  unfold mayBeNext at h
  split at h
  · cases h
  · rename_i c hc
    unfold PositionUnit.find at hc
    have hid := List.find?_some hc
    exact List.any_eq_true.2 ⟨c, List.mem_of_find?_eq_some hc, hid⟩

/-- The first compare of a progress is one that is stored. -/
theorem stores_of_first {st : Station} {g : Progress} {id : CompareId} (h : firstCompare g st = some id) :
    st.stores id = true := by
  have : ∀ (l : List Compare) (b : Option Compare), (∀ c ∈ l, c ∈ st.position.compares) →
      (∀ c ∈ b, c ∈ st.position.compares) → ∀ c ∈ (l.foldl (fun best c => match best with
        | none => some c
        | some b => if takenBefore st c b then some c else some b) b), c ∈ st.position.compares := by
    intro l
    induction l with
    | nil => exact fun b _ hb => hb
    | cons x rest ih =>
      intro b hl hb
      refine ih _ (fun c hc => hl c (List.mem_cons_of_mem _ hc)) ?_
      have hx := hl x (List.mem_cons_self ..)
      intro c hc
      cases b with
      | none => simp only [Option.mem_def, Option.some.injEq] at hc; exact hc ▸ hx
      | some y =>
        simp only at hc
        split at hc
        · simp only [Option.mem_def, Option.some.injEq] at hc; exact hc ▸ hx
        · exact hb c hc
  unfold firstCompare at h
  rw [Option.map_eq_some_iff] at h
  obtain ⟨c, hc, hid⟩ := h
  have hm := this _ none (fun c hc => (List.mem_filter.1 hc).1) (by simp) c hc
  exact List.any_eq_true.2 ⟨c, hm, by simp [hid]⟩

theorem stores_setProgress (st : Station) (a : CompareId) (g : Progress) (b : CompareId) :
    ({ st with position := st.position.setProgress a g } : Station).stores b = st.stores b := by
  simp only [Station.stores, PositionUnit.setProgress, List.any_map]
  congr 1
  funext c
  simp only [Function.comp]
  split <;> rfl

theorem setProgress_ids (p : PositionUnit) (a : CompareId) (g : Progress) :
    (p.setProgress a g).compares.map (·.id) = p.compares.map (·.id) := by
  simp only [PositionUnit.setProgress, List.map_map]
  refine List.map_congr_left fun c _ => ?_
  simp only [Function.comp]
  split <;> rfl

/-- The compares that are stored are those with these identities. -/
theorem stores_eq_of_ids {a b : Station}
    (h : b.position.compares.map (·.id) = a.position.compares.map (·.id)) (id : CompareId) :
    b.stores id = a.stores id := by
  have : ∀ st : Station, st.stores id = (st.position.compares.map (·.id)).any (· == id) := by
    intro st; simp [Station.stores, List.any_map, Function.comp_def]
  rw [this, this, h]

/-- A compare of an edge state is not stored in another. -/
theorem not_stored {a : Station} {id : CompareId} {s : EdgeState} (h : a.stores id = true ↔ a.edge.state = s)
    (hs : a.edge.state ≠ s) : a.stores id = false := by
  rw [Bool.eq_false_iff]
  exact fun x => hs (h.1 x)

/-! ## Changes that touch neither the Edge Unit nor its compares -/

/-- The parts that the two invariants read are the same. -/
theorem Station.edgeSound.ofSame {a b : Station} (h : a.edgeSound) (h1 : b.edge.state = a.edge.state)
    (h2 : b.edge.pending = a.edge.pending) (h3 : b.edge.fall = a.edge.fall) (h4 : b.edge.absence = a.edge.absence)
    (hi : b.position.compares.map (·.id) = a.position.compares.map (·.id))
    (ho : b.outlet.window.isSome = a.outlet.window.isSome) : b.edgeSound := by
  obtain ⟨e, c⟩ := h
  refine ⟨?_, ?_⟩
  · unfold EdgeUnit.fits; rw [h1, h2, h3, h4]; exact e
  · unfold Station.comparesFit
    rw [hi, stores_eq_of_ids hi, stores_eq_of_ids hi, stores_eq_of_ids hi, stores_eq_of_ids hi, h1, h4, ho]
    exact c

theorem Station.edgeSound.ofHead {a b : Station} (h : a.edgeSound) (f : HeadFrame a b) : b.edgeSound :=
  h.ofSame (by rw [f.edge]) (by rw [f.edge]) (by rw [f.edge]) (by rw [f.edge]) (by rw [f.position]) (by rw [f.outlet])

/-- The purposes that comparesFit speaks of. -/
def CompareId.watched (id : CompareId) : Bool :=
  id == .qualification || id == .bridging || id == .blankRelease || id == .windowEnd

theorem Station.edgeSound.store {a : Station} (h : a.edgeSound) {id : CompareId} (hid : CompareId.watched id = false) (pos : Pos)
    (g : Progress) : (storeCompare id pos g a).edgeSound := by
  obtain ⟨e, c1, c2, c3, c4, c5⟩ := h
  have hs : ∀ x : CompareId, CompareId.watched x = true → (storeCompare id pos g a).stores x = a.stores x := by
    intro x hx
    rw [stores_store]
    have : (x == id) = false := by
      rw [beq_eq_false_iff_ne]; rintro rfl; rw [hid] at hx; cases hx
    rw [this, Bool.or_false]
  refine ⟨e, store_nodup id pos g c1, ?_, ?_, ?_, ?_⟩
  · rw [hs _ rfl]; exact c2
  · rw [hs _ rfl]; exact c3
  · rw [hs _ rfl]; exact c4
  · rw [hs _ rfl]; exact c5

theorem Station.edgeSound.drop {a : Station} (h : a.edgeSound) {id : CompareId} (hid : CompareId.watched id = false) :
    (dropCompare id a).edgeSound := by
  obtain ⟨e, c1, c2, c3, c4, c5⟩ := h
  have hs : ∀ x : CompareId, CompareId.watched x = true → (dropCompare id a).stores x = a.stores x := by
    intro x hx
    rw [stores_drop]
    have : (x != id) = true := by
      rw [bne_iff_ne]; rintro rfl; rw [hid] at hx; cases hx
    rw [this, Bool.and_true]
  refine ⟨e, drop_nodup id c1, ?_, ?_, ?_, ?_⟩
  · rw [hs _ rfl]; exact c2
  · rw [hs _ rfl]; exact c3
  · rw [hs _ rfl]; exact c4
  · rw [hs _ rfl]; exact c5

theorem headTakes_edgeSound {a : Station} (h : a.edgeSound) : (headTakes a).edgeSound := h.ofHead (headTakes_frame a)

theorem testClosing_edgeSound (s : Seq) {a : Station} (h : a.edgeSound) : (testClosing s a).edgeSound :=
  h.ofHead (testClosing_frame s a)

/-! ## Blanking -/

/-- What remains of the two invariants while a pending edge is discarded: `enterBlanked` needs no more. -/
def Station.edgeLoose (st : Station) : Prop :=
  (st.edge.fall.isSome = true ↔ st.edge.state = .falling) ∧ (st.edge.absence.isSome = true → st.edge.state = .blanked) ∧
    (st.position.compares.map (·.id)).Nodup ∧ (st.stores .blankRelease = true ↔ st.edge.absence.isSome = true) ∧
    (st.stores .windowEnd = true ↔ st.outlet.window.isSome = true)

theorem Station.edgeSound.loose {a : Station} (h : a.edgeSound) : a.edgeLoose :=
  ⟨h.1.1, h.1.2.1, h.2.1, h.2.2.2.2.1, h.2.2.2.2.2⟩

/-- The blank release compare follows the start of absence in BLANKED. -/
theorem followAbsence_edgeSound {a : Station} (hs : a.edge.state = .blanked) (hp : a.edge.pending = none)
    (hf : a.edge.fall = none) (hn : (a.position.compares.map (·.id)).Nodup) (hq : a.stores .qualification = false)
    (hb : a.stores .bridging = false) (hw : a.stores .windowEnd = true ↔ a.outlet.window.isSome = true) :
    (followAbsence a).edgeSound := by
  have hstore : ∀ g pos, a.edge.absence.isSome = true → (storeCompare .blankRelease pos g a).edgeSound := by
    intro g pos ha
    refine ⟨⟨?_, fun _ => hs, fun _ => hp, ?_, ?_⟩, store_nodup _ _ _ hn, ?_, ?_, ?_, ?_⟩
    · show a.edge.fall.isSome = true ↔ a.edge.state = .falling; simp [hf, hs]
    · show a.edge.state = .rising → _; simp [hs]
    · show ∀ p ∈ a.edge.pending.toList, _; simp [hp]
    · rw [stores_store, hq]; show _ ↔ a.edge.state = .rising; simp [hs]
    · rw [stores_store, hb]; show _ ↔ a.edge.state = .falling; simp [hs]
    · rw [stores_store]; show _ ↔ a.edge.absence.isSome = true; simp [ha]
    · rw [stores_store]; show _ ↔ a.outlet.window.isSome = true; rw [← hw]; simp
  unfold followAbsence
  cases ha : a.edge.absence with
  | none =>
    refine ⟨⟨?_, ?_, fun _ => hp, ?_, ?_⟩, drop_nodup _ hn, ?_, ?_, ?_, ?_⟩
    · show a.edge.fall.isSome = true ↔ a.edge.state = .falling; simp [hf, hs]
    · show a.edge.absence.isSome = true → _; simp [ha]
    · show a.edge.state = .rising → _; simp [hs]
    · show ∀ p ∈ a.edge.pending.toList, _; simp [hp]
    · rw [stores_drop, hq]; show _ ↔ a.edge.state = .rising; simp [hs]
    · rw [stores_drop, hb]; show _ ↔ a.edge.state = .falling; simp [hs]
    · rw [stores_drop]; show _ ↔ a.edge.absence.isSome = true; simp [ha]
    · rw [stores_drop]; show _ ↔ a.outlet.window.isSome = true; rw [← hw]; simp
  | some x =>
    simp only
    split
    · split
      · exact hstore _ _ (by rw [ha]; rfl)
      · have hd : ∀ id, (releaseBlank a).stores id = (a.stores id && id != .blankRelease) := fun id =>
          stores_drop a .blankRelease id
        refine ⟨⟨?_, ?_, fun _ => hp, ?_, ?_⟩, drop_nodup _ hn, ?_, ?_, ?_, ?_⟩
        · show a.edge.fall.isSome = true ↔ EdgeState.idle = .falling; simp [hf]
        · simp [releaseBlank]
        · show EdgeState.idle = .rising → _; simp
        · show ∀ p ∈ a.edge.pending.toList, _; simp [hp]
        · rw [hd, hq]; simp [releaseBlank]
        · rw [hd, hb]; simp [releaseBlank]
        · rw [hd]; simp [releaseBlank]
        · rw [hd]; show _ ↔ a.outlet.window.isSome = true; rw [← hw]; simp
    · exact hstore _ _ (by rw [ha]; rfl)

theorem enterBlanked_edgeSound {a : Station} (h : a.edgeLoose) : (enterBlanked a).edgeSound := by
  obtain ⟨h1, h2, h3, h4, h5⟩ := h
  have hd : ∀ id, (dropCompare .bridging (discardPending a)).stores id =
      (a.stores id && id != .qualification && id != .bridging) := by
    intro id
    rw [stores_drop]
    congr 1
    exact stores_drop a .qualification id
  have hn : ((dropCompare .bridging (discardPending a)).position.compares.map (·.id)).Nodup :=
    drop_nodup (p := (discardPending a).position) _ (drop_nodup (p := a.position) _ h3)
  unfold enterBlanked
  simp only
  split
  · rename_i hs
    refine ⟨⟨h1, h2, fun _ => rfl, ?_, ?_⟩, hn, ?_, ?_, ?_, ?_⟩
    · show a.edge.state = .rising → _; simp [hs]
    · intro p hp; simp [dropCompare, discardPending] at hp
    · rw [hd]; show _ ↔ a.edge.state = .rising; simp [hs]
    · rw [hd]; show _ ↔ a.edge.state = .falling; simp [hs]
    · rw [hd]; show _ ↔ a.edge.absence.isSome = true; rw [← h4]; simp
    · rw [hd]; show _ ↔ a.outlet.window.isSome = true; rw [← h5]; simp
  · refine followAbsence_edgeSound rfl rfl rfl hn ?_ ?_ ?_
    · show (dropCompare .bridging (discardPending a)).stores .qualification = false; rw [hd]; simp
    · show (dropCompare .bridging (discardPending a)).stores .bridging = false; rw [hd]; simp
    · show (dropCompare .bridging (discardPending a)).stores .windowEnd = true ↔ a.outlet.window.isSome = true
      rw [hd, ← h5]; simp

theorem enterClosing_edgeSound (s : Seq) (trail : Pos) {a : Station} (h : a.edgeSound) : (enterClosing s trail a).edgeSound := by
  have h1 : ∀ b : Bool, (updateBand s (fun x => { x with state := .closing, trail := some trail, lagPassed := b })
      (dropCompare .overlength (dropCompare .sample a))).edgeSound := fun b =>
    ((h.drop (id := .sample) rfl).drop (id := .overlength) rfl).ofSame rfl rfl rfl rfl rfl rfl
  unfold enterClosing
  simp only
  refine testClosing_edgeSound s ?_
  split
  · exact h1 _
  · exact (h1 _).store (id := .lag s) rfl _ _

theorem forceOverlength_edgeSound {a : Station} (h : a.edgeSound) : (forceOverlength a).edgeSound := by
  unfold forceOverlength
  split
  · exact h
  · rename_i r _
    refine headTakes_edgeSound (enterClosing_edgeSound _ _ (enterBlanked_edgeSound ?_))
    exact (h.ofSame (b := updateBand r.seq (fun b => { b with summary := { b.summary with overlength := true } }) a)
      rfl rfl rfl rfl rfl rfl).loose

theorem storeSample_edgeSound {a : Station} (h : a.edgeSound) : (storeSample a).edgeSound := by
  unfold storeSample
  split
  · exact h.drop (id := .sample) rfl
  · exact h.store (id := .sample) rfl _ _

/-! ## Attachment -/

/-- The pending edge of a unit that is not RISING is taken away. -/
theorem Station.edgeSound.takePending {a : Station} (h : a.edgeSound) (hr : a.edge.state ≠ .rising) {b : Station}
    (h1 : b.edge.state = a.edge.state) (h2 : b.edge.pending = none) (h3 : b.edge.fall = a.edge.fall)
    (h4 : b.edge.absence = a.edge.absence) (hp : b.position = a.position) (ho : b.outlet = a.outlet) : b.edgeSound := by
  obtain ⟨⟨e1, e2, e3, e4, e5⟩, c⟩ := h
  refine ⟨⟨by rw [h1, h3]; exact e1, by rw [h1, h4]; exact e2, fun _ => h2, ?_, by rw [h2]; simp⟩, ?_⟩
  · rw [h1]; exact fun x => absurd x hr
  · have hs : ∀ id, b.stores id = a.stores id := fun id => by simp [Station.stores, hp]
    unfold Station.comparesFit
    rw [hp, hs, hs, hs, hs, h1, h4, ho]
    exact c

theorem attachEdge_edgeSound (edge : PendingEdge) (s : Seq) {a : Station} (h : a.edgeSound)
    (hr : a.edge.state ≠ .rising) : (attachEdge edge s a).edgeSound := by
  have ho : (openBand s edge.rise a).edgeSound := h.takePending hr rfl rfl rfl rfl rfl rfl
  unfold attachEdge
  simp only
  split
  · have hs := storeSample_edgeSound ho
    split
    · split
      · exact headTakes_edgeSound (hs.store (id := .overlength) rfl _ _)
      · exact forceOverlength_edgeSound hs
    · exact headTakes_edgeSound (hs.store (id := .overlength) rfl _ _)
  · split
    · refine headTakes_edgeSound (enterClosing_edgeSound _ _ ?_)
      exact ho.ofSame (b := updateBand s (fun b => { b with summary := { b.summary with overlength := true } }) _)
        rfl rfl rfl rfl rfl rfl
    · exact headTakes_edgeSound (enterClosing_edgeSound _ _ ho)

theorem attachTest_edgeSound {a : Station} (h : a.edgeSound) : (attachTest a).edgeSound := by
  have h' : ({ a with edge := { a.edge with testDeferred := false } } : Station).edgeSound := h.ofSame rfl rfl rfl rfl rfl rfl
  have hro : ∀ x : Station, x.edgeSound → (raiseOpen x).edgeSound := fun x hx => hx.ofSame rfl rfl rfl rfl rfl rfl
  unfold attachTest
  simp only
  split
  · exact h'
  · rename_i e he
    split
    · rename_i hq
      have hr : a.edge.state ≠ .rising := by
        intro hs
        have := (h.1.2.2.2.2 e (by rw [he]; simp)).1.2 hs
        rw [hq] at this; cases this
      split
      · split
        · exact attachEdge_edgeSound _ _ h' hr
        · exact hro _ h'
      · exact hro _ h'
    · exact h'

theorem deferredTest_edgeSound {a : Station} (h : a.edgeSound) : (deferredTest a).edgeSound := by
  unfold deferredTest
  split
  · exact attachTest_edgeSound h
  · exact h

/-! ## Removal and the gate window -/

theorem removeRecord_edgeSound (outcome : Verdict) (mark : SheetFlags → SheetFlags) (s : Seq) {a : Station}
    (h : a.edgeSound) : (removeRecord outcome mark s a).edgeSound := by
  unfold removeRecord
  split
  · exact h
  · rename_i r _
    simp only
    have h1 : ({ a with
        table := a.table.filter fun x => x.seq != s
        position := a.position.dropRecord s
        engine := { a.engine with requests := a.engine.requests.dropSubject s } } : Station).edgeSound :=
      ((((h.drop (id := .empty s) rfl).drop (id := .lag s) rfl).drop (id := .decision s) rfl).drop
        (id := .gate s) rfl).ofSame rfl rfl rfl rfl rfl rfl
    split
    · exact (enterBlanked_edgeSound ((h1.drop (id := .sample) rfl).drop (id := .overlength) rfl).loose).ofSame
        rfl rfl rfl rfl rfl rfl
    · exact h1.ofSame rfl rfl rfl rfl rfl rfl

theorem closeWindow_edgeSound {a : Station} (h : a.edgeSound) : (closeWindow a).edgeSound := by
  obtain ⟨e, c1, c2, c3, c4, _⟩ := h
  have hd : ∀ id, (closeWindow a).stores id = (a.stores id && id != .windowEnd) := fun id => stores_drop a .windowEnd id
  refine ⟨e, drop_nodup _ c1, ?_, ?_, ?_, ?_⟩
  · rw [hd]; show _ ↔ a.edge.state = .rising; rw [← c2]; simp
  · rw [hd]; show _ ↔ a.edge.state = .falling; rw [← c3]; simp
  · rw [hd]; show _ ↔ a.edge.absence.isSome = true; rw [← c4]; simp
  · rw [hd]; simp [closeWindow]

theorem gateCommand_edgeSound (r : Record) (outcome : Verdict) {a : Station} (h : a.edgeSound) :
    (gateCommand r outcome a).1.edgeSound := by
  have hw : ∀ b e, (storeCompare .windowEnd e .waiting { a with outlet := { window := some ⟨b, e⟩ } }).edgeSound := by
    intro b e
    obtain ⟨u, c1, c2, c3, c4, _⟩ := h
    have hs : ∀ id, (storeCompare .windowEnd e .waiting { a with outlet := { window := some ⟨b, e⟩ } }).stores id =
        (a.stores id || id == .windowEnd) := fun id => stores_store _ _ _ _ _
    refine ⟨u, store_nodup _ _ _ c1, ?_, ?_, ?_, ?_⟩
    · rw [hs]; show _ ↔ a.edge.state = .rising; rw [← c2]; simp
    · rw [hs]; show _ ↔ a.edge.state = .falling; rw [← c3]; simp
    · rw [hs]; show _ ↔ a.edge.absence.isSome = true; rw [← c4]; simp
    · rw [hs]; simp [storeCompare]
  unfold gateCommand
  simp only
  split
  · exact h
  · split
    · exact h
    · split
      · exact closeWindow_edgeSound (hw _ _)
      · exact hw _ _

theorem dispatch_edgeSound (s : Seq) {a : Station} (h : a.edgeSound) : (dispatch s a).edgeSound := by
  unfold dispatch
  split
  · exact h
  · simp only
    split
    · refine headTakes_edgeSound (removeRecord_edgeSound _ _ s ?_)
      split
      · exact gateCommand_edgeSound _ _ h
      · exact h
    · exact headTakes_edgeSound (removeRecord_edgeSound _ _ s h)

/-! ## Taking compares -/

theorem dropCompare_twice (id : CompareId) (a : Station) : dropCompare id (dropCompare id a) = dropCompare id a := by
  simp [dropCompare, drop_drop]

theorem takeQualification_edgeSound {a : Station} (h : a.edgeSound) (hid : a.stores .qualification = true) :
    (takeQualification (dropCompare .qualification a)).edgeSound := by
  obtain ⟨⟨e1, e2, e3, e4, e5⟩, c1, c2, c3, c4, c5⟩ := h
  have hs : a.edge.state = .rising := c2.1 hid
  obtain ⟨e, he⟩ := Option.isSome_iff_exists.1 (e4 hs)
  have hf : e.fall = none := by
    cases hfe : e.fall with
    | none => rfl
    | some x =>
      have := (e5 e (by rw [he]; simp)).2 (by rw [hfe]; rfl)
      rw [hs] at this; cases this
  have hd : ∀ id, (dropCompare .qualification a).stores id = (a.stores id && id != .qualification) := stores_drop a _
  have hq : ∀ d : Bool, ({ dropCompare .qualification a with edge := { a.edge with
      state := .present, pending := some { e with qualified := true }, testDeferred := d } } : Station).edgeSound := by
    intro d
    refine ⟨⟨?_, ?_, ?_, ?_, ?_⟩, drop_nodup _ c1, ?_, ?_, ?_, ?_⟩
    · show a.edge.fall.isSome = true ↔ _; rw [e1, hs]; simp
    · show a.edge.absence.isSome = true → _; intro ha; have := e2 ha; rw [hs] at this; cases this
    · simp
    · simp
    · simp [hf]
    · show (dropCompare .qualification a).stores _ = true ↔ _; rw [hd]; simp
    · show (dropCompare .qualification a).stores _ = true ↔ _; rw [hd]
      rw [not_stored c3 (by rw [hs]; decide)]; simp
    · show (dropCompare .qualification a).stores _ = true ↔ a.edge.absence.isSome = true; rw [hd, ← c4]; simp
    · show (dropCompare .qualification a).stores _ = true ↔ a.outlet.window.isSome = true; rw [hd, ← c5]; simp
  unfold takeQualification
  have hs' : (dropCompare .qualification a).edge.state = .rising := hs
  have he' : (dropCompare .qualification a).edge.pending = some e := he
  simp only [hs', he']
  split
  · exact hq true
  · exact attachTest_edgeSound (hq a.edge.testDeferred)

theorem takeBridging_edgeSound {a : Station} (h : a.edgeSound) (hid : a.stores .bridging = true) :
    (takeBridging (dropCompare .bridging a)).edgeSound := by
  obtain ⟨⟨e1, e2, e3, e4, e5⟩, c1, c2, c3, c4, c5⟩ := h
  have hs : a.edge.state = .falling := c3.1 hid
  obtain ⟨f, hf⟩ := Option.isSome_iff_exists.1 (e1.2 hs)
  have hd : ∀ id, (dropCompare .bridging a).stores id = (a.stores id && id != .bridging) := stores_drop a _
  have hi : ∀ p : Option PendingEdge, (∀ x ∈ p.toList, x.qualified = true) →
      ({ dropCompare .bridging a with edge := { a.edge with state := .idle, fall := none, pending := p } } :
        Station).edgeSound := by
    intro p hp
    refine ⟨⟨?_, ?_, ?_, ?_, ?_⟩, drop_nodup _ c1, ?_, ?_, ?_, ?_⟩
    · simp
    · show a.edge.absence.isSome = true → _; intro ha; have := e2 ha; rw [hs] at this; cases this
    · simp
    · simp
    · intro x hx; simp [hp x hx]
    · show (dropCompare .bridging a).stores _ = true ↔ _; rw [hd]
      rw [not_stored c2 (by rw [hs]; decide)]; simp
    · show (dropCompare .bridging a).stores _ = true ↔ _; rw [hd]; simp
    · show (dropCompare .bridging a).stores _ = true ↔ a.edge.absence.isSome = true; rw [hd, ← c4]; simp
    · show (dropCompare .bridging a).stores _ = true ↔ a.outlet.window.isSome = true; rw [hd, ← c5]; simp
  have hq : ∀ x ∈ a.edge.pending.toList, x.qualified = true := by
    intro x hx
    cases hxq : x.qualified with
    | true => rfl
    | false => have := (e5 x hx).1.1 hxq; rw [hs] at this; cases this
  unfold takeBridging
  have hs' : (dropCompare .bridging a).edge.state = .falling := hs
  have hf' : (dropCompare .bridging a).edge.fall = some f := hf
  simp only [hs', hf']
  split
  · exact headTakes_edgeSound (enterClosing_edgeSound _ _ (hi a.edge.pending hq))
  · refine hi _ ?_
    intro x hx
    cases hp : a.edge.pending with
    | none => simp [hp, dropCompare] at hx
    | some y =>
      simp only [dropCompare, hp, Option.map_some, Option.toList_some, List.mem_singleton] at hx
      rw [hx]; exact hq y (by rw [hp]; simp)

theorem releaseBlank_edgeSound {a : Station} (h : a.edgeSound) (hs : a.edge.state = .blanked) : (releaseBlank a).edgeSound := by
  obtain ⟨⟨e1, e2, e3, e4, e5⟩, c1, c2, c3, c4, c5⟩ := h
  have hd : ∀ id, (releaseBlank a).stores id = (a.stores id && id != .blankRelease) := fun id =>
    stores_drop a .blankRelease id
  refine ⟨⟨?_, ?_, ?_, ?_, ?_⟩, drop_nodup _ c1, ?_, ?_, ?_, ?_⟩
  · show a.edge.fall.isSome = true ↔ EdgeState.idle = .falling; rw [e1, hs]; simp
  · simp [releaseBlank]
  · simp [releaseBlank]
  · simp [releaseBlank]
  · show ∀ p ∈ a.edge.pending.toList, _; simp [e3 hs]
  · rw [hd]; rw [not_stored c2 (by rw [hs]; decide)]; simp [releaseBlank]
  · rw [hd]; rw [not_stored c3 (by rw [hs]; decide)]; simp [releaseBlank]
  · rw [hd]; simp [releaseBlank]
  · rw [hd]; show _ ↔ a.outlet.window.isSome = true; rw [← c5]; simp

theorem completeRecord_edgeSound (own : Bool) (s : Seq) {a : Station} (h : a.edgeSound) :
    (completeRecord own s a).edgeSound := h.ofHead (completeRecord_frame own s a)

theorem takeLag_edgeSound (s : Seq) {a : Station} (h : a.edgeSound) : (takeLag s a).edgeSound := by
  have h1 : (testClosing s (updateBand s (fun b => { b with lagPassed := true }) a)).edgeSound :=
    testClosing_edgeSound s (h.ofSame rfl rfl rfl rfl rfl rfl)
  unfold takeLag
  simp only
  split
  · exact headTakes_edgeSound h1
  · exact h1

theorem takeDecision_edgeSound (s : Seq) {a : Station} (h : a.edgeSound) : (takeDecision s a).edgeSound := by
  unfold takeDecision
  split
  · exact h
  · simp only
    split <;> exact h.ofSame rfl rfl rfl rfl rfl rfl

theorem takeEmpty_edgeSound (s : Seq) {a : Station} (h : a.edgeSound) : (takeEmpty s a).edgeSound := by
  unfold takeEmpty
  split
  · exact h
  · split
    · exact h.ofHead (settleBand_frame _ _ s a)
    · exact h

theorem takeSample_edgeSound {a : Station} (h : a.edgeSound) : (takeSample a).edgeSound := by
  unfold takeSample
  split
  · exact h.drop (id := .sample) rfl
  · simp only
    split
    · exact (storeSample_edgeSound h).ofSame rfl rfl rfl rfl rfl rfl
    · exact storeSample_edgeSound h

/-- A stored compare is removed and acted on. -/
theorem compareEffect_edgeSound {id : CompareId} {a : Station} (h : a.edgeSound) (hid : a.stores id = true) :
    (compareEffect id (dropCompare id a)).edgeSound := by
  cases id with
  | qualification => exact takeQualification_edgeSound h hid
  | bridging => exact takeBridging_edgeSound h hid
  | blankRelease =>
    have hb : a.edge.state = .blanked := h.1.2.1 (h.2.2.2.2.1.1 hid)
    have : releaseBlank (dropCompare .blankRelease a) = releaseBlank a := by simp [releaseBlank, dropCompare, drop_drop]
    show (releaseBlank (dropCompare .blankRelease a)).edgeSound
    rw [this]
    exact releaseBlank_edgeSound h hb
  | overlength => exact forceOverlength_edgeSound (h.drop (id := .overlength) rfl)
  | empty s => exact takeEmpty_edgeSound s (h.drop (id := .empty s) rfl)
  | lag s => exact takeLag_edgeSound s (h.drop (id := .lag s) rfl)
  | decision s => exact takeDecision_edgeSound s (h.drop (id := .decision s) rfl)
  | gate s => exact dispatch_edgeSound s (h.drop (id := .gate s) rfl)
  | sample => exact takeSample_edgeSound (h.drop (id := .sample) rfl)
  | windowEnd =>
    have : closeWindow (dropCompare .windowEnd a) = closeWindow a := by simp [closeWindow, dropCompare, drop_drop]
    show (closeWindow (dropCompare .windowEnd a)).edgeSound
    rw [this]
    exact closeWindow_edgeSound h

theorem takeCompare_edgeSound {id : CompareId} {a : Station} (h : a.edgeSound) (hid : a.stores id = true) :
    (takeCompare id a).edgeSound := by
  unfold takeCompare
  split
  · exact h.ofSame rfl rfl rfl rfl (setProgress_ids _ _ _) rfl
  · exact compareEffect_edgeSound h hid

theorem takeDue_edgeSound (id : CompareId) {a : Station} (h : a.edgeSound) : (takeDue id a).edgeSound := by
  unfold takeDue
  split
  · rename_i hd; exact takeCompare_edgeSound h (stores_of_due hd)
  · exact h

theorem takeOrdered_edgeSound (order : List CompareId) : ∀ {a : Station}, a.edgeSound → (takeOrdered order a).edgeSound := by
  induction order with
  | nil => exact fun h => h
  | cons id rest ih =>
    intro a h
    simp only [takeOrdered]
    refine ih ?_
    split
    · rename_i hm; exact takeCompare_edgeSound h (stores_of_mayBeNext hm)
    · exact h

theorem takeRest_edgeSound (n : Nat) : ∀ {a : Station}, a.edgeSound → (takeRest n a).edgeSound := by
  induction n with
  | zero => exact fun h => h
  | succ n ih =>
    intro a h
    simp only [takeRest]
    split
    · exact h
    · rename_i id hid; exact ih (takeCompare_edgeSound h (stores_of_first hid))

theorem takeAllDue_edgeSound (order : List CompareId) {a : Station} (h : a.edgeSound) : (takeAllDue order a).edgeSound :=
  takeRest_edgeSound _ (takeOrdered_edgeSound order h)

theorem actOnKept_edgeSound (n : Nat) : ∀ {a : Station}, a.edgeSound → (actOnKept n a).edgeSound := by
  induction n with
  | zero => exact fun h => h
  | succ n ih =>
    intro a h
    simp only [actOnKept]
    split
    · exact h
    · rename_i id hid; exact ih (compareEffect_edgeSound h (stores_of_first hid))

/-! ## Presence and encoder steps -/

theorem takeChange_edgeSound {a : Station} (h : a.edgeSound) : (takeChange a).edgeSound := by
  obtain ⟨⟨e1, e2, e3, e4, e5⟩, c1, c2, c3, c4, c5⟩ := h
  have habs : a.edge.state ≠ .blanked → a.edge.absence = none := by
    intro hs
    cases ha : a.edge.absence with
    | none => rfl
    | some x => exact absurd (e2 (by rw [ha]; rfl)) hs
  have hfall : a.edge.state ≠ .falling → a.edge.fall = none := by
    intro hs
    cases hf : a.edge.fall with
    | none => rfl
    | some x => exact absurd (e1.1 (by rw [hf]; rfl)) hs
  have hdd : ∀ id, (discardPending a).stores id = (a.stores id && id != .qualification) := stores_drop a _
  unfold takeChange
  split
  · rename_i hs _
    have hc : ∀ e : PendingEdge, e.qualified = false → e.fall = none → ∀ pos : Pos,
        (storeCompare .qualification pos .waiting { discardPending a with edge := { (discardPending a).edge with
          state := .rising, pending := some e } }).edgeSound := by
      intro e hq hf pos
      have hst : ∀ id, (storeCompare .qualification pos .waiting { discardPending a with edge :=
          { (discardPending a).edge with state := .rising, pending := some e } }).stores id =
          ((discardPending a).stores id || id == .qualification) := fun id => stores_store _ _ _ _ _
      refine ⟨⟨?_, ?_, ?_, ?_, ?_⟩, store_nodup _ _ _ (drop_nodup _ c1), ?_, ?_, ?_, ?_⟩
      · show a.edge.fall.isSome = true ↔ _; rw [hfall (by rw [hs]; simp)]; simp [storeCompare]
      · show a.edge.absence.isSome = true → _; rw [habs (by rw [hs]; simp)]; simp
      · simp [storeCompare]
      · simp [storeCompare]
      · simp [storeCompare, hq, hf]
      · rw [hst]; simp [storeCompare]
      · rw [hst, hdd]; rw [not_stored c3 (by rw [hs]; decide)]; simp [storeCompare]
      · rw [hst, hdd]; show _ ↔ a.edge.absence.isSome = true; rw [← c4]; simp
      · rw [hst, hdd]; show _ ↔ a.outlet.window.isSome = true; rw [← c5]; simp
    unfold riseAt
    simp only
    split
    · exact headTakes_edgeSound (hc _ rfl rfl _)
    · exact hc _ rfl rfl _
  · rename_i hs _
    refine headTakes_edgeSound ⟨⟨?_, ?_, ?_, ?_, ?_⟩, drop_nodup (p := a.position) _ c1, ?_, ?_, ?_, ?_⟩
    · show a.edge.fall.isSome = true ↔ _; rw [hfall (by rw [hs]; simp)]; simp
    · show a.edge.absence.isSome = true → _; rw [habs (by rw [hs]; simp)]; simp
    · simp
    · simp
    · simp [discardPending]
    · show (discardPending a).stores _ = true ↔ _; rw [hdd]; simp
    · show (discardPending a).stores _ = true ↔ _; rw [hdd]; rw [not_stored c3 (by rw [hs]; decide)]; simp
    · show (discardPending a).stores _ = true ↔ a.edge.absence.isSome = true; rw [hdd, ← c4]; simp
    · show (discardPending a).stores _ = true ↔ a.outlet.window.isSome = true; rw [hdd, ← c5]; simp
  · rename_i hs _
    have hst : ∀ id, (fallAt a.position.counter a).stores id = (a.stores id || id == .bridging) := fun id =>
      stores_store _ _ _ _ _
    refine ⟨⟨?_, ?_, ?_, ?_, ?_⟩, store_nodup _ _ _ c1, ?_, ?_, ?_, ?_⟩
    · simp [fallAt, storeCompare]
    · show a.edge.absence.isSome = true → _; rw [habs (by rw [hs]; simp)]; simp
    · simp [fallAt, storeCompare]
    · simp [fallAt, storeCompare]
    · show ∀ p ∈ a.edge.pending.toList, (p.qualified = false ↔ EdgeState.falling = .rising) ∧ _
      intro p hp
      have := e5 p hp
      rw [hs] at this
      simp at this
      simp [this]
    · rw [hst]; rw [not_stored c2 (by rw [hs]; decide)]; simp [fallAt, storeCompare]
    · rw [hst]; simp [fallAt, storeCompare]
    · rw [hst]; show _ ↔ a.edge.absence.isSome = true; rw [← c4]; simp
    · rw [hst]; show _ ↔ a.outlet.window.isSome = true; rw [← c5]; simp
  · rename_i hs _
    have hst : ∀ id, (bridgeGap a).stores id = (a.stores id && id != .bridging) := fun id => stores_drop a .bridging id
    refine ⟨⟨?_, ?_, ?_, ?_, ?_⟩, drop_nodup (p := a.position) _ c1, ?_, ?_, ?_, ?_⟩
    · simp [bridgeGap]
    · show a.edge.absence.isSome = true → _; rw [habs (by rw [hs]; simp)]; simp
    · simp [bridgeGap]
    · simp [bridgeGap]
    · show ∀ p ∈ a.edge.pending.toList, (p.qualified = false ↔ EdgeState.present = .rising) ∧ _
      intro p hp
      have := e5 p hp
      rw [hs] at this
      simp at this
      simp [this]
    · rw [hst]; rw [not_stored c2 (by rw [hs]; decide)]; simp [bridgeGap]
    · rw [hst]; simp [bridgeGap]
    · rw [hst]; show _ ↔ a.edge.absence.isSome = true; rw [← c4]; simp
    · rw [hst]; show _ ↔ a.outlet.window.isSome = true; rw [← c5]; simp
  all_goals first
    | exact ⟨⟨e1, e2, e3, e4, e5⟩, c1, c2, c3, c4, c5⟩
    | skip
  all_goals
    rename_i hs _
    have hq : a.stores .qualification = false := not_stored c2 (by rw [hs]; decide)
    have hb : a.stores .bridging = false := not_stored c3 (by rw [hs]; decide)
    split
    · exact followAbsence_edgeSound hs (e3 hs) (hfall (by rw [hs]; simp)) c1 hq hb c5
    · exact ⟨⟨e1, e2, e3, e4, e5⟩, c1, c2, c3, c4, c5⟩

theorem presenceInput_edgeSound (held : Bool) {a : Station} (h : a.edgeSound) : (presenceInput held a).edgeSound := by
  have h1 : ({ a with edge := { a.edge with pin := !a.edge.pin } } : Station).edgeSound := h.ofSame rfl rfl rfl rfl rfl rfl
  unfold presenceInput
  split
  · exact h
  · simp only
    split
    · exact takeChange_edgeSound h1
    · exact h1

theorem resumeEdge_edgeSound {a : Station} (h : a.edgeSound) : (resumeEdge a).edgeSound := by
  have h1 : ({ a with edge := { a.edge with frozen := false } } : Station).edgeSound := h.ofSame rfl rfl rfl rfl rfl rfl
  unfold resumeEdge
  split
  · simp only
    split
    · exact actOnKept_edgeSound _ (takeChange_edgeSound h1)
    · exact h1
  · exact h

theorem raiseCause_edgeSound (c : Cause) {a : Station} (h : a.edgeSound) : (raiseCause c a).edgeSound :=
  h.ofSame rfl rfl rfl rfl rfl rfl

theorem beginPulse_compares (p : PositionUnit) : p.beginPulse.compares = p.compares := by
  unfold PositionUnit.beginPulse
  split <;> rfl

theorem owePulse_edgeSound {a : Station} (h : a.edgeSound) : (owePulse a).edgeSound := by
  unfold owePulse
  split
  · exact raiseCause_edgeSound _ h
  · exact h.ofSame rfl rfl rfl rfl (by simp only [beginPulse_compares]) rfl

theorem triggerTest_edgeSound {a : Station} (h : a.edgeSound) : (triggerTest a).edgeSound := by
  unfold triggerTest
  simp only
  split
  · exact headTakes_edgeSound (owePulse_edgeSound (h.ofSame rfl rfl rfl rfl rfl rfl))
  · exact h

theorem passHighWater_edgeSound {a : Station} (h : a.edgeSound) : (passHighWater a).edgeSound :=
  resumeEdge_edgeSound (triggerTest_edgeSound (h.ofSame rfl rfl rfl rfl rfl rfl))

theorem markReached_ids (p : PositionUnit) : p.markReached.compares.map (·.id) = p.compares.map (·.id) := by
  simp only [PositionUnit.markReached, List.map_map]
  refine List.map_congr_left fun c _ => ?_
  simp only [Function.comp]
  split <;> rfl

theorem markCrossed_ids (old : Pos) (p : PositionUnit) : (p.markCrossed old).compares.map (·.id) = p.compares.map (·.id) := by
  simp only [PositionUnit.markCrossed, List.map_map]
  refine List.map_congr_left fun c _ => ?_
  simp only [Function.comp]
  split <;> rfl

theorem encoderStep_edgeSound (dir : Direction) {a : Station} (h : a.edgeSound) : (encoderStep dir a).edgeSound := by
  have h1 := takeAllDue_edgeSound [] h
  unfold encoderStep
  cases dir with
  | forward =>
    have h2 : ({ takeAllDue [] a with position := { (takeAllDue [] a).position with
        counter := (takeAllDue [] a).position.counter + 1, direction := .forward } } : Station).edgeSound :=
      h1.ofSame rfl rfl rfl rfl rfl rfl
    have h3 : (probeStep { takeAllDue [] a with position := { (takeAllDue [] a).position with
        counter := (takeAllDue [] a).position.counter + 1, direction := .forward } }).edgeSound :=
      h2.ofSame rfl rfl rfl rfl rfl rfl
    simp only [stepForward]
    have hm : ∀ x : Station, x.edgeSound → (markDue x).edgeSound := fun x hx =>
      hx.ofSame rfl rfl rfl rfl (markReached_ids x.position) rfl
    refine hm _ ?_
    split
    · exact passHighWater_edgeSound h3
    · exact h3
  | reverse =>
    simp only [stepReverse]
    split <;> exact h1.ofSame rfl rfl rfl rfl rfl rfl

/-! ## Scan and probe -/

theorem frameEnd_edgeSound (bits : List Bool) {a : Station} (h : a.edgeSound) : (frameEnd bits a).edgeSound := by
  unfold frameEnd
  split
  · exact h
  · exact h.ofSame rfl rfl rfl rfl rfl rfl
  · split
    · exact h.ofSame rfl rfl rfl rfl rfl rfl
    · exact h.ofSame rfl rfl rfl rfl rfl rfl
    · unfold reportArrives
      simp only
      split
      · split
        · exact headTakes_edgeSound (h.ofSame rfl rfl rfl rfl rfl rfl)
        · exact h.ofSame rfl rfl rfl rfl rfl rfl
      · exact h.ofSame rfl rfl rfl rfl rfl rfl

theorem sampleCompletion_edgeSound (raw : BitVec 10) {a : Station} (h : a.edgeSound) : (sampleCompletion raw a).edgeSound := by
  unfold sampleCompletion
  split
  · simp only
    split
    · rename_i s _
      have h1 : (testClosing s { foldReading (trimmed raw a.loc.trim) s a with
          probe := (foldReading (trimmed raw a.loc.trim) s a).probe.sampleOver
            (foldReading (trimmed raw a.loc.trim) s a).loc.parkTime }).edgeSound :=
        testClosing_edgeSound s (h.ofSame rfl rfl rfl rfl rfl rfl)
      split
      · exact headTakes_edgeSound h1
      · exact h1
    · exact h.ofSame rfl rfl rfl rfl rfl rfl
    · exact h.ofSame rfl rfl rfl rfl rfl rfl
  · exact h

/-! ## The line -/

theorem dropRound_edgeSound {a : Station} (h : a.edgeSound) : (dropRound a).edgeSound :=
  deferredTest_edgeSound (h.ofSame rfl rfl rfl rfl rfl rfl)

theorem enterMute_edgeSound {a : Station} (h : a.edgeSound) : (enterMute a).edgeSound :=
  (dropRound_edgeSound h).ofSame rfl rfl rfl rfl rfl rfl

theorem ofLine_edgeSound (l : LineUnit) {a : Station} (h : a.edgeSound) : ({ a with line := l } : Station).edgeSound :=
  h.ofSame rfl rfl rfl rfl rfl rfl

theorem openingPulseEnd_edgeSound (n : Nat) {a : Station} (h : a.edgeSound) : (openingPulseEnd n a).edgeSound := by
  unfold openingPulseEnd
  split
  · simp only
    split
    · split
      · exact enterMute_edgeSound h
      · exact ofLine_edgeSound _ h
    · split
      · exact h.ofSame rfl rfl rfl rfl rfl rfl
      · exact ofLine_edgeSound _ h
  · exact h

theorem alignmentPattern_edgeSound (x y z : Nat) {a : Station} (h : a.edgeSound) : (alignmentPattern x y z a).edgeSound := by
  unfold alignmentPattern
  split
  · simp only
    split
    · exact ofLine_edgeSound _ h
    · exact enterMute_edgeSound h
  · exact h

theorem withRound_edgeSound (r : Round) {a : Station} (h : a.edgeSound) : (withRound r a).edgeSound :=
  h.ofSame rfl rfl rfl rfl rfl rfl

theorem kindContestEnd_edgeSound (peers : List (BitVec 3)) {a : Station} (h : a.edgeSound) :
    (kindContestEnd peers a).edgeSound := by
  unfold kindContestEnd
  split
  · exact h
  · split
    · simp only
      split
      · split
        · exact withRound_edgeSound _ h
        · exact deferredTest_edgeSound (withRound_edgeSound _ h)
      · split
        · split
          · exact withRound_edgeSound _ h
          · exact deferredTest_edgeSound (withRound_edgeSound _ h)
        · exact enterMute_edgeSound h
    · exact h

theorem passEnd_edgeSound (peers : List (BitVec 32)) {a : Station} (h : a.edgeSound) : (passEnd peers a).edgeSound := by
  unfold passEnd
  split
  · exact h
  · split
    · exact h
    · split
      · exact h
      · exact withRound_edgeSound _ h

/-- After any reset the two invariants hold. -/
theorem resetWith_edgeSound (straps : Straps) (mark pin : Bool) (frame : Frame) :
    (Station.resetWith straps mark pin frame).edgeSound := by
  refine ⟨⟨?_, ?_, ?_, ?_, ?_⟩, ?_, ?_, ?_, ?_, ?_⟩ <;>
    simp [Station.resetWith, EdgeUnit.reset, PositionUnit.reset]

theorem ownSlotMismatch_edgeSound (straps : Straps) {a : Station} (h : a.edgeSound) :
    (ownSlotMismatch straps a).edgeSound := by
  unfold ownSlotMismatch
  split
  · exact h
  · split
    · exact resetWith_edgeSound _ _ _ _
    · exact enterMute_edgeSound (ofLine_edgeSound _ h)

theorem lineError_edgeSound (fault : WireFault) {a : Station} (h : a.edgeSound) : (lineError fault a).edgeSound := by
  have hc : ∀ (c : Prop) [Decidable c], (if c then enterMute a else a).edgeSound := by
    intro c _
    split
    · exact enterMute_edgeSound h
    · exact h
  cases fault with
  | openingDrive => exact hc _
  | pattern => exact hc _
  | edge time =>
    show (bodyEdge time a).edgeSound
    unfold bodyEdge
    split
    · exact h
    · split
      · exact withRound_edgeSound _ h
      · exact enterMute_edgeSound h
  | drivenReadsReleased => exact hc _
  | valueWithoutOffer => exact hc _

theorem breakReceived_edgeSound {a : Station} (h : a.edgeSound) : (breakReceived a).edgeSound := by
  have hb := ofLine_edgeSound { (dropRound a).line with
    state := .breaking, quiet := if a.line.state = .mute then 0 else a.line.quiet } (dropRound_edgeSound h)
  unfold breakReceived
  simp only
  split <;> first
    | exact ofLine_edgeSound _ h
    | exact h
    | exact hb

/-! ## Rounds -/

theorem toGuard_edgeSound {a : Station} (h : a.edgeSound) : (toGuard a).edgeSound := h.ofSame rfl rfl rfl rfl rfl rfl

theorem completeNone_edgeSound {a : Station} (h : a.edgeSound) : (completeNone a).edgeSound := by
  unfold completeNone
  split
  · exact h
  · split
    · exact toGuard_edgeSound h
    · split
      · exact toGuard_edgeSound (kindContestEnd_edgeSound [] h)
      · exact h

theorem applyAlignment_edgeSound (d : Pos) (order : List CompareId) {a : Station} (h : a.edgeSound) :
    (applyAlignment d order a).edgeSound := by
  unfold applyAlignment
  simp only
  have h1 : (headTakes { a with position := { a.position with
      counter := a.position.counter + d, highWater := a.position.highWater + d,
      triggerPos := a.position.triggerPos + d } }).edgeSound := headTakes_edgeSound (h.ofSame rfl rfl rfl rfl rfl rfl)
  split
  · exact takeAllDue_edgeSound order (h1.ofSame rfl rfl rfl rfl (markCrossed_ids _ _) rfl)
  · exact h1

theorem applyAgreement_edgeSound (agreed : Bool) {a : Station} (h : a.edgeSound) : (applyAgreement agreed a).edgeSound := by
  unfold applyAgreement
  split
  · split
    · exact h
    · unfold enterRunning
      simp only
      split
      · refine headTakes_edgeSound (enterBlanked_edgeSound ?_)
        exact (h.ofSame (b := { a with start := _, probe := _ }) rfl rfl rfl rfl rfl rfl).loose
      · exact h.ofSame rfl rfl rfl rfl rfl rfl
  · exact h.ofSame rfl rfl rfl rfl rfl rfl

theorem completeAll_edgeSound {a : Station} (h : a.edgeSound) : (completeAll a).edgeSound := h.ofHead (completeAll_frame a)

theorem settleRoll_edgeSound (before after : Eight (Option Nat)) (readings : Eight (Reading RollEntry)) {a : Station}
    (h : a.edgeSound) : (settleRoll before after readings a).edgeSound := by
  unfold settleRoll
  simp only
  refine Station.edgeSound.ofSame (completeAll_edgeSound ?_) rfl rfl rfl rfl rfl rfl
  split <;> exact h.ofSame rfl rfl rfl rfl rfl rfl

theorem completeRoll_edgeSound (slots : List (BitVec 52)) (order : List CompareId) {a : Station} (h : a.edgeSound) :
    (completeRoll slots order a).edgeSound := by
  unfold completeRoll
  split
  · exact h
  · split
    · unfold rollEffects
      simp only
      refine settleRoll_edgeSound _ _ _ (applyAgreement_edgeSound _ ?_)
      exact (applyAlignment_edgeSound _ order (toGuard_edgeSound h)).ofSame rfl rfl rfl rfl rfl rfl
    · exact h

theorem countOpenRound_edgeSound {a : Station} (h : a.edgeSound) : (countOpenRound a).edgeSound := by
  unfold countOpenRound
  simp only
  split <;> exact h.ofSame rfl rfl rfl rfl rfl rfl

theorem storeCreationCompare_edgeSound {id : CompareId} (hid : CompareId.watched id = false) (pos : Pos) {a : Station}
    (h : a.edgeSound) : (storeCreationCompare id pos a).edgeSound := by
  unfold storeCreationCompare
  split
  · exact h
  · exact h.store hid _ _

theorem takeDueGates_edgeSound {a : Station} (h : a.edgeSound) : (takeDueGates a).edgeSound := by
  have : ∀ (l : List Seq) (x : Station), x.edgeSound → (l.foldl
      (fun s seq => if s.position.isDue (.gate seq) then dispatch seq (dropCompare (.gate seq) s) else s) x).edgeSound := by
    intro l
    induction l with
    | nil => exact fun _ h => h
    | cons s rest ih =>
      intro x hx
      refine ih _ ?_
      simp only
      split
      · exact dispatch_edgeSound s (hx.drop (id := .gate s) rfl)
      · exact hx
  exact this _ a h

theorem createRecord_edgeSound (result : Pos) {a : Station} (h : a.edgeSound) : (createRecord result a).edgeSound := by
  have hi : ∀ (c : Prop) [Decidable c] (f : Station → Station) (x : Station),
      (∀ y : Station, y.edgeSound → (f y).edgeSound) → x.edgeSound → (if c then f x else x).edgeSound := by
    intro c _ f x hf hx
    split
    · exact hf x hx
    · exact hx
  unfold createRecord
  simp only
  refine hi _ (fun x => dispatch a.engine.nextSeq (takeDueGates x)) _
    (fun y hy => dispatch_edgeSound _ (takeDueGates_edgeSound hy)) ?_
  refine hi _ (takeDecision _) _ (fun y hy => takeDecision_edgeSound _ hy) ?_
  refine hi _ (takeEmpty _) _ (fun y hy => takeEmpty_edgeSound _ hy) ?_
  refine headTakes_edgeSound (attachTest_edgeSound ?_)
  refine storeCreationCompare_edgeSound (id := .gate _) rfl _ ?_
  refine storeCreationCompare_edgeSound (id := .decision _) rfl _ ?_
  refine storeCreationCompare_edgeSound (id := .empty _) rfl _ ?_
  exact h.ofSame rfl rfl rfl rfl rfl rfl

theorem completeOpen_edgeSound {a : Station} (h : a.edgeSound) : (completeOpen a).edgeSound := by
  unfold completeOpen
  split
  · exact h
  · simp only
    split
    · have hc : (countOpenRound (withRequests (fun q => { q with opening := false }) (toGuard a))).edgeSound :=
        countOpenRound_edgeSound ((toGuard_edgeSound h).ofSame rfl rfl rfl rfl rfl rfl)
      split
      · exact attachTest_edgeSound hc
      · split
        · unfold refuseCreation
          refine headTakes_edgeSound (raiseCause_edgeSound _ (enterBlanked_edgeSound ?_))
          exact Station.edgeSound.loose (Station.edgeSound.ofSame hc rfl rfl rfl rfl rfl rfl)
        · exact createRecord_edgeSound _ hc
    · exact deferredTest_edgeSound (toGuard_edgeSound h)

theorem completeTally_edgeSound (slots : List (BitVec 448)) {a : Station} (h : a.edgeSound) :
    (completeTally slots a).edgeSound := by
  have hg := toGuard_edgeSound h
  have hslot : ∀ (s : Seq) (readings : Eight (Reading TallyEntry)) (l : List Index) (x : Station), x.edgeSound →
      (l.foldl (takeSlot s readings) x).edgeSound := by
    intro s readings l
    induction l with
    | nil => exact fun _ h => h
    | cons k rest ih =>
      intro x hx
      refine ih _ ?_
      unfold takeSlot
      split
      · exact hx
      · exact hx.ofSame rfl rfl rfl rfl rfl rfl
  have hrm : ∀ x : Station, x.edgeSound → (removeMembers x).edgeSound := by
    intro x hx
    unfold removeMembers
    simp only
    split
    · exact hx.ofSame rfl rfl rfl rfl rfl rfl
    · exact hx
  have hset : ∀ (s : Seq) (raised : Bool) (sent : TallyEntry) (x : Station), x.edgeSound →
      (settleTally s raised sent x).edgeSound := by
    intro s raised sent x hx
    unfold settleTally
    simp only
    (repeat' split) <;> exact hx.ofSame rfl rfl rfl rfl rfl rfl
  unfold completeTally
  split
  · exact h
  · simp only
    split
    · split
      · unfold tallyEffects
        exact hset _ _ _ _ (completeAll_edgeSound (hrm _ (hslot _ _ indices _ hg)))
      · exact hg
    · exact hg

theorem completeVerdict_edgeSound {a : Station} (h : a.edgeSound) : (completeVerdict a).edgeSound := by
  have hg := toGuard_edgeSound h
  unfold completeVerdict
  split
  · exact h
  · simp only
    split
    · exact hg
    · split
      · unfold verdictEffects
        split
        · split
          · unfold decideRecord
            split
            · exact hg
            · split
              · exact hg
              · exact hg.ofSame rfl rfl rfl rfl rfl rfl
          · exact hg
        · split
          · exact hg.ofSame rfl rfl rfl rfl rfl rfl
          · exact hg
      · exact hg

/-! ## PURGE -/

/-- BLANKED and IDLE, one of which blanking leads to. -/
def EdgeState.ended (s : EdgeState) : Prop := s = .blanked ∨ s = .idle

theorem followAbsence_ended {a : Station} (h : a.edge.state = .blanked) : (followAbsence a).edge.state.ended := by
  unfold followAbsence
  split
  · exact .inl h
  · simp only
    split
    · split
      · exact .inl h
      · exact .inr rfl
    · exact .inl h

theorem enterBlanked_ended (a : Station) : (enterBlanked a).edge.state.ended := by
  unfold enterBlanked
  simp only
  split
  · rename_i h; exact .inl h
  · exact followAbsence_ended rfl

/-- The removal of a record blanks the Edge Unit where the own band was OPEN, and leaves its state otherwise. -/
theorem removeRecord_state (outcome : Verdict) (mark : SheetFlags → SheetFlags) (s : Seq) (a : Station) :
    ((∃ r, a.record s = some r ∧ r.band.state = .opened) → (removeRecord outcome mark s a).edge.state.ended) ∧
    ((removeRecord outcome mark s a).edge.state.ended ∨ (removeRecord outcome mark s a).edge.state = a.edge.state) := by
  unfold removeRecord
  cases hr : a.record s with
  | none => exact ⟨fun ⟨_, h, _⟩ => (nomatch h), .inr rfl⟩
  | some r =>
    simp only
    by_cases hb : r.band.state = .opened
    · simp only [hb, if_true]
      exact ⟨fun _ => enterBlanked_ended _, .inl (enterBlanked_ended _)⟩
    · simp only [hb, if_false]
      refine ⟨?_, .inr rfl⟩
      rintro ⟨x, hx, hx'⟩
      cases hx
      exact absurd hx' hb

theorem followAbsence_table (a : Station) : (followAbsence a).table = a.table := by
  unfold followAbsence
  split
  · rfl
  · simp only
    split
    · split <;> rfl
    · rfl

theorem enterBlanked_table (a : Station) : (enterBlanked a).table = a.table := by
  unfold enterBlanked
  simp only
  split
  · rfl
  · exact followAbsence_table _

theorem removeRecord_table (outcome : Verdict) (mark : SheetFlags → SheetFlags) (s : Seq) (a : Station) :
    (removeRecord outcome mark s a).table = a.table.filter fun x => x.seq != s := by
  unfold removeRecord
  cases hr : a.record s with
  | none =>
    simp only
    refine (List.filter_eq_self.2 fun x hx => ?_).symm
    have := List.find?_eq_none.1 hr x hx
    simpa using this
  | some r =>
    simp only
    split
    · exact (enterBlanked_table _).trans rfl
    · rfl

/-- The removal of every record, one of which has an OPEN band, blanks the Edge Unit. -/
theorem purgeFold_ended : ∀ (l : List Seq) (a : Station), a.seqsDistinct →
    ((∃ r ∈ a.table, r.band.state = .opened ∧ r.seq ∈ l) ∨ a.edge.state.ended) →
    (l.foldl purgeRecord a).edge.state.ended := by
  intro l
  induction l with
  | nil =>
    rintro a _ (⟨r, _, _, h⟩ | h)
    · cases h
    · exact h
  | cons s rest ih =>
    intro a hd h
    have hst := removeRecord_state .manual (fun f => { f with purged := true }) s a
    have htab := removeRecord_table .manual (fun f => { f with purged := true }) s a
    have hd' : (purgeRecord a s).seqsDistinct := by
      show ((removeRecord _ _ s a).table.map (·.seq)).Nodup
      rw [htab]
      exact List.Nodup.sublist (List.Sublist.map _ List.filter_sublist) hd
    refine ih _ hd' ?_
    rcases h with ⟨r, hr, ho, hm⟩ | h
    · by_cases hs : r.seq = s
      · exact .inr (hst.1 ⟨r, hs ▸ record_of_mem hd hr, ho⟩)
      · refine .inl ⟨r, ?_, ho, ?_⟩
        · show r ∈ (removeRecord _ _ s a).table
          rw [htab]; exact List.mem_filter.2 ⟨hr, by simpa using hs⟩
        · rcases List.mem_cons.1 hm with h | h
          · exact absurd h hs
          · exact h
    · rcases hst.2 with h' | h'
      · exact .inr h'
      · exact .inr (by show (removeRecord _ _ s a).edge.state.ended; rw [h']; exact h)

theorem purgeFold_edgeSound (l : List Seq) : ∀ {a : Station}, a.edgeSound → (l.foldl purgeRecord a).edgeSound := by
  induction l with
  | nil => exact fun h => h
  | cons s rest ih => exact fun h => ih (removeRecord_edgeSound _ _ s h)

theorem purgeEdge_edgeSound (b : Bool) {a : Station} (h : a.edgeSound) (hb : b = true → a.edge.state.ended) :
    (purgeEdge b a).edgeSound := by
  have hl : (discardPending a).edgeLoose := by
    obtain ⟨l1, l2, l3, l4, l5⟩ := h.loose
    have hdd : ∀ id, (discardPending a).stores id = (a.stores id && id != .qualification) := stores_drop a _
    refine ⟨l1, l2, drop_nodup (p := a.position) _ l3, ?_, ?_⟩
    · rw [hdd]; show _ ↔ a.edge.absence.isSome = true; rw [← l4]; simp
    · rw [hdd]; show _ ↔ a.outlet.window.isSome = true; rw [← l5]; simp
  obtain ⟨⟨e1, e2, e3, e4, e5⟩, c1, c2, c3, c4, c5⟩ := h
  have hdd : ∀ id, (discardPending a).stores id = (a.stores id && id != .qualification) := stores_drop a _
  unfold purgeEdge
  simp only
  split
  · exact enterBlanked_edgeSound hl
  · split
    · rename_i hbt
      have hne : a.edge.state ≠ .rising := by
        rcases hb (by simpa using hbt) with h | h <;> rw [h] <;> decide
      refine ⟨⟨e1, e2, fun _ => rfl, fun hs => absurd hs hne, ?_⟩, drop_nodup (p := a.position) _ c1, ?_, ?_, ?_, ?_⟩
      · show ∀ p ∈ (none : Option PendingEdge).toList, _; simp
      · rw [hdd]; show _ ↔ a.edge.state = .rising; simp [hne]
      · rw [hdd]; show _ ↔ a.edge.state = .falling; rw [← c3]; simp
      · rw [hdd]; show _ ↔ a.edge.absence.isSome = true; rw [← c4]; simp
      · rw [hdd]; show _ ↔ a.outlet.window.isSome = true; rw [← c5]; simp
    · have hd3 : ∀ id, (dropCompare .blankRelease (dropCompare .bridging (discardPending a))).stores id =
          (a.stores id && id != .qualification && id != .bridging && id != .blankRelease) := by
        intro id; rw [stores_drop, stores_drop, hdd]
      refine ⟨⟨?_, ?_, ?_, ?_, ?_⟩, drop_nodup _ (drop_nodup _ (drop_nodup (p := a.position) _ c1)), ?_, ?_, ?_, ?_⟩
      · simp
      · simp
      · simp
      · simp
      · show ∀ p ∈ (none : Option PendingEdge).toList, _; simp
      · show (dropCompare .blankRelease (dropCompare .bridging (discardPending a))).stores _ = true ↔ _; rw [hd3]; simp
      · show (dropCompare .blankRelease (dropCompare .bridging (discardPending a))).stores _ = true ↔ _; rw [hd3]; simp
      · show (dropCompare .blankRelease (dropCompare .bridging (discardPending a))).stores _ = true ↔ _; rw [hd3]; simp
      · show (dropCompare .blankRelease (dropCompare .bridging (discardPending a))).stores _ = true ↔
          a.outlet.window.isSome = true
        rw [hd3, ← c5]; simp

theorem completePurge_edgeSound {a : Station} (hd : a.seqsDistinct) (h : a.edgeSound) : (completePurge a).edgeSound := by
  have hg := toGuard_edgeSound h
  unfold completePurge
  split
  · exact h
  · simp only
    split
    · split
      · unfold purgeAll
        simp only
        refine Station.edgeSound.ofSame (purgeEdge_edgeSound _ (purgeFold_edgeSound _ hg) ?_) rfl rfl rfl rfl rfl rfl
        intro ho
        obtain ⟨r, hr⟩ := Option.isSome_iff_exists.1 ho
        have hm := openRecord_mem hr
        exact purgeFold_ended _ _ hd (.inl ⟨r, hm.1, hm.2, List.mem_map.2 ⟨r, hm.1, rfl⟩⟩)
      · unfold purgeOpen
        simp only
        split
        · exact hg.ofSame rfl rfl rfl rfl rfl rfl
        · exact (headTakes_edgeSound (purgeFold_edgeSound _ hg)).ofSame rfl rfl rfl rfl rfl rfl
      · unfold purgeOne
        split
        · exact (headTakes_edgeSound (removeRecord_edgeSound _ _ _ hg)).ofSame rfl rfl rfl rfl rfl rfl
        · exact hg.ofSame rfl rfl rfl rfl rfl rfl
      · exact hg
    · exact hg

/-! ## Start-up -/

theorem readEnd_edgeSound (sections : List Byte) {a : Station} (hq : a.offLineQuiet) (h : a.edgeSound) :
    (readEnd sections a).edgeSound := by
  unfold readEnd
  split
  · rename_i hc
    split
    · exact h.ofSame rfl rfl rfl rfl rfl rfl
    · split
      · exact h.ofSame rfl rfl rfl rfl rfl rfl
      · have hoff : a.start.node.onLine = false := by rw [hc.1]; rfl
        obtain ⟨q1, q2, _, q4, _, _, _, _, _, _, _, q12, _⟩ := hq hoff
        have hfall : a.edge.fall = none := by
          cases hf : a.edge.fall with
          | none => rfl
          | some x => have := h.1.1.1 (by rw [hf]; rfl); rw [q1] at this; cases this
        unfold enterJoining watchBand
        simp only
        split
        · refine Station.edgeSound.ofSame (a := { a with edge := { a.edge with state := .blanked, absence := none } })
            ?_ rfl rfl rfl rfl rfl rfl
          refine ⟨⟨?_, ?_, fun _ => q2, ?_, ?_⟩, h.2.1, ?_, ?_, ?_, ?_⟩
          · simp [hfall]
          · simp
          · simp
          · show ∀ p ∈ a.edge.pending.toList, _; simp [q2]
          · simp [Station.stores, q4]
          · simp [Station.stores, q4]
          · simp [Station.stores, q4]
          · simp [Station.stores, q4, q12]
        · exact h.ofSame rfl rfl rfl rfl rfl rfl
  · exact h

end Sys2Proof.Machine
end

