-- ==== Sys2Proof/Laws/TableSound.lean ====
section
/-! SUPPORT. That the operations keep the records, the compares and requests that name them, and the target of a sample in flight
as recordsFit, subjectsHeld and targetFits of Safety.lean ask, with the sequence numbers distinct. One lemma for each operation,
Station.tableSound.<operation>; what an operation leaves aside is an Aside lemma. -/

namespace Sys2Proof.Machine

/-- The four invariants together. -/
def Station.tableSound (st : Station) : Prop :=
  st.seqsDistinct ∧ st.recordsFit ∧ st.subjectsHeld ∧ st.targetFits

/-- A record as its phase and its own band state ask. -/
def Record.fit (r : Record) : Prop := r.band.edgesFit ∧ r.phaseFits

/-- A band that a sample in flight may target. -/
def Band.live (b : Band) : Prop := b.state = .opened ∨ b.state = .closing

/-- A compare of this purpose names no record, or one that the table holds. -/
def Station.mayStore (st : Station) (id : CompareId) : Prop :=
  ∀ s, CompareId.subject id = some s → s ∈ st.table.map (·.seq)

theorem mayStore_iff (st : Station) (id : CompareId) : st.mayStore id ↔
    (CompareId.subject id).all (fun s => decide (s ∈ st.table.map (·.seq))) = true := by
  unfold Station.mayStore
  cases CompareId.subject id with
  | none => simp
  | some s => simp

/-! ## What leaves the records aside -/

/-- The records, the subjects of their requests and the sample target are kept, and no compare of a record is added. -/
structure Aside (a b : Station) : Prop where
  table : b.table = a.table
  tally : b.engine.requests.tally.map (·.subject) = a.engine.requests.tally.map (·.subject)
  verdict : b.engine.requests.verdict.map (·.subject) = a.engine.requests.verdict.map (·.subject)
  target : b.probe.target = a.probe.target
  compares : ∀ id ∈ b.position.compares.map (·.id), id ∈ a.position.compares.map (·.id) ∨ CompareId.subject id = none

theorem Aside.refl (a : Station) : Aside a a := ⟨rfl, rfl, rfl, rfl, fun _ h => .inl h⟩

theorem Aside.trans {a b c : Station} (h : Aside a b) (k : Aside b c) : Aside a c :=
  ⟨k.table.trans h.table, k.tally.trans h.tally, k.verdict.trans h.verdict, k.target.trans h.target, fun id hid =>
    (k.compares id hid).elim (fun hb => h.compares id hb) .inr⟩

/-- The same records, requests, sample and compares. -/
theorem Aside.ofSame {a b : Station} (ht : b.table = a.table) (hq : b.engine.requests = a.engine.requests)
    (hp : b.probe.target = a.probe.target)
    (hc : b.position.compares.map (·.id) = a.position.compares.map (·.id)) : Aside a b :=
  ⟨ht, by rw [hq], by rw [hq], hp, fun id hid => .inl (hc ▸ hid)⟩

theorem storeCompare_aside {id : CompareId} (hid : CompareId.subject id = none) (pos : Pos) (g : Progress) (st : Station) :
    Aside st (storeCompare id pos g st) := by
  refine ⟨rfl, rfl, rfl, rfl, fun x hx => ?_⟩
  simp only [storeCompare, PositionUnit.store, PositionUnit.drop, List.map_append, List.mem_append, List.map_cons,
    List.map_nil, List.mem_singleton] at hx
  rcases hx with hx | rfl
  · obtain ⟨c, hc, rfl⟩ := List.mem_map.1 hx
    exact .inl (List.mem_map.2 ⟨c, (List.mem_filter.1 hc).1, rfl⟩)
  · exact .inr hid

theorem drop_mem {p : PositionUnit} {a : CompareId} {c : Compare} (h : c ∈ (p.drop a).compares) : c ∈ p.compares :=
  (List.mem_filter.1 h).1

/-- A smaller store of compares. -/
theorem Aside.ofFewer {a b : Station} (ht : b.table = a.table) (hq : b.engine.requests = a.engine.requests)
    (hp : b.probe.target = a.probe.target) (hc : ∀ c ∈ b.position.compares, c ∈ a.position.compares) : Aside a b :=
  ⟨ht, by rw [hq], by rw [hq], hp, fun id hid => by
    obtain ⟨c, h, rfl⟩ := List.mem_map.1 hid
    exact .inl (List.mem_map.2 ⟨c, hc c h, rfl⟩)⟩

theorem dropCompare_aside (id : CompareId) (st : Station) : Aside st (dropCompare id st) :=
  .ofFewer rfl rfl rfl fun _ h => drop_mem h

theorem discardPending_aside (st : Station) : Aside st (discardPending st) := .ofFewer rfl rfl rfl fun _ h => drop_mem h

theorem releaseBlank_aside (st : Station) : Aside st (releaseBlank st) := .ofFewer rfl rfl rfl fun _ h => drop_mem h

theorem ofEdge_aside (e : EdgeUnit) (st : Station) : Aside st { st with edge := e } := .ofSame rfl rfl rfl rfl

theorem ofLine_aside (l : LineUnit) (st : Station) : Aside st { st with line := l } := .ofSame rfl rfl rfl rfl

theorem ofPort_aside (p : ResultPort) (st : Station) : Aside st { st with port := p } := .ofSame rfl rfl rfl rfl

theorem ofScan_aside (p : ScanUnit) (st : Station) : Aside st { st with scan := p } := .ofSame rfl rfl rfl rfl

theorem ofProbe_aside (p : ProbeUnit) (st : Station) (h : p.target = st.probe.target) : Aside st { st with probe := p } :=
  .ofSame rfl rfl h rfl

theorem raiseCause_aside (c : Cause) (st : Station) : Aside st (raiseCause c st) := ofPort_aside _ st

theorem followAbsence_aside (st : Station) : Aside st (followAbsence st) := by
  unfold followAbsence
  split
  · exact dropCompare_aside _ st
  · simp only
    split
    · split
      · exact storeCompare_aside rfl _ _ st
      · exact releaseBlank_aside st
    · exact storeCompare_aside rfl _ _ st

theorem enterBlanked_aside (st : Station) : Aside st (enterBlanked st) := by
  unfold enterBlanked
  simp only
  have h := (discardPending_aside st).trans (dropCompare_aside .bridging _)
  split
  · exact h
  · exact (h.trans (ofEdge_aside _ _)).trans (followAbsence_aside _)

theorem storeSample_aside (st : Station) : Aside st (storeSample st) := by
  unfold storeSample
  split
  · exact dropCompare_aside _ st
  · exact storeCompare_aside rfl _ _ st

theorem raiseOpen_aside (st : Station) : Aside st (raiseOpen st) := ⟨rfl, rfl, rfl, rfl, fun _ h => .inl h⟩

theorem raiseRoll_aside (st : Station) : Aside st (raiseRoll st) := ⟨rfl, rfl, rfl, rfl, fun _ h => .inl h⟩

theorem closeWindow_aside (st : Station) : Aside st (closeWindow st) := .ofFewer rfl rfl rfl fun _ h => drop_mem h

theorem gateCommand_aside (r : Record) (outcome : Verdict) (st : Station) : Aside st (gateCommand r outcome st).1 := by
  unfold gateCommand
  simp only
  split
  · exact Aside.refl st
  · split
    · exact Aside.refl st
    · have h : Aside st { st with outlet := { window := some ⟨st.shared.binMap.get outcome.index,
          r.gatePos + counts st.shared.gateWindow⟩ } } := .ofSame rfl rfl rfl rfl
      have k := h.trans (storeCompare_aside (id := .windowEnd) rfl (r.gatePos + counts st.shared.gateWindow) .waiting _)
      split
      · exact k.trans (closeWindow_aside _)
      · exact k

/-! ## The invariants after a change of the records -/

/-- The records change each in place, as long as they fit and a target stays one; compares and requests name held records. -/
theorem Station.tableSound.map {a b : Station} (h : a.tableSound) (f : Record → Record) (ht : b.table = a.table.map f)
    (hs : ∀ r, (f r).seq = r.seq) (hf : ∀ r ∈ a.table, r.fit → (f r).fit)
    (hl : ∀ r ∈ a.table, b.probe.target = some (.held r.seq) → r.band.live → (f r).band.live)
    (hc : ∀ c ∈ b.position.compares, a.mayStore c.id)
    (hq : List.Sublist (b.engine.requests.tally.map (·.subject)) (a.engine.requests.tally.map (·.subject)))
    (hv : List.Sublist (b.engine.requests.verdict.map (·.subject)) (a.engine.requests.verdict.map (·.subject)))
    (hp : b.probe.target = a.probe.target ∨ b.probe.target = none ∨ b.probe.target = some .lost) : b.tableSound := by
  obtain ⟨h1, h2, ⟨_, h4, h5, h6, h7⟩, h8⟩ := h
  have hseq : b.table.map (·.seq) = a.table.map (·.seq) := by
    rw [ht, List.map_map]; exact List.map_congr_left fun r _ => hs r
  refine ⟨?_, ?_, ⟨?_, ?_, ?_, hq.nodup h6, hv.nodup h7⟩, ?_⟩
  · unfold Station.seqsDistinct; rw [hseq]; exact h1
  · intro r hr
    rw [ht] at hr
    obtain ⟨x, hx, rfl⟩ := List.mem_map.1 hr
    exact hf x hx (h2 x hx)
  · intro c hcm
    rw [hseq]
    exact (mayStore_iff a c.id).1 (hc c hcm)
  · intro x hx
    rw [hseq]
    obtain ⟨y, hy, hyx⟩ := List.mem_map.1 (hq.subset (List.mem_map.2 ⟨x, hx, rfl⟩))
    exact hyx ▸ h4 y hy
  · intro x hx
    rw [hseq]
    obtain ⟨y, hy, hyx⟩ := List.mem_map.1 (hv.subset (List.mem_map.2 ⟨x, hx, rfl⟩))
    exact hyx ▸ h5 y hy
  · intro target htm
    rcases hp with hp | hp | hp
    · rw [hp] at htm
      rcases h8 target htm with h9 | ⟨r, hr, hrt, hlive⟩
      · exact .inl h9
      · refine .inr ⟨f r, ht ▸ List.mem_map.2 ⟨r, hr, rfl⟩, by rw [hs]; exact hrt, hl r hr ?_ hlive⟩
        rw [hp, ← hrt]
        simpa using htm
    · rw [hp] at htm; simp at htm
    · rw [hp] at htm; simp at htm; exact .inl htm

theorem Station.tableSound.mayStore {a : Station} (h : a.tableSound) {c : Compare} (hc : c ∈ a.position.compares) :
    a.mayStore c.id := (mayStore_iff a c.id).2 (h.2.2.1.1 c hc)

theorem Station.tableSound.aside {a b : Station} (h : a.tableSound) (k : Aside a b) : b.tableSound := by
  refine h.map id (by rw [k.table]; simp) (fun _ => rfl) (fun _ _ x => x) (fun _ _ _ x => x) ?_ (k.tally ▸ .refl _)
    (k.verdict ▸ .refl _) (.inl k.target)
  intro c hc
  rcases k.compares c.id (List.mem_map.2 ⟨c, hc, rfl⟩) with hm | hn
  · obtain ⟨x, hx, hxc⟩ := List.mem_map.1 hm
    exact hxc ▸ h.mayStore hx
  · intro s hs; rw [hn] at hs; cases hs

/-- One record changes in place. -/
theorem Station.tableSound.update {a : Station} (h : a.tableSound) (s : Seq) (f : Record → Record)
    (hs : ∀ r, (f r).seq = r.seq)
    (hf : ∀ r, a.record s = some r → r.fit → (f r).fit ∧
      (a.probe.target = some (.held s) → r.band.live → (f r).band.live)) : (updateRecord s f a).tableSound := by
  have hr : ∀ r ∈ a.table, r.seq = s → a.record s = some r := fun r hr hrs => hrs ▸ record_of_mem h.1 hr
  refine h.map (fun r => if r.seq = s then f r else r) rfl ?_ ?_ ?_ (fun c hc => h.mayStore hc) (.refl _) (.refl _)
    (.inl rfl)
  · intro r; split
    · exact hs r
    · rfl
  · intro r hm hfit
    by_cases hrs : r.seq = s
    · simp only [hrs, if_true]; exact (hf r (hr r hm hrs) hfit).1
    · simp only [hrs, if_false]; exact hfit
  · intro r hm htar hlive
    by_cases hrs : r.seq = s
    · simp only [hrs, if_true]
      exact (hf r (hr r hm hrs) (h.2.1 r hm)).2 (by rw [← hrs]; exact htar) hlive
    · simp only [hrs, if_false]; exact hlive

/-- The request set changes, its subjects being held records without a double. -/
theorem Station.tableSound.requests {a : Station} (h : a.tableSound) (f : Requests → Requests)
    (h1 : ∀ s ∈ (f a.engine.requests).tally.map (·.subject), s ∈ a.table.map (·.seq))
    (h2 : ∀ s ∈ (f a.engine.requests).verdict.map (·.subject), s ∈ a.table.map (·.seq))
    (h3 : ((f a.engine.requests).tally.map (·.subject)).Nodup)
    (h4 : ((f a.engine.requests).verdict.map (·.subject)).Nodup) : (withRequests f a).tableSound :=
  ⟨h.1, h.2.1, ⟨h.2.2.1.1, fun x hx => h1 _ (List.mem_map.2 ⟨x, hx, rfl⟩), fun x hx => h2 _ (List.mem_map.2 ⟨x, hx, rfl⟩),
    h3, h4⟩, h.2.2.2⟩

theorem Station.tableSound.tallySubjects {a : Station} (h : a.tableSound) :
    ∀ s ∈ a.engine.requests.tally.map (·.subject), s ∈ a.table.map (·.seq) := by
  intro s hs
  obtain ⟨x, hx, rfl⟩ := List.mem_map.1 hs
  exact h.2.2.1.2.1 x hx

theorem Station.tableSound.verdictSubjects {a : Station} (h : a.tableSound) :
    ∀ s ∈ a.engine.requests.verdict.map (·.subject), s ∈ a.table.map (·.seq) := by
  intro s hs
  obtain ⟨x, hx, rfl⟩ := List.mem_map.1 hs
  exact h.2.2.1.2.2.1 x hx

/-- Requests that lose subjects and gain none. -/
theorem Station.tableSound.fewer {a : Station} (h : a.tableSound) (f : Requests → Requests)
    (ht : List.Sublist ((f a.engine.requests).tally.map (·.subject)) (a.engine.requests.tally.map (·.subject)))
    (hv : List.Sublist ((f a.engine.requests).verdict.map (·.subject)) (a.engine.requests.verdict.map (·.subject))) :
    (withRequests f a).tableSound :=
  h.requests f (fun s hs => h.tallySubjects s (ht.subset hs)) (fun s hs => h.verdictSubjects s (hv.subset hs))
    (ht.nodup h.2.2.1.2.2.2.1) (hv.nodup h.2.2.1.2.2.2.2)

theorem dropTally_sublist (s : Seq) (q : Requests) :
    List.Sublist ((q.dropTally s).tally.map (·.subject)) (q.tally.map (·.subject)) := List.Sublist.map _ List.filter_sublist

theorem dropVerdict_sublist (s : Seq) (q : Requests) :
    List.Sublist ((q.dropVerdict s).verdict.map (·.subject)) (q.verdict.map (·.subject)) :=
  List.Sublist.map _ List.filter_sublist

theorem markTally_subjects (s : Seq) (b : Bool) (q : Requests) :
    (q.markTally s b).tally.map (·.subject) = q.tally.map (·.subject) := by
  simp only [Requests.markTally, List.map_map]
  refine List.map_congr_left fun x _ => ?_
  simp only [Function.comp]; split <;> rfl

theorem markVerdict_subjects (s : Seq) (b : Bool) (q : Requests) :
    (q.markVerdict s b).verdict.map (·.subject) = q.verdict.map (·.subject) := by
  simp only [Requests.markVerdict, List.map_map]
  refine List.map_congr_left fun x _ => ?_
  simp only [Function.comp]; split <;> rfl

theorem raiseTally_subjects (s : Seq) (q : Requests) : (q.raiseTally s).tally.map (·.subject) =
    if s ∈ q.tally.map (·.subject) then q.tally.map (·.subject) else q.tally.map (·.subject) ++ [s] := by
  have hiff : q.tally.any (·.subject == s) = true ↔ s ∈ q.tally.map (·.subject) := by simp
  unfold Requests.raiseTally
  by_cases hm : s ∈ q.tally.map (·.subject)
  · rw [if_pos (hiff.2 hm), if_pos hm]
    simp only [List.map_map]
    refine List.map_congr_left fun x _ => ?_
    simp only [Function.comp]; split <;> rfl
  · rw [if_neg (fun hh => hm (hiff.1 hh)), if_neg hm]; simp

theorem raiseVerdict_subjects (s : Seq) (b : Bool) (q : Requests) : (q.raiseVerdict s b).verdict.map (·.subject) =
    if s ∈ q.verdict.map (·.subject) then q.verdict.map (·.subject) else q.verdict.map (·.subject) ++ [s] := by
  have hiff : q.verdict.any (·.subject == s) = true ↔ s ∈ q.verdict.map (·.subject) := by simp
  unfold Requests.raiseVerdict
  by_cases hm : s ∈ q.verdict.map (·.subject)
  · rw [if_pos (hiff.2 hm), if_pos hm]
  · rw [if_neg (fun hh => hm (hiff.1 hh)), if_neg hm]; simp

theorem nodup_append_new {l : List Seq} {s : Seq} (h : l.Nodup) (hs : s ∉ l) : (l ++ [s]).Nodup :=
  List.Nodup.append h (by simp) (by simpa using hs)

theorem Station.tableSound.raiseTally {a : Station} (h : a.tableSound) {s : Seq} (hs : s ∈ a.table.map (·.seq)) :
    (withRequests (Requests.raiseTally s) a).tableSound := by
  refine h.requests _ ?_ ?_ ?_ ?_
  · rw [raiseTally_subjects]
    split
    · exact h.tallySubjects
    · intro x hx
      rcases List.mem_append.1 hx with hx | hx
      · exact h.tallySubjects x hx
      · simp only [List.mem_singleton] at hx; exact hx ▸ hs
  · rw [Requests.raiseTally_verdict]; exact h.verdictSubjects
  · rw [raiseTally_subjects]
    split
    · exact h.2.2.1.2.2.2.1
    · next hn => exact nodup_append_new h.2.2.1.2.2.2.1 hn
  · rw [Requests.raiseTally_verdict]; exact h.2.2.1.2.2.2.2

theorem Station.tableSound.raiseVerdict {a : Station} (h : a.tableSound) {s : Seq} (b : Bool)
    (hs : s ∈ a.table.map (·.seq)) : (withRequests (Requests.raiseVerdict s b) a).tableSound := by
  refine h.requests _ ?_ ?_ ?_ ?_
  · rw [Requests.raiseVerdict_tally]; exact h.tallySubjects
  · rw [raiseVerdict_subjects]
    split
    · exact h.verdictSubjects
    · intro x hx
      rcases List.mem_append.1 hx with hx | hx
      · exact h.verdictSubjects x hx
      · simp only [List.mem_singleton] at hx; exact hx ▸ hs
  · rw [Requests.raiseVerdict_tally]; exact h.2.2.1.2.2.2.1
  · rw [raiseVerdict_subjects]
    split
    · exact h.2.2.1.2.2.2.2
    · next hn => exact nodup_append_new h.2.2.1.2.2.2.2 hn

theorem Station.tableSound.dropTally {a : Station} (h : a.tableSound) (s : Seq) :
    (withRequests (Requests.dropTally s) a).tableSound := h.fewer _ (dropTally_sublist s _) (.refl _)

theorem Station.tableSound.markTally {a : Station} (h : a.tableSound) (s : Seq) (b : Bool) :
    (withRequests (Requests.markTally s b) a).tableSound :=
  h.fewer _ (by rw [markTally_subjects]) (.refl _)

theorem Station.tableSound.markVerdict {a : Station} (h : a.tableSound) (s : Seq) (b : Bool) :
    (withRequests (Requests.markVerdict s b) a).tableSound :=
  h.fewer _ (.refl _) (by rw [markVerdict_subjects])

/-- A compare that names a held record, or none, is stored. -/
theorem Station.tableSound.store {a : Station} (h : a.tableSound) {id : CompareId} (hid : a.mayStore id) (pos : Pos)
    (g : Progress) : (storeCompare id pos g a).tableSound := by
  refine h.map (fun r => r) (by simp [storeCompare]) (fun _ => rfl) (fun _ _ x => x) (fun _ _ _ x => x) ?_ (.refl _) (.refl _) (.inl rfl)
  intro c hc
  simp only [storeCompare, PositionUnit.store, List.mem_append, List.mem_singleton] at hc
  rcases hc with hc | rfl
  · exact h.mayStore (drop_mem hc)
  · exact hid

/-! ## Completeness, closing and head takes -/

theorem updateRecord_seqs (s : Seq) (f : Record → Record) (hs : ∀ r, (f r).seq = r.seq) (a : Station) :
    (updateRecord s f a).table.map (·.seq) = a.table.map (·.seq) := by
  simp only [updateRecord_table, List.map_map]
  refine List.map_congr_left fun r _ => ?_
  simp only [Function.comp]; split
  · exact hs r
  · rfl

theorem Record.fit_gradeRecord (sh : Shared) {r : Record} (h : r.fit) :
    (gradeRecord sh r).fit ∧ (gradeRecord sh r).verdict.isSome = true :=
  ⟨⟨h.1, h.2.1, fun _ => rfl, fun _ _ => rfl⟩, rfl⟩

/-- The completeness test keeps the four. -/
theorem Station.tableSound.completeRecord {a : Station} (h : a.tableSound) (own : Bool) (s : Seq) :
    (completeRecord own s a).tableSound := by
  unfold Machine.completeRecord
  cases hr : a.record s with
  | none => exact h
  | some r =>
    simp only
    split
    · next hc =>
      have h1 : (updateRecord s
          (fun x => { (if x.frozen then x else gradeRecord a.shared x) with phase := .tallied }) a).tableSound := by
        refine h.update s _ (fun x => by cases hx : x.frozen <;> simp [gradeRecord]) fun x hx hfit => ?_
        rw [hr] at hx; cases hx
        refine ⟨?_, fun _ hlive => by cases hf : r.frozen <;> simpa [gradeRecord] using hlive⟩
        have ho : r.outcome = none := by
          cases hh : r.outcome with
          | none => rfl
          | some v =>
            have := hfit.2.1.1 (by rw [hh]; rfl)
            rw [hc.1] at this; cases this
        cases hf : r.frozen
        · simp only [Bool.false_eq_true, if_false]
          exact ⟨hfit.1, by simp [gradeRecord, ho], fun _ => rfl, fun hp => by simp at hp⟩
        · simp only [if_true]
          exact ⟨hfit.1, by simp [ho], fun _ => hfit.2.2.2 hc.1 hf, fun hp => by simp at hp⟩
      have hmem : s ∈ a.table.map (·.seq) := record_mem_seqs hr
      have h2 : (if own = true then updateRecord s
          (fun x => { (if x.frozen then x else gradeRecord a.shared x) with phase := .tallied }) a
        else withRequests (Requests.dropTally s) (updateRecord s
          (fun x => { (if x.frozen then x else gradeRecord a.shared x) with phase := .tallied }) a)).tableSound := by
        split
        · exact h1
        · exact h1.dropTally s
      split
      · exact h2
      · refine h2.raiseVerdict own ?_
        have hs := updateRecord_seqs s
          (fun x => { (if x.frozen then x else gradeRecord a.shared x) with phase := .tallied })
          (fun x => by cases hx : x.frozen <;> simp [gradeRecord]) a
        split <;> simpa only [withRequests_table, hs] using hmem
    · exact h

/-- A fold of operations that each keep the four. -/
theorem foldl_tableSound (f : Station → Seq → Station) (hf : ∀ (x : Station) q, x.tableSound → (f x q).tableSound) :
    ∀ (l : List Seq) (x : Station), x.tableSound → (l.foldl f x).tableSound
  | [], _, hx => hx
  | q :: rest, x, hx => foldl_tableSound f hf rest (f x q) (hf x q hx)

theorem Station.tableSound.completeAll {a : Station} (h : a.tableSound) : (completeAll a).tableSound :=
  foldl_tableSound _ (fun _ q hx => hx.completeRecord false q) _ a h

/-- A band ends CLOSED where it was CLOSING, or EMPTY where it was NONE, and no sample is in flight for its record. -/
theorem Station.tableSound.settleBand {a : Station} (h : a.tableSound) (state : BandState) (entry : Record → Entry)
    {s : Seq} {r : Record} (hr : a.record s = some r)
    (hst : r.band.state = .closing ∧ state = .closed ∨ r.band.state = .none ∧ state = .empty)
    (hp : a.probe.target ≠ some (.held s)) : (settleBand state entry s a).tableSound := by
  unfold Machine.settleBand
  have h1 : (updateRecord s (fun r => { r.storeEntry a.start.index (entry r) with band := { r.band with state := state } })
      a).tableSound := by
    refine h.update s _ (fun _ => rfl) ?_
    intro x hx hfit
    rw [hr] at hx; cases hx
    refine ⟨⟨?_, hfit.2⟩, fun ht => absurd ht hp⟩
    have h1 := hfit.1
    rcases hst with ⟨h2, rfl⟩ | ⟨h2, rfl⟩ <;> simpa [Band.edgesFit, h2, Record.storeEntry] using h1
  refine Station.tableSound.completeRecord (h1.raiseTally ?_) true s
  rw [updateRecord_seqs]
  · exact record_mem_seqs hr
  · exact fun _ => rfl

theorem closingHolds_iff {st : Station} {r : Record} (h : closingHolds st r = true) :
    r.band.state = .closing ∧ st.probe.target ≠ some (.held r.seq) := by
  simp only [closingHolds, Bool.and_eq_true, beq_iff_eq, Bool.not_eq_true', beq_eq_false_iff_ne] at h
  exact ⟨h.1.1.1, h.2⟩

theorem Station.tableSound.testClosing {a : Station} (h : a.tableSound) (s : Seq) : (testClosing s a).tableSound := by
  unfold Machine.testClosing
  cases hr : a.record s with
  | none => exact h
  | some r =>
    simp only
    split
    · next hc =>
      have := closingHolds_iff hc
      exact h.settleBand _ _ hr (.inl ⟨this.1, rfl⟩) (record_seq hr ▸ this.2)
    · exact h

theorem Station.tableSound.testAllClosing {a : Station} (h : a.tableSound) : (testAllClosing a).tableSound :=
  foldl_tableSound _ (fun _ q hx => hx.testClosing q) _ a h

theorem dropHead_aside (a : Station) : Aside a (dropHead a) := ofScan_aside _ a

theorem Station.tableSound.headTake {a : Station} (h : a.tableSound) : (headTake a).1.tableSound := by
  unfold Machine.headTake
  split
  · exact h.aside (ofScan_aside _ a)
  · split
    · exact h.aside (dropHead_aside a)
    · split
      · refine Station.tableSound.aside (Station.tableSound.update h _ _ ?_ ?_) (dropHead_aside _)
        · exact fun _ => rfl
        · exact fun x _ hfit => ⟨hfit, fun _ hl => hl⟩
      · split
        · exact h.aside (ofScan_aside _ a)
        · refine Station.tableSound.aside (a := markLate _ a) (h.map _ rfl ?_ ?_ ?_ (fun c hc => h.mayStore hc) (.refl _)
            (.refl _) (.inl rfl)) (dropHead_aside _)
          · intro r; split <;> rfl
          · intro r _ hfit; split <;> exact hfit
          · intro r _ _ hl; split <;> exact hl

theorem Station.tableSound.headLoop (n : Nat) : ∀ {a : Station}, a.tableSound → (headLoop n a).tableSound := by
  induction n with
  | zero => exact fun h => h
  | succ n ih =>
    intro a h
    simp only [Machine.headLoop]
    split
    · exact ih h.headTake.testAllClosing
    · exact h.headTake.testAllClosing

theorem Station.tableSound.headTakes {a : Station} (h : a.tableSound) : (headTakes a).tableSound := h.headLoop _

/-! ## Closing, overlength, attachment -/

theorem opened_updateBand {a : Station} {s : Seq} (f : Band → Band) (hf : ∀ b, (f b).state = b.state)
    (h : ∃ r, a.record s = some r ∧ r.band.state = .opened) :
    ∃ r, (updateBand s f a).record s = some r ∧ r.band.state = .opened := by
  obtain ⟨r, hr, ho⟩ := h
  exact ⟨_, record_updateRecord (fun r => { r with band := f r.band }) (fun _ => rfl) hr, (hf r.band).trans ho⟩

theorem Station.tableSound.flagOverlength {a : Station} (h : a.tableSound) (s : Seq) :
    (updateBand s (fun b => { b with summary := { b.summary with overlength := true } }) a).tableSound :=
  h.update s _ (fun _ => rfl) fun _ _ hfit => ⟨hfit, fun _ hl => hl⟩

/-- An OPEN band, with its lead, becomes CLOSING. -/
theorem Station.tableSound.enterClosing {a : Station} (h : a.tableSound) {s : Seq}
    (hr : ∃ r, a.record s = some r ∧ r.band.state = .opened) (trail : Pos) : (enterClosing s trail a).tableSound := by
  obtain ⟨r, hr, ho⟩ := hr
  unfold Machine.enterClosing
  refine Station.tableSound.testClosing ?_ s
  have h1 : ∀ passed, (updateBand s (fun b => { b with state := .closing, trail := some trail, lagPassed := passed })
      (dropCompare .overlength (dropCompare .sample a))).tableSound := by
    intro passed
    refine Station.tableSound.update (h.aside ((dropCompare_aside .sample a).trans (dropCompare_aside .overlength _))) s _
      (fun _ => rfl) ?_
    intro x hx hfit
    have : x = r := Option.some.inj (hx.symm.trans hr)
    subst this
    have h2 := hfit.1
    exact ⟨⟨by simpa [Band.edgesFit, ho] using h2.1, hfit.2⟩, fun _ _ => .inr rfl⟩
  split
  · exact h1 _
  · refine (h1 _).store ?_ _ _
    intro q hq
    cases hq
    show s ∈ (updateRecord _ _ _).table.map (·.seq)
    rw [updateRecord_seqs]
    · exact record_mem_seqs hr
    · exact fun _ => rfl

theorem record_congr {a b : Station} (h : b.table = a.table) (s : Seq) : b.record s = a.record s := by
  unfold Station.record; rw [h]

theorem Station.tableSound.forceOverlength {a : Station} (h : a.tableSound) : (forceOverlength a).tableSound := by
  unfold Machine.forceOverlength
  cases hr : a.openRecord with
  | none => exact h
  | some r =>
    have hm := openRecord_mem hr
    have hrec := record_of_mem h.1 hm.1
    have h2 := enterBlanked_aside (updateBand r.seq (fun b => { b with summary := { b.summary with overlength := true } }) a)
    refine Station.tableSound.headTakes (((h.flagOverlength r.seq).aside h2).enterClosing ?_ _)
    simp only [record_congr h2.table]
    exact opened_updateBand _ (fun _ => rfl) ⟨r, hrec, hm.2⟩

theorem Station.tableSound.openBand {a : Station} (h : a.tableSound) {s : Seq} {r : Record} (hr : a.record s = some r)
    (hn : r.band.state = .none) (e : Pos) : (openBand s e a).tableSound := by
  have h1 : (updateBand s (fun b => { b with
      state := .opened, lead := some e, summary := { b.summary with incomplete := b.summary.incomplete || a.scan.overrun } })
      a).tableSound := by
    refine h.update s _ (fun _ => rfl) fun x hx hfit => ?_
    rw [hr] at hx; cases hx
    have h2 := hfit.1
    exact ⟨⟨by simpa [Band.edgesFit, hn] using h2.2, hfit.2⟩, fun _ _ => .inl rfl⟩
  exact h1.aside (.ofSame rfl rfl rfl rfl)

theorem openBand_opened {a : Station} {s : Seq} {r : Record} (hr : a.record s = some r) (e : Pos) :
    ∃ r, (openBand s e a).record s = some r ∧ r.band.state = .opened :=
  ⟨_, record_updateRecord (fun r => { r with band := { r.band with
      state := .opened, lead := some e,
      summary := { r.band.summary with incomplete := r.band.summary.incomplete || a.scan.overrun } } }) (fun _ => rfl) hr, rfl⟩

/-- A pending edge attaches to a record whose own band is NONE. -/
theorem Station.tableSound.attachEdge {a : Station} (h : a.tableSound) {s : Seq} {r : Record} (hr : a.record s = some r)
    (hn : r.band.state = .none) (edge : PendingEdge) : (attachEdge edge s a).tableSound := by
  have ho := h.openBand hr hn edge.rise
  have hor := openBand_opened hr edge.rise
  unfold Machine.attachEdge
  simp only
  split
  · have hs := ho.aside (storeSample_aside _)
    have hw : ∀ pos g, (storeCompare .overlength pos g (storeSample (Machine.openBand s edge.rise a))).tableSound :=
      fun pos g => hs.aside (storeCompare_aside rfl pos g _)
    split
    · split
      · exact (hw _ _).headTakes
      · exact hs.forceOverlength
    · exact (hw _ _).headTakes
  · split
    · exact ((ho.flagOverlength s).enterClosing (opened_updateBand _ (fun _ => rfl) hor) _).headTakes
    · exact (ho.enterClosing hor _).headTakes

theorem attaches_none {a : Station} {e : Pos} {r : Record} (h : attaches a e r = true) : r.band.state = .none := by
  simp only [attaches, Bool.and_eq_true, beq_iff_eq] at h
  exact h.1.1

theorem Station.tableSound.attachTest {a : Station} (h : a.tableSound) : (attachTest a).tableSound := by
  have h1 : ({ a with edge := { a.edge with testDeferred := false } } : Station).tableSound := h.aside (ofEdge_aside _ a)
  unfold Machine.attachTest
  simp only
  split
  · exact h1
  · split
    · split
      · next r hr =>
        split
        · next ha => exact h1.attachEdge (record_of_mem h1.1 (newest_mem hr)) (attaches_none ha) _
        · exact h1.aside (raiseOpen_aside _)
      · exact h1.aside (raiseOpen_aside _)
    · exact h1

theorem Station.tableSound.deferredTest {a : Station} (h : a.tableSound) : (deferredTest a).tableSound := by
  unfold Machine.deferredTest
  split
  · exact h.attachTest
  · exact h

/-! ## Removal and dispatch -/

theorem dropRecord_mem {p : PositionUnit} {s : Seq} {c : Compare} (h : c ∈ (p.dropRecord s).compares) :
    c ∈ p.compares ∧ CompareId.subject c.id ≠ some s := by
  simp only [PositionUnit.dropRecord, PositionUnit.drop, List.mem_filter, bne_iff_ne, ne_eq] at h
  obtain ⟨⟨⟨⟨h0, h1⟩, h2⟩, h3⟩, h4⟩ := h
  refine ⟨h0, ?_⟩
  intro hs
  cases hid : c.id <;> simp_all [CompareId.subject]

/-- A record leaves the table, with its requests and its compares; a sample in flight for it loses its target. -/
theorem Station.tableSound.removeRecord {a : Station} (h : a.tableSound) (outcome : Verdict) (mark : SheetFlags → SheetFlags)
    (s : Seq) : (removeRecord outcome mark s a).tableSound := by
  unfold Machine.removeRecord
  cases hr : a.record s with
  | none => exact h
  | some r =>
    simp only
    obtain ⟨h1, h2, ⟨h3, h4, h5, h6, h7⟩, h8⟩ := h
    have hin : ∀ q, q ∈ (a.table.filter fun x => x.seq != s).map (·.seq) ↔ q ∈ a.table.map (·.seq) ∧ q ≠ s := by
      intro q
      simp only [List.mem_map, List.mem_filter, bne_iff_ne, ne_eq]
      constructor
      · rintro ⟨x, ⟨hx, hn⟩, rfl⟩; exact ⟨⟨x, hx, rfl⟩, hn⟩
      · rintro ⟨⟨x, hx, rfl⟩, hn⟩; exact ⟨x, ⟨hx, hn⟩, rfl⟩
    have base : ({ a with
        table := a.table.filter fun x => x.seq != s
        position := a.position.dropRecord s
        engine := { a.engine with requests := a.engine.requests.dropSubject s }
        probe := (loseTarget s a).probe } : Station).tableSound := by
      refine ⟨(List.filter_sublist.map _).nodup h1, fun x hx => h2 x (List.mem_filter.1 hx).1,
        ⟨?_, ?_, ?_, (dropTally_sublist s _).nodup h6, (List.filter_sublist.map _).nodup h7⟩, ?_⟩
      · intro c hc
        obtain ⟨hc, hne⟩ := dropRecord_mem hc
        have := (mayStore_iff a c.id).2 (h3 c hc)
        cases hid : CompareId.subject c.id with
        | none => simp
        | some q =>
          simp only [Option.all_some, decide_eq_true_eq]
          exact (hin q).2 ⟨this q hid, fun hq => hne (hq ▸ hid)⟩
      · intro x hx
        have hx := List.mem_filter.1 hx
        exact (hin _).2 ⟨h4 x hx.1, by simpa using hx.2⟩
      · intro x hx
        have hx := List.mem_filter.1 hx
        exact (hin _).2 ⟨h5 x hx.1, by simpa using hx.2⟩
      · intro target ht
        simp only [loseTarget] at ht
        split at ht
        · simp at ht; exact .inl ht
        · next hne =>
          rcases h8 target ht with h9 | ⟨x, hx, hxt, hl⟩
          · exact .inl h9
          · refine .inr ⟨x, List.mem_filter.2 ⟨hx, ?_⟩, hxt, hl⟩
            simp only [bne_iff_ne, ne_eq]
            intro hxs
            refine hne ?_
            rw [← hxs, ← hxt]; simpa using ht
    split
    · have k : ∀ x : Station, Aside x (enterBlanked (dropCompare .overlength (dropCompare .sample x))) := fun x =>
        ((dropCompare_aside .sample x).trans (dropCompare_aside .overlength _)).trans (enterBlanked_aside _)
      have k := k { a with
        table := a.table.filter fun x => x.seq != s
        position := a.position.dropRecord s
        engine := { a.engine with requests := a.engine.requests.dropSubject s } }
      exact base.aside ⟨k.table, k.tally, k.verdict, by simp only [loseTarget, k.target], k.compares⟩
    · exact base.aside (.ofSame rfl rfl rfl rfl)

theorem Station.tableSound.gateCommand {a : Station} (h : a.tableSound) (r : Record) (outcome : Verdict) :
    (gateCommand r outcome a).1.tableSound := h.aside (gateCommand_aside r outcome a)

theorem Station.tableSound.dispatch {a : Station} (h : a.tableSound) (s : Seq) : (dispatch s a).tableSound := by
  unfold Machine.dispatch
  cases hr : a.record s with
  | none => exact h
  | some r =>
    simp only
    split
    · refine Station.tableSound.headTakes (Station.tableSound.removeRecord ?_ _ _ s)
      split
      · exact h.gateCommand _ _
      · exact h
    · exact (h.removeRecord _ _ s).headTakes

/-! ## The compares of records -/

/-- A sample targets no record whose own band is NONE. -/
theorem Station.tableSound.noTarget {a : Station} (h : a.tableSound) {s : Seq} {r : Record} (hr : a.record s = some r)
    (hn : r.band.state = .none) : a.probe.target ≠ some (.held s) := by
  intro ht
  rcases h.2.2.2 (.held s) (by simp [ht]) with h1 | ⟨x, hx, hxs, hl⟩
  · cases h1
  · cases hxs
    rw [record_of_mem h.1 hx] at hr
    cases hr
    rw [hn] at hl
    rcases hl with hl | hl <;> cases hl

theorem Station.tableSound.takeEmpty {a : Station} (h : a.tableSound) (s : Seq) : (takeEmpty s a).tableSound := by
  unfold Machine.takeEmpty
  cases hr : a.record s with
  | none => exact h
  | some r =>
    simp only
    split
    · next hn => exact h.settleBand _ _ hr (.inr ⟨hn, rfl⟩) (h.noTarget hr hn)
    · exact h

theorem Station.tableSound.takeDecision {a : Station} (h : a.tableSound) (s : Seq) : (takeDecision s a).tableSound := by
  unfold Machine.takeDecision
  cases hr : a.record s with
  | none => exact h
  | some r =>
    have hm := h.markVerdict s false
    have hrm : (withRequests (Requests.markVerdict s false) a).record s = some r := hr
    simp only
    split
    · next hg =>
      refine Station.tableSound.raiseVerdict ?_ false ?_
      · refine hm.update s _ (fun _ => rfl) ?_
        intro x hx hfit
        rw [hrm] at hx; cases hx
        exact ⟨⟨hfit.1, hfit.2.1, fun _ => rfl, fun _ _ => rfl⟩, fun _ hl => hl⟩
      · rw [updateRecord_seqs]
        · exact record_mem_seqs hr
        · exact fun _ => rfl
    · next hg =>
      refine Station.tableSound.raiseVerdict ?_ false ?_
      · refine hm.update s _ (fun _ => rfl) ?_
        intro x hx hfit
        rw [hrm] at hx; cases hx
        exact ⟨⟨hfit.1, hfit.2.1, hfit.2.2.1, fun hp => by simp [hg] at hp⟩, fun _ hl => hl⟩
      · rw [updateRecord_seqs]
        · exact record_mem_seqs hr
        · exact fun _ => rfl
    · next hg =>
      refine hm.update s _ (fun _ => rfl) ?_
      intro x hx hfit
      rw [hrm] at hx; cases hx
      exact ⟨⟨hfit.1, hfit.2.1, hfit.2.2.1, fun hp => by simp [hg] at hp⟩, fun _ hl => hl⟩

theorem Station.tableSound.takeLag {a : Station} (h : a.tableSound) (s : Seq) : (takeLag s a).tableSound := by
  have h1 : (updateBand s (fun b => { b with lagPassed := true }) a).tableSound :=
    h.update s _ (fun _ => rfl) fun _ _ hfit => ⟨hfit, fun _ hl => hl⟩
  unfold Machine.takeLag
  simp only
  split
  · exact (h1.testClosing s).headTakes
  · exact h1.testClosing s

theorem Station.tableSound.takeSample {a : Station} (h : a.tableSound) : (takeSample a).tableSound := by
  unfold Machine.takeSample
  cases hr : a.openRecord with
  | none => exact h.aside (dropCompare_aside _ a)
  | some r =>
    have h1 := h.aside (storeSample_aside a)
    simp only
    split
    · refine ⟨h1.1, h1.2.1, h1.2.2.1, fun target ht => .inr ⟨r, ?_, by simp at ht; exact ht, .inl (openRecord_mem hr).2⟩⟩
      show r ∈ (storeSample a).table
      rw [(storeSample_aside a).table]
      exact (openRecord_mem hr).1
    · exact h1

/-! ## Edge compares and presence changes -/

theorem Station.tableSound.ofEdge {a : Station} (h : a.tableSound) (e : EdgeUnit) :
    ({ a with edge := e } : Station).tableSound := h.aside (ofEdge_aside e a)

theorem Station.tableSound.takeQualification {a : Station} (h : a.tableSound) : (takeQualification a).tableSound := by
  unfold Machine.takeQualification
  split
  · simp only
    split
    · exact h.ofEdge _
    · exact (h.ofEdge _).attachTest
  · exact h

theorem Station.tableSound.takeBridging {a : Station} (h : a.tableSound) : (takeBridging a).tableSound := by
  unfold Machine.takeBridging
  split
  · next f _ _ =>
    simp only
    split
    · next r hr =>
      have hm := openRecord_mem hr
      refine Station.tableSound.headTakes (Station.tableSound.enterClosing (h.ofEdge _) ?_ f)
      exact ⟨r, record_of_mem h.1 hm.1, hm.2⟩
    · exact h.ofEdge _
  · exact h

theorem Station.tableSound.compareEffect {a : Station} (h : a.tableSound) (id : CompareId) :
    (compareEffect id a).tableSound := by
  cases id with
  | qualification => exact h.takeQualification
  | bridging => exact h.takeBridging
  | blankRelease => exact h.aside (releaseBlank_aside a)
  | overlength => exact h.forceOverlength
  | empty s => exact h.takeEmpty s
  | lag s => exact h.takeLag s
  | decision s => exact h.takeDecision s
  | gate s => exact h.dispatch s
  | sample => exact h.takeSample
  | windowEnd => exact h.aside (closeWindow_aside a)

/-- The stored compares change in their progress or position only. -/
theorem Aside.ofPosition (p : PositionUnit) (a : Station) (h : p.compares.map (·.id) = a.position.compares.map (·.id)) :
    Aside a { a with position := p } := .ofSame rfl rfl rfl h

theorem Station.tableSound.takeCompare {a : Station} (h : a.tableSound) (id : CompareId) : (takeCompare id a).tableSound := by
  unfold Machine.takeCompare
  split
  · exact h.aside (.ofPosition _ a (setProgress_ids _ _ _))
  · exact (h.aside (dropCompare_aside id a)).compareEffect id

theorem Station.tableSound.takeDue {a : Station} (h : a.tableSound) (id : CompareId) : (takeDue id a).tableSound := by
  unfold Machine.takeDue
  split
  · exact h.takeCompare id
  · exact h

theorem Station.tableSound.takeOrdered : ∀ (l : List CompareId) {a : Station}, a.tableSound → (takeOrdered l a).tableSound
  | [], _, h => h
  | id :: rest, a, h => by
    simp only [Machine.takeOrdered]
    split
    · exact Station.tableSound.takeOrdered rest (h.takeCompare id)
    · exact Station.tableSound.takeOrdered rest h

theorem Station.tableSound.takeRest : ∀ (n : Nat) {a : Station}, a.tableSound → (takeRest n a).tableSound
  | 0, _, h => h
  | n + 1, a, h => by
    simp only [Machine.takeRest]
    split
    · exact h
    · exact Station.tableSound.takeRest n (h.takeCompare _)

theorem Station.tableSound.takeAllDue {a : Station} (h : a.tableSound) (l : List CompareId) : (takeAllDue l a).tableSound :=
  Station.tableSound.takeRest _ (Station.tableSound.takeOrdered l h)

theorem Station.tableSound.actOnKept : ∀ (n : Nat) {a : Station}, a.tableSound → (actOnKept n a).tableSound
  | 0, _, h => h
  | n + 1, a, h => by
    simp only [Machine.actOnKept]
    split
    · exact h
    · exact Station.tableSound.actOnKept n ((h.aside (dropCompare_aside _ a)).compareEffect _)

theorem Station.tableSound.takeChange {a : Station} (h : a.tableSound) : (takeChange a).tableSound := by
  have hd := h.aside (discardPending_aside a)
  unfold Machine.takeChange
  split
  · have hr := (hd.ofEdge { (discardPending a).edge with
      state := .rising, pending := some ⟨a.position.counter, false, none⟩ }).aside
      (storeCompare_aside (id := .qualification) rfl (a.position.counter + counts a.shared.qualification) .waiting _)
    simp only [riseAt]
    split
    · exact hr.headTakes
    · exact hr
  · exact (hd.ofEdge _).headTakes
  · exact (h.ofEdge _).aside (storeCompare_aside (id := .bridging) rfl _ _ _)
  · exact (h.aside (dropCompare_aside .bridging a)).ofEdge _
  · split
    · exact (h.ofEdge _).aside (followAbsence_aside _)
    · exact h
  · split
    · exact (h.ofEdge _).aside (followAbsence_aside _)
    · exact h
  · exact h
  · exact h
  · exact h
  · exact h

theorem Station.tableSound.resumeEdge {a : Station} (h : a.tableSound) : (resumeEdge a).tableSound := by
  unfold Machine.resumeEdge
  simp only
  split
  · split
    · exact Station.tableSound.actOnKept _ (h.ofEdge _).takeChange
    · exact h.ofEdge _
  · exact h

theorem Station.tableSound.presenceInput {a : Station} (h : a.tableSound) (held : Bool) :
    (presenceInput held a).tableSound := by
  unfold Machine.presenceInput
  simp only
  split
  · exact h
  · split
    · exact (h.ofEdge _).takeChange
    · exact h.ofEdge _

/-! ## Encoder steps and samples -/

theorem owePulse_aside (a : Station) : Aside a (owePulse a) := by
  unfold owePulse
  split
  · exact raiseCause_aside _ a
  · refine .ofPosition _ a ?_
    simp only [PositionUnit.beginPulse]
    split <;> rfl

theorem Station.tableSound.triggerTest {a : Station} (h : a.tableSound) : (triggerTest a).tableSound := by
  unfold Machine.triggerTest
  simp only
  split
  · refine Station.tableSound.headTakes (Station.tableSound.aside ?_ (owePulse_aside _))
    exact h.aside (.ofPosition _ a rfl)
  · exact h

theorem raisePurge_aside (scope : PurgeScope) (a : Station) : Aside a (raisePurge scope a) := by
  cases scope with
  | all => exact ⟨rfl, rfl, rfl, rfl, fun _ h => .inl h⟩
  | opened => exact ⟨rfl, rfl, rfl, rfl, fun _ h => .inl h⟩
  | one s =>
    unfold raisePurge waitForOpening
    simp only
    split <;> exact ⟨rfl, rfl, rfl, rfl, fun _ h => .inl h⟩

theorem encoderStep_target (w p : Byte) (x : ProbeUnit) : (x.encoderStep w p).target = x.target := by
  unfold ProbeUnit.encoderStep; split <;> rfl

theorem probeStep_aside (a : Station) : Aside a (probeStep a) := ofProbe_aside _ a (encoderStep_target _ _ _)

theorem Station.tableSound.encoderStep {a : Station} (h : a.tableSound) (dir : Direction) :
    (encoderStep dir a).tableSound := by
  have hd := h.takeAllDue []
  unfold Machine.encoderStep
  simp only
  cases dir with
  | forward =>
    have hm : ∀ p : PositionUnit, p.compares = (Machine.takeAllDue [] a).position.compares →
        (probeStep { Machine.takeAllDue [] a with position := p }).tableSound := fun p hp =>
      hd.aside ((Aside.ofPosition p _ (by rw [hp])).trans (probeStep_aside _))
    refine Station.tableSound.aside ?_ (.ofPosition _ _ (markReached_ids _))
    split
    · refine Station.tableSound.resumeEdge (Station.tableSound.triggerTest (Station.tableSound.aside (hm _ ?_)
        (.ofPosition _ _ ?_))) <;> rfl
    · exact hm _ rfl
  | reverse =>
    simp only [stepReverse]
    split
    · refine Station.tableSound.aside (Station.tableSound.aside hd ?_) (raisePurge_aside .all _)
      exact .ofSame rfl (by rfl) (encoderStep_target _ _ _) rfl
    · exact hd.aside (.ofSame rfl (by rfl) (encoderStep_target _ _ _) rfl)

theorem Station.tableSound.sampleOver {a : Station} (h : a.tableSound) (t : Byte) :
    ({ a with probe := a.probe.sampleOver t } : Station).tableSound :=
  ⟨h.1, h.2.1, h.2.2.1, fun target ht => by simp [ProbeUnit.sampleOver] at ht⟩

theorem Station.tableSound.sampleCompletion {a : Station} (h : a.tableSound) (raw : BitVec 10) :
    (sampleCompletion raw a).tableSound := by
  unfold Machine.sampleCompletion
  simp only
  split
  · split
    · next s _ =>
      have h1 : (foldReading (trimmed raw a.loc.trim) s a).tableSound :=
        h.update s _ (fun _ => rfl) fun _ _ hfit => ⟨hfit, fun _ hl => hl⟩
      have h2 := (h1.sampleOver (foldReading (trimmed raw a.loc.trim) s a).loc.parkTime).testClosing s
      split
      · exact h2.headTakes
      · exact h2
    · exact h.sampleOver _
    · exact h.sampleOver _
  · exact h

/-! ## Scan frames -/

theorem Record.fit_markOverrun {r : Record} (h : r.fit) : r.markOverrun.fit := by
  unfold Record.markOverrun; split <;> exact h

theorem Station.tableSound.overrun {a : Station} (h : a.tableSound) : (overrun a).tableSound := by
  refine h.map Record.markOverrun rfl ?_ (fun _ _ => Record.fit_markOverrun) ?_ (fun c hc => h.mayStore hc) (.refl _) (.refl _)
    (.inl rfl)
  · intro r; unfold Record.markOverrun; split <;> rfl
  · intro r _ _ hl; unfold Record.markOverrun; split <;> exact hl

theorem Station.tableSound.frameEnd {a : Station} (h : a.tableSound) (bits : List Bool) : (frameEnd bits a).tableSound := by
  have hs : ∀ p : ScanUnit, ({ a with scan := p } : Station).tableSound := fun p => h.aside (ofScan_aside p a)
  unfold Machine.frameEnd
  simp only
  split
  · exact h
  · exact hs _
  · split
    · exact (hs _).aside (raiseCause_aside _ _)
    · exact (hs _).aside (raiseCause_aside _ _)
    · unfold reportArrives
      simp only
      split
      · split
        · exact (hs _).headTakes
        · exact hs _
      · exact (hs _).overrun

/-! ## Creation -/

theorem storeCreationCompare_tableSound {a : Station} (h : a.tableSound) {id : CompareId} (hid : a.mayStore id) (pos : Pos) :
    (storeCreationCompare id pos a).tableSound := by
  unfold storeCreationCompare
  split
  · exact h
  · exact h.store hid pos _

theorem storeCreationCompare_table (id : CompareId) (pos : Pos) (a : Station) :
    (storeCreationCompare id pos a).table = a.table := by
  unfold storeCreationCompare; split <;> rfl

theorem Station.tableSound.takeDueGates {a : Station} (h : a.tableSound) : (takeDueGates a).tableSound := by
  refine foldl_tableSound _ (fun x q hx => ?_) _ a h
  split
  · exact (hx.aside (dropCompare_aside _ x)).dispatch q
  · exact hx

/-- A new record, whose number no held record has, keeps the four. -/
theorem Station.tableSound.append {a : Station} (h : a.tableSound) {r : Record} (hr : r.seq ∉ a.table.map (·.seq)) (hf : r.fit)
    (n : Seq) : ({ a with table := a.table ++ [r], engine := { a.engine with nextSeq := n } } : Station).tableSound := by
  obtain ⟨h1, h2, ⟨h3, h4, h5, h6, h7⟩, h8⟩ := h
  have hin : ∀ q, q ∈ a.table.map (·.seq) → q ∈ (a.table ++ [r]).map (·.seq) := fun q hq => by
    rw [List.map_append]; exact List.mem_append_left _ hq
  refine ⟨?_, ?_, ⟨?_, fun x hx => hin _ (h4 x hx), fun x hx => hin _ (h5 x hx), h6, h7⟩, ?_⟩
  · show ((a.table ++ [r]).map (·.seq)).Nodup
    rw [List.map_append]; exact nodup_append_new h1 hr
  · intro x hx
    rcases List.mem_append.1 hx with hx | hx
    · exact h2 x hx
    · simp only [List.mem_singleton] at hx; exact hx ▸ hf
  · intro c hc
    have := (mayStore_iff a c.id).2 (h3 c hc)
    cases hid : CompareId.subject c.id with
    | none => simp
    | some q =>
      simp only [Option.all_some, decide_eq_true_eq]
      exact hin q (this q hid)
  · intro target ht
    rcases h8 target ht with h9 | ⟨x, hx, hxt, hl⟩
    · exact .inl h9
    · exact .inr ⟨x, List.mem_append_left _ hx, hxt, hl⟩

theorem newRecord_fit (sh : Shared) (s : Seq) (p : Pos) : (newRecord sh s p).fit := by
  refine ⟨?_, ?_⟩
  · simp [Band.edgesFit, newRecord]
  · simp [Record.phaseFits, newRecord]

theorem creationRefused_false {a : Station} (h : creationRefused a = false) : a.engine.nextSeq ∉ a.table.map (·.seq) := by
  unfold creationRefused at h
  simp only [Bool.or_eq_false_iff] at h
  simpa using h.2

theorem Station.tableSound.createRecord {a : Station} (h : a.tableSound) (hc : creationRefused a = false) (result : Pos) :
    (createRecord result a).tableSound := by
  unfold Machine.createRecord
  simp only
  have hp := h.append (r := newRecord a.shared a.engine.nextSeq (creationP a result)) (creationRefused_false hc)
    (newRecord_fit _ _ _) (a.engine.nextSeq + 1)
  have hmem : ∀ {x : Station} {r : Record}, x.table = a.table ++ [r] → r.seq = a.engine.nextSeq →
      a.engine.nextSeq ∈ x.table.map (·.seq) := fun hx hr => by rw [hx, List.map_append]; simp [hr]
  have hs : ∀ p1 p2 p3, (storeCreationCompare (.gate a.engine.nextSeq) p1 (storeCreationCompare (.decision a.engine.nextSeq) p2
      (storeCreationCompare (.empty a.engine.nextSeq) p3 { a with
        table := a.table ++ [newRecord a.shared a.engine.nextSeq (creationP a result)]
        engine := { a.engine with nextSeq := a.engine.nextSeq + 1 } }))).tableSound := by
    intro p1 p2 p3
    refine storeCreationCompare_tableSound (storeCreationCompare_tableSound (storeCreationCompare_tableSound hp ?_ p3) ?_ p2)
      ?_ p1
    · intro q hq; cases hq
      exact hmem rfl rfl
    · intro q hq; cases hq
      exact hmem (storeCreationCompare_table _ _ _) rfl
    · intro q hq; cases hq
      exact hmem ((storeCreationCompare_table _ _ _).trans (storeCreationCompare_table _ _ _)) rfl
  have ht := (hs (newRecord a.shared a.engine.nextSeq (creationP a result)).gatePos
    (newRecord a.shared a.engine.nextSeq (creationP a result)).decisionPos
    ((newRecord a.shared a.engine.nextSeq (creationP a result)).refPos + counts a.shared.attachWindow +
      counts a.shared.qualification)).attachTest.headTakes
  have he : ∀ (c1 c2 : Bool) {x : Station}, x.tableSound →
      (if c2 then Machine.takeDecision a.engine.nextSeq (if c1 then Machine.takeEmpty a.engine.nextSeq x else x)
        else if c1 then Machine.takeEmpty a.engine.nextSeq x else x).tableSound := by
    intro c1 c2 x hx
    cases c1 <;> cases c2
    · exact hx
    · exact hx.takeDecision _
    · exact hx.takeEmpty _
    · exact (hx.takeEmpty _).takeDecision _
  split
  · exact (he _ _ ht).takeDueGates.dispatch _
  · exact he _ _ ht

theorem Station.tableSound.refuseCreation {a : Station} (h : a.tableSound) : (refuseCreation a).tableSound := by
  refine Station.tableSound.headTakes (Station.tableSound.aside (Station.tableSound.aside (Station.tableSound.aside h ?_)
    (enterBlanked_aside _)) (raiseCause_aside _ _))
  exact .ofSame rfl rfl rfl rfl

/-! ## The line -/

theorem Station.tableSound.ofLine {a : Station} (h : a.tableSound) (l : LineUnit) :
    ({ a with line := l } : Station).tableSound := h.aside (ofLine_aside l a)

theorem Station.tableSound.ofPosition {a : Station} (h : a.tableSound) (p : PositionUnit)
    (hp : p.compares = a.position.compares) : ({ a with position := p } : Station).tableSound :=
  h.aside (.ofPosition p a (by rw [hp]))

theorem Station.tableSound.ofPort {a : Station} (h : a.tableSound) (p : ResultPort) :
    ({ a with port := p } : Station).tableSound := h.aside (ofPort_aside p a)

theorem Station.tableSound.raiseCause {a : Station} (h : a.tableSound) (c : Cause) : (raiseCause c a).tableSound :=
  h.aside (raiseCause_aside c a)

theorem Station.tableSound.raiseRoll {a : Station} (h : a.tableSound) : (raiseRoll a).tableSound := h.aside (raiseRoll_aside a)

theorem Station.tableSound.withRound {a : Station} (h : a.tableSound) (r : Round) : (withRound r a).tableSound := h.ofLine _

theorem Station.tableSound.dropRound {a : Station} (h : a.tableSound) : (dropRound a).tableSound := by
  unfold Machine.dropRound
  refine Station.tableSound.deferredTest (h.aside (.ofSame rfl rfl rfl rfl))

theorem Station.tableSound.enterMute {a : Station} (h : a.tableSound) : (enterMute a).tableSound :=
  (h.dropRound.ofLine _).raiseCause _

theorem Station.tableSound.kindContestEnd {a : Station} (h : a.tableSound) (peers : List (BitVec 3)) :
    (kindContestEnd peers a).tableSound := by
  have hn : ∀ (k : RoundKind) (r : Round), (if k = .opening then Machine.withRound r a
      else Machine.deferredTest (Machine.withRound r a)).tableSound := by
    intro k r
    split
    · exact h.withRound r
    · exact (h.withRound r).deferredTest
  unfold Machine.kindContestEnd
  simp only
  split
  · exact h
  · split
    · split
      · exact hn _ _
      · split
        · exact hn _ _
        · exact h.enterMute
    · exact h

theorem Station.tableSound.lineError {a : Station} (h : a.tableSound) (fault : WireFault) : (lineError fault a).tableSound := by
  have he : ∀ (p : Prop) [Decidable p], (if p then Machine.enterMute a else a).tableSound := by
    intro p _
    split
    · exact h.enterMute
    · exact h
  cases fault with
  | openingDrive => exact he _
  | pattern => exact he _
  | edge time =>
    show (bodyEdge time a).tableSound
    unfold bodyEdge
    split
    · exact h
    · split
      · exact h.withRound _
      · exact h.enterMute
  | drivenReadsReleased => exact he _
  | valueWithoutOffer => exact he _

theorem Station.tableSound.breakReceived {a : Station} (h : a.tableSound) : (breakReceived a).tableSound := by
  unfold Machine.breakReceived
  simp only
  split
  · exact h.ofLine _
  · exact h
  all_goals exact h.dropRound.ofLine _

/-! ## Completions of rounds -/

theorem Station.tableSound.toGuard {a : Station} (h : a.tableSound) : (toGuard a).tableSound :=
  h.aside (.ofSame rfl rfl rfl rfl)

theorem Station.tableSound.completeNone {a : Station} (h : a.tableSound) : (completeNone a).tableSound := by
  unfold Machine.completeNone
  split
  · exact h
  · split
    · exact h.toGuard
    · split
      · exact (h.kindContestEnd []).toGuard
      · exact h

theorem Station.tableSound.applyAlignment {a : Station} (h : a.tableSound) (d : Pos) (order : List CompareId) :
    (applyAlignment d order a).tableSound := by
  have hm : ∀ p : PositionUnit, p.compares = a.position.compares →
      (Machine.headTakes { a with position := p }).tableSound := fun p hp => (h.ofPosition p hp).headTakes
  unfold Machine.applyAlignment
  simp only
  split
  · refine Station.tableSound.takeAllDue (Station.tableSound.aside (hm _ ?_) (.ofPosition _ _ (markCrossed_ids _ _))) order
    rfl
  · exact hm _ rfl

theorem Station.tableSound.applyAgreement {a : Station} (h : a.tableSound) (b : Bool) : (applyAgreement b a).tableSound := by
  unfold Machine.applyAgreement
  split
  · split
    · exact h
    · have hr : ∀ (x : StartUnit) (y : ProbeUnit), y.target = a.probe.target →
          ({ a with start := x, probe := y } : Station).tableSound := fun x y hy => h.aside (.ofSame rfl rfl hy rfl)
      unfold enterRunning
      simp only
      split
      · refine Station.tableSound.headTakes (Station.tableSound.aside (hr _ _ ?_) (enterBlanked_aside _))
        split <;> rfl
      · refine hr _ _ ?_
        split <;> rfl
  · refine Station.tableSound.raiseCause ?_ _
    exact h.aside (.ofSame rfl rfl rfl rfl)

/-- GATHERING records change in their entries and flags. -/
theorem Station.tableSound.updateGathering {a : Station} (h : a.tableSound) (f : Record → Record)
    (hs : ∀ r, (f r).seq = r.seq) (hf : ∀ r : Record, r.fit → (f r).fit) (hb : ∀ r, (f r).band = r.band) :
    (updateGathering f a).tableSound := by
  refine h.map _ rfl ?_ ?_ ?_ (fun c hc => h.mayStore hc) (.refl _) (.refl _) (.inl rfl)
  · intro r; split
    · exact hs r
    · rfl
  · intro r _ hfit; split
    · exact hf r hfit
    · exact hfit
  · intro r _ _ hl; split
    · rw [hb]; exact hl
    · exact hl

/-- What a change of the peer map does to a record leaves its number, its band, its phase, verdict and outcome. -/
theorem peersChanged_keeps (joined left : Index → Bool) (r : Record) :
    (r.peersChanged joined left).seq = r.seq ∧ (r.peersChanged joined left).band = r.band ∧
      (r.peersChanged joined left).phase = r.phase ∧ (r.peersChanged joined left).outcome = r.outcome ∧
      (r.peersChanged joined left).verdict = r.verdict ∧ (r.peersChanged joined left).frozen = r.frozen := by
  unfold Record.peersChanged
  generalize indices = l
  induction l generalizing r with
  | nil => exact ⟨rfl, rfl, rfl, rfl, rfl, rfl⟩
  | cons k rest ih =>
    have h := ih (if joined k then r.joined k else if left k then r.left k else r)
    simp only [List.foldl_cons]
    rw [h.1, h.2.1, h.2.2.1, h.2.2.2.1, h.2.2.2.2.1, h.2.2.2.2.2]
    unfold Record.joined Record.left Record.storeEntry
    (repeat' split) <;> exact ⟨rfl, rfl, rfl, rfl, rfl, rfl⟩

theorem Record.fit_of_same {r x : Record} (h : r.fit) (hb : x.band = r.band) (hp : x.phase = r.phase)
    (ho : x.outcome = r.outcome) (hv : x.verdict = r.verdict) (hf : x.frozen = r.frozen) : x.fit := by
  unfold Record.fit Record.phaseFits
  rw [hb, hp, ho, hv, hf]
  exact h

theorem Station.tableSound.peersChanged {a : Station} (h : a.tableSound) (joined left : Index → Bool) :
    (Machine.updateGathering (Record.peersChanged joined left) a).tableSound := by
  refine h.updateGathering _ (fun r => (peersChanged_keeps joined left r).1) (fun r hr => ?_)
    (fun r => (peersChanged_keeps joined left r).2.1)
  have k := peersChanged_keeps joined left r
  exact Record.fit_of_same hr k.2.1 k.2.2.1 k.2.2.2.1 k.2.2.2.2.1 k.2.2.2.2.2

/-- The peer map, the counts and the requests for OPEN, ROLL and PURGE stand aside. -/
theorem Station.tableSound.ofEngine {a : Station} (h : a.tableSound) (e : RoundEngine)
    (ht : e.requests.tally = a.engine.requests.tally) (hv : e.requests.verdict = a.engine.requests.verdict) :
    ({ a with engine := e } : Station).tableSound :=
  h.aside ⟨rfl, by rw [ht], by rw [hv], rfl, fun _ hc => .inl hc⟩

theorem Station.tableSound.settleRoll {a : Station} (h : a.tableSound) (before after : Eight (Option Nat))
    (readings : Eight (Reading RollEntry)) : (settleRoll before after readings a).tableSound := by
  unfold Machine.settleRoll
  simp only
  have hs : ∀ e : RoundEngine, e.requests.tally = a.engine.requests.tally → e.requests.verdict = a.engine.requests.verdict →
      ∀ (p : Prop) [Decidable p], (if p then ({ a with engine := e } : Station)
        else Machine.raiseCause .peerChange { a with engine := e }).tableSound := by
    intro e ht hv p _
    split
    · exact h.ofEngine e ht hv
    · exact (h.ofEngine e ht hv).raiseCause _
  have hm : ∀ {x : Station}, x.tableSound → (withRequests Requests.releaseTally x).tableSound := fun hx =>
    hx.fewer _ (by simp [Requests.releaseTally, Function.comp_def]) (.refl _)
  refine hm (Station.tableSound.completeAll (Station.tableSound.peersChanged ?_ _ _))
  refine hs _ ?_ ?_ _ <;> rfl

theorem Station.tableSound.rollEffects {a : Station} (h : a.tableSound) (alignment sequence : Nat) (entry : RollEntry)
    (slots : List (BitVec 52)) (order : List CompareId) : (rollEffects alignment sequence entry slots order a).tableSound := by
  unfold Machine.rollEffects
  refine Station.tableSound.settleRoll (Station.tableSound.applyAgreement ?_ _) _ _ _
  refine (h.toGuard.applyAlignment _ order).ofEngine _ ?_ ?_ <;> rfl

theorem Station.tableSound.completeRoll {a : Station} (h : a.tableSound) (slots : List (BitVec 52)) (order : List CompareId) :
    (completeRoll slots order a).tableSound := by
  unfold Machine.completeRoll
  split
  · exact h
  · split
    · exact h.rollEffects _ _ _ _ _
    · exact h

theorem Station.tableSound.countOpenRound {a : Station} (h : a.tableSound) : (countOpenRound a).tableSound := by
  unfold Machine.countOpenRound
  simp only
  split
  · exact Station.tableSound.raiseRoll (h.ofEngine _ rfl rfl)
  · exact h.ofEngine _ rfl rfl

theorem Station.tableSound.completeOpen {a : Station} (h : a.tableSound) : (completeOpen a).tableSound := by
  unfold Machine.completeOpen
  split
  · exact h
  · simp only
    split
    · have hc : (Machine.countOpenRound (withRequests (fun q => { q with opening := false }) (Machine.toGuard a))).tableSound :=
        Station.tableSound.countOpenRound (h.toGuard.ofEngine _ rfl rfl)
      split
      · exact hc.attachTest
      · split
        · exact hc.refuseCreation
        · next hr => exact hc.createRecord (by simpa using hr) _
    · exact h.toGuard.deferredTest

theorem takeReading_keeps (k : Index) (reading : Reading TallyEntry) (r : Record) :
    (r.takeReading k reading).seq = r.seq ∧ (r.takeReading k reading).band = r.band ∧
      (r.takeReading k reading).phase = r.phase ∧ (r.takeReading k reading).outcome = r.outcome ∧
      (r.takeReading k reading).verdict = r.verdict ∧ (r.takeReading k reading).frozen = r.frozen := by
  unfold Record.takeReading Record.storeEntry
  split <;> exact ⟨rfl, rfl, rfl, rfl, rfl, rfl⟩

theorem Station.tableSound.takeSlot {a : Station} (h : a.tableSound) (s : Seq) (readings : Eight (Reading TallyEntry))
    (k : Index) : (takeSlot s readings a k).tableSound := by
  unfold Machine.takeSlot
  split
  · exact h
  · next count _ =>
    simp only
    refine Station.tableSound.update (h.ofEngine _ rfl rfl) s _ (fun r => (takeReading_keeps k (readings.get k) r).1) ?_
    intro r _ hfit
    have q := takeReading_keeps k (readings.get k) r
    exact ⟨Record.fit_of_same hfit q.2.1 q.2.2.1 q.2.2.2.1 q.2.2.2.2.1 q.2.2.2.2.2, fun _ hl => q.2.1 ▸ hl⟩

theorem Station.tableSound.removeMembers {a : Station} (h : a.tableSound) : (removeMembers a).tableSound := by
  unfold Machine.removeMembers
  simp only
  split
  · refine Station.tableSound.raiseCause (Station.tableSound.peersChanged ?_ _ _) _
    exact h.ofEngine _ rfl rfl
  · exact h

theorem Station.tableSound.settleTally {a : Station} (h : a.tableSound) {s : Seq} (hs : s ∈ a.table.map (·.seq))
    (raised : Bool) (sent : TallyEntry) : (settleTally s raised sent a).tableSound := by
  have h1 : ∀ b : Bool, (if raised then withRequests (Requests.raiseTally s) a
      else if b then withRequests (Requests.markTally s true) a else a).tableSound := by
    intro b
    split
    · exact h.raiseTally hs
    · split
      · exact h.markTally s true
      · exact h
  have h2 : ∀ {x : Station}, x.tableSound → ∀ b : Bool,
      (if b then withRequests (Requests.dropTally s) x else x).tableSound := by
    intro x hx b
    split
    · exact hx.dropTally s
    · exact hx
  unfold Machine.settleTally
  exact (h2 (h1 _) _).markVerdict s false

theorem updateGathering_seqs (f : Record → Record) (hs : ∀ r, (f r).seq = r.seq) (a : Station) :
    (updateGathering f a).table.map (·.seq) = a.table.map (·.seq) := by
  simp only [updateGathering, List.map_map]
  refine List.map_congr_left fun r _ => ?_
  simp only [Function.comp]; split
  · exact hs r
  · rfl

theorem removeMembers_seqs (a : Station) : (removeMembers a).table.map (·.seq) = a.table.map (·.seq) := by
  unfold removeMembers
  simp only
  split
  · exact updateGathering_seqs _ (fun r => (peersChanged_keeps _ _ r).1) _
  · rfl

theorem takeSlot_seqs (s : Seq) (readings : Eight (Reading TallyEntry)) (k : Index) (a : Station) :
    (takeSlot s readings a k).table.map (·.seq) = a.table.map (·.seq) := by
  unfold takeSlot
  split
  · rfl
  · exact updateRecord_seqs s _ (fun r => (takeReading_keeps k (readings.get k) r).1) _

theorem takeSlots_sound (s : Seq) (readings : Eight (Reading TallyEntry)) : ∀ (l : List Index) {a : Station}, a.tableSound →
    (l.foldl (takeSlot s readings) a).tableSound ∧
      (l.foldl (takeSlot s readings) a).table.map (·.seq) = a.table.map (·.seq)
  | [], _, h => ⟨h, rfl⟩
  | k :: rest, _, h =>
    have ih := takeSlots_sound s readings rest (h.takeSlot s readings k)
    ⟨ih.1, ih.2.trans (takeSlot_seqs s readings k _)⟩

theorem Station.tableSound.completeTally {a : Station} (h : a.tableSound) (slots : List (BitVec 448)) :
    (completeTally slots a).tableSound := by
  unfold Machine.completeTally
  split
  · exact h
  · simp only
    split
    · next subject sent _ _ =>
      split
      · next hc =>
        obtain ⟨r, hr⟩ := Option.isSome_iff_exists.1 hc.2
        unfold tallyEffects
        have ht := takeSlots_sound (BitVec.ofNat 16 subject) (tallyReadings (Machine.toGuard a).start.index sent slots) indices
          h.toGuard
        refine Station.tableSound.settleTally ht.1.removeMembers.completeAll ?_ _ _
        rw [seqs_of_identities (completeAll_frame _).identities, removeMembers_seqs, ht.2]
        exact record_mem_seqs hr
      · exact h.toGuard
    · exact h.toGuard

theorem Station.tableSound.completeVerdict {a : Station} (h : a.tableSound) : (completeVerdict a).tableSound := by
  have hg := h.toGuard
  unfold Machine.completeVerdict
  split
  · exact h
  · simp only
    split
    · exact hg
    · split
      · unfold verdictEffects
        split
        · split
          · next low high _ _ =>
            unfold decideRecord
            split
            · exact hg
            · split
              · exact hg
              · refine Station.tableSound.fewer (Station.tableSound.update hg _ _ ?_ ?_) _ (dropTally_sublist _ _)
                  (dropVerdict_sublist _ _)
                · intro r; unfold Record.decide; split <;> rfl
                · intro r _ hfit
                  unfold Record.decide
                  split <;> exact ⟨⟨hfit.1, by simp, by simp, by simp⟩, fun _ hl => hl⟩
          · exact hg
        · split
          · exact hg.markVerdict _ true
          · exact hg
      · exact hg

/-! ## PURGE and start-up -/

theorem Station.tableSound.purgeFold (l : List Seq) {a : Station} (h : a.tableSound) : (l.foldl purgeRecord a).tableSound :=
  foldl_tableSound _ (fun _ q hx => hx.removeRecord _ _ q) l a h

theorem purgeEdge_aside (b : Bool) (a : Station) : Aside a (purgeEdge b a) := by
  have h := discardPending_aside a
  unfold purgeEdge
  simp only
  split
  · exact h.trans (enterBlanked_aside _)
  · split
    · exact h
    · exact ((h.trans (dropCompare_aside .bridging _)).trans (dropCompare_aside .blankRelease _)).trans (ofEdge_aside _ _)

theorem Station.tableSound.completePurge {a : Station} (h : a.tableSound) : (completePurge a).tableSound := by
  have hg := h.toGuard
  unfold Machine.completePurge
  split
  · exact h
  · simp only
    split
    · split
      · unfold purgeAll
        simp only
        refine Station.tableSound.fewer ?_ _ (List.nil_sublist _) (List.nil_sublist _)
        exact ((hg.purgeFold _).aside (purgeEdge_aside _ _)).aside (ofScan_aside _ _)
      · unfold purgeOpen
        simp only
        split
        · exact hg.ofEngine _ rfl rfl
        · exact Station.tableSound.ofEngine (hg.purgeFold _).headTakes _ rfl rfl
      · unfold purgeOne
        split
        · exact Station.tableSound.ofEngine (hg.removeRecord _ _ _).headTakes _ rfl rfl
        · exact hg.ofEngine _ rfl rfl
      · exact hg
    · exact hg

theorem Station.tableSound.readEnd {a : Station} (h : a.tableSound) (sections : List Byte) :
    (readEnd sections a).tableSound := by
  have hf : ∀ reason, (enterConfigFault reason a).tableSound := by
    intro reason
    unfold enterConfigFault
    exact Station.tableSound.raiseCause (h.aside (.ofSame rfl rfl rfl rfl)) Cause.configFault
  unfold Machine.readEnd
  split
  · split
    · exact hf _
    · split
      · exact hf _
      · unfold enterJoining watchBand
        simp only
        split
        · exact Station.tableSound.raiseRoll (h.aside (.ofSame rfl rfl rfl rfl))
        · exact Station.tableSound.raiseRoll (h.aside (.ofSame rfl rfl rfl rfl))
  · exact h

theorem resetWith_tableSound (straps : Straps) (indexFault pin : Bool) (frame : Frame) :
    (Station.resetWith straps indexFault pin frame).tableSound :=
  ⟨List.nodup_nil, fun _ hr => (List.not_mem_nil hr).elim,
    ⟨fun _ hc => (List.not_mem_nil hc).elim, fun _ hx => (List.not_mem_nil hx).elim, fun _ hx => (List.not_mem_nil hx).elim,
      List.nodup_nil, List.nodup_nil⟩, fun _ ht => (List.not_mem_nil ht).elim⟩

end Sys2Proof.Machine
end

