-- ==== Sys2Proof/Laws/Words.lean ====
section
/-! SUPPORT. What the operations say in the words of Safety.lean: the scan head condition, an entry to BLANKED, the values after
reset; the attention line as a condition on the causes; and the drive of the Grade Line. -/

namespace Sys2Proof.Machine

/-! ## The scan head condition (R17) -/

theorem scanHeadClear_iff (st : Station) (trail : Pos) : scanHeadClear st trail = true ↔ st.headClear trail := by
  unfold scanHeadClear Station.headClear
  cases h : st.scan.fifo with
  | nil => simp
  | cons rep rest =>
    simp only [mappedPosition, List.cons.injEq]
    constructor
    · intro hc rep' rest' he
      obtain ⟨rfl, _⟩ := he
      by_cases hd : (st.position.triggerCount - rep.line).toNat < 32768
      · rw [if_pos hd] at hc; exact ⟨hd, hc⟩
      · rw [if_neg hd] at hc; cases hc
    · intro hc
      obtain ⟨hd, ha⟩ := hc rep rest ⟨rfl, rfl⟩
      rw [if_pos hd]; exact ha

theorem scanHeadClear_false {st : Station} {trail : Pos} (h : ¬ st.headClear trail) : scanHeadClear st trail = false := by
  cases hc : scanHeadClear st trail with
  | false => rfl
  | true => exact absurd ((scanHeadClear_iff st trail).1 hc) h

/-- The closing conditions of R17 in these words. -/
theorem closingHolds_eq (st : Station) (r : Record) {trail : Pos} (ht : r.band.trail = some trail) :
    closingHolds st r = true ↔ r.band.state = .closing ∧ r.band.lagPassed = true ∧ st.headClear trail ∧
      st.probe.target ≠ some (.held r.seq) := by
  rw [← scanHeadClear_iff]
  simp [closingHolds, ht, and_assoc]

/-! ## Entry to BLANKED (R48, R49) -/

theorem find_store (p : PositionUnit) (id : CompareId) (pos : Pos) (g : Progress) :
    (p.store id pos g).find id = some ⟨id, pos, g⟩ := by
  have h : (p.drop id).compares.find? (fun c => c.id == id) = none := by
    refine List.find?_eq_none.2 fun c hc => ?_
    simpa [PositionUnit.drop] using (List.mem_filter.1 hc).2
  simp only [PositionUnit.find, PositionUnit.store, List.find?_append, h]
  simp

/-- The blank release compare and the edge state after the start of absence has changed. -/
theorem followAbsence_cases (st : Station) :
    (st.edge.absence = none → followAbsence st = dropCompare .blankRelease st) ∧
    (∀ a, st.edge.absence = some a → st.position.reached (a + counts st.shared.bridge) = false →
      followAbsence st = storeCompare .blankRelease (a + counts st.shared.bridge) .waiting st) ∧
    (∀ a, st.edge.absence = some a → st.position.reached (a + counts st.shared.bridge) = true → st.edge.frozen = true →
      followAbsence st = storeCompare .blankRelease (a + counts st.shared.bridge) .kept st) ∧
    (∀ a, st.edge.absence = some a → st.position.reached (a + counts st.shared.bridge) = true → st.edge.frozen = false →
      followAbsence st = releaseBlank st) := by
  unfold followAbsence
  refine ⟨?_, ?_, ?_, ?_⟩
  · intro h; simp only [h]
  · intro a h hr; simp [h, hr]
  · intro a h hr hf; simp [h, hr, hf]
  · intro a h hr hf; simp [h, hr, hf]

/-- An entry to BLANKED in the words of R48 and R49. -/
theorem enterBlanked_entersBlanked (st : Station) : st.entersBlanked (enterBlanked st) := by
  have hs : ∀ id, (dropCompare .bridging (discardPending st)).stores id =
      (st.stores id && id != .qualification && id != .bridging) := by
    intro id
    rw [stores_drop]
    exact congrArg (· && _) (stores_drop st .qualification id)
  have hrel : ∀ (x : Station) (id : CompareId), (releaseBlank x).stores id = (x.stores id && id != .blankRelease) :=
    fun x id => stores_drop x .blankRelease id
  by_cases hb : st.edge.state = .blanked
  · have he : enterBlanked st = dropCompare .bridging (discardPending st) := by unfold enterBlanked; simp only [hb, if_true]
    rw [he]
    exact ⟨by rw [hs]; simp, by rw [hs]; simp, fun _ => rfl, fun h => absurd hb h, fun h => absurd hb h,
      fun h => absurd hb h⟩
  · have he : ∀ start, (if st.presenceHeld then none
        else if st.edge.state = .falling then (st.edge.fall <|> some st.position.counter)
        else some st.position.counter) = start →
        enterBlanked st = followAbsence { dropCompare .bridging (discardPending st) with
          edge := { (discardPending st).edge with state := .blanked, fall := none, absence := start } } := by
      rintro _ rfl
      unfold enterBlanked
      simp only [hb, if_false]
      rfl
    have hx : ∀ (e : EdgeUnit) (id : CompareId), ({ dropCompare .bridging (discardPending st) with edge := e } : Station).stores id =
        (st.stores id && id != .qualification && id != .bridging) := fun _ id => hs id
    have hstart : st.presenceHeld = false → (if st.presenceHeld then none
        else if st.edge.state = .falling then (st.edge.fall <|> some st.position.counter)
        else some st.position.counter) = some st.absenceStart := by
      intro hp
      unfold Station.absenceStart
      rw [hp]
      by_cases hst : st.edge.state = .falling
      · cases hf : st.edge.fall <;> simp [hst]
      · simp [hst]
    have hcases := fun (start : Option Pos) => followAbsence_cases { dropCompare .bridging (discardPending st) with
      edge := { (discardPending st).edge with state := .blanked, fall := none, absence := start } }
    cases hp : st.presenceHeld with
    | true =>
      rw [he none (by rw [hp]; rfl), (hcases none).1 rfl]
      refine ⟨?_, ?_, fun h => absurd h hb, fun _ _ => ⟨rfl, ?_⟩, fun _ h => absurd (hp.symm.trans h) (by decide),
        fun _ h => absurd (hp.symm.trans h) (by decide)⟩ <;> rw [stores_drop, hx] <;> simp
    | false =>
      have hno : ∀ {P : Prop}, st.presenceHeld = true → P := fun h => absurd (hp.symm.trans h) (by decide)
      obtain ⟨_, k1, k2, k3⟩ := hcases (some st.absenceStart)
      rw [he _ (hstart hp)]
      have hw : ∀ g, ((dropCompare .bridging (discardPending st)).position.store .blankRelease
          (st.absenceStart + counts st.shared.bridge) g).find .blankRelease =
          some ⟨.blankRelease, st.absenceStart + counts st.shared.bridge, g⟩ := fun g => find_store _ _ _ g
      cases hr : atOrAfter st.position.counter (st.absenceStart + counts st.shared.bridge) with
      | false =>
        rw [k1 _ rfl hr]
        refine ⟨?_, ?_, fun h => absurd h hb, fun _ => hno, fun _ _ h => absurd (hr.symm.trans h) (by decide),
          fun _ _ _ => ⟨rfl, ?_⟩⟩
        · rw [stores_store, hx]; simp
        · rw [stores_store, hx]; simp
        · rw [hr]; exact hw .waiting
      | true =>
        cases hf : st.edge.frozen with
        | true =>
          rw [k2 _ rfl hr hf]
          refine ⟨?_, ?_, fun h => absurd h hb, fun _ => hno, fun _ _ _ h => absurd (hf.symm.trans h) (by decide),
            fun _ _ _ => ⟨rfl, ?_⟩⟩
          · rw [stores_store, hx]; simp
          · rw [stores_store, hx]; simp
          · rw [hr]; exact hw .kept
        | false =>
          rw [k3 _ rfl hr hf]
          refine ⟨?_, ?_, fun h => absurd h hb, fun _ => hno, fun _ _ _ _ => ⟨rfl, ?_⟩, fun _ _ h => ?_⟩
          · rw [hrel, hx]; simp
          · rw [hrel, hx]; simp
          · rw [hrel]; simp
          · rcases h with h | h
            · exact absurd (hr.symm.trans h) (by decide)
            · exact absurd (hf.symm.trans h) (by decide)

/-! ## Reset, and the attention line -/

theorem resetWith_resetFrom (straps : Straps) (indexFault : Bool) (st : Station) :
    st.resetFrom straps indexFault (Station.resetWith straps indexFault st.edge.pin st.scan.frame) := by
  refine ⟨rfl, rfl, rfl, rfl, ⟨rfl, rfl, rfl, ?_, ?_⟩, rfl, rfl, rfl, rfl, rfl, rfl⟩
  · cases h : st.scan.frame <;> simp [Station.resetWith, ScanUnit.reset]
  · cases h : st.scan.frame <;> simp [Station.resetWith, ScanUnit.reset]

/-- R191. -/
theorem attentionDriven_iff (st : Station) (hl : st.heldInReset = false) :
    st.attentionDriven = true ↔ ∃ x : Cause, st.port.causes.has x = true ∧ st.port.enable.has x = true := by
  have hall : ∀ x : Cause, x ∈ causesByPriority := by intro x; cases x <;> decide
  simp only [Station.attentionDriven, hl, ResultPort.attention, Bool.not_false, Bool.true_and, List.any_eq_true,
    Bool.and_eq_true]
  exact ⟨fun ⟨x, _, h⟩ => ⟨x, h⟩, fun ⟨x, h⟩ => ⟨x, hall x, h⟩⟩

/-! ## The Grade Line as the station drives it (R89) -/

/-- In IN_ROUND, with no long drive, the station drives what the field that is being sent asks of it, and no spacer. -/
theorem gradeLineDriven_inRound {st : Station} {r : Round} (hr : st.heldInReset = false) (hs : st.line.state = .inRound)
    (hd : st.line.longDrive = false) (hx : st.line.round = some r) (heard : List Bool) :
    st.gradeLineDriven heard = (decide (heard.length % 9 ≠ 8 ∧ r.fieldStart ≤ (withoutSpacers heard).length) &&
      r.drives st.start.index ((withoutSpacers heard).drop r.fieldStart)) := by
  simp [Station.gradeLineDriven, followed, hr, hs, hd, hx]

theorem gradeLineDriven_longDrive {st : Station} (hd : st.line.longDrive = true)
    (hs : st.line.state = .opening ∨ st.line.state = .inRound) (heard : List Bool) : st.gradeLineDriven heard = false := by
  rcases hs with hs | hs <;> simp [Station.gradeLineDriven, followed, hs, hd]

theorem drives_none (f : PassField) (read : List Bool) : f.drives none read = false := by
  simp only [PassField.drives, PassField.cells, Option.map_none, releasedCells, Bool.and_eq_false_iff]
  left
  rw [List.getElem?_replicate]
  split <;> rfl

end Sys2Proof.Machine
end

