-- ==== Sys2Proof/WellFormed.lean ====
section
/-! DEFINITION. Which commands have operands of the shape the spec gives them. -/

namespace Sys2Proof

/-- The operands have the lengths and ranges of the spec: a header of 7 bytes and sections of 157 bytes (R196), eight
slots (R101), at most seven peers (chapter 0), a code other than 1 to 5 in an unknown command (R195), and no compare
named twice in an order. -/
def Instr.wellFormed (i : Instr) : Bool :=
  match i with
  | .powerOnReset _ => true
  | .resetPin _ => true
  | .configHeaderRead header => header.length == 7
  | .configReadEnd sections => sections.length == 157
  | .restartMarkEnd => true
  | .encoderStep _ => true
  | .encoderDoubleTransition => true
  | .triggerPulseEnd => true
  | .presenceAppears => true
  | .presenceLost => true
  | .qualificationCompare => true
  | .bridgingCompare => true
  | .blankReleaseCompare => true
  | .overlengthCompare => true
  | .emptyCompare _ => true
  | .lagCompare _ => true
  | .decisionCompare _ => true
  | .gateCompare => true
  | .gateWindowEndCompare => true
  | .sampleCompare => true
  | .settleEnd => true
  | .sampleCompletion _ => true
  | .warmUpExpiry => true
  | .parkExpiry => true
  | .scanFrameEnd _ => true
  | .lineQuietJoin => true
  | .roundOpen => true
  | .openingPulseEnd length => 0 < length
  | .alignmentPatternAccepted first second third => 0 < first && 0 < second && 0 < third
  | .kindContestEnd peers => decide (peers.length ≤ 7)
  | .passEnd peers => decide (peers.length ≤ 7)
  | .ownSlotReadBack => true
  | .ownSlotMismatch _ => true
  | .lineError _ => true
  | .longDriveStart => true
  | .longDriveReleased => true
  | .breakReceived => true
  | .breakWireReleased => true
  | .muteQuietCountFull => true
  | .breakSendEnd _ => true
  | .guardEnd => true
  | .roundCompleteNone => true
  | .rollRoundComplete slots order => slots.length == 8 && decide order.Nodup
  | .openRoundComplete => true
  | .tallyRoundComplete slots => slots.length == 8
  | .verdictRoundComplete => true
  | .purgeRoundComplete => true
  | .readResult => true
  | .readResultShiftedOut => true
  | .readStatus => true
  | .readCause => true
  | .readCauseShiftedOut => true
  | .requestPurge _ _ => true
  | .requestRoll => true
  | .unknownCommand code => !(1#8 ≤ code && code ≤ 5#8)
  | .supplyBelowRange => true
  | .scanFrameDriven => true
  | .openingAsListener => true
  | .resultPortSelectReleased => true

end Sys2Proof
end

