-- ==== Sys2Proof/Tests/Slice0.lean ====
section
/-! SUPPORT. Tests: ill-formed commands, the spec's worked figures, and for each statement a state that meets its hypotheses. -/

set_option Elab.async false

namespace Sys2Proof.Machine.Tests

/-! ## Well-formed commands: one ill-formed term for each check -/

theorem test_illFormed_header : (Instr.configHeaderRead (List.replicate 6 0)).wellFormed = false := by decide

theorem test_illFormed_sections : (Instr.configReadEnd (List.replicate 156 0)).wellFormed = false := by decide +kernel

theorem test_illFormed_pulse : (Instr.openingPulseEnd 0).wellFormed = false := by decide

theorem test_illFormed_pattern : (Instr.alignmentPatternAccepted 0 4000 4000).wellFormed = false ∧
    (Instr.alignmentPatternAccepted 4000 0 4000).wellFormed = false ∧
    (Instr.alignmentPatternAccepted 4000 4000 0).wellFormed = false := by decide

theorem test_illFormed_contest : (Instr.kindContestEnd (List.replicate 8 1)).wellFormed = false := by decide

theorem test_illFormed_pass : (Instr.passEnd (List.replicate 8 1)).wellFormed = false := by decide

theorem test_illFormed_rollSlots : (Instr.rollRoundComplete (List.replicate 7 0) []).wellFormed = false := by decide

theorem test_illFormed_rollOrder : (Instr.rollRoundComplete (List.replicate 8 0) [.sample, .sample]).wellFormed = false := by
  decide

theorem test_illFormed_tallySlots : (Instr.tallyRoundComplete (List.replicate 9 0)).wellFormed = false := by decide

theorem test_illFormed_knownCode : (Instr.unknownCommand 1).wellFormed = false ∧
    (Instr.unknownCommand 5).wellFormed = false := by decide

theorem test_wellFormed_some : (Instr.configHeaderRead (List.replicate 7 0)).wellFormed = true ∧
    (Instr.unknownCommand 0).wellFormed = true ∧ (Instr.unknownCommand 6).wellFormed = true ∧
    (Instr.rollRoundComplete (List.replicate 8 0) [.gate 1, .gate 2]).wellFormed = true ∧
    (Instr.openingPulseEnd 1).wellFormed = true := by decide

/-! ## The image (R196): every field written out at its offset -/

/-- The grade table of the example of section 7.7; classes 2 and 5 are filled so that each row rises. -/
def gradeBytes : List Byte :=
  [2, 0, 20, 0, 40, 0, 0, 0, 0, 0, 0, 0, 0, 0, 0, 0, 0, 0, 0, 0, 0, 0, 0, 0, 0, 0, 0, 0, 0, 0] ++
  [6, 0, 40, 0, 150, 1, 0, 1, 0, 1, 1, 0, 30, 0, 60, 1, 1, 44, 1, 144, 1, 0, 1, 0, 1, 2, 0, 100, 0, 200] ++
  [20, 0, 80, 3, 32, 2, 0, 2, 0, 2, 4, 0, 80, 1, 44, 3, 3, 232, 5, 220, 2, 0, 2, 0, 2, 10, 1, 144, 7, 208] ++
  [255, 15, 255, 255, 255, 3, 0, 3, 0, 3, 10, 0, 200, 3, 232, 6, 15, 255, 15, 160, 3, 0, 3, 0, 3, 255, 15, 255, 255, 255]

/-- Line rate 2, W 400, Q 20, H 60, M 2000, L 300, distances 3000 and 5000, window 500, pitch 8, band width 512, T 40,
reverse limit 3, roll period 16, sample pitch 50, settle 100, redry 600, F 3; bins 1 to 7 and 0; trim 140, times 10 and 20,
no invert, mask 254, watermark 4. -/
def sections : List Byte :=
  [2, 1, 144, 20, 60, 7, 208, 1, 44, 11, 184, 19, 136, 1, 244, 8, 2, 0, 40, 0, 3, 16, 0, 50, 100, 2, 88, 3] ++ gradeBytes ++
  [0b00101001, 0b11001011, 0b10111000] ++ [140, 10, 20, 0, 254, 4]

def header : List Byte := [0x4E, 0x57, 1, 0, 157, 0, 0]

def sh : Shared := readShared sections

def loc : Local := readLocal sections

theorem test_image_shared :
    { sh with gradeTable := Shared.unloaded.gradeTable } =
      { lineRate := 2, attachWindow := 400, qualification := 20, bridge := 60, overlength := 2000, lag := 300,
        decisionDistance := 3000, gateDistance := 5000, gateWindow := 500, scanPitch := 8, bandWidth := 512,
        mergeTolerance := 40, reverseLimit := 3, rollPeriod := 16, samplePitch := 50, settleTime := 100, redryLimit := 600,
        fullBandCount := 3, gradeTable := Shared.unloaded.gradeTable, binMap := ⟨1, 2, 3, 4, 5, 6, 7, 0⟩ } ∧
    sh.gradeTable.face1.tightKnot = ⟨2, 20, 40⟩ ∧ sh.gradeTable.face2.split = ⟨1, 300, 400⟩ ∧
    sh.gradeTable.back.hole = ⟨4, 80, 300⟩ ∧ sh.gradeTable.core.discolor = ⟨255, 4095, 65535⟩ := by decide +kernel

theorem test_image_local : loc =
    { trim := 140, warmUpTime := 10, parkTime := 20, presenceInvert := 0, enableMask := 254, watermark := 4 } := by
  decide +kernel

theorem test_image_valid : headerFault header = none ∧ fieldsInRange sh loc = true ∧ distancesOrdered sh = true ∧
    gradeTableOrdered sh.gradeTable = true := by decide +kernel

/-- The sections pass every test under the check word formed over them. -/
theorem sections_valid : sectionsFault (check16 (byteBits (sectionBytes sections))) sections = none := by
  have bytes : sectionBytes sections = sections := by decide +kernel
  have h := test_image_valid
  unfold sectionsFault
  simp only [bytes, ne_eq, not_true_eq_false, if_false]
  simp [show readShared sections = sh from rfl, show readLocal sections = loc from rfl, h.2.1, h.2.2.1, h.2.2.2]

/-- R178: each test of the table finds its own fault. -/
theorem test_image_faults :
    headerFault (header.set 0 0) = some .marker ∧ headerFault (header.set 2 2) = some .header ∧
    headerFault (header.set 4 156) = some .header ∧
    fieldsInRange (readShared (sections.set 0 4)) loc = false ∧ fieldsInRange (readShared (sections.set 29 16)) loc = false ∧
    distancesOrdered (readShared (sections.set 3 60)) = false ∧
    gradeTableOrdered (readShared (sections.set 28 7)).gradeTable = false := by decide +kernel

/-- R192: the check values of the nine bytes 31 to 39 in hexadecimal. -/
theorem test_checks :
    check16 (byteBits [0x31, 0x32, 0x33, 0x34, 0x35, 0x36, 0x37, 0x38, 0x39]) = 0x29B1 ∧
    digest32 [0x31, 0x32, 0x33, 0x34, 0x35, 0x36, 0x37, 0x38, 0x39] = 0x0376E6E7 := by decide +kernel

/-! ## Small states -/

/-- Index 2, outlet, RUNNING at position 12 000 with members 1, 2 and 3. -/
def running : Station :=
  let st := Station.resetWith ⟨2, true⟩ false false .released
  { st with
    start := { st.start with node := .running, readPos := none, config := some ⟨sh, loc⟩, digest := some 7 }
    position := { st.position with counter := 12000, highWater := 12000, triggerCount := 5000, triggerPos := 11998 }
    probe := { st.probe with state := .ready, parkTimer := some 20 }
    line := { st.line with state := .idle, quiet := 32 }
    engine := { st.engine with
      peers := ⟨none, some 0, some 0, some 0, none, none, none, none⟩, nextSeq := 42, openCount := 15 } }

def loading : Station := Station.resetWith ⟨2, true⟩ false false .released

/-- Record 41 with P 10 000, in the table. -/
def record : Record := newRecord sh 41 10000

def banded (state : BandState) (lead trail : Option Pos) : Record :=
  { record with band := { record.band with state := state, lead := lead, trail := trail } }

def holding (r : Record) (st : Station) : Station := { st with table := [r] }

/-- A due compare of this purpose. -/
def withDue (id : CompareId) (st : Station) : Station :=
  { st with position := { st.position with compares := [⟨id, st.position.counter, .due⟩] } }

def withEdge (state : EdgeState) (pin : Bool) (st : Station) : Station :=
  { st with edge := { st.edge with state := state, pin := pin } }

def withPending (e : PendingEdge) (st : Station) : Station := { st with edge := { st.edge with pending := some e } }

def noOffers : Offers := ⟨none, none, none, none, none, none, none, none, none, none⟩

def aRound (kind : Option RoundKind) (passes : List PassResult) (slot : Option SlotEntry) (slotRead : Bool) : Round :=
  { kind := kind, counted := ⟨[], [], .none⟩, offers := noOffers, contest := none, passes := passes, slotEntry := slot,
    slotRead := slotRead, cells := 0 }

def inRound (r : Round) (st : Station) : Station :=
  { st with
    position := { st.position with capture := some st.position.counter }
    line := { st.line with state := .inRound, round := some r } }

def passed (v : Nat) : PassResult := ⟨some v, none⟩

def report : Report := ⟨.split, 4990, 0, 30, 25, 25⟩

def rollEntry : RollEntry := ⟨.running, true, 7⟩

/-! ## Figures worked in the spec -/

/-- R83: the six rows of the table. -/
theorem test_trim : trimmed 412 128 = 412 ∧ trimmed 412 140 = 424 ∧ trimmed 412 100 = 384 ∧ trimmed 20 100 = 0 ∧
    trimmed 1000 200 = 1023 ∧ trimmed 0 255 = 127 := by decide

/-- R194: the cells of the kind contest and the body of each kind. -/
theorem test_cells : RoundKind.cells .roll = 470 ∧ RoundKind.cells .opening = 37 ∧ RoundKind.cells .tally = 3605 ∧
    RoundKind.cells .verdict = 31 ∧ RoundKind.cells .purge = 24 ∧ RoundKind.cells .nothing = 4 := by decide

/-- R95, R194: the cells of a round of kind NONE, a spacer after the eighth cell, and the count at the end of the passes and of
the last slot of a ROLL round. -/
theorem test_layout :
    RoundKind.roundCells .nothing none [] [] =
      [false, false] ++ [true, false, true, false, true, false, true, false] ++ [true] ++ [true, true, true, true] ++
      [true, true, true] ∧
    withSpacers (List.replicate 9 false) = List.replicate 8 false ++ [true, false] ∧
    (RoundKind.bodyCells .opening (some 5) [some 3] []).take 6 = [false, true, false, true, false, false] ∧
    RoundKind.cellsThrough .roll 0 = 4 ∧ RoundKind.cellsThrough .roll 2 = 60 ∧ RoundKind.cellsThroughSlot .roll 7 = 528 := by
  decide +kernel

/-- R95: at round cells of 2 µs, the edges up to 500 ns from a boundary and those beyond. -/
theorem test_edgeBoundary : edgeBoundary 12000 0 = some 0 ∧ edgeBoundary 12000 500 = some 0 ∧ edgeBoundary 12000 501 = none ∧
    edgeBoundary 12000 1499 = none ∧ edgeBoundary 12000 1500 = some 1 ∧ edgeBoundary 12000 2500 = some 1 ∧
    edgeBoundary 12000 2501 = none := by decide

/-- R194: a max moisture field with its valid flag clear has released value cells. -/
theorem test_moisture : parseMoisture 0 5 = none ∧ parseMoisture 0 1023 = some none ∧ parseMoisture 1 5 = some (some 5) := by
  decide

/-- R195: the bytes of a transaction. -/
theorem test_commandTaken : commandTaken [1] = some .readResult ∧ commandTaken [4, 3, 1, 2] = some (.requestPurge 3 258) ∧
    commandTaken [4, 3, 1] = none ∧ commandTaken [9] = some (.unknownCommand 9) ∧ commandTaken [] = none := by decide

/-- Section 5.11: BACK, BACK and FACE2 give low BACK and high FACE2. -/
theorem test_passes : lowPass 3 [5, 5, 6] = some 5 ∧ highPass 3 [5, 5, 6] = some 6 ∧ lowPass 3 [] = none ∧
    (PassField.low 3).run (some 6) [5, 5] = ⟨some 5, some false⟩ ∧
    (PassField.high 3).run (some 6) [5, 5] = ⟨some 6, some true⟩ := by decide

/-- Section 3.6: report A maps to 40 720 and gives SPLIT LEFT 720 to 920. -/
theorem test_fold : mappedPosition { running.position with triggerCount := 5006, triggerPos := 40848 } 8 4990 = some 40720 ∧
    (Summary.zero.fold sh 40000 40720 report).boundary = [⟨.split, .left, 720, 920, 25⟩] ∧
    (Summary.zero.fold sh 40000 40720 report).figures.split = ⟨1, 25, 25⟩ := by decide +kernel

def figures (count : BitVec 8) (largest : BitVec 12) (aggregate : BitVec 16) : ClassFigures := ⟨count, largest, aggregate⟩

/-- The three entries of section 7.7. -/
def entry1 : Summary :=
  { Summary.zero with
    figures := { Summary.zero.figures with hole := figures 1 20 20, split := figures 2 300 420 }
    boundary := [⟨.split, .right, 1200, 1400, 300⟩, ⟨.hole, .right, 2000, 2040, 20⟩], moisture := some 410 }

def entry2 : Summary :=
  { Summary.zero with
    figures := { Summary.zero.figures with hole := figures 1 25 25, split := figures 1 512 512, discolor := figures 1 40 40 }
    boundary := [⟨.discolor, .left, 500, 600, 40⟩, ⟨.split, .both, 1410, 1450, 512⟩, ⟨.hole, .left, 2030, 2060, 25⟩]
    moisture := some 455 }

def entry3 : Summary :=
  { Summary.zero with
    figures := { Summary.zero.figures with tightKnot := figures 3 18 40, split := figures 1 150 150 }
    boundary := [⟨.split, .left, 1440, 1560, 150⟩], moisture := some 470 }

def entries (e1 e2 e3 : Option Entry) : Eight (Option Entry) := ⟨none, e1, e2, e3, none, none, none, none⟩

/-- Section 7.7: the merged tally and the verdict BACK; with the overflow marker set in entry 2, CORE. -/
theorem test_grading :
    (sheetTally 40 (entries (some (.closed entry1)) (some (.closed entry2)) (some (.closed entry3)))).figures =
      ⟨⟨3, 18, 40⟩, ⟨0, 0, 0⟩, ⟨1, 25, 45⟩, ⟨2, 962, 1082⟩, ⟨0, 0, 0⟩, ⟨1, 40, 40⟩⟩ ∧
    (gradeRecord sh { record with
      entries := entries (some (.closed entry1)) (some (.closed entry2)) (some (.closed entry3)) }).verdict = some .back ∧
    (gradeRecord sh { record with
      entries := entries (some (.closed entry1)) (some (.closed { entry2 with overflow := true }))
        (some (.closed entry3)) }).verdict = some .core ∧
    ((sheetTally 5 (entries (some (.closed entry1)) (some (.closed entry2)) (some (.closed entry3)))).figures.split.count,
      (sheetTally 5 (entries (some (.closed entry1)) (some (.closed entry2)) (some (.closed entry3)))).figures.split.largest) =
        (3, 662) := by decide +kernel

/-- Section 7.8: sheets a, b, c, d, f and g. -/
theorem test_verdict_lines :
    let plain := fun (m : Option (BitVec 10)) => some (Entry.closed { Summary.zero with moisture := m })
    let verdict := fun (e1 e2 e3 : Option Entry) (blind : Bool) =>
      (gradeRecord sh { record with entries := entries e1 e2 e3, flags := { record.flags with blind := blind } }).verdict
    verdict (plain (some 700)) (some (.closed { Summary.zero with overlength := true, moisture := some 420 }))
      (plain (some 430)) false = some .manual ∧
    verdict (plain none) (some .empty) (plain none) false = some .manual ∧
    verdict (some .unknown) (plain none) (plain none) true = some .manual ∧
    verdict (plain (some 610)) (plain (some 420)) (plain (some 430)) false = some .redry ∧
    verdict (some .empty) (plain (some 420)) (plain (some 430)) false = some .strip ∧
    verdict (plain (some 400)) (plain (some 420)) (plain (some 430)) false = some .face1 := by decide +kernel

/-- Section 6.9: station 5 offers 1 240, the result is 500 040, and its counter 1 270 becomes 500 070. -/
theorem test_alignment :
    let late := { running with position := { running.position with counter := 1270 } }
    (applyAlignment (BitVec.ofNat 32 500040 - 1240) [] late).position.counter = 500070 := by decide +kernel

/-! ## States that meet the hypotheses of the statements, clause by clause -/

/-- ResetReleaseSetsEveryBlock, SupplyBelowRangeHoldsStation. -/
theorem test_meets_reset : running.heldInReset = false ∧ { running with heldInReset := true }.heldInReset = true ∧
    (∀ straps, Instr.guardEnd ≠ .powerOnReset straps) ∧ Instr.guardEnd ≠ .supplyBelowRange ∧
    Instr.guardEnd ≠ .presenceAppears ∧ Instr.guardEnd ≠ .presenceLost ∧ Instr.guardEnd ≠ .scanFrameDriven ∧
    (∀ bits, Instr.guardEnd ≠ .scanFrameEnd bits) := by
  refine ⟨by decide, by decide, ?_, by decide, by decide, by decide, by decide, ?_⟩ <;> intro x h <;> cases h

/-- FaultyImageEntersConfigFault, the header: a sound one, a wrong marker, a wrong format number. -/
theorem test_meets_header : loading.heldInReset = false ∧ loading.start.node = .loading ∧ loading.start.readPos = some 0 ∧
    loading.line.indexFault = false ∧
    (wordAt header 0 = 0x4E57#16 ∧ byteAt header 2 = 1#8 ∧ wordAt header 3 = 157#16) ∧
    ¬ (wordAt (header.set 0 0) 0 = 0x4E57#16 ∧ byteAt (header.set 0 0) 2 = 1#8 ∧ wordAt (header.set 0 0) 3 = 157#16) ∧
    ¬ (wordAt (header.set 2 2) 0 = 0x4E57#16 ∧ byteAt (header.set 2 2) 2 = 1#8 ∧ wordAt (header.set 2 2) 3 = 157#16) := by
  decide

/-- The header is read, with check word `w`. -/
def reading (mark : Bool) (w : BitVec 16) : Station :=
  { loading with
    start := { loading.start with readPos := some 7, checkWord := some w }
    line := { loading.line with indexFault := mark } }

/-- FaultyImageEntersConfigFault and ValidImageEntersJoining: the index fault mark set, and clear; `sections_valid` and
`check_fails` give a check word that the sections pass and one that they fail. -/
theorem test_meets_sections (mark : Bool) (w : BitVec 16) : (reading mark w).heldInReset = false ∧
    (reading mark w).start.node = .loading ∧ (reading mark w).start.readPos = some 7 ∧
    (reading mark w).line.indexFault = mark ∧ (reading mark w).start.checkWord.getD 0 = w := ⟨rfl, rfl, rfl, rfl, rfl⟩

/-- An image whose check word is not the one formed over it. -/
theorem check_fails : sectionsFault (check16 (byteBits (sectionBytes sections)) + 1) sections = some .check := by
  unfold sectionsFault
  have h : check16 (byteBits (sectionBytes sections)) ≠ check16 (byteBits (sectionBytes sections)) + 1 := by
    generalize check16 (byteBits (sectionBytes sections)) = w
    bv_omega
  exact if_pos h

/-- FaultyImageEntersConfigFault, the tests of the sections: an image that passes each, and one that fails each. -/
theorem test_meets_imageTests :
    imageInRange sections ∧ imageOrdered sections ∧ imageRising sections ∧ ¬ imageInRange (sections.set 0 4) ∧
    (imageInRange (sections.set 3 60) ∧ ¬ imageOrdered (sections.set 3 60)) ∧
    (imageInRange (sections.set 28 7) ∧ imageOrdered (sections.set 28 7) ∧ ¬ imageRising (sections.set 28 7)) :=
  ⟨by decide +kernel, by decide +kernel, by decide +kernel, by decide +kernel, ⟨by decide +kernel, by decide +kernel⟩,
    by decide +kernel, by decide +kernel, by decide +kernel⟩

theorem test_meets_imageCheck : imageCheck sections + 1 ≠ imageCheck sections := by
  generalize imageCheck sections = w
  bv_omega

/-- TriggerLineFollowsPulses: each line level, with no pulse owed and with one. -/
theorem test_meets_triggerLine : running.position.pulsesOwed = 0 ∧ { running.position with pulsesOwed := 1 }.pulsesOwed ≠ 0 ∧
    { running.position with triggerLine := .markGap }.triggerLine = .markGap ∧
    { running.position with triggerLine := .mark }.triggerLine = .mark ∧
    { running.position with triggerLine := .gap }.triggerLine = .gap ∧
    { running.position with triggerLine := .pulse }.triggerLine = .pulse := by decide

/-- HighWaterTravelAndTriggersFollowSteps: new ground and re-travel; a trigger due with a pulse lost, owed and begun; none
due. -/
theorem test_meets_steps :
    isAfter (running.position.counter + 1) running.position.highWater = true ∧
    isAfter (loading.position.counter + 1) (loading.position.highWater + 1) = false ∧
    running.start.node.onLine = true ∧
    (let p := { running.position with triggerPos := 11993 }
     p.counter + 1 = p.triggerPos + counts running.shared.scanPitch) ∧
    running.position.counter + 1 ≠ running.position.triggerPos + counts running.shared.scanPitch := by decide +kernel

/-- ReverseStepRaisesPurgeAtLimit: no compare is due; below the limit, and at it. -/
theorem test_meets_reverse : (∀ c ∈ running.position.compares, c.progress ≠ .due) ∧ running.start.node = .running ∧
    (2#16).toNat + 1 = running.shared.reverseLimit.toNat ∧ (1#16).toNat + 1 ≠ running.shared.reverseLimit.toNat := by
  decide +kernel

/-- PresenceChangesByEdgeState. -/
theorem test_meets_presence :
    running.start.node.onLine = true ∧ running.edge.frozen = false ∧
    (withEdge .idle false running).presenceHeld = false ∧ (withEdge .falling false running).presenceHeld = false ∧
    (let st := { withEdge .blanked false running with edge := { (withEdge .blanked false running).edge with absence := some 9 } }
     st.presenceHeld = false ∧ st.edge.absence.isSome = true) ∧
    (withEdge .idle false running).edge.pending = none ∧
    (withEdge .rising true running).presenceHeld = true ∧ (withEdge .present true running).presenceHeld = true ∧
    (withEdge .blanked true running).presenceHeld = true ∧ (withEdge .blanked true running).edge.absence = none ∧
    running.shared.bridge ≠ 0 := by decide +kernel

/-- FrozenEdgeUnitHoldsStill. -/
theorem test_meets_frozen :
    (let st := { running with edge := { running.edge with frozen := true } }
     st.edge.frozen = true ∧ st.heldInReset = false ∧ (withDue .qualification st).position.isDue .qualification = true ∧
     (withDue .bridging st).position.isDue .bridging = true ∧ (withDue .blankRelease st).position.isDue .blankRelease = true ∧
     (withDue .overlength st).position.isDue .overlength = true) ∧
    loading.start.node.onLine = false := by decide

/-- The Edge Unit frozen at the high-water position, with these compares stored. -/
def frozenIn (state : EdgeState) (pin : Bool) (compares : List Compare) : Station :=
  { running with
    edge := { running.edge with
      state := state, pin := pin, frozen := true, fall := if state = .falling then some 11990 else none }
    position := { running.position with compares := compares } }

def keptAt (id : CompareId) (pos : Pos) : Compare := ⟨id, pos, .kept⟩

/-- ResumeActsOnPresenceAndKept: what every clause asks, of a state with no kept compare and of one with two. -/
theorem test_meets_resume : ∀ compares ∈ [[], [keptAt .bridging 12050, keptAt .overlength 12000]],
    let st := frozenIn .falling false compares
    st.heldInReset = false ∧ st.start.node.onLine = true ∧ st.edge.frozen = true ∧
    isAfter (st.position.counter + 1) st.position.highWater = true ∧
    st.position.counter + 1 ≠ st.position.triggerPos + counts st.shared.scanPitch ∧
    (∀ c ∈ st.position.compares, c.progress ≠ .due) ∧ (st.position.compares.map (·.id)).Nodup := by decide +kernel

/-- ResumeActsOnPresenceAndKept: each edge state with presence as it expects and otherwise; the two kept compares in either order,
one of them ahead of the counter. -/
theorem test_meets_resumeClauses :
    (∀ pin ∈ [false, true], (frozenIn .idle pin []).presenceHeld = pin ∧ (frozenIn .idle pin []).edge.pending = none) ∧
    (frozenIn .rising true []).presenceHeld = true ∧ (frozenIn .present true []).presenceHeld = true ∧
    (frozenIn .present false []).presenceHeld = false ∧ (frozenIn .falling false []).presenceHeld = false ∧
    (frozenIn .blanked true []).presenceHeld = true ∧ (frozenIn .blanked true []).edge.absence = none ∧
    (let st := frozenIn .falling true [keptAt .bridging 11995]
     st.presenceHeld = true ∧ ∀ c ∈ st.position.compares, c.progress = .kept → c.id = .bridging) ∧
    (let st := frozenIn .falling false [keptAt .bridging 11995]
     st.edge.fall = some 11990 ∧ st.openRecord = none ∧ keptAt .bridging 11995 ∈ st.position.compares) ∧
    (∀ ahead ∈ [false, true],
      let pos : Pos := if ahead then 12050 else 11995
      let r := banded .opened (some 10000) none
      let st := holding r (frozenIn .falling false [keptAt .bridging pos, keptAt .overlength 12000])
      st.seqsDistinct ∧ st.openRecord = some r ∧ r.band.lead = some 10000 ∧
      keptAt .bridging pos ∈ st.position.compares ∧ keptAt .overlength 12000 ∈ st.position.compares ∧
      ∀ x ∈ st.position.compares, x.progress = .kept → x = keptAt .bridging pos ∨ x = keptAt .overlength 12000) := by
  decide +kernel

def edgeAt (e : Pos) : PendingEdge := ⟨e, false, none⟩

def rising : Station := withPending (edgeAt 10150) (withEdge .rising true (withDue .qualification running))

/-- QualificationQualifiesEdge: a round in flight of unknown kind and of kind OPEN; no round, with an empty table, an OPEN band,
a newest band not NONE, and an edge past the window. QualifiedEdgeAttachesToNewest: an edge at P + W. -/
theorem test_meets_qualification :
    rising.heldInReset = false ∧ rising.edge.frozen = false ∧ rising.position.isDue .qualification = true ∧
    rising.edge.state = .rising ∧ rising.edge.pending = some (edgeAt 10150) ∧ rising.line.round = none ∧
    (inRound (aRound none [] none false) rising).line.round = some (aRound none [] none false) ∧
    (inRound (aRound (some .opening) [] none false) rising).line.round = some (aRound (some .opening) [] none false) ∧
    (aRound (some .tally) [] none false).kind ≠ none ∧ (aRound (some .tally) [] none false).kind ≠ some .opening ∧
    rising.table = [] ∧ (holding (banded .opened (some 10050) none) rising).openRecord.isSome = true ∧
    (holding (banded .empty none none) rising).newest = some (banded .empty none none) ∧
    atOrAfter (record.refPos + counts running.shared.attachWindow) 10401 = false ∧
    atOrAfter (record.refPos + counts running.shared.attachWindow) 10400 = true ∧
    (holding record rising).newest = some record ∧ (holding record rising).openRecord = none ∧
    (holding record rising).seqsDistinct ∧
    atOrAfter running.position.counter (10150 + counts running.shared.overlength) = false := by decide +kernel

/-- A qualified pending edge with a fall position or none, whose attachment test waits. -/
def waiting (rise : Pos) (fall : Option Pos) : Station :=
  let st := withPending ⟨rise, true, fall⟩ (withEdge .present true running)
  { st with edge := { st.edge with testDeferred := true } }

/-- QualificationQualifiesEdge, QualifiedEdgeAttachesToNewest: a command of each sort at which a waiting test is made. -/
theorem test_meets_waitingTest (e : Pos) (f : Option Pos) :
    (inRound (aRound none [] none false) (waiting e f)).makesWaitingTest (.kindContestEnd [4]) ∧
    (inRound (aRound none [] none false) (waiting e f)).makesWaitingTest .roundCompleteNone ∧
    (inRound (aRound (some .opening) [⟨none, none⟩] none false) (waiting e f)).makesWaitingTest .openRoundComplete ∧
    (waiting e f).makesWaitingTest .breakReceived ∧
    { waiting e f with line := { running.line with state := .opening, round := some (aRound none [] none false) } }.makesWaitingTest
      (.lineError .pattern) ∧
    { waiting e f with line := { running.line with longDrive := true } }.makesWaitingTest .longDriveReleased :=
  ⟨⟨rfl, .inl ⟨_, _, rfl, rfl, rfl, rfl, rfl, by decide⟩⟩, ⟨rfl, .inr (.inl ⟨_, rfl, rfl, rfl, rfl, rfl, rfl⟩)⟩,
    ⟨rfl, .inr (.inr (.inl ⟨_, rfl, rfl, fun _ => rfl⟩))⟩,
    ⟨rfl, .inr (.inr (.inr (.inl ⟨rfl, by simp [waiting, withPending, withEdge, running],
      by simp [waiting, withPending, withEdge, running]⟩)))⟩,
    ⟨rfl, .inr (.inr (.inr (.inr (.inl ⟨rfl, rfl, rfl, rfl⟩))))⟩, ⟨rfl, .inr (.inr (.inr (.inr (.inr ⟨rfl, rfl⟩))))⟩⟩

/-- The same statements: a waiting edge that attaches, with the overlength compare one step ahead and just reached, and a closed one
that falls before the limit and at it; one with no record to attach to; a contest that ends with OPEN. -/
theorem test_meets_waitingEdges :
    (∀ late ∈ [false, true],
      let e : Pos := if late then 10001 else 10000
      (holding record (waiting e none)).seqsDistinct ∧ (holding record (waiting e none)).newest = some record ∧
      (holding record (waiting e none)).openRecord = none ∧
      atOrAfter (record.refPos + counts running.shared.attachWindow) e = true) ∧
    atOrAfter running.position.counter (10000 + counts running.shared.overlength) = true ∧
    atOrAfter running.position.counter (10001 + counts running.shared.overlength) = false ∧
    atOrAfter 11999 (10000 + counts running.shared.overlength) = false ∧
    atOrAfter 12000 (10000 + counts running.shared.overlength) = true ∧
    (waiting 10000 none).table = [] ∧ (waiting 10000 none).edge.testDeferred = true ∧ (waiting 10000 none).edge.frozen = false ∧
    (contestField.run none [5]).result = some 5 := by decide +kernel

def falling : Station :=
  { withEdge .falling false (withDue .bridging running) with
    edge := { (withEdge .falling false (withDue .bridging running)).edge with fall := some 11940 } }

/-- AbsenceComparesReturnToIdle. -/
theorem test_meets_absence :
    falling.heldInReset = false ∧ falling.edge.frozen = false ∧ falling.position.isDue .bridging = true ∧
    falling.edge.state = .falling ∧ falling.edge.fall = some 11940 ∧ falling.openRecord = none ∧
    (holding (banded .opened (some 10150) none) falling).openRecord = some (banded .opened (some 10150) none) ∧
    (holding (banded .opened (some 10150) none) falling).seqsDistinct ∧
    (withEdge .blanked false (withDue .blankRelease running)).edge.state = .blanked ∧
    (withEdge .blanked false (withDue .blankRelease running)).position.isDue .blankRelease = true := by decide +kernel

/-- OverlengthForcesBandClosed, EmptyCompareEndsUnusedBand, LagCompareClosesBand, DecisionCompareFreezesRecord. -/
theorem test_meets_recordCompares :
    (let st := holding (banded .opened (some 10000) none) (withEdge .present true (withDue .overlength running))
     st.heldInReset = false ∧ st.edge.frozen = false ∧ st.position.isDue .overlength = true ∧ st.seqsDistinct ∧
     st.openRecord = some (banded .opened (some 10000) none) ∧ st.edge.state = .present ∧ st.presenceHeld = true) ∧
    (falling.edge.fall.isSome = true ∧ falling.presenceHeld = false ∧
     atOrAfter running.position.counter (11940 + counts running.shared.bridge) = true ∧
     atOrAfter running.position.counter (11941 + counts running.shared.bridge) = false) ∧
    (let st := withDue (.empty 41) (holding record running)
     st.position.isDue (.empty 41) = true ∧ st.record 41 = some record) ∧
    (let st := withDue (.empty 41) (holding (banded .opened (some 10000) none) running)
     st.record 41 = some (banded .opened (some 10000) none)) ∧
    (let st := withDue (.lag 41) (holding (banded .closing (some 10000) (some 11700)) running)
     st.seqsDistinct ∧ st.position.isDue (.lag 41) = true ∧
     st.record 41 = some (banded .closing (some 10000) (some 11700)) ∧ st.probe.target ≠ some (.held 41) ∧ st.scan.fifo = [] ∧
     { st.probe with target := some (.held 41) }.target = some (.held 41)) ∧
    (∀ phase ∈ [Phase.gathering, .tallied, .decided],
      let r := { record with phase := phase }
      let st := withDue (.decision 41) (holding r running)
      st.position.isDue (.decision 41) = true ∧ st.record 41 = some r ∧ r.phase = phase) := by decide +kernel

/-- A FIFO whose head maps to 11 918. -/
def reported : Station := { running with scan := { running.scan with fifo := [report] } }

/-- LagCompareClosesBand, SampleCompletionFoldsReading: the scan head condition, with an empty FIFO, a head after the trail and
one at the trail. -/
theorem test_meets_headClear : running.headClear 11700 ∧ reported.headClear 11917 ∧ ¬ reported.headClear 11918 := by
  refine ⟨fun _ _ h => (nomatch h), fun _ _ h => ?_, fun h => ?_⟩
  · cases h; decide +kernel
  · exact absurd (h report [] rfl) (by decide +kernel)

def atGate (r : Record) : Station := withDue (.gate 41) (holding r running)

def decidedRecord (v : Verdict) : Record := { record with phase := .decided, outcome := some v }

/-- GateCompareDispatchesOldestDue, GateWindowOpensAndCloses: decided and undecided, room and a full FIFO; a bin of 0, a window
that is open, and one that is free. -/
theorem test_meets_gate :
    (atGate (decidedRecord .back)).heldInReset = false ∧ oldestGateDue (atGate (decidedRecord .back)) = some 41 ∧
    (atGate (decidedRecord .back)).record 41 = some (decidedRecord .back) ∧ record.band.state ≠ .opened ∧
    oldestGateDue (atGate record) = some 41 ∧ record.phase ≠ .decided ∧
    (atGate record).port.fifo.length < 16 ∧ 16 ≤ (List.replicate 16 (resultOf sh .manual record)).length ∧
    (atGate record).start.outlet = true ∧ (atGate record).shared.binMap.get Verdict.face1.index = 0 ∧
    (atGate record).shared.binMap.get Verdict.back.index = 6 ∧ (atGate record).outlet.window = none ∧
    { (atGate record) with outlet := { window := some ⟨3, 12100⟩ } }.outlet.window.isSome = true ∧
    (atGate (banded .opened (some 10000) none)).record 41 = some (banded .opened (some 10000) none) ∧
    atOrAfter (record.gatePos + counts sh.gateWindow) (record.gatePos + counts sh.gateWindow) = true ∧
    atOrAfter (atGate record).position.counter (record.gatePos + counts sh.gateWindow) = false ∧
    (withDue .windowEnd running).position.isDue .windowEnd = true := by decide +kernel

/-- SampleCompareStartsOrSkips. -/
theorem test_meets_sample :
    (let st := holding (banded .opened (some 11950) none) (withDue .sample running)
     st.heldInReset = false ∧ st.position.isDue .sample = true ∧ st.openRecord = some (banded .opened (some 11950) none) ∧
     st.probe.state = .ready ∧ { st.probe with state := .parked }.state ≠ .ready) ∧
    nextSample 12000 11950 50 = 12050 ∧ (50#16 ≠ 0 ∧ ((12000#32) - 11950#32).toNat < 2000000000) ∧
    nextSample 12000 11951 50 = 12001 := by decide +kernel

/-- ScanFrameTakenDiscardedOrQueued: a report, frames of 66 and 68 bits, class 0, and across-start above across-end. -/
theorem test_meets_frames :
    readFrame (frameBits report) = .report report ∧ readFrame ((frameBits report).take 66) = .broken ∧
    readFrame (frameBits report ++ [true]) = .broken ∧ readFrame (List.replicate 67 false) = .invalid ∧
    readFrame (frameBits { report with acrossStart := 31 }) = .invalid ∧
    running.scan.frame = .released ∧ { running.scan with frame := .taken }.frame = .taken ∧
    running.scan.fifo = [] ∧ (∀ x ∈ (holding record running).table, x.band.state ≠ .closing) ∧
    0 < [report].length ∧ (List.replicate 15 report).length < 16 ∧ 16 ≤ (List.replicate 16 report).length := by
  decide +kernel

/-- HeadTakeFollowsAssignmentRule: a stale report, an OPEN band, a CLOSING band, a pending edge, and none of them. -/
theorem test_meets_head :
    (let difference := fun (line : BitVec 16) => (running.position.triggerCount - line).toNat
     difference 5001 = 65535 ∧ difference 4990 = 10 ∧
     running.position.triggerPos - BitVec.ofNat 32 (10 * running.shared.scanPitch.toNat) = 11918) ∧
    atOrAfter 11918 11918 = true ∧ atOrAfter 11918 11919 = false ∧ inRange 11918 10000 11918 = true ∧
    inRange 11918 10000 11917 = false := by decide +kernel

/-- An OPEN round with position result `p`, at 12 000 counts. -/
def opened (p : Nat) : Round := aRound (some .opening) [passed p] none false

/-- An older record whose gate compare is due. -/
def withOlder : Station := atGate { record with refPos := 7000, gatePos := 12000 }

/-- CreationTakesReachedCompares: results whose gate, decision and empty positions are reached and one step ahead; an edge at
P + W; an older record whose gate compare is due. -/
theorem test_meets_creation :
    completing .opening (inRound (opened 7000) running) = some (opened 7000) ∧ (opened 7000).result 0 = some 7000 ∧
    (inRound (opened 7000) running).start.node = .running ∧ creationRefused (inRound (opened 7000) running) = false ∧
    (inRound (opened 7000) running).seqsDistinct ∧ (inRound (opened 7000) running).subjectsHeld ∧
    (let reached := fun (p : Nat) (distance : Pos) =>
       atOrAfter running.position.counter (creationP running (BitVec.ofNat 32 p) + distance)
     let sh := running.shared
     reached 7000 (counts sh.gateDistance) = true ∧ reached 7001 (counts sh.gateDistance) = false ∧
     reached 9000 (counts sh.decisionDistance) = true ∧ reached 9001 (counts sh.decisionDistance) = false ∧
     reached 11580 (counts sh.attachWindow + counts sh.qualification) = true ∧
     reached 11581 (counts sh.attachWindow + counts sh.qualification) = false) ∧
    atOrAfter (creationP running 11500 + counts running.shared.attachWindow) 11900 = true ∧
    (withOlder.seqsDistinct ∧ withOlder.subjectsHeld ∧ creationRefused withOlder = false ∧
     (∀ x ∈ withOlder.table, withOlder.position.isDue (.gate x.seq) = true) ∧
     withOlder.port.fifo.length + withOlder.table.length < 16) := by decide +kernel

/-- ProbeTimersMoveProbe, SampleCompletionFoldsReading. -/
theorem test_meets_probe :
    (let st : Station := { running with probe := ⟨.sampling, none, none, .conversion, some (.held 41)⟩ }
     st.probe.timing = .conversion ∧ st.probe.target = some (.held 41) ∧
     (holding (banded .opened (some 10000) none) st).record 41 = some (banded .opened (some 10000) none) ∧
     { st.probe with target := some .lost }.target = some .lost ∧ st.scan.fifo = [] ∧
     (∀ passed ∈ [false, true],
       let r := { banded .closing (some 10000) (some 11700) with
         band := { (banded .closing (some 10000) (some 11700)).band with lagPassed := passed } }
       (holding r st).record 41 = some r ∧ r.band.lagPassed = passed ∧ (holding r st).seqsDistinct)) ∧
    (banded .closing (some 10000) (some 11700)).band.trail = some 11700 ∧
    { running.probe with timing := .settle }.timing = .settle ∧ { running.probe with state := .warming }.state = .warming ∧
    running.probe.state = .ready := by decide

/-- CompletenessTest: a record that its own entry completes, and one that still awaits a member. -/
theorem test_meets_completeness :
    (let full := { record with entries := entries (some .empty) none (some .empty) }
     let st := withDue (.empty 41) (holding full running)
     st.record 41 = some full ∧ full.band.state = .none ∧ full.phase = .gathering ∧
     (∀ k : Index, (st.engine.peers.get k).isSome = true →
       ((full.entries.set st.start.index (some .empty)).get k).isSome = true)) ∧
    (running.engine.peers.get 1).isSome = true ∧ (record.entries.set 2 (some .empty)).get 1 = none ∧
    ((holding record running).record (BitVec.ofNat 16 41)).isSome = true := by decide +kernel

/-- CompletenessTest, the CLOSED own entry: a CLOSING band with its lag compare due; an OPEN band whose trail lies L back at the
trailing edge, and at the overlength compare; a CLOSING band that a head take closes. -/
theorem test_meets_ownEntry :
    (let r := banded .closing (some 10000) (some 11700)
     let st := withDue (.lag r.seq) (holding r running)
     st.seqsDistinct ∧ r ∈ st.table ∧ r.band.trail = some 11700 ∧ st.scan.fifo = [] ∧
     st.position.isDue (.lag r.seq) = true ∧ st.probe.target ≠ some (.held r.seq)) ∧
    (let r := banded .opened (some 9700) none
     let st := holding r falling
     r ∈ st.table ∧ st.openRecord = some r ∧ st.edge.frozen = false ∧ st.position.isDue .bridging = true ∧
     atOrAfter st.position.counter (11700 + counts st.shared.lag) = true ∧
     atOrAfter st.position.counter (11701 + counts st.shared.lag) = false ∧ 11700 = 9700 + counts st.shared.overlength ∧
     (withDue .overlength st).position.isDue .overlength = true) ∧
    (let r : Record := { banded .closing (some 10000) (some 11700) with
       band := { (banded .closing (some 10000) (some 11700)).band with lagPassed := true } }
     ((headTakes (holding r reported)).record r.seq).map (·.band.state) = some .closed) := by decide +kernel

/-- LineIdlesOpensAndEndsRounds, ContestOfferIsSmallestCode: an offer of each code, and none. -/
theorem test_meets_contest :
    (let with_ := fun (q : Requests) => withRequests (fun _ => q) (withPending ⟨11990, true, none⟩ running)
     let none_ := Requests.none
     contestOffer (with_ none_) = none ∧ contestOffer (with_ { none_ with opening := true }) = some 5 ∧
     contestOffer (with_ { none_ with opening := true, tally := [⟨41, false⟩] }) = some 4 ∧
     contestOffer (with_ { none_ with verdict := [⟨41, false⟩], tally := [⟨41, false⟩] }) = some 3 ∧
     contestOffer (with_ { none_ with roll := true, verdict := [⟨41, false⟩] }) = some 2 ∧
     contestOffer (with_ { none_ with roll := true, purge := .opened }) = some 1 ∧
     contestOffer (with_ { none_ with tally := [⟨41, true⟩] }) = none) ∧
    running.heldInReset = false ∧ running.line.state = .idle ∧ running.line.longDrive = false ∧
    { loading.start with node := .joining }.node = .joining ∧ loading.line.state = .off := by decide +kernel

theorem test_meets_idleLine :
    (aRound (some .nothing) [] none false).kind = some .nothing ∧ (aRound none [] none false).kind = none ∧
    (aRound none [] none false).offers.contest = none ∧ running.edge.testDeferred = false ∧
    { running.line with state := .guard }.state = .guard := by decide

def opening : Station := { running with line := { running.line with state := .opening } }

/-- OpeningPulseAndPatternStartRound: at 2 µs a cell, 3000 to 6000 ns is an opening, 2999 is short, 6001 long; spacings of 3500
and 4500 ns are accepted, 3499 and 4501 are not. -/
theorem test_meets_opening :
    opening.heldInReset = false ∧ opening.line.state = .opening ∧ opening.line.round = none ∧ opening.line.longDrive = false ∧
    Config.nominalCell opening.shared.lineRate = 2000 ∧ 3 * 2000 ≤ 2 * 3000 ∧ 6000 ≤ 3 * 2000 ∧ 2 * 2999 < 3 * 2000 ∧
    3 * 2000 < 6001 ∧ opening.line.opener = false ∧
    (7 * 2000 ≤ 4 * 3500 ∧ 4 * 4500 ≤ 9 * 2000) ∧ ¬ 7 * 2000 ≤ 4 * 3499 ∧ ¬ 4 * 4501 ≤ 9 * 2000 ∧
    { opening.line with round := some (aRound none [] none false) }.round.isSome = true := by decide +kernel

/-- KindContestNamesKind, PassEndAddsResult: an offer of 3 against peers 4 and 5, no offer at all, a code 6; the passes of each
kind. -/
theorem test_meets_contestEnd :
    (let r := { aRound none [] none false with offers := { noOffers with contest := some 3 } }
     let st := inRound r running
     st.line.state = .inRound ∧ st.line.longDrive = false ∧ st.line.round = some r ∧ r.kind = none ∧
     3 ∈ r.offers.contest.toList ++ ([4, 5] : List (BitVec 3)).map (·.toNat) ∧
     ∀ v ∈ r.offers.contest.toList ++ ([4, 5] : List (BitVec 3)).map (·.toNat), 3 ≤ v) ∧
    RoundKind.ofCode 3 = some .verdict ∧ RoundKind.ofCode 6 = none ∧
    (let r := aRound none [] none false
     r.offers.contest = none) ∧
    (∀ c, (some 3 : Option Nat) = some c → 1 ≤ c ∧ c ≤ 5) ∧
    (RoundKind.passes .tally)[0]? = some (.low 16) ∧ (RoundKind.passes .roll)[1]? = some (.high 16) ∧
    (RoundKind.passes .nothing)[0]? = none := by decide +kernel

/-- OwnSlotCountsMismatches, RollRoundAlignsAndAgrees: a ROLL round before and after its own slot. -/
theorem test_meets_roll :
    (let r := aRound (some .roll) [passed 12000, passed 42] (some (.roll rollEntry)) false
     ownSlot (inRound r running) = some r ∧ completing .roll (inRound r running) = none) ∧
    (let r := aRound (some .roll) [passed 12000, passed 42] (some (.roll rollEntry)) true
     completing .roll (inRound r running) = some r ∧ r.slotEntry = some (.roll rollEntry) ∧ r.result 0 = some 12000 ∧
     r.result 1 = some 42 ∧ (inRound r running).position.capture = some 12000) ∧
    (let st : Station := { running with start := { running.start with node := .joining }, probe := ProbeUnit.reset }
     st.start.node ≠ .running ∧ st.probe.state = .off ∧ running.probe.state ≠ .off ∧ running.edge.pending = none ∧
     (withPending (edgeAt 11950) st).edge.pending.isSome = true ∧
     agreement 7 (rollReadings 2 rollEntry (List.replicate 8 (BitVec.allOnes 52))) = true ∧
     (∀ c ∈ st.position.compares, c.progress ≠ .due ∧ ¬ (c.progress = .waiting ∧
       atOrAfter st.position.counter c.pos = false ∧ atOrAfter (st.position.counter + 5) c.pos = true))) ∧
    running.line.mismatch < 2 ∧ { running.line with mismatch := 2 }.mismatch = 2 := by decide +kernel

/-- KindContestNamesKind, PassEndAddsResult: a request counted at the opening that is still held, and one withdrawn since; a
VERDICT subject that the table holds, and one that it does not; a scope ONE with a subject still held, and none. -/
theorem test_meets_fixedOffers :
    stillHeld [41, 42] [⟨42, true⟩] = [42] ∧ oldestSeq [42] = some 42 ∧ stillHeld [41] [] = [] ∧
    (PurgeSet.ones [41, 42]).stillHeld (.ones [42]) = .ones [42] ∧ PurgeSet.all.stillHeld .none = .none ∧
    PurgeSet.all.stillHeld .all = .all ∧
    (let r := aRound (some .verdict) [] none false
     (inRound r running).line.round = some r ∧ (RoundKind.passes .verdict)[r.passes.length]? = some (.low 16) ∧
     ((PassField.low 16).run none [41]).result = some 41) ∧
    (holding record running).record 41 = some record ∧ running.record 41 = none ∧
    ((PassField.low 2).run none [3]).result = some 3 := by decide +kernel

/-- AlignmentTakesCarriedCompares: jumps of 0, forward and backward; a gate compare that a forward jump carries across; an edge
compare so carried while the Edge Unit is frozen. -/
theorem test_meets_alignment :
    (let d := fun (a : Nat) => BitVec.ofNat 32 a - 12000#32
     d 12000 = 0 ∧ d 12050 ≠ 0 ∧ (d 12050).toNat < 2147483648 ∧ 2147483648 ≤ (d 11950).toNat) ∧
    (let c : Compare := ⟨.gate 41, 12050, .waiting⟩
     c.id = .gate record.seq ∧ atOrAfter running.position.counter c.pos = false ∧ atOrAfter (12000 + 50) c.pos = true) ∧
    CompareId.owner .bridging = .edge ∧ (frozenIn .falling false [⟨.bridging, 12050, .waiting⟩]).edge.frozen = true ∧
    (frozenIn .falling false [⟨.bridging, 12050, .waiting⟩]).position.compares = [⟨.bridging, 12050, .waiting⟩] := by
  decide +kernel

/-- LineErrorsEnterMute: where each fault can be met; edges 500 ns from a boundary and 501 ns. -/
theorem test_meets_lineErrors :
    (let st := { opening with line := { opening.line with opener := true } }
     st.line.state = .opening ∧ st.line.opener = true ∧ st.line.round = none ∧ st.line.longDrive = false) ∧
    (24 * 500 ≤ (4 * 0 + 1) * 12000 ∧ 4 * 0 * 12000 ≤ 24 * 500 + 12000) ∧
    (24 * 1500 ≤ (4 * 1 + 1) * 12000 ∧ 4 * 1 * 12000 ≤ 24 * 1500 + 12000) ∧
    (let r := aRound (some .tally) [] none false
     (inRound r running).line.round = some r ∧ r.kind = some .tally ∧ r.passes.length < (RoundKind.passes .tally).length ∧
     passOffer .tally r = none) ∧
    (passOffer .tally { aRound (some .tally) [] none false with
      offers := { noOffers with tallySubject := some 41 } }).isSome = true := by decide +kernel

theorem test_meets_farEdge (n : Nat) : ¬ (24 * 501 ≤ (4 * n + 1) * 12000 ∧ 4 * n * 12000 ≤ 24 * 501 + 12000) := by omega

/-- LineErrorsEnterMute, BreakCancelsRoundAndMuteSendsIt. -/
theorem test_meets_line :
    running.edge.testDeferred = false ∧ (inRound (aRound none [] none false) running).line.state = .inRound ∧
    { running.line with longDrive := true }.longDrive = true ∧ { running.line with state := .guard }.state = .guard ∧
    loading.line.state = .off ∧ running.line.state ≠ .off ∧ running.line.state ≠ .breaking ∧
    { running.line with state := .breaking }.breakSender = false ∧ { running.line with state := .mute }.state = .mute ∧
    { running.line with state := .breaking, breakSender := true }.breakSender = true ∧
    (aRound (some .nothing) [] none false).kind = some .nothing := by decide

/-- What the station drives on the Grade Line: an opener, a sender of a BREAK, an offer in a pass, and an own slot before it, in it
and after it (LineIdlesOpensAndEndsRounds, BreakCancelsRoundAndMuteSendsIt, PassEndAddsResult, OwnSlotCountsMismatches). -/
theorem test_meets_drive :
    { opening.line with opener := true }.opener = true ∧ 9 ∈ [0, 1, 3, 5, 7, 9] ∧ 10 ∉ [0, 1, 3, 5, 7, 9] ∧
    (List.replicate 29 false).length < 30 ∧ ¬ (List.replicate 30 false).length < 30 ∧
    (RoundKind.passes .tally)[0]? = some (.low 16) ∧ (List.replicate 8 true).length % 9 = 8 ∧
    (withoutSpacers (List.replicate 9 true)).length = 8 ∧
    (let r := aRound (some .roll) [passed 12000, passed 42] (some (.roll rollEntry)) false
     let start := 4 + ((RoundKind.passes .roll).map fun f => 1 + f.width).sum + 52 * running.start.index.val
     r.passes.length = (RoundKind.passes .roll).length ∧ (SlotEntry.roll rollEntry).cells.length = 52 ∧ start = 158 ∧
     (withoutSpacers (withSpacers (List.replicate 158 true))).length = 158 ∧
     (SlotEntry.roll rollEntry).cells.head? = some false) := by decide +kernel

/-- PeerMapAndAgreementFromSlots: agreement, another digest, and two outlets. -/
theorem test_meets_agreement :
    (let readings := fun (a b : Reading RollEntry) =>
       (⟨.silent, a, b, .silent, .silent, .silent, .silent, .silent⟩ : Eight (Reading RollEntry))
     agreement 7 (readings (.entry ⟨.joining, false, 7⟩) (.entry rollEntry)) = true ∧
     agreement 7 (readings (.entry ⟨.joining, false, 8⟩) (.entry rollEntry)) = false ∧
     agreement 7 (readings (.entry rollEntry) (.entry rollEntry)) = false ∧
     agreement 7 (readings .damaged (.entry rollEntry)) = true ∧
     (newPeers running.engine.peers (readings .damaged (.entry rollEntry))).get 1 = some 0 ∧
     (newPeers running.engine.peers (readings .damaged (.entry rollEntry))).get 3 = none) := by decide +kernel

/-- OpenRoundCreatesOrRefuses: an OPEN round with a result and one with none; creation taken, and refused at a full table and
at a number not newer. -/
theorem test_meets_open :
    (let r := aRound (some .opening) [passed 11900] none false
     completing .opening (inRound r running) = some r ∧ r.result 0 = some 11900) ∧
    (let r := aRound (some .opening) [⟨none, none⟩] none false
     completing .opening (inRound r running) = some r ∧ r.result 0 = none) ∧
    running.start.node = .running ∧ creationRefused (holding record running) = false ∧
    creationRefused (holding { record with seq := 42 } running) = true ∧
    creationRefused { running with table := (List.range 12).map fun n => { record with seq := BitVec.ofNat 16 n } } = true ∧
    running.engine.openCount.toNat + 1 = running.shared.rollPeriod.toNat ∧
    atOrAfter running.position.counter (creationP running 11900 + counts running.shared.gateDistance) = false ∧
    (waiting 11950 none).edge.pending = some ⟨11950, true, none⟩ ∧ running.edge.pending = none ∧
    running.table = [] ∧ (holding record running).newest = some record := by
  decide +kernel

/-- TallyRoundStoresEntries, HoldMarksAfterTallyRound, VerdictRoundDecidesRecord, PurgeRoundRemovesRecords. -/
theorem test_meets_rounds :
    (let r := aRound (some .tally) [passed 41] (some (.tally .pending)) true
     completing .tally (inRound r running) = some r ∧ r.result 0 = some 41 ∧ r.slotEntry = some (.tally .pending)) ∧
    (holding record running).record 41 = some record ∧ running.record 41 = none ∧
    (let r := aRound (some .tally) [⟨none, none⟩] none false
     completing .tally (inRound r running) = some r ∧ r.result 0 = none) ∧
    ownTallyEntry (holding record running) 41 = .pending ∧
    (let r := aRound (some .verdict) [passed 41, passed 1, passed 5, passed 6] none false
     completing .verdict (inRound r running) = some r ∧ r.result 1 ≠ some 0 ∧ r.result 2 = some 5 ∧ r.result 3 = some 6) ∧
    (let r := aRound (some .verdict) [passed 41, passed 0, ⟨none, none⟩, ⟨none, none⟩] none false
     completing .verdict (inRound r running) = some r ∧ r.result 1 = some 0 ∧
     running.record 41 = none ∧ ∀ h ∈ running.engine.requests.verdict, h.subject ≠ 41) ∧
    (let r := aRound (some .verdict) [⟨none, none⟩, ⟨none, none⟩, ⟨none, none⟩, ⟨none, none⟩] none false
     completing .verdict (inRound r running) = some r ∧ r.result 0 = none) ∧
    (let r := aRound (some .purge) [passed 3, passed 41] none false
     completing .purge (inRound r running) = some r ∧ r.result 0 = some 3 ∧ r.result 1 = some 41 ∧
     (holding record running).seqsDistinct) ∧
    (let st := holding (banded .opened (some 10000) none) running
     st.oneOpenBand ∧ st.openRecord.isSome = true ∧ running.openRecord = none ∧ st.presenceHeld = false ∧
     (withEdge .present true st).presenceHeld = true ∧ record.band.state ≠ .opened) ∧
    (aRound (some .purge) [passed 1, passed 0] none false).result 0 = some 1 ∧
    (aRound (some .purge) [passed 2, passed 0] none false).result 0 = some 2 ∧
    (aRound (some .purge) [⟨none, none⟩, ⟨none, none⟩] none false).result 0 = none := by decide +kernel

/-- The Result Port's statements: reads with and without a record or a cause, node states on and off the line. -/
theorem test_meets_port :
    running.port.fifo = [] ∧ (ResultPort.offer (resultOf sh .manual record) running.port).fifo.length = 1 ∧
    { running.port with read := some (.result true) }.read = some (.result true) ∧
    { running.port with read := some (.cause (some .scanFault)) }.read = some (.cause (some .scanFault)) ∧
    running.resultReadyLevel ∧ running.port.enable.has .lineError = true ∧ (Causes.ofMask 0).has .lineError = false ∧
    { running.line with state := .breaking, breakSender := true }.breakSender = true ∧
    (41 ∈ (PurgeSet.ones [41]).subjects ∧ 41 ∉ (PurgeSet.ones [42]).subjects) ∧
    loading.start.node.onLine = false ∧ (0 : Byte) = 0 ∧ 5#8 < 6 ∧ gradeTableOrdered sh.gradeTable = true ∧
    chains 40 record.entries = [] ∧ { running.port with selected := true }.selected = true := by decide +kernel

/-- SheetTallySumsAndMergesEntries: chains that lower a count they do not exceed; records that match, and one that does not. -/
theorem test_meets_merging :
    (let l := chains 40 (entries (some (.closed entry1)) (some (.closed entry2)) (some (.closed entry3)))
     l.map (fun ch => (ch.cls, ch.length)) = [(.hole, 2), (.split, 3)]) ∧
    (let x : BoundaryRecord := ⟨.split, .right, 1200, 1400, 300⟩
     let y : BoundaryRecord := ⟨.split, .both, 1440, 1450, 512⟩
     x.alongStart.toNat ≤ y.alongEnd.toNat + 40 ∧ y.alongStart.toNat ≤ x.alongEnd.toNat + 40 ∧
     ¬ y.alongStart.toNat ≤ x.alongEnd.toNat + 39 ∧ findMatch 40 x [] [y] = some 0 ∧ findMatch 39 x [] [y] = none) := by
  decide +kernel

def sampled : Station := holding (banded .opened (some 10150) none) (withEdge .present true running)

/-- The invariants hold of a RUNNING station with an OPEN band, and of one that is reading its configuration. -/
theorem test_meets_capacities : sampled.fits ∧ loading.fits ∧ loading.resultReadyLevel ∧ sampled.seqsDistinct ∧
    sampled.oneOpenBand := by decide +kernel

theorem test_meets_probeInvariant : sampled.probe.fits ∧ sampled.captureFits ∧ sampled.roundFits := by decide

/-- EveryStepKeepsRecordsEdgeAndCompares: a station with an OPEN band, and one with an edge in RISING. -/
theorem test_meets_recordInvariants : sampled.recordsFit ∧ sampled.subjectsHeld ∧ sampled.targetFits ∧ sampled.edge.fits ∧
    sampled.comparesFit ∧ rising.edge.fits ∧ rising.comparesFit :=
  ⟨by decide +kernel, by decide +kernel, by decide +kernel, by decide +kernel, by decide +kernel, by decide +kernel,
    by decide +kernel⟩

theorem test_meets_nodeInvariant : sampled.startFits ∧ loading.startFits := by decide +kernel

theorem test_meets_quietInvariant : sampled.offLineQuiet ∧ loading.offLineQuiet :=
  ⟨fun h => absurd h (by decide +kernel), fun _ => by decide +kernel⟩

/-! ## One step of a few commands -/

/-- The station that a command leads to. -/
def after (c : Instr) (st : Station) : Station :=
  match exec c ⟨st, []⟩ with
  | .next t => t.station
  | _ => st

/-- R56, R175, R183: the released time after the mark; the read instruction; the answer's bits and the ones after them. -/
theorem test_step_outputs :
    (let mark : Station := { running with position := { running.position with triggerLine := .mark } }
     mark.scanTriggerDriven = true ∧ (after .restartMarkEnd mark).scanTriggerDriven = false ∧
     (after .restartMarkEnd mark).position.triggerLine = .markGap) ∧
    loading.configDataOut = [3, 0, 0] ∧ (reading false 0).configDataOut = [] ∧ (reading false 0).configClockRuns = true ∧
    running.resultDataOut 0 = none ∧ (after .readCause running).resultDataOut 7 = some false ∧
    (after .readCause running).resultDataOut 8 = some true ∧
    (after .resultPortSelectReleased (after .readCause running)).resultDataOut 8 = none := by decide +kernel

/-- R51: kept compares act in the order of their positions, also where the bridging compare lies ahead of the counter. -/
theorem test_step_resume :
    (let st := fun (pos : Pos) => after (.encoderStep .forward)
       (holding (banded .opened (some 10000) none) (frozenIn .falling false [keptAt .bridging pos, keptAt .overlength 12000]))
     ((st 11995).table.map fun r => (r.band.trail, r.band.summary.overlength)) = [(some 11990, false)] ∧
     (st 11995).edge.state = .idle ∧
     ((st 12050).table.map fun r => (r.band.trail, r.band.summary.overlength)) = [(some 12000, true)] ∧
     (st 12050).edge.state = .blanked) := by decide +kernel

/-- R116: a TALLY request counted at the opening is offered while it is held, and not once it is withdrawn. -/
theorem test_step_contest :
    (let r := { aRound none [] none false with counted := ⟨[41], [], .none⟩ }
     let offered := fun (l : List Held) =>
       (after (.kindContestEnd [4]) (inRound r (withRequests (fun q => { q with tally := l }) running))).line.round.map
         fun x => x.offers.tallySubject
     offered [⟨41, false⟩] = some (some 41) ∧ offered [] = some none) := by decide +kernel

/-- R112, R137: a ONE request counted at the opening is offered while it is held, and not where its record is dispatched in flight
and the request raised anew. -/
theorem test_step_raisedInFlight :
    (let r := { aRound none [] none false with counted := ⟨[], [], .ones [41]⟩ }
     let st := inRound r (withRequests (fun q => { q with purge := .ones [41] }) (atGate record))
     let anew := after (.requestPurge 3 41) (after .gateCompare st)
     let scope := fun (x : Station) => (after (.kindContestEnd [1]) x).line.round.map fun y => y.offers.scope
     anew.engine.requests.purge = .ones [41] ∧ scope st = some (some 3) ∧ scope anew = some none) := by decide +kernel

/-- R48, R49, R50, R74, R76, R122: the Edge Unit after a dispatch of an OPEN band and a refused creation; the probe and the Edge Unit
at an entry to RUNNING. -/
theorem test_step_blanking :
    (after .gateCompare (atGate (banded .opened (some 10000) none))).edge.state = .blanked ∧
    (let st := after .openRoundComplete (inRound (opened 11900) (withEdge .present true
       (holding { record with seq := 42 } running)))
     st.edge.state = .blanked ∧ st.edge.absence = none) ∧
    (let r := aRound (some .roll) [passed 12000, passed 42] (some (.roll rollEntry)) true
     let joining : Station := { running with start := { running.start with node := .joining }, probe := ProbeUnit.reset }
     let st := after (.rollRoundComplete (List.replicate 8 (BitVec.allOnes 52)) [])
       (inRound r (withPending (edgeAt 11950) (withEdge .present true joining)))
     joining.probeExcite = .released ∧ st.start.node = .running ∧ st.probe.state = .warming ∧ st.probe.warmTimer = some 10 ∧
     st.probeExcite = .bias ∧ st.edge.state = .blanked ∧ st.edge.pending = none) := by decide +kernel

/-- Section 5.11: in the ready VERDICT round of BACK, BACK and FACE2, the station that offers FACE2 in the low pass drives the offer cell
and is outbid in the second value cell; in the high pass it drives the first two value cells. -/
theorem test_passDrive :
    (let low := [false, true, false, true]
     let high := [false, false, false, true]
     (List.range 4).map (fun n => (PassField.low 3).drives (some 6) (low.take n)) = [true, false, false, false] ∧
     (List.range 4).map (fun n => (PassField.low 3).drives (some 5) (low.take n)) = [true, false, true, false] ∧
     (List.range 4).map (fun n => (PassField.high 3).drives (some 6) (high.take n)) = [true, true, true, false] ∧
     (List.range 4).map (fun n => (PassField.high 3).drives (some 5) (high.take n)) = [true, true, false, false]) := by
  decide

/-- R89: the Grade Line by line state; the own ROLL slot, which begins driven, released, spacer, driven, at its place and after a
cell that reads otherwise than sent. -/
theorem test_gradeLine :
    running.gradeLineDriven [] = false ∧ loading.gradeLineDriven [] = false ∧ opening.gradeLineDriven [] = false ∧
    (let opener : Station := { opening with line := { opening.line with opener := true } }
     (List.range 11).map (fun n => opener.gradeLineDriven (List.replicate n false)) =
       [true, true, false, true, false, true, false, true, false, true, false]) ∧
    (let sender := after .muteQuietCountFull { running with line := { running.line with state := .mute } }
     sender.gradeLineDriven (List.replicate 29 false) = true ∧ sender.gradeLineDriven (List.replicate 30 false) = false ∧
     sender.gradeLineDriven [false, true] = false) ∧
    (let st := inRound (aRound (some .roll) [passed 12000, passed 42] (some (.roll rollEntry)) false) running
     let heard := withSpacers (List.replicate 158 true)
     st.gradeLineDriven heard = true ∧ st.gradeLineDriven (heard ++ [false]) = false ∧
     st.gradeLineDriven (heard ++ [false, true]) = false ∧ st.gradeLineDriven (heard ++ [false, true, true]) = true ∧
     st.gradeLineDriven (heard ++ [false, false, true]) = false ∧ st.gradeLineDriven (heard.take 176) = false ∧
     st.gradeLineDriven (List.replicate 8 true) = false) := by decide +kernel

/-- R191: the attention line before a cause is raised, while it is pending and enabled, and after it is read. -/
theorem test_step_attention :
    (let st := after (.scanFrameEnd []) { running with scan := { running.scan with frame := .taken } }
     running.attentionDriven = false ∧ st.attentionDriven = true ∧
     (after .readCauseShiftedOut (after .readCause st)).attentionDriven = false) := by decide +kernel

/-- R101, R131: a slot whose check fails reads DAMAGED. -/
theorem test_damagedSlot : readRollSlot 5 = .damaged := by decide +kernel

/-- Section 1.8 at 12 070 and 12 310: the trailing edge and the lag compare. -/
theorem test_step_closing :
    (let st := after .bridgingCompare (holding (banded .opened (some 10150) none) falling)
     (st.table.map fun r => (r.band.state, r.band.trail)) = [(.closing, some 11940)] ∧
     (st.position.find (.lag 41)).map (·.pos) = some 12240) ∧
    (let st := after (.lagCompare 41) (withDue (.lag 41) (holding (banded .closing (some 10150) (some 11700)) running))
     (st.table.map fun r => r.band.state) = [.closed] ∧ st.engine.requests.tally = [⟨41, false⟩]) := by decide +kernel

/-- Section 1.8 at 13 050 and 15 000: the deciding VERDICT round and the dispatch at the outlet. -/
theorem test_step_dispatch :
    (let r := aRound (some .verdict) [passed 41, passed 1, passed 5, passed 5] none false
     (after .verdictRoundComplete (inRound r (holding record running))).table.map (·.outcome) = [some .back]) ∧
    (let st := after .gateCompare (atGate (decidedRecord .back))
     st.table = [] ∧ st.binSelect = 6 ∧ st.port.fifo.map (·.outcome) = [.back]) := by decide +kernel

/-- Section 1.8 at 10 200: the OPEN round creates the record and the edge attaches. -/
theorem test_step_creation :
    (let r := aRound (some .opening) [passed 11900] none false
     let st := after .openRoundComplete (inRound r (withPending ⟨11950, true, none⟩ (withEdge .present true running)))
     (st.table.map fun x => (x.seq, x.refPos, x.band.state, x.band.lead)) = [(42, 11900, .opened, some 11950)] ∧
     (st.position.find .overlength).map (·.pos) = some 13950 ∧ (st.position.find .sample).map (·.pos) = some 12050 ∧
     st.engine.nextSeq = 43 ∧ st.engine.requests.roll = true) := by decide +kernel

end Sys2Proof.Machine.Tests
end

namespace Sys2Proof.Machine

/-! ## One step as one change of the station -/

/-- What a command does to a station that takes it: the function that its arm of `exec` runs (`exec_effect`). -/
def commandEffect (c : Instr) : Station → Station :=
  match c with
  | .powerOnReset straps => resetStation straps false
  | .resetPin straps => resetStation straps false
  | .configHeaderRead header => headerRead header
  | .configReadEnd sections => readEnd sections
  | .restartMarkEnd => fun st => { st with position := st.position.markEnd }
  | .encoderStep dir => encoderStep dir
  | .encoderDoubleTransition => id
  | .triggerPulseEnd => fun st => { st with position := st.position.pulseEnd }
  | .presenceAppears => presenceInput true
  | .presenceLost => presenceInput false
  | .qualificationCompare => takeDue .qualification
  | .bridgingCompare => takeDue .bridging
  | .blankReleaseCompare => takeDue .blankRelease
  | .overlengthCompare => takeDue .overlength
  | .emptyCompare seq => takeDue (.empty seq)
  | .lagCompare seq => takeDue (.lag seq)
  | .decisionCompare seq => takeDue (.decision seq)
  | .gateCompare => fun st => match oldestGateDue st with
    | some seq => takeDue (.gate seq) st
    | none => st
  | .gateWindowEndCompare => takeDue .windowEnd
  | .sampleCompare => takeDue .sample
  | .settleEnd => fun st => { st with probe := st.probe.settleEnd }
  | .sampleCompletion raw => sampleCompletion raw
  | .warmUpExpiry => fun st => { st with probe := st.probe.warmUpExpiry st.loc.parkTime }
  | .parkExpiry => fun st => { st with probe := st.probe.parkExpiry }
  | .scanFrameEnd bits => frameEnd bits
  | .lineQuietJoin => quietJoin
  | .roundOpen => roundOpen
  | .openingPulseEnd length => openingPulseEnd length
  | .alignmentPatternAccepted first second third => alignmentPattern first second third
  | .kindContestEnd peers => kindContestEnd peers
  | .passEnd peers => passEnd peers
  | .ownSlotReadBack => ownSlotReadBack
  | .ownSlotMismatch straps => ownSlotMismatch straps
  | .lineError fault => lineError fault
  | .longDriveStart => longDriveStart
  | .longDriveReleased => longDriveReleased
  | .breakReceived => breakReceived
  | .breakWireReleased => breakWireReleased
  | .muteQuietCountFull => sendBreak
  | .breakSendEnd heard => breakSendEnd heard
  | .guardEnd => guardEnd
  | .roundCompleteNone => completeNone
  | .rollRoundComplete slots order => completeRoll slots order
  | .openRoundComplete => completeOpen
  | .tallyRoundComplete slots => completeTally slots
  | .verdictRoundComplete => completeVerdict
  | .purgeRoundComplete => completePurge
  | .readResult => readResult
  | .readResultShiftedOut => readResultShiftedOut
  | .readStatus => readStatus
  | .readCause => readCause
  | .readCauseShiftedOut => readCauseShiftedOut
  | .requestPurge scope seq => requestPurge scope seq
  | .requestRoll => requestRoll
  | .unknownCommand code => unknownCommand code
  | .supplyBelowRange => supplyLow
  | .scanFrameDriven => frameDriven
  | .openingAsListener => listen
  | .resultPortSelectReleased => selectReleased

/-- The commands that reset does not hold off: the supply's own and the levels of input pins (R172, log 5). -/
def takenInReset (c : Instr) : Bool :=
  match c with
  | .powerOnReset _ | .supplyBelowRange | .presenceAppears | .presenceLost | .scanFrameDriven | .scanFrameEnd _ => true
  | _ => false

theorem exec_effect (c : Instr) (s : State) :
    exec c s = if takenInReset c then always s (commandEffect c) else live s (commandEffect c) := by
  cases c <;> rfl

/-- A station that reset does not hold takes every command. -/
theorem exec_live (c : Instr) {st : Station} (q : List Instr) (h : st.heldInReset = false) :
    exec c ⟨st, q⟩ = .next ⟨commandEffect c st, q⟩ := by
  rw [exec_effect]
  cases takenInReset c <;> simp [always, live, h]

/-- A step leaves the station as it is, or has the effect of one command on it. -/
theorem step_effect {s t : State} (h : step s = .next t) :
    t.station = s.station ∨ ∃ c, t.station = commandEffect c s.station := by
  unfold step at h
  split at h
  · cases h; exact .inl rfl
  · next c rest _ =>
    rw [exec_effect] at h
    cases hc : takenInReset c with
    | true =>
      simp only [hc, always, if_true] at h
      cases h; exact .inr ⟨c, rfl⟩
    | false =>
      simp only [hc, live, Bool.false_eq_true, if_false] at h
      cases h
      split
      · exact .inl rfl
      · exact .inr ⟨c, rfl⟩

/-- What every command keeps, every step keeps. -/
theorem step_keeps {P : Station → Station → Prop} (hr : ∀ a, P a a) (he : ∀ c a, P a (commandEffect c a)) {s t : State}
    (h : step s = .next t) : P s.station t.station := by
  rcases step_effect h with h | ⟨c, h⟩ <;> rw [h]
  · exact hr _
  · exact he c _

/-! ## Capacities, RESULT_READY, and one OPEN band -/

theorem pulseEnd_capture (p : PositionUnit) : p.pulseEnd.capture = p.capture := by
  unfold PositionUnit.pulseEnd
  split <;> simp [beginPulse_capture]

theorem markEnd_capture (p : PositionUnit) : p.markEnd.capture = p.capture := by
  unfold PositionUnit.markEnd
  split <;> simp [beginPulse_capture]

theorem gateCompare_keeps (st : Station) : Keeps st (commandEffect .gateCompare st) := by
  unfold commandEffect
  simp only
  split
  · exact takeDue_keeps _ st
  · exact Keeps.refl st

theorem commandEffect_keeps (c : Instr) (st : Station) : Keeps st (commandEffect c st) := by
  cases c with
  | powerOnReset straps => exact resetWith_keeps _ _ _ _ st
  | resetPin straps => exact resetWith_keeps _ _ _ _ st
  | configHeaderRead header => exact headerRead_keeps header st
  | configReadEnd sections => exact readEnd_keeps sections st
  | restartMarkEnd => exact ofPosition_keeps _ st (markEnd_capture _)
  | encoderStep dir => exact encoderStep_keeps dir st
  | encoderDoubleTransition => exact Keeps.refl st
  | triggerPulseEnd => exact ofPosition_keeps _ st (pulseEnd_capture _)
  | presenceAppears => exact presenceInput_keeps true st
  | presenceLost => exact presenceInput_keeps false st
  | qualificationCompare => exact takeDue_keeps _ st
  | bridgingCompare => exact takeDue_keeps _ st
  | blankReleaseCompare => exact takeDue_keeps _ st
  | overlengthCompare => exact takeDue_keeps _ st
  | emptyCompare seq => exact takeDue_keeps _ st
  | lagCompare seq => exact takeDue_keeps _ st
  | decisionCompare seq => exact takeDue_keeps _ st
  | gateCompare => exact gateCompare_keeps st
  | gateWindowEndCompare => exact takeDue_keeps _ st
  | sampleCompare => exact takeDue_keeps _ st
  | settleEnd => exact ofProbe_keeps _ st (settleEnd_fits _)
  | sampleCompletion raw => exact sampleCompletion_keeps raw st
  | warmUpExpiry => exact ofProbe_keeps _ st (warmUpExpiry_fits _ _)
  | parkExpiry => exact ofProbe_keeps _ st (parkExpiry_fits _)
  | scanFrameEnd bits => exact frameEnd_keeps bits st
  | lineQuietJoin => exact quietJoin_keeps st
  | roundOpen => exact roundOpen_keeps st
  | openingPulseEnd length => exact openingPulseEnd_keeps length st
  | alignmentPatternAccepted first second third => exact alignmentPattern_keeps first second third st
  | kindContestEnd peers => exact kindContestEnd_keeps peers st
  | passEnd peers => exact passEnd_keeps peers st
  | ownSlotReadBack => exact ownSlotReadBack_keeps st
  | ownSlotMismatch straps => exact ownSlotMismatch_keeps straps st
  | lineError fault => exact lineError_keeps fault st
  | longDriveStart => exact longDriveStart_keeps st
  | longDriveReleased => exact longDriveReleased_keeps st
  | breakReceived => exact breakReceived_keeps st
  | breakWireReleased => exact breakWireReleased_keeps st
  | muteQuietCountFull => exact sendBreak_keeps st
  | breakSendEnd heard => exact breakSendEnd_keeps heard st
  | guardEnd => exact guardEnd_keeps st
  | roundCompleteNone => exact completeNone_keeps st
  | rollRoundComplete slots order => exact completeRoll_keeps slots order st
  | openRoundComplete => exact completeOpen_keeps st
  | tallyRoundComplete slots => exact completeTally_keeps slots st
  | verdictRoundComplete => exact completeVerdict_keeps st
  | purgeRoundComplete => exact completePurge_keeps st
  | readResult => exact answer_keeps _ _ st
  | readResultShiftedOut => exact readResultShiftedOut_keeps st
  | readStatus => exact answer_keeps _ _ st
  | readCause => exact answer_keeps _ _ st
  | readCauseShiftedOut => exact readCauseShiftedOut_keeps st
  | requestPurge scope seq => exact requestPurge_keeps scope seq st
  | requestRoll => exact requestRoll_keeps st
  | unknownCommand code => exact unknownCommand_keeps code st
  | supplyBelowRange => exact supplyLow_keeps st
  | scanFrameDriven => exact frameDriven_keeps st
  | openingAsListener => exact listen_keeps st
  | resultPortSelectReleased => exact selectReleased_keeps st

/-- Settles O57: each of the two invariants is a part of `Keeps`. -/
theorem everyStepKeepsCapacitiesAndReadyLevel : Obligations.EveryStepKeepsCapacitiesAndReadyLevel :=
  ⟨fun _ _ h hs => (step_keeps Keeps.refl commandEffect_keeps hs).fits h,
    fun _ _ h hs => (step_keeps Keeps.refl commandEffect_keeps hs).ready h⟩

/-- Settles O60. -/
theorem everyStepKeepsOneOpenBand : Obligations.EveryStepKeepsOneOpenBand :=
  fun _ _ hd ho hs => (step_keeps Keeps.refl commandEffect_keeps hs).bands hd ho

/-! ## Edge Unit, compares and records -/

/-- The same Edge Unit, stored purposes and gate window, and nothing else of interest to `edgeSound`. -/
theorem Station.edgeSound.ofUnits {a b : Station} (h : a.edgeSound) (he : b.edge = a.edge)
    (hi : b.position.compares.map (·.id) = a.position.compares.map (·.id)) (ho : b.outlet = a.outlet) : b.edgeSound :=
  h.ofSame (by rw [he]) (by rw [he]) (by rw [he]) (by rw [he]) hi (by rw [ho])

theorem pulseEnd_compares (p : PositionUnit) : p.pulseEnd.compares = p.compares := by
  unfold PositionUnit.pulseEnd
  split <;> simp [beginPulse_compares]

theorem markEnd_compares (p : PositionUnit) : p.markEnd.compares = p.compares := by
  unfold PositionUnit.markEnd
  split <;> simp [beginPulse_compares]

/-- A command that can change Line Controller, Round Engine, Scan Unit, Probe Unit, Start-up Unit, Result Port and the position
values beside the compares, but neither Edge Unit, stored compares, records and their requests, gate window, nor the target of
a sample in flight. -/
structure Apart (a b : Station) : Prop where
  edge : b.edge = a.edge
  compares : b.position.compares = a.position.compares
  outlet : b.outlet = a.outlet
  table : b.table = a.table
  tally : b.engine.requests.tally = a.engine.requests.tally
  verdict : b.engine.requests.verdict = a.engine.requests.verdict
  target : b.probe.target = a.probe.target

theorem Apart.refl (a : Station) : Apart a a := ⟨rfl, rfl, rfl, rfl, rfl, rfl, rfl⟩

theorem Apart.edgeSound {a b : Station} (k : Apart a b) (h : a.edgeSound) : b.edgeSound :=
  h.ofUnits k.edge (by rw [k.compares]) k.outlet

theorem Apart.tableSound {a b : Station} (k : Apart a b) (h : a.tableSound) : b.tableSound :=
  h.aside ⟨k.table, by rw [k.tally], by rw [k.verdict], k.target, fun _ hc => .inl (k.compares ▸ hc)⟩

theorem Apart.ite {a b : Station} (c : Prop) [Decidable c] (h : Apart a b) : Apart a (if c then b else a) := by
  split
  · exact h
  · exact Apart.refl a

theorem headerRead_apart (header : List Byte) (a : Station) : Apart a (headerRead header a) := by
  unfold headerRead
  split
  · split <;> exact ⟨rfl, rfl, rfl, rfl, rfl, rfl, rfl⟩
  · exact Apart.refl a

theorem openRound_apart (a : Station) : Apart a (openRound a) := ⟨rfl, rfl, rfl, rfl, rfl, rfl, rfl⟩

theorem passEnd_apart (peers : List (BitVec 32)) (a : Station) : Apart a (passEnd peers a) := by
  unfold passEnd
  repeat' split
  all_goals exact ⟨rfl, rfl, rfl, rfl, rfl, rfl, rfl⟩

theorem ownSlotReadBack_apart (a : Station) : Apart a (ownSlotReadBack a) := by
  unfold ownSlotReadBack
  split <;> exact ⟨rfl, rfl, rfl, rfl, rfl, rfl, rfl⟩

theorem breakSendEnd_apart (heard : Bool) (a : Station) : Apart a (breakSendEnd heard a) := by
  unfold breakSendEnd
  split
  · split <;> exact ⟨rfl, rfl, rfl, rfl, rfl, rfl, rfl⟩
  · exact Apart.refl a

theorem readResultShiftedOut_apart (a : Station) : Apart a (readResultShiftedOut a) := by
  unfold readResultShiftedOut
  split <;> exact ⟨rfl, rfl, rfl, rfl, rfl, rfl, rfl⟩

theorem readCauseShiftedOut_apart (a : Station) : Apart a (readCauseShiftedOut a) := by
  unfold readCauseShiftedOut
  split <;> exact ⟨rfl, rfl, rfl, rfl, rfl, rfl, rfl⟩

theorem requestPurge_apart (scope : Byte) (seq : Seq) (a : Station) : Apart a (requestPurge scope seq a) := by
  unfold requestPurge
  split
  · exact ⟨rfl, rfl, rfl, rfl, rfl, rfl, rfl⟩
  · constructor <;> simp [answer, raisePurge, withRequests]

theorem requestRoll_apart (a : Station) : Apart a (requestRoll a) := by
  unfold requestRoll
  split <;> exact ⟨rfl, rfl, rfl, rfl, rfl, rfl, rfl⟩

theorem settleEnd_target (p : ProbeUnit) : p.settleEnd.target = p.target := by
  unfold ProbeUnit.settleEnd; split <;> rfl

theorem warmUpExpiry_target (t : Byte) (p : ProbeUnit) : (p.warmUpExpiry t).target = p.target := by
  unfold ProbeUnit.warmUpExpiry; split <;> rfl

theorem parkExpiry_target (p : ProbeUnit) : p.parkExpiry.target = p.target := by
  unfold ProbeUnit.parkExpiry; split <;> rfl

/-- The commands that are `Apart` in every state. -/
def Instr.isApart (c : Instr) : Bool :=
  match c with
  | .configHeaderRead _ | .restartMarkEnd | .encoderDoubleTransition | .triggerPulseEnd | .settleEnd | .warmUpExpiry | .parkExpiry
  | .lineQuietJoin | .roundOpen | .passEnd _ | .ownSlotReadBack | .longDriveStart | .breakWireReleased | .muteQuietCountFull
  | .breakSendEnd _ | .guardEnd | .readResult | .readResultShiftedOut | .readStatus | .readCause | .readCauseShiftedOut
  | .requestPurge _ _ | .requestRoll | .unknownCommand _ | .scanFrameDriven | .openingAsListener | .resultPortSelectReleased => true
  | _ => false

theorem commandEffect_apart {c : Instr} (hc : Instr.isApart c = true) (a : Station) : Apart a (commandEffect c a) := by
  have same : ∀ {b : Station}, b.edge = a.edge → b.position = a.position → b.outlet = a.outlet → b.table = a.table →
      b.engine = a.engine → b.probe.target = a.probe.target → Apart a b :=
    fun h1 h2 h3 h4 h5 h6 => ⟨h1, by rw [h2], h3, h4, by rw [h5], by rw [h5], h6⟩
  cases c with
  | configHeaderRead header => exact headerRead_apart header a
  | restartMarkEnd => exact ⟨rfl, markEnd_compares _, rfl, rfl, rfl, rfl, rfl⟩
  | encoderDoubleTransition => exact Apart.refl a
  | triggerPulseEnd => exact ⟨rfl, pulseEnd_compares _, rfl, rfl, rfl, rfl, rfl⟩
  | settleEnd => exact same rfl rfl rfl rfl rfl (settleEnd_target _)
  | warmUpExpiry => exact same rfl rfl rfl rfl rfl (warmUpExpiry_target _ _)
  | parkExpiry => exact same rfl rfl rfl rfl rfl (parkExpiry_target _)
  | lineQuietJoin => exact Apart.ite _ (same rfl rfl rfl rfl rfl rfl)
  | roundOpen => exact Apart.ite _ (same rfl rfl rfl rfl rfl rfl)
  | passEnd peers => exact passEnd_apart peers a
  | ownSlotReadBack => exact ownSlotReadBack_apart a
  | longDriveStart => exact Apart.ite _ (same rfl rfl rfl rfl rfl rfl)
  | breakWireReleased => exact Apart.ite _ (same rfl rfl rfl rfl rfl rfl)
  | muteQuietCountFull => exact Apart.ite _ (same rfl rfl rfl rfl rfl rfl)
  | breakSendEnd heard => exact breakSendEnd_apart heard a
  | guardEnd => exact Apart.ite _ (same rfl rfl rfl rfl rfl rfl)
  | readResult => exact same rfl rfl rfl rfl rfl rfl
  | readResultShiftedOut => exact readResultShiftedOut_apart a
  | readStatus => exact same rfl rfl rfl rfl rfl rfl
  | readCause => exact same rfl rfl rfl rfl rfl rfl
  | readCauseShiftedOut => exact readCauseShiftedOut_apart a
  | requestPurge scope seq => exact requestPurge_apart scope seq a
  | requestRoll => exact requestRoll_apart a
  | unknownCommand code => exact Apart.ite _ (same rfl rfl rfl rfl rfl rfl)
  | scanFrameDriven => exact Apart.ite _ (same rfl rfl rfl rfl rfl rfl)
  | openingAsListener => exact Apart.ite _ (same rfl rfl rfl rfl rfl rfl)
  | resultPortSelectReleased => exact same rfl rfl rfl rfl rfl rfl
  | _ => cases hc

theorem gateCompare_edgeSound {a : Station} (h : a.edgeSound) : (commandEffect .gateCompare a).edgeSound := by
  unfold commandEffect
  simp only
  split
  · exact takeDue_edgeSound _ h
  · exact h

theorem longDriveReleased_edgeSound {a : Station} (h : a.edgeSound) : (longDriveReleased a).edgeSound := by
  unfold longDriveReleased
  split
  · exact enterMute_edgeSound h
  · exact h

/-- Each command keeps the Edge Unit and its compares fitting. A purge needs distinct sequence numbers for its removals, and
the entry to JOINING finds the blocks quiet. -/
theorem commandEffect_edgeSound (c : Instr) {a : Station} (hd : a.seqsDistinct) (hq : a.offLineQuiet) (h : a.edgeSound) :
    (commandEffect c a).edgeSound := by
  cases c with
  | powerOnReset straps => exact resetWith_edgeSound _ _ _ _
  | resetPin straps => exact resetWith_edgeSound _ _ _ _
  | supplyBelowRange => exact (resetWith_edgeSound ⟨a.start.index, a.start.outlet⟩ false a.edge.pin a.scan.frame).ofUnits rfl rfl rfl
  | configReadEnd sections => exact readEnd_edgeSound sections hq h
  | encoderStep dir => exact encoderStep_edgeSound dir h
  | presenceAppears => exact presenceInput_edgeSound true h
  | presenceLost => exact presenceInput_edgeSound false h
  | qualificationCompare => exact takeDue_edgeSound _ h
  | bridgingCompare => exact takeDue_edgeSound _ h
  | blankReleaseCompare => exact takeDue_edgeSound _ h
  | overlengthCompare => exact takeDue_edgeSound _ h
  | emptyCompare seq => exact takeDue_edgeSound _ h
  | lagCompare seq => exact takeDue_edgeSound _ h
  | decisionCompare seq => exact takeDue_edgeSound _ h
  | gateCompare => exact gateCompare_edgeSound h
  | gateWindowEndCompare => exact takeDue_edgeSound _ h
  | sampleCompare => exact takeDue_edgeSound _ h
  | sampleCompletion raw => exact sampleCompletion_edgeSound raw h
  | scanFrameEnd bits => exact frameEnd_edgeSound bits h
  | openingPulseEnd length => exact openingPulseEnd_edgeSound length h
  | alignmentPatternAccepted first second third => exact alignmentPattern_edgeSound first second third h
  | kindContestEnd peers => exact kindContestEnd_edgeSound peers h
  | ownSlotMismatch straps => exact ownSlotMismatch_edgeSound straps h
  | lineError fault => exact lineError_edgeSound fault h
  | longDriveReleased => exact longDriveReleased_edgeSound h
  | breakReceived => exact breakReceived_edgeSound h
  | roundCompleteNone => exact completeNone_edgeSound h
  | rollRoundComplete slots order => exact completeRoll_edgeSound slots order h
  | openRoundComplete => exact completeOpen_edgeSound h
  | tallyRoundComplete slots => exact completeTally_edgeSound slots h
  | verdictRoundComplete => exact completeVerdict_edgeSound h
  | purgeRoundComplete => exact completePurge_edgeSound hd h
  | _ => exact (commandEffect_apart rfl a).edgeSound h

theorem gateCompare_tableSound {a : Station} (h : a.tableSound) : (commandEffect .gateCompare a).tableSound := by
  unfold commandEffect
  simp only
  split
  · exact h.takeDue _
  · exact h

theorem longDriveReleased_tableSound {a : Station} (h : a.tableSound) : (longDriveReleased a).tableSound := by
  unfold longDriveReleased
  split
  · exact h.enterMute
  · exact h

theorem openingPulseEnd_tableSound (length : Nat) {a : Station} (h : a.tableSound) : (openingPulseEnd length a).tableSound := by
  unfold openingPulseEnd
  simp only
  split
  · split
    · split
      · exact h.enterMute
      · exact h.ofLine _
    · split
      · exact (openRound_apart a).tableSound h
      · exact h.ofLine _
  · exact h

theorem alignmentPattern_tableSound (x y z : Nat) {a : Station} (h : a.tableSound) :
    (alignmentPattern x y z a).tableSound := by
  unfold alignmentPattern
  simp only
  split
  · split
    · exact h.ofLine _
    · exact h.enterMute
  · exact h

theorem ownSlotMismatch_tableSound (straps : Straps) {a : Station} (h : a.tableSound) :
    (ownSlotMismatch straps a).tableSound := by
  unfold ownSlotMismatch
  split
  · exact h
  · split
    · exact resetWith_tableSound _ _ _ _
    · exact Station.tableSound.enterMute (h.ofLine _)

/-- Each command keeps the records, with what names them. -/
theorem commandEffect_tableSound (c : Instr) {a : Station} (h : a.tableSound) : (commandEffect c a).tableSound := by
  cases c with
  | powerOnReset straps => exact resetWith_tableSound _ _ _ _
  | resetPin straps => exact resetWith_tableSound _ _ _ _
  | supplyBelowRange =>
    exact (resetWith_tableSound ⟨a.start.index, a.start.outlet⟩ false a.edge.pin a.scan.frame).aside (.ofSame rfl rfl rfl rfl)
  | configReadEnd sections => exact h.readEnd sections
  | encoderStep dir => exact h.encoderStep dir
  | presenceAppears => exact h.presenceInput true
  | presenceLost => exact h.presenceInput false
  | qualificationCompare => exact h.takeDue _
  | bridgingCompare => exact h.takeDue _
  | blankReleaseCompare => exact h.takeDue _
  | overlengthCompare => exact h.takeDue _
  | emptyCompare seq => exact h.takeDue _
  | lagCompare seq => exact h.takeDue _
  | decisionCompare seq => exact h.takeDue _
  | gateCompare => exact gateCompare_tableSound h
  | gateWindowEndCompare => exact h.takeDue _
  | sampleCompare => exact h.takeDue _
  | sampleCompletion raw => exact h.sampleCompletion raw
  | scanFrameEnd bits => exact h.frameEnd bits
  | openingPulseEnd length => exact openingPulseEnd_tableSound length h
  | alignmentPatternAccepted first second third => exact alignmentPattern_tableSound first second third h
  | kindContestEnd peers => exact h.kindContestEnd peers
  | ownSlotMismatch straps => exact ownSlotMismatch_tableSound straps h
  | lineError fault => exact h.lineError fault
  | longDriveReleased => exact longDriveReleased_tableSound h
  | breakReceived => exact h.breakReceived
  | roundCompleteNone => exact h.completeNone
  | rollRoundComplete slots order => exact h.completeRoll slots order
  | openRoundComplete => exact h.completeOpen
  | tallyRoundComplete slots => exact h.completeTally slots
  | verdictRoundComplete => exact h.completeVerdict
  | purgeRoundComplete => exact h.completePurge
  | _ => exact (commandEffect_apart rfl a).tableSound h

/-- Settles O49: the two invariants, carried through every command. -/
theorem everyStepKeepsRecordsEdgeAndCompares : Obligations.EveryStepKeepsRecordsEdgeAndCompares := by
  constructor
  · intro s t hd hq he hc hs
    exact step_keeps (P := fun a b => a.seqsDistinct → a.offLineQuiet → a.edgeSound → b.edgeSound) (fun _ _ _ h => h)
      (fun c _ hd hq h => commandEffect_edgeSound c hd hq h) hs hd hq ⟨he, hc⟩
  · intro s t hd hr hh ht hs
    exact (step_keeps (P := fun a b => a.tableSound → b.tableSound) (fun _ h => h) (fun c _ h => commandEffect_tableSound c h) hs
      ⟨hd, hr, hh, ht⟩).2

end Sys2Proof.Machine

namespace Sys2Proof.Machine

/-! ## Eight values, one for each index -/

theorem mem_indices (k : Index) : k ∈ indices := by revert k; decide

theorem get_set {α : Type} (e : Eight α) (j k : Index) (v : α) : (e.set k v).get j = if j = k then v else e.get j := by
  fin_cases k <;> fin_cases j <;> rfl

theorem get_tabulate {α : Type} (f : Index → α) (k : Index) : (Eight.tabulate f).get k = f k := by
  fin_cases k <;> rfl

theorem recordComplete_iff (peers : Eight (Option Nat)) (r : Record) :
    recordComplete peers r = true ↔ ∀ k : Index, (peers.get k).isSome = true → (r.entries.get k).isSome = true := by
  simp only [recordComplete, List.all_eq_true, Bool.or_eq_true]
  constructor
  · intro h k hk
    rcases h k (mem_indices k) with h | h
    · cases hp : peers.get k <;> simp [hp] at h hk
    · exact h
  · intro h k _
    cases hp : peers.get k with
    | none => exact .inl rfl
    | some n => exact .inr (h k (by rw [hp]; rfl))

/-! ## The record with a sequence number -/

@[simp] theorem record_dropCompare (id : CompareId) (st : Station) (s : Seq) : (dropCompare id st).record s = st.record s := rfl
@[simp] theorem record_storeCompare (id : CompareId) (pos : Pos) (g : Progress) (st : Station) (s : Seq) :
    (storeCompare id pos g st).record s = st.record s := rfl
@[simp] theorem record_withRequests (f : Requests → Requests) (st : Station) (s : Seq) :
    (withRequests f st).record s = st.record s := rfl
@[simp] theorem openRecord_dropCompare (id : CompareId) (st : Station) : (dropCompare id st).openRecord = st.openRecord := rfl

theorem find_map_seq (g : Record → Record) (hg : ∀ x, (g x).seq = x.seq) (l : List Record) (s : Seq) :
    (l.map g).find? (fun r => r.seq == s) = (l.find? fun r => r.seq == s).map g := by
  rw [List.find?_map]
  congr 2
  funext x
  simp [hg]

/-- A change of all records by one function that keeps the sequence numbers changes the record found. -/
theorem record_map {a b : Station} (g : Record → Record) (hg : ∀ x, (g x).seq = x.seq) (ht : b.table = a.table.map g) (s : Seq) :
    b.record s = (a.record s).map g := by
  unfold Station.record
  rw [ht, find_map_seq g hg]

theorem record_updateRecord_other {st : Station} {s u : Seq} (f : Record → Record) (hf : ∀ x, (f x).seq = x.seq) (h : u ≠ s) :
    (updateRecord s f st).record u = st.record u := by
  rw [record_map (fun r => if r.seq = s then f r else r) (by intro x; split <;> simp [hf]) rfl]
  cases hr : st.record u with
  | none => rfl
  | some r => simp [record_seq hr, h]

/-! ## Requests of one subject -/

/-- The VERDICT requests held for a subject. -/
def Station.verdictOf (st : Station) (s : Seq) : List Held := st.engine.requests.verdict.filter fun h => h.subject == s

theorem Station.verdictOf_def (st : Station) (s : Seq) :
    (st.engine.requests.verdict.filter fun h => h.subject == s) = st.verdictOf s := rfl

theorem any_subject_iff (l : List Held) (s : Seq) : l.any (·.subject == s) = true ↔ (l.filter fun h => h.subject == s) ≠ [] := by
  simp [List.any_eq_true, List.filter_eq_nil_iff]

theorem raiseVerdict_of (s : Seq) (b : Bool) (q : Requests) :
    (q.raiseVerdict s b).verdict.filter (fun h => h.subject == s) =
      if (q.verdict.filter fun h => h.subject == s).isEmpty then [⟨s, b⟩] else q.verdict.filter fun h => h.subject == s := by
  unfold Requests.raiseVerdict
  cases ha : q.verdict.any (·.subject == s) with
  | true => rw [if_pos rfl, if_neg]; simpa using (any_subject_iff _ _).1 ha
  | false =>
    have hn : (q.verdict.filter fun h => h.subject == s) = [] := by
      by_contra h
      rw [(any_subject_iff _ _).2 h] at ha; cases ha
    rw [if_neg Bool.false_ne_true, hn]
    simp [hn]

theorem raiseVerdict_of_other {s u : Seq} (h : u ≠ s) (b : Bool) (q : Requests) :
    (q.raiseVerdict s b).verdict.filter (fun x => x.subject == u) = q.verdict.filter fun x => x.subject == u := by
  unfold Requests.raiseVerdict
  split
  · rfl
  · simp [Ne.symm h]

/-! ## The completeness test (R20) -/

/-- What the completeness test makes of a complete GATHERING record: TALLIED, and graded where it is not frozen. -/
def Record.tallied (sh : Shared) (r : Record) : Record :=
  { (if r.frozen then r else gradeRecord sh r) with phase := .tallied }

theorem tallied_fixed (sh : Shared) (r : Record) : (r.tallied sh).seq = r.seq ∧ (r.tallied sh).band = r.band ∧
    (r.tallied sh).entries = r.entries ∧ (r.tallied sh).frozen = r.frozen ∧ (r.tallied sh).outcome = r.outcome ∧
    (r.tallied sh).phase = .tallied := by
  unfold Record.tallied
  split <;> exact ⟨rfl, rfl, rfl, rfl, rfl, rfl⟩

/-- The requests after the completeness test of a complete GATHERING record. -/
def Requests.complete (own frozen : Bool) (s : Seq) (q : Requests) : Requests :=
  let kept := if own then q else q.dropTally s
  if frozen then kept else kept.raiseVerdict s own

theorem completeRecord_none {own : Bool} {s : Seq} {st : Station} (h : st.record s = none) : completeRecord own s st = st := by
  unfold completeRecord; rw [h]

theorem completeRecord_incomplete {own : Bool} {s : Seq} {st : Station} {r : Record} (hr : st.record s = some r)
    (h : ¬ (r.phase = .gathering ∧ recordComplete st.engine.peers r = true)) : completeRecord own s st = st := by
  unfold completeRecord; rw [hr]; exact if_neg h

theorem completeRecord_complete {own : Bool} {s : Seq} {st : Station} {r : Record} (hr : st.record s = some r)
    (h : r.phase = .gathering ∧ recordComplete st.engine.peers r = true) :
    completeRecord own s st =
      withRequests (Requests.complete own r.frozen s) (updateRecord s (Record.tallied st.shared) st) := by
  unfold completeRecord; rw [hr]
  simp only
  rw [if_pos h]
  cases own <;> cases hf : r.frozen <;> rfl

/-- The record after the test. -/
theorem completeRecord_record {own : Bool} {s : Seq} {st : Station} {r : Record} (hr : st.record s = some r)
    (h : r.phase = .gathering ∧ recordComplete st.engine.peers r = true) :
    (completeRecord own s st).record s = some (r.tallied st.shared) := by
  rw [completeRecord_complete hr h, record_withRequests]
  exact record_updateRecord _ (fun x => (tallied_fixed _ x).1) hr

/-- The test of one record leaves every other record. -/
theorem completeRecord_other {own : Bool} {s u : Seq} (st : Station) (h : u ≠ s) :
    (completeRecord own s st).record u = st.record u := by
  cases hr : st.record s with
  | none => rw [completeRecord_none hr]
  | some r =>
    by_cases hc : r.phase = .gathering ∧ recordComplete st.engine.peers r = true
    · rw [completeRecord_complete hr hc, record_withRequests]
      exact record_updateRecord_other _ (fun x => (tallied_fixed _ x).1) h
    · rw [completeRecord_incomplete hr hc]

theorem completeRecord_verdictOf_other {s u : Seq} (st : Station) (h : u ≠ s) (own : Bool) :
    (completeRecord own s st).verdictOf u = st.verdictOf u := by
  cases hr : st.record s with
  | none => rw [completeRecord_none hr]
  | some r =>
    by_cases hc : r.phase = .gathering ∧ recordComplete st.engine.peers r = true
    · rw [completeRecord_complete hr hc]
      unfold Station.verdictOf
      cases own <;> cases hf : r.frozen <;> simp [Requests.complete, raiseVerdict_of_other h, Requests.dropTally]
    · rw [completeRecord_incomplete hr hc]

/-- Grading a graded record again gives the same verdict: the band flags are already in its flags. -/
theorem gradeRecord_verdict_of_flags (sh : Shared) (r x : Record) (he : x.entries = r.entries)
    (hf : x.flags = (gradeRecord sh r).flags) : (gradeRecord sh x).verdict = (gradeRecord sh r).verdict := by
  have h : ∀ (f g : SheetFlags) (n : Nat) (t : SheetTally), f.incomplete = g.incomplete → f.blind = g.blind →
      f.overlength = g.overlength → localVerdict sh f n t = localVerdict sh g n t := by
    intro f g n t h1 h2 h3
    unfold localVerdict
    rw [h1, h2, h3]
  simp only [gradeRecord, he, hf]
  refine congrArg some (h _ _ _ _ ?_ ?_ ?_) <;> simp [SheetFlags.withBandFlags]

/-! ## The end of an own band (R14, R18) -/

/-- The record as its own entry is stored in it and its band ends. -/
def Record.ended (own : Index) (state : BandState) (entry : Entry) (r : Record) : Record :=
  { r.storeEntry own entry with band := { r.band with state := state } }

theorem settleBand_eq (state : BandState) (entry : Record → Entry) (s : Seq) (st : Station) :
    settleBand state entry s st = completeRecord true s (withRequests (Requests.raiseTally s)
      (updateRecord s (fun r => r.ended st.start.index state (entry r)) st)) := rfl

/-- The station as the own entry has been stored and TALLY raised, before the completeness test. -/
theorem settleBand_before {state : BandState} {entry : Record → Entry} {s : Seq} {st : Station} {r : Record}
    (hr : st.record s = some r) :
    (withRequests (Requests.raiseTally s) (updateRecord s (fun r => r.ended st.start.index state (entry r)) st)).record s =
      some (r.ended st.start.index state (entry r)) :=
  record_updateRecord (fun r => r.ended st.start.index state (entry r)) (fun _ => rfl) hr

/-- Whether a record is complete once an entry is stored at the own index. -/
def Station.completes (st : Station) (r : Record) (entry : Entry) : Prop :=
  r.phase = .gathering ∧
    ∀ k : Index, (st.engine.peers.get k).isSome = true → ((r.entries.set st.start.index (some entry)).get k).isSome = true

theorem completes_iff (st : Station) (r : Record) (state : BandState) (entry : Entry) :
    st.completes r entry ↔ (r.ended st.start.index state entry).phase = .gathering ∧
      recordComplete st.engine.peers (r.ended st.start.index state entry) = true := by
  rw [recordComplete_iff]; rfl

/-- The end of an own band, where the record is then not complete. -/
theorem settleBand_incomplete {state : BandState} {entry : Record → Entry} {s : Seq} {st : Station} {r : Record}
    (hr : st.record s = some r) (h : ¬ st.completes r (entry r)) :
    settleBand state entry s st =
      withRequests (Requests.raiseTally s) (updateRecord s (fun r => r.ended st.start.index state (entry r)) st) :=
  completeRecord_incomplete (settleBand_before hr) (fun hc => h ((completes_iff st r state (entry r)).2 hc))

/-- The end of an own band, where the record is then complete. -/
theorem settleBand_complete {state : BandState} {entry : Record → Entry} {s : Seq} {st : Station} {r : Record}
    (hr : st.record s = some r) (h : st.completes r (entry r)) :
    (settleBand state entry s st).record s = some ((r.ended st.start.index state (entry r)).tallied st.shared) ∧
      (settleBand state entry s st).engine.requests =
        (st.engine.requests.raiseTally s).complete true r.frozen s := by
  have hc := (completes_iff st r state (entry r)).1 h
  refine ⟨completeRecord_record (settleBand_before hr) hc, ?_⟩
  rw [settleBand_eq, completeRecord_complete (settleBand_before hr) hc]
  rfl

/-- The band, the entries and the figures fixed elsewhere of a record whose own band ends. -/
theorem settleBand_record {state : BandState} {entry : Record → Entry} {s : Seq} {st : Station} {r : Record}
    (hr : st.record s = some r) : ∃ b, (settleBand state entry s st).record s = some b ∧
      b.band = { r.band with state := state } ∧ b.entries = r.entries.set st.start.index (some (entry r)) ∧
      b.frozen = r.frozen ∧ b.outcome = r.outcome := by
  by_cases h : st.completes r (entry r)
  · obtain ⟨_, h2, h3, h4, h5, _⟩ := tallied_fixed st.shared (r.ended st.start.index state (entry r))
    exact ⟨_, (settleBand_complete hr h).1, h2, h3, h4, h5⟩
  · refine ⟨r.ended st.start.index state (entry r), ?_, rfl, rfl, rfl, rfl⟩
    rw [settleBand_incomplete hr h]
    exact settleBand_before hr

theorem settleBand_other {state : BandState} {entry : Record → Entry} {s u : Seq} (st : Station) (h : u ≠ s) :
    (settleBand state entry s st).record u = st.record u ∧ (settleBand state entry s st).verdictOf u = st.verdictOf u := by
  rw [settleBand_eq, completeRecord_other _ h, completeRecord_verdictOf_other _ h, record_withRequests]
  refine ⟨record_updateRecord_other (fun r => r.ended st.start.index state (entry r)) (fun _ => rfl) h, ?_⟩
  simp [Station.verdictOf, Requests.raiseTally_verdict]

theorem complete_own_tally (frozen : Bool) (s : Seq) (q : Requests) : (q.complete true frozen s).tally = q.tally := by
  cases frozen <;> simp [Requests.complete, Requests.raiseVerdict_tally]

/-- TALLY is raised with a clear mark, and stays. -/
theorem settleBand_tally {state : BandState} {entry : Record → Entry} {s : Seq} {st : Station} {r : Record}
    (hr : st.record s = some r) : (⟨s, false⟩ : Held) ∈ (settleBand state entry s st).engine.requests.tally := by
  by_cases h : st.completes r (entry r)
  · rw [(settleBand_complete hr h).2, complete_own_tally]
    exact raiseTally_mem s _
  · rw [settleBand_incomplete hr h]
    exact raiseTally_mem s _

theorem storeEntry_flags {e : Entry} (he : e ≠ .unknown) (k : Index) (r : Record) : (r.storeEntry k e).flags = r.flags :=
  if_neg he

/-- The VERDICT requests for the subject, once the test has found the record complete. -/
theorem settleBand_verdictOf {state : BandState} {entry : Record → Entry} {s : Seq} {st : Station} {r : Record}
    (hr : st.record s = some r) (h : st.completes r (entry r)) :
    (settleBand state entry s st).verdictOf s =
      if r.frozen then st.verdictOf s else if (st.verdictOf s).isEmpty then [⟨s, true⟩] else st.verdictOf s := by
  unfold Station.verdictOf
  rw [(settleBand_complete hr h).2]
  cases r.frozen <;> simp [Requests.complete, raiseVerdict_of, Requests.raiseTally_verdict]

theorem flags_late {f g : SheetFlags} (h : f = g) : f = { g with late := f.late } := by rw [h]

theorem tallied_frozen {sh : Shared} {r : Record} (h : r.frozen = true) : r.tallied sh = { r with phase := .tallied } := by
  unfold Record.tallied; rw [if_pos h]

theorem tallied_graded {sh : Shared} {r : Record} (h : r.frozen = false) :
    r.tallied sh = { gradeRecord sh r with phase := .tallied } := by
  unfold Record.tallied; rw [h]; rfl

/-- An own entry as it is stored, in the words of the statements. -/
theorem settleBand_storesOwnEntry {state : BandState} {entry : Record → Entry} {s : Seq} {st : Station} {r : Record}
    (hr : st.record s = some r) (he : entry r ≠ .unknown) :
    st.storesOwnEntry r (entry r) (settleBand state entry s st) := by
  have hs := record_seq hr
  have hflags : (r.ended st.start.index state (entry r)).flags = r.flags := storeEntry_flags he st.start.index r
  have htally := settleBand_tally (state := state) (entry := entry) hr
  unfold Station.storesOwnEntry
  simp only [Station.verdictOf_def]
  rw [hs]
  by_cases h : st.completes r (entry r)
  · obtain ⟨hb, _⟩ := settleBand_complete (state := state) hr h
    have hv := settleBand_verdictOf (state := state) hr h
    refine ⟨_, hb, (tallied_fixed _ _).2.2.1, htally, fun hn => absurd h hn,
      fun _ => ⟨(tallied_fixed _ _).2.2.2.2.2, fun hf => ?_, fun hf => ?_⟩⟩
    · rw [tallied_frozen (r := r.ended st.start.index state (entry r)) hf, hv, hf]
      exact ⟨rfl, flags_late hflags, rfl⟩
    · rw [tallied_graded (r := r.ended st.start.index state (entry r)) hf, hv, hf]
      simp only [gradeRecord, hflags]
      exact ⟨rfl, rfl, rfl, rfl⟩
  · have hb : (settleBand state entry s st).record s = some (r.ended st.start.index state (entry r)) := by
      rw [settleBand_incomplete hr h]; exact settleBand_before hr
    refine ⟨_, hb, rfl, htally, fun _ => ⟨rfl, rfl, flags_late hflags, ?_⟩, fun hc => absurd hc h⟩
    rw [settleBand_incomplete hr h]
    simp [Station.verdictOf, Requests.raiseTally_verdict]

end Sys2Proof.Machine

namespace Sys2Proof.Machine

/-! ## One record under head takes and closings (R62 to R64) -/

/-- What head takes and the closings of other bands may do to a record: a report is folded into an OPEN or CLOSING band, and a
record whose band is CLOSED is marked LATE. -/
structure Record.Kept (r x : Record) : Prop where
  same : x = { r with
    band := { r.band with summary := x.band.summary }, flags := { r.flags with late := x.flags.late } }
  summary : r.band.state ≠ .opened → r.band.state ≠ .closing → x.band.summary = r.band.summary
  late : r.band.state ≠ .closed → x.flags.late = r.flags.late

theorem Record.Kept.refl (r : Record) : r.Kept r := ⟨rfl, fun _ _ => rfl, fun _ => rfl⟩

theorem Record.Kept.state {r x : Record} (h : r.Kept x) : x.band.state = r.band.state := by rw [h.same]

theorem Record.Kept.trans {r x y : Record} (h : r.Kept x) (k : x.Kept y) : r.Kept y := by
  refine ⟨?_, fun h1 h2 => ?_, fun h1 => ?_⟩
  · rw [k.same, h.same]
  · rw [k.summary (h.state ▸ h1) (h.state ▸ h2), h.summary h1 h2]
  · rw [k.late (h.state ▸ h1), h.late h1]

theorem Record.Kept.seq {r x : Record} (h : r.Kept x) : x.seq = r.seq := by rw [h.same]

/-- Head takes and closings from `a` to `b`: beside what the frame says, each record is kept, or its CLOSING band has closed
with its own entry stored. -/
structure HeadStep (a b : Station) : Prop extends HeadFrame a b, TakeStep a b where
  own : ∀ s r, a.record s = some r → ∃ x, b.record s = some x ∧
    (r.Kept x ∧ b.verdictOf s = a.verdictOf s ∨
      r.band.state = .closing ∧ x.band = { r.band with state := .closed, summary := x.band.summary } ∧
        a.storesOwnEntry r (.closed x.band.summary) b)

theorem shared_of_start {a b : Station} (h : b.start = a.start) : b.shared = a.shared := by
  unfold Station.shared; rw [h]

/-- An own entry stored is still the one stored after steps that keep its record and its requests. -/
theorem storesOwnEntry_kept {a b c : Station} {r x : Record} {e : Entry} (h : a.storesOwnEntry r e b)
    (hx : b.record r.seq = some x) {y : Record} (hy : c.record r.seq = some y) (hk : x.Kept y)
    (hv : c.verdictOf r.seq = b.verdictOf r.seq)
    (ht : ∀ s, (⟨s, false⟩ : Held) ∈ b.engine.requests.tally → (⟨s, false⟩ : Held) ∈ c.engine.requests.tally) :
    a.storesOwnEntry r e c := by
  obtain ⟨z, hz, he, htally, h1, h2⟩ := h
  rw [hx] at hz; cases hz
  unfold Station.storesOwnEntry
  simp only [Station.verdictOf_def] at h1 h2 ⊢
  rw [hk.same] at hy
  refine ⟨_, hy, he, ht _ htally, fun hn => ?_, fun hc => ?_⟩
  · obtain ⟨k1, k2, k3, k4⟩ := h1 hn
    exact ⟨k1, k2, by rw [k3], hv.trans k4⟩
  · obtain ⟨k1, k2, k3⟩ := h2 hc
    refine ⟨k1, fun hf => ?_, fun hf => ?_⟩
    · obtain ⟨k4, k5, k6⟩ := k2 hf
      exact ⟨k4, by rw [k5], hv.trans k6⟩
    · obtain ⟨k4, k5, k6, k7⟩ := k3 hf
      exact ⟨k4, k5, by rw [k6], hv.trans k7⟩

/-- An own entry stored is also that of a record which differs in its band only, of a station with the same members, start-up
values and VERDICT requests of the subject. -/
theorem storesOwnEntry_congr {a b c : Station} {r x : Record} {e : Entry} (hs : b.start = a.start)
    (hp : b.engine.peers = a.engine.peers) (hx : x = { r with band := x.band }) (hv : b.verdictOf r.seq = a.verdictOf r.seq)
    (h : b.storesOwnEntry x e c) : a.storesOwnEntry r e c := by
  generalize x.band = band at hx
  subst hx
  unfold Station.storesOwnEntry at h ⊢
  simp only [Station.verdictOf_def, hs, hp, shared_of_start hs, hv] at h ⊢
  exact h

/-- A CLOSING record has been kept with its band alone changed. -/
theorem Record.Kept.of_closing {r x : Record} (h : r.Kept x) (hs : r.band.state = .closing) : x = { r with band := x.band } := by
  rw [h.same, h.late (by rw [hs]; decide)]

theorem HeadStep.refl (a : Station) : HeadStep a a :=
  ⟨HeadFrame.refl a, TakeStep.refl a, fun _ r hr => ⟨r, hr, .inl ⟨Record.Kept.refl r, rfl⟩⟩⟩

theorem HeadStep.distinct {a b : Station} (h : HeadStep a b) (hd : a.seqsDistinct) : b.seqsDistinct := h.toTakeStep.distinct hd

theorem HeadStep.trans {a b c : Station} (h : HeadStep a b) (k : HeadStep b c) : HeadStep a c := by
  refine ⟨h.toHeadFrame.trans k.toHeadFrame, h.toTakeStep.trans k.toTakeStep, fun s r hr => ?_⟩
  have hs := record_seq hr
  obtain ⟨x, hx, hx'⟩ := h.own s r hr
  obtain ⟨y, hy, hy'⟩ := k.own s x hx
  refine ⟨y, hy, ?_⟩
  rcases hx' with ⟨h1, h2⟩ | ⟨h1, h2, h3⟩
  · rcases hy' with ⟨k1, k2⟩ | ⟨k1, k2, k3⟩
    · exact .inl ⟨h1.trans k1, k2.trans h2⟩
    · refine .inr ⟨h1.state ▸ k1, ?_, storesOwnEntry_congr h.start h.peers (h1.of_closing (h1.state ▸ k1)) (hs ▸ h2) k3⟩
      rw [k2, h1.same]
  · have hc : x.band.state = .closed := by rw [h2]
    rcases hy' with ⟨k1, k2⟩ | ⟨k1, _, _⟩
    · have hsum : y.band.summary = x.band.summary := k1.summary (by rw [hc]; decide) (by rw [hc]; decide)
      refine .inr ⟨h1, ?_, ?_⟩
      · rw [k1.same, h2]
      · rw [hsum]
        exact storesOwnEntry_kept h3 (hs ▸ hx) (hs ▸ hy) k1 (hs ▸ k2) k.tally
    · rw [hc] at k1; cases k1

/-- Steps that keep every record, and the VERDICT requests. -/
theorem HeadStep.ofKept {a b : Station} (f : HeadFrame a b) (t : TakeStep a b) (g : Record → Record) (ht : b.table = a.table.map g)
    (hg : ∀ r ∈ a.table, r.Kept (g r)) (hs : ∀ r, (g r).seq = r.seq) (hv : b.engine.requests.verdict = a.engine.requests.verdict) :
    HeadStep a b := by
  refine ⟨f, t, fun s r hr => ⟨g r, ?_, .inl ⟨hg r (record_mem hr), ?_⟩⟩⟩
  · rw [record_map g hs ht, hr]; rfl
  · unfold Station.verdictOf; rw [hv]

theorem testClosing_headStep (s : Seq) {st : Station} (hd : st.seqsDistinct) : HeadStep st (testClosing s st) := by
  refine ⟨testClosing_frame s st, testClosing_takeStep s st hd, fun u x hx => ?_⟩
  unfold testClosing
  cases hr : st.record s with
  | none => exact ⟨x, hx, .inl ⟨Record.Kept.refl x, rfl⟩⟩
  | some r =>
    simp only
    split
    · next hc =>
      by_cases hu : u = s
      · subst hu
        rw [hr] at hx; cases hx
        obtain ⟨b, hb, hband, _⟩ := settleBand_record (state := .closed) (entry := fun x => .closed x.band.summary) hr
        refine ⟨b, hb, .inr ⟨(closingHolds_iff hc).1, ?_, ?_⟩⟩
        · rw [hband]
        · rw [hband]
          exact settleBand_storesOwnEntry (entry := fun x => .closed x.band.summary) hr (by simp)
      · obtain ⟨h1, h2⟩ := settleBand_other (state := .closed) (entry := fun x => .closed x.band.summary) st hu
        exact ⟨x, h1.trans hx, .inl ⟨Record.Kept.refl x, h2⟩⟩
    · exact ⟨x, hx, .inl ⟨Record.Kept.refl x, rfl⟩⟩

theorem testAllClosing_headStep {st : Station} (hd : st.seqsDistinct) : HeadStep st (testAllClosing st) := by
  have : ∀ (l : List Seq) (x : Station), x.seqsDistinct → HeadStep x (l.foldl (fun s q => testClosing q s) x) := by
    intro l
    induction l with
    | nil => exact fun x _ => HeadStep.refl x
    | cons q rest ih =>
      intro x hx
      have h := testClosing_headStep q hx
      exact h.trans (ih _ (h.distinct hx))
  exact this _ st hd

/-- The record that a report is assigned to has its band OPEN or CLOSING. -/
theorem assignee_spec {st : Station} {p : Pos} {r : Record} (h : assignee st p = some r) :
    r ∈ st.table ∧ (r.band.state = .opened ∨ r.band.state = .closing) := by
  unfold assignee at h
  simp only at h
  split at h
  · next r' h' =>
    cases h
    have := List.find?_some h'
    simp only [Bool.and_eq_true, beq_iff_eq] at this
    exact ⟨List.mem_of_find?_eq_some h', .inl this.1⟩
  · have := List.find?_some h
    simp only [Bool.and_eq_true, beq_iff_eq] at this
    exact ⟨List.mem_of_find?_eq_some h, .inr this.1⟩

theorem headTake_headStep {st : Station} (hd : st.seqsDistinct) : HeadStep st (headTake st).1 := by
  have hf := headTake_frame st
  have ht := headTake_takeStep st
  unfold headTake at hf ht ⊢
  split
  · exact HeadStep.ofKept (by constructor <;> rfl) ⟨List.forall₂_same.2 fun r _ => RecordStep.refl r, le_refl _, fun _ h => h,
      fun _ h => .inl h⟩ id (by simp) (fun r _ => Record.Kept.refl r) (fun _ => rfl) rfl
  · next rep rest hfifo =>
    simp only [hfifo] at hf ht
    split
    · exact HeadStep.ofKept (dropHead_frame st) (dropHead_takeStep st) id (by simp [dropHead]) (fun r _ => Record.Kept.refl r)
        (fun _ => rfl) rfl
    · next p hp =>
      simp only [hp] at hf ht
      split
      · next r ha =>
        simp only [ha] at hf ht
        obtain ⟨hm, hstate⟩ := assignee_spec ha
        refine HeadStep.ofKept hf ht
          (fun x => if x.seq = r.seq then
            { x with band := { x.band with summary := x.band.summary.fold st.shared r.refPos p rep } } else x) rfl ?_ ?_ rfl
        · intro x hx
          split
          · next hxs =>
            have : x = r := List.inj_on_of_nodup_map hd hx hm hxs
            subst this
            refine ⟨rfl, fun h1 h2 => ?_, fun _ => rfl⟩
            rcases hstate with h | h
            · exact absurd h h1
            · exact absurd h h2
          · exact Record.Kept.refl x
        · intro x; split <;> rfl
      · next ha =>
        simp only [ha] at hf ht
        split
        · exact HeadStep.ofKept (by constructor <;> rfl) ⟨List.forall₂_same.2 fun r _ => RecordStep.refl r, le_refl _,
            fun _ h => h, fun _ h => .inl h⟩ id (by simp) (fun r _ => Record.Kept.refl r) (fun _ => rfl) rfl
        · next hw =>
          simp only [hw] at hf ht
          refine HeadStep.ofKept hf ht (fun x =>
            if x.band.state = .closed ∧ inRange p (x.band.lead.getD 0) (x.band.trail.getD 0) = true then
              { x with flags := { x.flags with late := true } } else x) rfl ?_ ?_ rfl
          · intro x _
            split
            · next hc => exact ⟨rfl, fun _ _ => rfl, fun h => absurd hc.1 h⟩
            · exact Record.Kept.refl x
          · intro x; split <;> rfl

theorem headLoop_headStep (n : Nat) : ∀ {st : Station}, st.seqsDistinct → HeadStep st (headLoop n st) := by
  induction n with
  | zero => exact fun {st} _ => HeadStep.refl st
  | succ n ih =>
    intro st hd
    have h1 := headTake_headStep hd
    have h := h1.trans (testAllClosing_headStep (h1.distinct hd))
    simp only [headLoop]
    split
    · exact h.trans (ih (h.distinct hd))
    · exact h

/-- What a chain of head takes does to each record. -/
theorem headTakes_headStep {st : Station} (hd : st.seqsDistinct) : HeadStep st (headTakes st) := headLoop_headStep _ hd

/-- A record whose band is not CLOSING is kept. -/
theorem HeadStep.kept {a b : Station} (h : HeadStep a b) {s : Seq} {r : Record} (hr : a.record s = some r)
    (hs : r.band.state ≠ .closing) : ∃ x, b.record s = some x ∧ r.Kept x ∧ b.verdictOf s = a.verdictOf s := by
  obtain ⟨x, hx, hk | ⟨hc, _⟩⟩ := h.own s r hr
  · exact ⟨x, hx, hk⟩
  · exact absurd hc hs

/-- A record whose band has closed keeps band and entries. -/
theorem Record.Kept.closed {r x : Record} (h : r.Kept x) (hs : r.band.state = .closed) :
    x.band = r.band ∧ x.entries = r.entries := by
  rw [h.same, h.summary (by rw [hs]; decide) (by rw [hs]; decide)]
  exact ⟨rfl, rfl⟩

/-! ## A closing test that closes the band -/

/-- Where the closing conditions hold, the band closes, and the head takes that follow leave it. -/
theorem closes_then_headTakes {st : Station} (hd : st.seqsDistinct) {s : Seq} {r : Record} (hr : st.record s = some r)
    (hc : closingHolds st r = true) (c : Prop) [Decidable c] :
    let t := if c then headTakes (testClosing s st) else testClosing s st
    HeadStep st t ∧ st.storesOwnEntry r (.closed r.band.summary) t ∧
      (∃ b, t.record s = some b ∧ b.band = { r.band with state := .closed } ∧
        b.entries = r.entries.set st.start.index (some (.closed r.band.summary))) ∧
      (⟨s, false⟩ : Held) ∈ t.engine.requests.tally := by
  intro t
  have h1 := testClosing_headStep s hd
  have he : testClosing s st = settleBand .closed (fun x => .closed x.band.summary) s st := by
    unfold testClosing; rw [hr]; exact if_pos hc
  obtain ⟨b, hb, hband, hent, _⟩ := settleBand_record (state := .closed) (entry := fun x => .closed x.band.summary) hr
  have hown := settleBand_storesOwnEntry (state := .closed) (entry := fun x => .closed x.band.summary) hr (by simp)
  have htally := settleBand_tally (state := .closed) (entry := fun x => .closed x.band.summary) hr
  rw [← he] at hb hown htally
  have key : ∀ {c : Station}, HeadStep (testClosing s st) c → HeadStep st c ∧
      st.storesOwnEntry r (.closed r.band.summary) c ∧ (∃ b, c.record s = some b ∧ b.band = { r.band with state := .closed } ∧
        b.entries = r.entries.set st.start.index (some (.closed r.band.summary))) ∧
      (⟨s, false⟩ : Held) ∈ c.engine.requests.tally := by
    intro c h2
    obtain ⟨y, hy, hk, hv⟩ := h2.kept hb (by rw [hband]; simp)
    obtain ⟨k1, k2⟩ := hk.closed (by rw [hband])
    have hs := record_seq hr
    exact ⟨h1.trans h2, storesOwnEntry_kept hown (hs ▸ hb) (hs ▸ hy) hk (hs ▸ hv) h2.tally,
      ⟨y, hy, k1.trans hband, k2.trans hent⟩, h2.tally _ htally⟩
  by_cases hcc : c
  · simp only [t, if_pos hcc]
    exact key (headTakes_headStep (h1.distinct hd))
  · simp only [t, if_neg hcc]
    exact key (HeadStep.refl _)

end Sys2Proof.Machine

namespace Sys2Proof.Machine

/-! ## Due compares -/

/-- The command of a due compare runs the compare's effect, with the compare removed (R35). -/
theorem exec_due {c : Instr} {id : CompareId} (hc : commandEffect c = takeDue id) {st : Station} (q : List Instr)
    (hl : st.heldInReset = false) (hd : st.position.isDue id = true)
    (hf : CompareId.owner id ≠ .edge ∨ st.edge.frozen = false) :
    exec c ⟨st, q⟩ = .next ⟨compareEffect id (dropCompare id st), q⟩ := by
  rw [exec_live c q hl, hc, takeDue_acts id st hd hf]

/-- Settles O20: the three phases of the decision compare. -/
theorem decisionCompareFreezesRecord : Obligations.DecisionCompareFreezesRecord := by
  intro seq r st q hl hd hr
  have he := exec_due (c := .decisionCompare seq) rfl q hl hd (.inl (by simp [CompareId.owner]))
  have hr' : (dropCompare (.decision seq) st).record seq = some r := hr
  refine ⟨fun hp => ?_, fun hp => ?_, fun hp => ?_⟩ <;>
    simp only [he, compareEffect, takeDecision, hr', hp] <;> rfl

/-- Settles O18. -/
theorem emptyCompareEndsUnusedBand : Obligations.EmptyCompareEndsUnusedBand := by
  intro seq r st q hl hd hr
  have he := exec_due (c := .emptyCompare seq) rfl q hl hd (.inl (by simp [CompareId.owner]))
  have hr' : (dropCompare (.empty seq) st).record seq = some r := hr
  refine ⟨fun hb => ?_, fun hb => ?_⟩
  · simp only [he, compareEffect, takeEmpty, hr', if_neg hb]; rfl
  · have ht : takeEmpty seq (dropCompare (.empty seq) st) =
        settleBand .empty (fun _ => .empty) seq (dropCompare (.empty seq) st) := by
      simp only [takeEmpty, hr', if_pos hb]
    have f := settleBand_frame .empty (fun _ => .empty) seq (dropCompare (.empty seq) st)
    refine ⟨settleBand .empty (fun _ => .empty) seq (dropCompare (.empty seq) st), by rw [he]; simp only [compareEffect, ht], ?_,
      settleBand_tally hr', f.position, f.edge, f.probe, f.line, f.start, f.outlet, f.port⟩
    exact settleBand_record hr'

/-! ## The closing test of one record -/

theorem testClosing_not {st : Station} {s : Seq} {r : Record} (hr : st.record s = some r) (h : closingHolds st r = false) :
    testClosing s st = st := by
  unfold testClosing; rw [hr]; simp [h]

theorem headClear_congr {a b : Station} (hf : b.scan.fifo = a.scan.fifo) (hc : b.position.triggerCount = a.position.triggerCount)
    (hp : b.position.triggerPos = a.position.triggerPos) (hs : b.start = a.start) (trail : Pos) :
    b.headClear trail ↔ a.headClear trail := by
  unfold Station.headClear
  rw [hf, hc, hp, shared_of_start hs]

theorem record_updateBand {st : Station} {s : Seq} {r : Record} (f : Band → Band) (hr : st.record s = some r) :
    (updateBand s f st).record s = some { r with band := f r.band } :=
  record_updateRecord (fun r => { r with band := f r.band }) (fun _ => rfl) hr

theorem updateBand_distinct (s : Seq) (f : Band → Band) {st : Station} (hd : st.seqsDistinct) :
    (updateBand s f st).seqsDistinct := (updateBand_edgeFrame s f st).distinct hd

/-- Settles O19. -/
theorem lagCompareClosesBand : Obligations.LagCompareClosesBand := by
  intro seq r st q hl hdis hd hr hb trail ht
  have he := exec_due (c := .lagCompare seq) rfl q hl hd (.inl (by simp [CompareId.owner]))
  have hs := record_seq hr
  set st1 := updateBand seq (fun b => { b with lagPassed := true }) (dropCompare (.lag seq) st) with hst1
  have hr1 : st1.record seq = some { r with band := { r.band with lagPassed := true } } := record_updateBand _ hr
  have hd1 : st1.seqsDistinct := updateBand_distinct _ _ (st := dropCompare (.lag seq) st) hdis
  have hclear : st1.headClear trail ↔ st.headClear trail := headClear_congr rfl rfl rfl rfl trail
  have hiff := closingHolds_eq st1 { r with band := { r.band with lagPassed := true } } ht
  have hlag : takeLag seq (dropCompare (.lag seq) st) =
      if (testClosing seq st1).closingCount < st1.closingCount then headTakes (testClosing seq st1) else testClosing seq st1 := rfl
  refine ⟨fun hno => ?_, fun hp hc => ?_⟩
  · have hfalse : closingHolds st1 { r with band := { r.band with lagPassed := true } } = false := by
      rw [Bool.eq_false_iff, ne_eq, hiff, hclear]
      rintro ⟨_, _, h1, h2⟩
      rcases hno with h | h
      · exact h2 (hs ▸ h)
      · exact h h1
    rw [he]
    simp only [compareEffect, hlag, testClosing_not hr1 hfalse, lt_irrefl, if_false]
    rfl
  · have htrue := hiff.2 ⟨hb, rfl, hclear.2 hc, fun h => hp (hs ▸ h)⟩
    obtain ⟨h1, _, ⟨b, hb1, hb2, hb3⟩, h3⟩ :=
      closes_then_headTakes hd1 hr1 htrue ((testClosing seq st1).closingCount < st1.closingCount)
    refine ⟨_, he, ?_⟩
    simp only [compareEffect, hlag]
    exact ⟨⟨b, hb1, hb2, hb3⟩, h3, h1.position, h1.edge, h1.probe, h1.line, h1.start, h1.outlet, h1.port⟩

/-! ## Completion of a sample (R83, R84) -/

theorem trimmed_toInt (raw : BitVec 10) (trim : Byte) :
    ((trimmed raw trim).toNat : Int) = max 0 (min 1023 ((raw.toNat : Int) + ((trim.toNat : Int) - 128))) := by
  have h1 := raw.isLt
  have h2 := trim.isLt
  simp only [trimmed, BitVec.toNat_ofNat]
  omega

/-- R84: a summary with a reading folded in. -/
def Summary.withReading (reading : BitVec 10) (s : Summary) : Summary :=
  { s with moisture := some (foldMoisture reading s.moisture) }

theorem withReading_eq (reading : BitVec 10) (s : Summary) : s.withReading reading = { s with moisture := match s.moisture with
    | none => some reading
    | some m => if m < reading then some reading else some m } := by
  unfold Summary.withReading foldMoisture
  cases s.moisture with
  | none => rfl
  | some m => simp only; split <;> rfl

/-- The station once the reading is folded and the probe is READY, before the closing test. -/
def sampleFolded (raw : BitVec 10) (seq : Seq) (st : Station) : Station :=
  { updateBand seq (fun b => { b with summary := b.summary.withReading (trimmed raw st.loc.trim) }) st with
    probe := st.probe.sampleOver st.loc.parkTime }

theorem sampleCompletion_held {raw : BitVec 10} {seq : Seq} {st : Station} (ht : st.probe.timing = .conversion)
    (hp : st.probe.target = some (.held seq)) :
    sampleCompletion raw st =
      if (testClosing seq (sampleFolded raw seq st)).closingCount < (sampleFolded raw seq st).closingCount then
        headTakes (testClosing seq (sampleFolded raw seq st))
      else testClosing seq (sampleFolded raw seq st) := by
  unfold sampleCompletion
  rw [if_pos ht]
  simp only [hp]
  rfl

theorem sampleCompletion_lost {raw : BitVec 10} {st : Station} (ht : st.probe.timing = .conversion)
    (hp : st.probe.target = some .lost) :
    sampleCompletion raw st = { st with probe := st.probe.sampleOver st.loc.parkTime } := by
  unfold sampleCompletion
  rw [if_pos ht]
  simp only [hp]

/-- The station after the folded reading: the record, and the closing conditions there. -/
theorem sampleFolded_spec (raw : BitVec 10) {seq : Seq} {st : Station} {r : Record} (hr : st.record seq = some r) :
    (sampleFolded raw seq st).record seq =
      some { r with band := { r.band with summary := r.band.summary.withReading (trimmed raw st.loc.trim) } } ∧
    (st.seqsDistinct → (sampleFolded raw seq st).seqsDistinct) ∧
    ∀ trail, (sampleFolded raw seq st).headClear trail ↔ st.headClear trail :=
  ⟨record_updateBand (fun b => { b with summary := b.summary.withReading (trimmed raw st.loc.trim) }) hr,
    fun hd => updateBand_distinct seq (fun b => { b with summary := b.summary.withReading (trimmed raw st.loc.trim) }) hd, fun trail => headClear_congr rfl rfl rfl rfl trail⟩

/-- Settles O29. -/
theorem sampleCompletionFoldsReading : Obligations.SampleCompletionFoldsReading := by
  refine ⟨trimmed_toInt, fun raw st q hl ht => ?_⟩
  have he := exec_live (.sampleCompletion raw) q hl
  simp only [commandEffect] at he
  intro ready reading folded
  have hfolded : folded = Summary.withReading reading := funext fun s => (withReading_eq reading s).symm
  clear_value folded
  subst hfolded
  refine ⟨fun hp => ?_, fun seq r hp hr hno => ?_, fun seq r trail hp hr hb htr hlag hc hd => ?_⟩
  · rw [he, sampleCompletion_lost ht hp]; rfl
  · obtain ⟨hr1, _, hclear⟩ := sampleFolded_spec raw hr
    have hfalse : closingHolds (sampleFolded raw seq st)
        { r with band := { r.band with summary := r.band.summary.withReading (trimmed raw st.loc.trim) } } = false := by
      rcases hno with h | ⟨_, h | ⟨trail, htr, h⟩⟩
      · simp [closingHolds, h]
      · simp [closingHolds, h]
      · rw [Bool.eq_false_iff]
        exact fun hh => h ((hclear trail).1 ((closingHolds_eq _ _ htr).1 hh).2.2.1)
    rw [he, sampleCompletion_held ht hp, testClosing_not hr1 hfalse, if_neg (lt_irrefl _)]
    rfl
  · obtain ⟨hr1, hd1, hclear⟩ := sampleFolded_spec raw hr
    have htrue : closingHolds (sampleFolded raw seq st)
        { r with band := { r.band with summary := r.band.summary.withReading (trimmed raw st.loc.trim) } } = true :=
      (closingHolds_eq (trail := trail) _ _ htr).2 ⟨hb, hlag, (hclear trail).2 hc, by simp [sampleFolded, ProbeUnit.sampleOver]⟩
    obtain ⟨h1, _, ⟨b, hb1, hb2, hb3⟩, h3⟩ := closes_then_headTakes (hd1 hd) hr1 htrue
      ((testClosing seq (sampleFolded raw seq st)).closingCount < (sampleFolded raw seq st).closingCount)
    rw [← sampleCompletion_held ht hp] at h1 hb1 h3
    exact ⟨_, b, he, h1.probe, hb1, hb2, hb3, h3, h1.position, h1.edge, h1.line, h1.start, h1.outlet, h1.port⟩

end Sys2Proof.Machine

namespace Sys2Proof.Machine

/-! ## An own band becomes CLOSING (R15 to R17) -/

/-- The station as the own band has become CLOSING, before the closing test. -/
def closingStart (seq : Seq) (trail : Pos) (st : Station) : Station :=
  let pos := trail + counts st.shared.lag
  let passed := st.position.reached pos
  let st1 := updateBand seq (fun b => { b with state := .closing, trail := some trail, lagPassed := passed })
    (dropCompare .overlength (dropCompare .sample st))
  if passed then st1 else storeCompare (.lag seq) pos .waiting st1

theorem enterClosing_eq (seq : Seq) (trail : Pos) (st : Station) :
    enterClosing seq trail st = testClosing seq (closingStart seq trail st) := rfl

/-- A record as its band becomes CLOSING. -/
def Record.closing (trail : Pos) (passed : Bool) (r : Record) : Record :=
  { r with band := { r.band with state := .closing, trail := some trail, lagPassed := passed } }

theorem closingStart_record (seq : Seq) (trail : Pos) {st : Station} {r : Record} (hr : st.record seq = some r) :
    (closingStart seq trail st).record seq =
      some (r.closing trail (st.position.reached (trail + counts st.shared.lag))) := by
  have h := record_updateBand (st := dropCompare .overlength (dropCompare .sample st)) (fun b => { b with
    state := .closing, trail := some trail, lagPassed := st.position.reached (trail + counts st.shared.lag) }) hr
  unfold closingStart
  simp only
  split <;> exact h

theorem closingStart_frame (seq : Seq) (trail : Pos) (st : Station) : EdgeFrame st (closingStart seq trail st) := by
  have h : ∀ f, EdgeFrame st (updateBand seq f (dropCompare .overlength (dropCompare .sample st))) := fun f =>
    ((dropCompare_edgeFrame _ st).trans (dropCompare_edgeFrame _ _)).trans (updateBand_edgeFrame _ _ _)
  unfold closingStart
  simp only
  split
  · exact h _
  · exact (h _).trans (storeCompare_edgeFrame _ _ _ _)

/-- What the start of CLOSING leaves beside the frame. -/
theorem closingStart_same (seq : Seq) (trail : Pos) (st : Station) : (closingStart seq trail st).edge = st.edge ∧
    (closingStart seq trail st).scan = st.scan ∧ (closingStart seq trail st).engine = st.engine := by
  unfold closingStart
  simp only
  split <;> exact ⟨rfl, rfl, rfl⟩

theorem enterClosing_edge (seq : Seq) (trail : Pos) (st : Station) : (enterClosing seq trail st).edge = st.edge :=
  (testClosing_frame seq _).edge.trans (closingStart_same seq trail st).1

/-- The stored compare of a purpose is not touched by a drop or a store of another. -/
theorem find_drop_other {a b : CompareId} (h : a ≠ b) (p : PositionUnit) : (p.drop b).find a = p.find a := by
  simp only [PositionUnit.find, PositionUnit.drop, List.find?_filter]
  congr 1
  funext c
  by_cases hc : c.id = a
  · simp [hc, h]
  · simp [hc]

theorem find_store_other {a b : CompareId} (h : a ≠ b) (pos : Pos) (g : Progress) (p : PositionUnit) :
    (p.store b pos g).find a = p.find a := by
  rw [← find_drop_other h p]
  simp only [PositionUnit.find, PositionUnit.store, List.find?_append]
  simp [Ne.symm h]

theorem enterClosing_find {a : CompareId} (seq : Seq) (trail : Pos) (st : Station) (h1 : a ≠ .sample) (h2 : a ≠ .overlength)
    (h3 : a ≠ .lag seq) : (enterClosing seq trail st).position.find a = st.position.find a := by
  rw [enterClosing_eq, (testClosing_frame seq _).position]
  unfold closingStart
  simp only
  split
  · exact (find_drop_other h2 _).trans (find_drop_other h1 _)
  · exact (find_store_other h3 _ _ _).trans ((find_drop_other h2 _).trans (find_drop_other h1 _))

theorem stores_eq_find (st : Station) (a : CompareId) : st.stores a = (st.position.find a).isSome := List.isSome_find?.symm

/-- Start of CLOSING and closing test store and drop no other compare than sample, overlength and the record's lag compare. -/
theorem enterClosing_stores {a : CompareId} (seq : Seq) (trail : Pos) (st : Station) (h1 : a ≠ .sample) (h2 : a ≠ .overlength)
    (h3 : a ≠ .lag seq) : (enterClosing seq trail st).stores a = st.stores a := by
  rw [stores_eq_find, stores_eq_find, enterClosing_find seq trail st h1 h2 h3]

/-- A closing test that follows the start of CLOSING, with the head takes after it: the record has its trail, and keeps lead and
band flags. -/
theorem closes_record (seq : Seq) (trail : Pos) {st : Station} (hd : st.seqsDistinct) {r : Record} (hr : st.record seq = some r) :
    ∃ b, (headTakes (enterClosing seq trail st)).record seq = some b ∧ (b.band.state = .closing ∨ b.band.state = .closed) ∧
      b.band.lead = r.band.lead ∧ b.band.trail = some trail ∧ b.band.summary.overlength = r.band.summary.overlength ∧
      b.band.summary.incomplete = r.band.summary.incomplete := by
  have hd1 := (closingStart_frame seq trail st).distinct hd
  have h1 := testClosing_takeStep seq _ hd1
  obtain ⟨b, hb, hs⟩ := (h1.trans (headTakes_takeStep _ (h1.distinct hd1))).record (closingStart_record seq trail hr)
  refine ⟨b, hb, ?_, hs.lead, hs.trail, hs.overlength, hs.incomplete⟩
  rcases hs.state with h | ⟨_, h⟩
  · exact .inl h
  · exact .inr h

/-- Where the lag position is reached, the scan head is clear and no sample is in flight for the record, the band closes at
once, with its own entry stored. -/
theorem closes_at_once (seq : Seq) (trail : Pos) {st : Station} (hd : st.seqsDistinct) {r : Record} (hr : st.record seq = some r)
    (hl : st.position.reached (trail + counts st.shared.lag) = true) (hc : st.headClear trail)
    (hp : st.probe.target ≠ some (.held seq)) :
    st.storesOwnEntry r (.closed r.band.summary) (headTakes (enterClosing seq trail st)) := by
  have f := closingStart_frame seq trail st
  obtain ⟨_, hscan, heng⟩ := closingStart_same seq trail st
  have hr1 := closingStart_record seq trail hr
  have hs : r.seq = seq := record_seq hr
  have htrue : closingHolds (closingStart seq trail st) (r.closing trail (st.position.reached (trail + counts st.shared.lag))) = true :=
    (closingHolds_eq _ _ rfl).2 ⟨rfl, hl, (headClear_congr (by rw [hscan]) f.triggerCount f.triggerPos f.start trail).2 hc, by
      rw [f.probe]
      show st.probe.target ≠ some (.held r.seq)
      rwa [hs]⟩
  have h := (closes_then_headTakes (f.distinct hd) hr1 htrue True).2.1
  rw [if_pos trivial] at h
  exact storesOwnEntry_congr f.start f.peers rfl (by unfold Station.verdictOf; rw [heng]) h

/-! ## Trailing edge, blank release and overlength -/

theorem takeBridging_pending {st : Station} {f : Pos} (hs : st.edge.state = .falling) (hf : st.edge.fall = some f)
    (ho : st.openRecord = none) : takeBridging st = { st with edge := { st.edge with
      state := .idle, fall := none, pending := st.edge.pending.map fun e => { e with fall := some f } } } := by
  unfold takeBridging
  simp only [hs, hf]
  split
  · next r hr => exact absurd (hr.symm.trans ho) (by simp)
  · rfl

/-- The station as the trailing edge has led the Edge Unit to IDLE. -/
def Station.bridged (st : Station) : Station := { st with edge := { st.edge with state := .idle, fall := none } }

theorem takeBridging_open {st : Station} {f : Pos} {r : Record} (hs : st.edge.state = .falling) (hf : st.edge.fall = some f)
    (ho : st.openRecord = some r) :
    takeBridging st = headTakes (enterClosing r.seq f st.bridged) := by
  unfold takeBridging
  simp only [hs, hf]
  split
  · next x hx => cases hx.symm.trans ho; rfl
  · next hx => exact absurd (hx.symm.trans ho) (by simp)

/-- Settles O16. -/
theorem absenceComparesReturnToIdle : Obligations.AbsenceComparesReturnToIdle := by
  refine ⟨fun f st q hl hf hd hs hfall => ⟨fun ho => ?_, fun r ho hdis => ?_⟩, fun st q hl hf hd hs => ?_⟩
  · rw [exec_due (c := .bridgingCompare) rfl q hl hd (.inr hf)]
    simp only [compareEffect]
    rw [takeBridging_pending (st := dropCompare .bridging st) hs hfall ho]
    rfl
  · have hr := record_of_mem hdis (openRecord_mem ho).1
    have he := exec_due (c := .bridgingCompare) rfl q hl hd (.inr hf)
    simp only [compareEffect] at he
    rw [takeBridging_open (st := dropCompare .bridging st) hs hfall ho] at he
    have hri : (dropCompare .bridging st).bridged.record r.seq = some r := hr
    have hno : (dropCompare .bridging st).bridged.stores .bridging = false :=
      (stores_drop st .bridging .bridging).trans (by simp)
    have hdi : (dropCompare .bridging st).bridged.seqsDistinct := hdis
    obtain ⟨b, hb, hst, hlead, htrail, _⟩ := closes_record r.seq f hdi hri
    obtain ⟨_, hstores, _⟩ := enterClosing_spec r.seq f _ hdi hri
    have hfr := (enterClosing_edgeFrame r.seq f (dropCompare .bridging st).bridged).trans (headTakes_edgeFrame _)
    have hpos := fun id => ((headTakes_frame _).stores id).trans (hstores id)
    refine ⟨_, he, ?_, ?_, ?_, ?_, ⟨b, hb, hst, hlead, htrail⟩, hfr.probe, hfr.line, hfr.start, hfr.outlet, hfr.port⟩
    · rw [headTakes_edge, enterClosing_edge]; rfl
    · rw [hpos]; simp
    · rw [hpos]; simp
    · rw [hpos, hno]; simp
  · rw [exec_due (c := .blankReleaseCompare) rfl q hl hd (.inr hf)]
    simp only [compareEffect, releaseBlank, dropCompare_position, drop_drop]
    rfl

theorem stores_congr {a b : Station} (h : b.position.compares = a.position.compares) (id : CompareId) : b.stores id = a.stores id := by
  unfold Station.stores; rw [h]

theorem openRecord_congr {a b : Station} (h : b.table = a.table) : b.openRecord = a.openRecord := by
  unfold Station.openRecord; rw [h]

theorem followAbsence_scan (a : Station) : (followAbsence a).scan = a.scan ∧ (followAbsence a).engine = a.engine := by
  unfold followAbsence
  split
  · exact ⟨rfl, rfl⟩
  · simp only
    split
    · split <;> exact ⟨rfl, rfl⟩
    · exact ⟨rfl, rfl⟩

/-- An entry to BLANKED changes of the Scan Unit the overrun mark of the pending edge alone, and nothing of the Round Engine. -/
theorem enterBlanked_scan (a : Station) :
    (enterBlanked a).scan = { a.scan with overrun := a.scan.overrun && a.edge.pending.isNone } ∧
      (enterBlanked a).engine = a.engine := by
  unfold enterBlanked
  simp only
  split
  · exact ⟨rfl, rfl⟩
  · exact followAbsence_scan _

/-- The station with its OPEN band flagged OVERLENGTH and the Edge Unit blanked, before the band becomes CLOSING. -/
def overlengthBlanked (seq : Seq) (st : Station) : Station :=
  enterBlanked (updateBand seq (fun b => { b with summary := { b.summary with overlength := true } }) st)

theorem forceOverlength_open {st : Station} {r : Record} (ho : st.openRecord = some r) :
    forceOverlength st = headTakes (enterClosing r.seq (r.band.lead.getD 0 + counts st.shared.overlength)
      (overlengthBlanked r.seq st)) := by
  unfold forceOverlength
  split
  · next h => exact absurd (h.symm.trans ho) (by simp)
  · next x h => cases h.symm.trans ho; rfl

theorem overlengthBlanked_record {st : Station} {s : Seq} {r : Record} (hr : st.record s = some r) :
    (overlengthBlanked s st).record s =
      some { r with band := { r.band with summary := { r.band.summary with overlength := true } } } := by
  have h := record_updateBand (fun b => { b with summary := { b.summary with overlength := true } }) hr
  rw [← h]
  exact record_congr (enterBlanked_table _) s

theorem overlengthBlanked_frame (s : Seq) (st : Station) : EdgeFrame st (overlengthBlanked s st) :=
  (updateBand_edgeFrame s _ st).trans (enterBlanked_edgeFrame _)

theorem overlengthBlanked_scan (s : Seq) (st : Station) :
    (overlengthBlanked s st).scan = { st.scan with overrun := st.scan.overrun && st.edge.pending.isNone } ∧
      (overlengthBlanked s st).engine = st.engine := enterBlanked_scan _

/-- The Edge Unit of an entry to BLANKED as the words of R48 and R49 give it depends only on Edge Unit, counter and configuration
before, and on Edge Unit and edge compares after. -/
theorem entersBlanked_congr {a b t u : Station} (he : b.edge = a.edge) (hc : b.position.counter = a.position.counter)
    (hs : b.start = a.start) (hu : u.edge = t.edge) (hq : u.stores .qualification = t.stores .qualification)
    (hb : u.stores .bridging = t.stores .bridging) (hr : u.stores .blankRelease = t.stores .blankRelease)
    (hf : u.position.find .blankRelease = t.position.find .blankRelease) (h : b.entersBlanked t) : a.entersBlanked u := by
  unfold Station.entersBlanked Station.absenceStart Station.presenceHeld Station.loc at *
  simp only [he, hc, hs, shared_of_start hs, hu, hq, hb, hr, hf] at h ⊢
  exact h

/-- Forcing the OPEN band closed is an entry to BLANKED, and leaves neither overlength nor sample compare. -/
theorem forceOverlength_entersBlanked {st : Station} (hd : st.seqsDistinct) {r : Record} (ho : st.openRecord = some r) :
    st.entersBlanked (forceOverlength st) ∧ (forceOverlength st).stores .overlength = false ∧
      (forceOverlength st).stores .sample = false := by
  have hr := record_of_mem hd (openRecord_mem ho).1
  have hd1 := (overlengthBlanked_frame r.seq st).distinct hd
  obtain ⟨_, hst, _⟩ := enterClosing_spec r.seq (r.band.lead.getD 0 + counts st.shared.overlength) (overlengthBlanked r.seq st) hd1
    (overlengthBlanked_record hr)
  rw [forceOverlength_open ho]
  have hpos : ∀ id, (headTakes (enterClosing r.seq (r.band.lead.getD 0 + counts st.shared.overlength)
      (overlengthBlanked r.seq st))).stores id = _ := fun id => ((headTakes_frame _).stores id).trans (hst id)
  have hsame : ∀ id : CompareId, id ≠ .sample → id ≠ .overlength → id ≠ .lag r.seq → (headTakes (enterClosing r.seq
      (r.band.lead.getD 0 + counts st.shared.overlength) (overlengthBlanked r.seq st))).stores id =
      (overlengthBlanked r.seq st).stores id :=
    fun id h1 h2 h3 => ((headTakes_frame _).stores id).trans (enterClosing_stores _ _ _ h1 h2 h3)
  refine ⟨?_, by rw [hpos]; simp, by rw [hpos]; simp⟩
  refine entersBlanked_congr (b := updateBand r.seq _ st) rfl rfl rfl (t := overlengthBlanked r.seq st) ?_ ?_ ?_ ?_ ?_
    (enterBlanked_entersBlanked _)
  · rw [headTakes_edge, enterClosing_edge]
  · exact hsame _ (by simp) (by simp) (by simp)
  · exact hsame _ (by simp) (by simp) (by simp)
  · exact hsame _ (by simp) (by simp) (by simp)
  · rw [headTakes_position]
    exact enterClosing_find _ _ _ (by simp) (by simp) (by simp)

theorem forceOverlength_record {st : Station} (hd : st.seqsDistinct) {r : Record} (ho : st.openRecord = some r) :
    ∃ b, (forceOverlength st).record r.seq = some b ∧ (b.band.state = .closing ∨ b.band.state = .closed) ∧
      b.band.lead = r.band.lead ∧ b.band.trail = some (r.band.lead.getD 0 + counts st.shared.overlength) ∧
      b.band.summary.overlength = true ∧ b.band.summary.incomplete = r.band.summary.incomplete := by
  rw [forceOverlength_open ho]
  exact closes_record _ _ ((overlengthBlanked_frame r.seq st).distinct hd)
    (overlengthBlanked_record (record_of_mem hd (openRecord_mem ho).1))

/-- Settles O17. -/
theorem overlengthForcesBandClosed : Obligations.OverlengthForcesBandClosed := by
  intro r e st q hl hf hd hdis ho hlead hstate
  have he := exec_due (c := .overlengthCompare) rfl q hl hd (.inr hf)
  set x := dropCompare .overlength st with hx
  have hox : x.openRecord = some r := ho
  have hdx : x.seqsDistinct := hdis
  have fr := forceOverlength_edgeFrame x
  obtain ⟨⟨hq, hb, h1, h2, h3, h4⟩, ho1, ho2⟩ := forceOverlength_entersBlanked hdx hox
  obtain ⟨b, hb1, hb2, hb3, hb4, hb5, _⟩ := forceOverlength_record hdx hox
  refine ⟨forceOverlength x, he, fun hp => ?_, fun f hfa hff hback => ?_, fun f hfa hff hback => ?_, ho1, ho2, hb,
    ⟨b, hb1, hb2, hb3.trans hlead, by rw [hb4, hlead]; rfl, hb5⟩, fr.probe, fr.line, fr.start, fr.outlet, fr.port⟩
  · rcases hstate with ⟨_, hh⟩ | ⟨hh, _⟩
    · exact (h2 (by show st.edge.state ≠ _; rw [hp]; decide) hh).1
    · rw [hp] at hh; cases hh
  all_goals
    have hheld : st.presenceHeld = false := by
      rcases hstate with ⟨hh, _⟩ | ⟨_, _, hh⟩
      · rw [hfa] at hh; cases hh
      · exact hh
    have hstart : x.absenceStart = f := by
      show (if st.edge.state = .falling then st.edge.fall.getD st.position.counter else st.position.counter) = f
      rw [if_pos hfa, hff]; rfl
    have hne : x.edge.state ≠ .blanked := by show st.edge.state ≠ _; rw [hfa]; decide
    rw [hstart] at h3 h4
  · obtain ⟨k1, k2⟩ := h4 hne hheld (.inl hback)
    refine ⟨k1, k2.trans ?_⟩
    rw [show atOrAfter x.position.counter (f + counts x.shared.bridge) = false from hback]
    rfl
  · exact (h3 hne hheld hback hf).1

end Sys2Proof.Machine

namespace Sys2Proof.Machine

/-! ## Attachment (R12, R46, R59, R80) -/

theorem followAbsence_pending (a : Station) : (followAbsence a).edge.pending = a.edge.pending ∧
    (followAbsence a).edge.testDeferred = a.edge.testDeferred := by
  unfold followAbsence
  split
  · exact ⟨rfl, rfl⟩
  · simp only
    split
    · split <;> exact ⟨rfl, rfl⟩
    · exact ⟨rfl, rfl⟩

/-- After an entry to BLANKED no edge is pending, and no test waits. -/
theorem enterBlanked_pending (a : Station) : (enterBlanked a).edge.pending = none ∧ (enterBlanked a).edge.testDeferred = false := by
  unfold enterBlanked
  simp only
  split
  · exact ⟨rfl, rfl⟩
  · exact followAbsence_pending _

/-- A record as its own band opens with lead `e`, the overrun mark carried into it. -/
def Record.opened (e : Pos) (overrun : Bool) (r : Record) : Record :=
  { r with band := { r.band with
      state := .opened, lead := some e
      summary := { r.band.summary with incomplete := r.band.summary.incomplete || overrun } } }

theorem openBand_record {st : Station} {s : Seq} {r : Record} (hr : st.record s = some r) (e : Pos) :
    (openBand s e st).record s = some (r.opened e st.scan.overrun) :=
  record_updateBand (fun b => { b with
    state := .opened, lead := some e,
    summary := { b.summary with incomplete := b.summary.incomplete || st.scan.overrun } }) hr

theorem openBand_distinct {st : Station} (hd : st.seqsDistinct) (s : Seq) (e : Pos) : (openBand s e st).seqsDistinct :=
  (openBand_edgeFrame s e st).distinct hd

/-- Where no band was OPEN, the band that opens is the OPEN one. -/
theorem openBand_openRecord {st : Station} (hd : st.seqsDistinct) {r : Record} (hm : r ∈ st.table) (ho : st.openRecord = none)
    (e : Pos) : (openBand r.seq e st).openRecord = some (r.opened e st.scan.overrun) := by
  obtain ⟨x, hx, _⟩ := openRecord_openBand hm e ho
  rw [hx]
  obtain ⟨hxm, hxs⟩ := openRecord_mem hx
  obtain ⟨y, hy, hxy⟩ := List.mem_map.1 hxm
  by_cases hys : y.seq = r.seq
  · rw [if_pos hys] at hxy
    have : y = r := List.inj_on_of_nodup_map hd hy hm hys
    subst this; subst hxy; rfl
  · rw [if_neg hys] at hxy
    subst hxy
    have := List.find?_eq_none.1 ho y hy
    simp [hxs] at this

/-- The station as the band is OPEN and its first sample compare stored. -/
def openedSampled (e : Pos) (s : Seq) (st : Station) : Station :=
  storeCompare .sample (nextSample st.position.counter e st.shared.samplePitch) .waiting (openBand s e st)

theorem storeSample_openBand {st : Station} (hd : st.seqsDistinct) {r : Record} (hm : r ∈ st.table) (ho : st.openRecord = none)
    (e : Pos) : storeSample (openBand r.seq e st) = openedSampled e r.seq st := by
  unfold storeSample
  split
  · next h => exact absurd (h.symm.trans (openBand_openRecord hd hm ho e)) (by simp)
  · next x h => cases h.symm.trans (openBand_openRecord hd hm ho e); rfl

/-- An edge with no fall position whose limit lies ahead, or is kept by the frozen Edge Unit, leaves the band OPEN. -/
theorem attachEdge_opens {st : Station} (hd : st.seqsDistinct) {r : Record} (hm : r ∈ st.table) (ho : st.openRecord = none)
    {e : PendingEdge} (hf : e.fall = none)
    (hl : st.position.reached (e.rise + counts st.shared.overlength) = false ∨ st.edge.frozen = true) :
    ∃ g, attachEdge e r.seq st =
        headTakes (storeCompare .overlength (e.rise + counts st.shared.overlength) g (openedSampled e.rise r.seq st)) ∧
      (st.position.reached (e.rise + counts st.shared.overlength) = false → g = .waiting) := by
  unfold attachEdge
  simp only [hf, storeSample_openBand hd hm ho]
  cases hr : st.position.reached (e.rise + counts st.shared.overlength) with
  | false => exact ⟨.waiting, rfl, fun _ => rfl⟩
  | true =>
    rcases hl with h | h
    · rw [hr] at h; cases h
    · exact ⟨.kept, by simp [h], fun h => by cases h⟩

theorem attachEdge_forced {st : Station} (hd : st.seqsDistinct) {r : Record} (hm : r ∈ st.table) (ho : st.openRecord = none)
    {e : PendingEdge} (hf : e.fall = none) (hl : st.position.reached (e.rise + counts st.shared.overlength) = true)
    (hz : st.edge.frozen = false) : attachEdge e r.seq st = forceOverlength (openedSampled e.rise r.seq st) := by
  unfold attachEdge
  simp only [hf, storeSample_openBand hd hm ho, hl, hz]
  rfl

/-- The trail that a closed edge gives, and the station before its band becomes CLOSING. -/
def attachedTrail (limit f : Pos) : Pos := if atOrAfter f limit then limit else f

def openedClosed (e : Pos) (s : Seq) (beyond : Bool) (st : Station) : Station :=
  if beyond then updateBand s (fun b => { b with summary := { b.summary with overlength := true } }) (openBand s e st)
  else openBand s e st

theorem attachEdge_closes (st : Station) (s : Seq) {e : PendingEdge} {f : Pos} (hf : e.fall = some f) :
    attachEdge e s st = headTakes (enterClosing s (attachedTrail (e.rise + counts st.shared.overlength) f)
      (openedClosed e.rise s (atOrAfter f (e.rise + counts st.shared.overlength)) st)) := by
  unfold attachEdge attachedTrail openedClosed
  simp only [hf]
  split <;> rfl

/-- What every attachment leaves: the record `b` has the edge's rise as lead, no edge is pending, no test waits, and the overrun
mark has passed into the band. -/
structure Attached (e : PendingEdge) (s : Seq) (mark : Bool) (t : Station) (b : Record) : Prop where
  record : t.record s = some b
  lead : b.band.lead = some e.rise
  pending : t.edge.pending = none
  deferred : t.edge.testDeferred = false
  overrun : t.scan.overrun = false
  incomplete : mark = true → b.band.summary.incomplete = true

theorem opened_incomplete {e : Pos} {r : Record} {o : Bool} (h : o = true) : (r.opened e o).band.summary.incomplete = true := by
  simp [Record.opened, h]

/-- The attachment of an edge with no fall position whose band stays OPEN. -/
theorem attachEdge_opens_spec {st : Station} (hd : st.seqsDistinct) {r : Record} (hm : r ∈ st.table) (ho : st.openRecord = none)
    (ht : st.edge.testDeferred = false) {e : PendingEdge} (hf : e.fall = none)
    (hl : st.position.reached (e.rise + counts st.shared.overlength) = false ∨ st.edge.frozen = true) :
    ∃ b, Attached e r.seq st.scan.overrun (attachEdge e r.seq st) b ∧ b.band.state = .opened ∧ b.band.trail = r.band.trail ∧
      (attachEdge e r.seq st).stores .overlength = true ∧ (attachEdge e r.seq st).stores .sample = true := by
  obtain ⟨g, hg, _⟩ := attachEdge_opens hd hm ho hf hl
  rw [hg]
  set y := storeCompare .overlength (e.rise + counts st.shared.overlength) g (openedSampled e.rise r.seq st) with hy
  have hyr : y.record r.seq = some (r.opened e.rise st.scan.overrun) := openBand_record (record_of_mem hd hm) e.rise
  obtain ⟨b, hb, hs⟩ := (headTakes_takeStep y (openBand_distinct hd _ _)).record hyr
  have hf := headTakes_frame y
  refine ⟨b, ⟨hb, hs.lead, by rw [headTakes_edge]; rfl, by rw [headTakes_edge]; exact ht, by rw [hf.overrun]; rfl,
    fun h => hs.incomplete.trans (opened_incomplete h)⟩, ?_, hs.trail, ?_, ?_⟩
  · rcases hs.state with h | ⟨h, _⟩
    · exact h
    · cases h
  · rw [hf.stores, hy, stores_store]; simp
  · rw [hf.stores, hy, stores_store, openedSampled, stores_store]; simp

/-- The attachment of an edge with no fall position whose limit is already reached. -/
theorem attachEdge_forced_spec {st : Station} (hd : st.seqsDistinct) {r : Record} (hm : r ∈ st.table) (ho : st.openRecord = none)
    {e : PendingEdge} (hf : e.fall = none) (hl : st.position.reached (e.rise + counts st.shared.overlength) = true)
    (hz : st.edge.frozen = false) : ∃ b, Attached e r.seq st.scan.overrun (attachEdge e r.seq st) b ∧
      (b.band.state = .closing ∨ b.band.state = .closed) ∧ b.band.trail = some (e.rise + counts st.shared.overlength) ∧
      b.band.summary.overlength = true ∧ (attachEdge e r.seq st).stores .overlength = false ∧
      (attachEdge e r.seq st).stores .sample = false ∧ (attachEdge e r.seq st).edge.state.ended := by
  rw [attachEdge_forced hd hm ho hf hl hz]
  have hy : (openedSampled e.rise r.seq st).openRecord = some (r.opened e.rise st.scan.overrun) :=
    openBand_openRecord hd hm ho e.rise
  have hyd : (openedSampled e.rise r.seq st).seqsDistinct := openBand_distinct hd r.seq e.rise
  obtain ⟨b, hb, hst, hlead, htrail, hover, hinc⟩ := forceOverlength_record hyd hy
  obtain ⟨_, hs1, hs2⟩ := forceOverlength_entersBlanked hyd hy
  have hedge : (forceOverlength (openedSampled e.rise r.seq st)).edge =
      (overlengthBlanked r.seq (openedSampled e.rise r.seq st)).edge := by
    rw [forceOverlength_open hy, headTakes_edge, enterClosing_edge]; rfl
  have hover2 : (forceOverlength (openedSampled e.rise r.seq st)).scan.overrun =
      (overlengthBlanked r.seq (openedSampled e.rise r.seq st)).scan.overrun := by
    rw [forceOverlength_open hy, (headTakes_frame _).overrun, enterClosing_eq, (testClosing_frame _ _).overrun,
      (closingStart_same _ _ _).2.1]
    rfl
  have hblank := enterBlanked_pending (updateBand r.seq (fun b => { b with summary := { b.summary with overlength := true } })
    (openedSampled e.rise r.seq st))
  refine ⟨b, ⟨hb, hlead, by rw [hedge]; exact hblank.1, by rw [hedge]; exact hblank.2, ?_,
    fun h => hinc.trans (opened_incomplete h)⟩, hst, htrail, hover, hs1, hs2, ?_⟩
  · rw [hover2, (overlengthBlanked_scan _ _).1]; rfl
  · rw [hedge]; exact enterBlanked_ended _

end Sys2Proof.Machine

namespace Sys2Proof.Machine

theorem openedClosed_record {st : Station} {s : Seq} {r : Record} (hr : st.record s = some r) (e : Pos) (beyond : Bool) :
    ∃ x, (openedClosed e s beyond st).record s = some x ∧ x.band.lead = some e ∧ (beyond = true → x.band.summary.overlength = true) ∧
      (st.scan.overrun = true → x.band.summary.incomplete = true) := by
  have ho := openBand_record hr e
  unfold openedClosed
  cases beyond with
  | true =>
    exact ⟨_, record_updateBand (fun b => { b with summary := { b.summary with overlength := true } }) ho, rfl, fun _ => rfl,
      opened_incomplete (e := e) (r := r)⟩
  | false => exact ⟨_, ho, rfl, nofun, opened_incomplete (e := e) (r := r)⟩

theorem openedClosed_same (st : Station) (s : Seq) (e : Pos) (beyond : Bool) :
    (openedClosed e s beyond st).edge = { st.edge with pending := none } ∧
    (openedClosed e s beyond st).scan = { st.scan with overrun := false } := by
  unfold openedClosed
  cases beyond <;> exact ⟨rfl, rfl⟩

theorem openedClosed_distinct {st : Station} (hd : st.seqsDistinct) (s : Seq) (e : Pos) (beyond : Bool) :
    (openedClosed e s beyond st).seqsDistinct := by
  unfold openedClosed
  cases beyond with
  | true =>
    exact updateBand_distinct s (fun b => { b with summary := { b.summary with overlength := true } }) (openBand_distinct hd s e)
  | false => exact openBand_distinct hd s e

/-- The attachment of an edge with a fall position. -/
theorem attachEdge_closes_spec {st : Station} (hd : st.seqsDistinct) {s : Seq} {r : Record} (hr : st.record s = some r)
    (ht : st.edge.testDeferred = false) {e : PendingEdge} {f : Pos} (hf : e.fall = some f) :
    ∃ b, Attached e s st.scan.overrun (attachEdge e s st) b ∧ (b.band.state = .closing ∨ b.band.state = .closed) ∧
      b.band.trail = some (attachedTrail (e.rise + counts st.shared.overlength) f) ∧
      (atOrAfter f (e.rise + counts st.shared.overlength) = true → b.band.summary.overlength = true) ∧
      (attachEdge e s st).edge.state = st.edge.state := by
  rw [attachEdge_closes st s hf]
  obtain ⟨x, hx, hxl, hxo, hxi⟩ := openedClosed_record hr e.rise (atOrAfter f (e.rise + counts st.shared.overlength))
  obtain ⟨hedge, hscan⟩ := openedClosed_same st s e.rise (atOrAfter f (e.rise + counts st.shared.overlength))
  obtain ⟨b, hb, hst, hlead, htrail, hover, hinc⟩ := closes_record s (attachedTrail (e.rise + counts st.shared.overlength) f)
    (openedClosed_distinct hd s e.rise _) hx
  have he : ∀ y : Station, (headTakes (enterClosing s (attachedTrail (e.rise + counts st.shared.overlength) f) y)).edge = y.edge :=
    fun y => by rw [headTakes_edge, enterClosing_edge]
  have ho : ∀ y : Station,
      (headTakes (enterClosing s (attachedTrail (e.rise + counts st.shared.overlength) f) y)).scan.overrun = y.scan.overrun :=
    fun y => by
      rw [(headTakes_frame _).overrun, enterClosing_eq, (testClosing_frame _ _).overrun, (closingStart_same _ _ _).2.1]
  exact ⟨b, ⟨hb, hlead.trans hxl, by rw [he, hedge], by rw [he, hedge]; exact ht, by rw [ho, hscan],
    fun h => hinc.trans (hxi h)⟩, hst, htrail, fun h => hover.trans (hxo h), by rw [he, hedge]⟩

/-! ## Where a waiting test is made (R42) -/

/-- What the line event of a waiting test leaves, beside the test. -/
structure LineOnly (a b : Station) : Prop where
  start : b.start = a.start
  edge : b.edge = a.edge
  scan : b.scan = a.scan
  probe : b.probe = a.probe
  table : b.table = a.table
  outlet : b.outlet = a.outlet
  compares : b.position.compares = a.position.compares
  counter : b.position.counter = a.position.counter

theorem LineOnly.refl (a : Station) : LineOnly a a := ⟨rfl, rfl, rfl, rfl, rfl, rfl, rfl, rfl⟩

/-- A command that makes the waiting test changes what no test reads before it, and the Line Controller, the capture and the
causes after it. -/
def madeWaitingTest (st t : Station) : Prop :=
  ∃ (a : Station) (post : Station → Station), LineOnly st a ∧ (∀ x, LineOnly x (post x) ∧ (post x).engine = x.engine) ∧
    t = post (attachTest a)

theorem deferredTest_waiting (a : Station) (h : a.edge.testDeferred = true) : deferredTest a = attachTest a := if_pos h

/-- The station as its round in flight has been dropped, before the waiting test. -/
def roundDropped (st : Station) : Station :=
  { st with
    position := { st.position with capture := none }
    line := { st.line with opener := false, breakSender := false, longDrive := false, roundCell := none, round := none } }

theorem roundDropped_same (st : Station) : LineOnly st (roundDropped st) := ⟨rfl, rfl, rfl, rfl, rfl, rfl, rfl, rfl⟩

theorem dropRound_waiting {st : Station} (h : st.edge.testDeferred = true) : dropRound st = attachTest (roundDropped st) :=
  deferredTest_waiting (roundDropped st) h

theorem enterMute_makesTest {st : Station} (h : st.edge.testDeferred = true) : madeWaitingTest st (enterMute st) := by
  unfold enterMute
  rw [dropRound_waiting h]
  exact ⟨_, fun x => raiseCause .lineError { x with line := { x.line with state := .mute, quiet := 0 } },
    roundDropped_same st, fun x => ⟨⟨rfl, rfl, rfl, rfl, rfl, rfl, rfl, rfl⟩, rfl⟩, rfl⟩

theorem followed_of {st : Station} {r : Round} (h1 : st.line.state = .inRound) (h2 : st.line.longDrive = false)
    (h3 : st.line.round = some r) : followed st = some r := by
  unfold followed; rw [if_pos ⟨h1, h2⟩, h3]

/-- The station as a kind contest has given kind `k`. -/
def kindNamed (peers : List (BitVec 3)) (st : Station) (r : Round) (k : RoundKind) : Station :=
  withRound { fixAtContest k st r with
    kind := some k, contest := some (contestField.run r.offers.contest (peers.map (·.toNat))), cells := k.cellsThrough 0 } st

/-- The end of a kind contest, by its result. -/
theorem kindContestEnd_eq {peers : List (BitVec 3)} {st : Station} {r : Round} (hf : followed st = some r) (hk : r.kind = none) :
    kindContestEnd peers st = match (contestField.run r.offers.contest (peers.map (·.toNat))).result with
      | none => deferredTest (kindNamed peers st r .nothing)
      | some code => match RoundKind.ofCode code with
        | some k => if k = .opening then kindNamed peers st r k else deferredTest (kindNamed peers st r k)
        | none => enterMute st := by
  unfold kindContestEnd
  simp only [hf, hk, if_true]
  rfl

theorem ofCode_opening {code : Nat} (h : RoundKind.ofCode code = some .opening) : code = 5 := by
  unfold RoundKind.ofCode at h
  split at h <;> first | rfl | cases h

theorem kindContestEnd_makesTest {peers : List (BitVec 3)} {st : Station} {r : Round} (h : st.edge.testDeferred = true)
    (hf : followed st = some r) (hk : r.kind = none)
    (hc : (contestField.run r.offers.contest (peers.map (·.toNat))).result ≠ some 5) :
    madeWaitingTest st (kindContestEnd peers st) := by
  have hn : ∀ k, madeWaitingTest st (deferredTest (kindNamed peers st r k)) := fun k =>
    ⟨kindNamed peers st r k, id, ⟨rfl, rfl, rfl, rfl, rfl, rfl, rfl, rfl⟩, fun x => ⟨LineOnly.refl x, rfl⟩,
      deferredTest_waiting (kindNamed peers st r k) h⟩
  rw [kindContestEnd_eq hf hk]
  split
  · exact hn _
  · next code hcode =>
    split
    · next k hk' =>
      split
      · next ho => subst ho; exact absurd (hcode.trans (congrArg some (ofCode_opening hk'))) hc
      · exact hn _
    · exact enterMute_makesTest h

theorem toGuard_lineOnly (x : Station) : LineOnly x (toGuard x) ∧ (toGuard x).engine = x.engine :=
  ⟨⟨rfl, rfl, rfl, rfl, rfl, rfl, rfl, rfl⟩, rfl⟩

/-- A round in whose contest no station offers, completed at a station that has not ended the contest. -/
theorem completeNone_makesTest {st : Station} {r : Round} (h : st.edge.testDeferred = true) (hf : followed st = some r)
    (hk : r.kind = none) (hc : r.offers.contest = none) : madeWaitingTest st (completeNone st) := by
  have he : completeNone st = toGuard (kindContestEnd [] st) := by
    unfold completeNone
    simp [hf, hk, hc]
  have hres : (contestField.run r.offers.contest (([] : List (BitVec 3)).map (·.toNat))).result = none := by
    rw [hc]; rfl
  rw [he, kindContestEnd_eq hf hk, hres]
  exact ⟨kindNamed [] st r .nothing, toGuard, ⟨rfl, rfl, rfl, rfl, rfl, rfl, rfl, rfl⟩, toGuard_lineOnly,
    congrArg toGuard (deferredTest_waiting (kindNamed [] st r .nothing) h)⟩

theorem countOpenRound_same (x : Station) : LineOnly x (countOpenRound x) := by
  unfold countOpenRound
  simp only
  split <;> exact ⟨rfl, rfl, rfl, rfl, rfl, rfl, rfl, rfl⟩

/-- The station as a completed OPEN round has been counted and its request served, in RUNNING. -/
def openServed (st : Station) : Station := countOpenRound (withRequests (fun q => { q with opening := false }) (toGuard st))

theorem openServed_same (st : Station) : LineOnly st (openServed st) := by
  have h := countOpenRound_same (withRequests (fun q => { q with opening := false }) (toGuard st))
  exact ⟨h.start, h.edge, h.scan, h.probe, h.table, h.outlet, h.compares, h.counter⟩

/-- A completed OPEN round, by node state and position result. -/
theorem completeOpen_eq {st : Station} {r : Round} (h : completing .opening st = some r) :
    (st.start.node = .running → ∀ p, r.result 0 = some p → completeOpen st =
      if creationRefused (openServed st) then refuseCreation (openServed st) else createRecord (BitVec.ofNat 32 p) (openServed st)) ∧
    (st.start.node = .running → r.result 0 = none → completeOpen st = attachTest (openServed st)) ∧
    (st.start.node ≠ .running → completeOpen st = deferredTest (toGuard st)) := by
  unfold completeOpen
  simp only [h]
  refine ⟨fun hn p hp => ?_, fun hn hp => ?_, fun hn => ?_⟩
  · rw [if_pos hn, hp]; rfl
  · rw [if_pos hn, hp]; rfl
  · rw [if_neg hn]

theorem completeOpen_makesTest {st : Station} {r : Round} (h : st.edge.testDeferred = true) (hc : completing .opening st = some r)
    (hr : st.start.node = .running → r.result 0 = none) : madeWaitingTest st (completeOpen st) := by
  obtain ⟨_, h2, h3⟩ := completeOpen_eq hc
  by_cases hn : st.start.node = .running
  · exact ⟨openServed st, id, openServed_same st, fun x => ⟨LineOnly.refl x, rfl⟩, h2 hn (hr hn)⟩
  · exact ⟨toGuard st, id, (toGuard_lineOnly st).1, fun x => ⟨LineOnly.refl x, rfl⟩, (h3 hn).trans (deferredTest_waiting (toGuard st) h)⟩

theorem breakReceived_makesTest {st : Station} (h : st.edge.testDeferred = true) (h1 : st.line.state ≠ .off)
    (h2 : st.line.state ≠ .breaking) : madeWaitingTest st (breakReceived st) := by
  have hb : breakReceived st = { dropRound st with line := { (dropRound st).line with
      state := .breaking, quiet := if st.line.state = .mute then 0 else st.line.quiet } } := by
    unfold breakReceived
    cases hs : st.line.state with
    | off => exact absurd hs h1
    | breaking => exact absurd hs h2
    | _ => rfl
  rw [hb]
  rw [dropRound_waiting h]
  exact ⟨_, fun x => { x with line := { x.line with
      state := .breaking, quiet := if st.line.state = .mute then 0 else st.line.quiet } },
    roundDropped_same st, fun x => ⟨⟨rfl, rfl, rfl, rfl, rfl, rfl, rfl, rfl⟩, rfl⟩, rfl⟩

/-- The commands at which a waiting test is made do make it. -/
theorem makesWaitingTest_spec {st : Station} {c : Instr} (ht : st.edge.testDeferred = true) (h : st.makesWaitingTest c) :
    madeWaitingTest st (commandEffect c st) := by
  obtain ⟨_, h⟩ := h
  rcases h with ⟨peers, r, rfl, h1, h2, h3, h4, h5⟩ | ⟨r, rfl, h1, h2, h3, h4, h5⟩ | ⟨r, rfl, h1, h2⟩ | ⟨rfl, h1, h2⟩ |
    ⟨rfl, h1, h2, h3⟩ | ⟨rfl, h1⟩
  · exact kindContestEnd_makesTest ht (followed_of h1 h2 h3) h4 h5
  · exact completeNone_makesTest ht (followed_of h1 h2 h3) h4 h5
  · exact completeOpen_makesTest ht h1 h2
  · exact breakReceived_makesTest ht h1 h2
  · have he : commandEffect (.lineError .pattern) st = enterMute st := if_pos ⟨h1, h2, h3⟩
    rw [he]; exact enterMute_makesTest ht
  · have he : commandEffect .longDriveReleased st = enterMute st := if_pos h1
    rw [he]; exact enterMute_makesTest ht

/-! ## The qualification compare (R42) -/

/-- The station as the qualification compare has made the edge qualified. -/
def Station.qualifiedAs (e : PendingEdge) (st : Station) : Station :=
  { st with edge := { st.edge with state := .present, pending := some { e with qualified := true } } }

theorem testWaits_iff (st : Station) :
    testWaits st = true ↔ ∃ r, st.line.round = some r ∧ (r.kind = none ∨ r.kind = some .opening) := by
  unfold testWaits
  cases st.line.round with
  | none => simp
  | some r => simp

theorem takeQualification_rising {st : Station} {e : PendingEdge} (hs : st.edge.state = .rising) (hp : st.edge.pending = some e) :
    takeQualification st = if testWaits st then
        { st.qualifiedAs e with edge := { (st.qualifiedAs e).edge with testDeferred := true } }
      else attachTest (st.qualifiedAs e) := by
  unfold takeQualification
  simp only [hs, hp]
  rfl

/-- The qualification compare with no round to wait for makes the test at once. -/
theorem exec_qualification {st : Station} (q : List Instr) {e : PendingEdge} (hl : st.heldInReset = false)
    (hf : st.edge.frozen = false) (hd : st.position.isDue .qualification = true) (hs : st.edge.state = .rising)
    (hp : st.edge.pending = some e) (hw : ∀ r, st.line.round = some r → r.kind ≠ none ∧ r.kind ≠ some .opening) :
    exec .qualificationCompare ⟨st, q⟩ = .next ⟨attachTest ((dropCompare .qualification st).qualifiedAs e), q⟩ := by
  have hno : testWaits (dropCompare .qualification st) = false := by
    rw [Bool.eq_false_iff, ne_eq, testWaits_iff]
    rintro ⟨r, hr, h⟩
    obtain ⟨h1, h2⟩ := hw r hr
    rcases h with h | h
    · exact h1 h
    · exact h2 h
  rw [exec_due (c := .qualificationCompare) rfl q hl hd (.inr hf)]
  simp only [compareEffect]
  rw [takeQualification_rising (st := dropCompare .qualification st) hs hp, hno]
  rfl

/-- The conditions under which a qualified edge does not attach, which read records, counter and configuration alone. -/
theorem unattached_congr {a b : Station} (ht : b.table = a.table) (hs : b.start = a.start) {e : PendingEdge}
    (h : a.table = [] ∨ a.openRecord.isSome = true ∨ (∃ r, a.newest = some r ∧ (r.band.state ≠ .none ∨
      atOrAfter (r.refPos + counts a.shared.attachWindow) e.rise = false))) :
    b.table = [] ∨ b.openRecord.isSome = true ∨ (∃ r, b.newest = some r ∧ (r.band.state ≠ .none ∨
      atOrAfter (r.refPos + counts b.shared.attachWindow) e.rise = false)) := by
  unfold Station.openRecord Station.newest at *
  rw [ht, shared_of_start hs]
  exact h

/-- Settles O14. -/
theorem qualificationQualifiesEdge : Obligations.QualificationQualifiesEdge := by
  refine ⟨fun e st q hl hf hd hs hp => ⟨fun hw => ?_, fun hw hu => ?_⟩, fun c e st q ht hp hq hu hc => ?_,
    fun peers r st q hl h1 h2 h3 hk hres => ?_⟩
  · rw [exec_due (c := .qualificationCompare) rfl q hl hd (.inr hf)]
    simp only [compareEffect]
    rw [takeQualification_rising (st := dropCompare .qualification st) hs hp, if_pos ((testWaits_iff (dropCompare .qualification st)).2 hw)]
    rfl
  · rw [exec_qualification q hl hf hd hs hp hw,
      attachTest_raise ((dropCompare .qualification st).qualifiedAs e) { e with qualified := true } rfl rfl
        (unattached_congr rfl rfl hu)]
    rfl
  · obtain ⟨a, post, ha, hpost, heq⟩ := makesWaitingTest_spec ht hc
    have hraise := attachTest_raise a e (by rw [ha.edge]; exact hp) hq (unattached_congr ha.table ha.start hu)
    obtain ⟨hx, hxe⟩ := hpost (attachTest a)
    refine ⟨commandEffect c st, exec_live c q hc.1, ?_⟩
    rw [heq, hx.edge, hxe, hx.table, hx.compares, hx.scan, hx.probe, hraise]
    exact ⟨by rw [← ha.edge]; rfl, rfl, ha.table, ha.compares, ha.scan, ha.probe⟩
  · refine ⟨kindContestEnd peers st, exec_live _ q hl, ?_⟩
    rw [kindContestEnd_eq (followed_of h1 h2 h3) hk, hres]
    exact ⟨rfl, rfl, rfl⟩

/-- The three conditions of R12, as the statements give them. -/
theorem attaches_of {st : Station} {e : Pos} {r : Record} (hn : r.band.state = .none) (ho : st.openRecord = none)
    (ha : atOrAfter (r.refPos + counts st.shared.attachWindow) e = true) : attaches st e r = true := by
  simp [attaches, hn, ho, ha]

/-- Settles O15. -/
theorem qualifiedEdgeAttachesToNewest : Obligations.QualifiedEdgeAttachesToNewest := by
  refine ⟨fun e r st q hl hf hd hs hp hfall hw hdis hn hb ho ha hlim => ?_,
    fun c e r st q hl hdis hn hb ho ha hp hc => ?_⟩
  · have he := exec_qualification q hl hf hd hs hp hw
    set x : Station := (dropCompare .qualification st).qualifiedAs e with hx
    rw [attachTest_attach x { e with qualified := true } r rfl rfl hn (attaches_of (st := x) hb ho ha)] at he
    set y : Station := { x with edge := { x.edge with testDeferred := false } } with hy
    have hyd : y.seqsDistinct := hdis
    have hm : r ∈ y.table := newest_mem hn
    obtain ⟨b, hat, hb1, hb2, _⟩ := attachEdge_opens_spec hyd hm ho rfl (e := { e with qualified := true }) hfall (.inl hlim)
    obtain ⟨g, hg, hgw⟩ := attachEdge_opens hyd hm ho (e := { e with qualified := true }) hfall (.inl hlim)
    cases hgw hlim
    have hfr := attachEdge_edgeFrame { e with qualified := true } r.seq y
    refine ⟨_, he, ?_, hat.overrun, ?_, ⟨b, hat.record, hb1, hat.lead, hb2⟩, ?_, hfr.probe, hfr.line, hfr.start, hfr.outlet, hfr.port⟩
    · rw [hg, headTakes_edge]; rfl
    · rw [hg, headTakes_position]; rfl
    · rw [hg, (headTakes_frame _).opening]; rfl
  · have key : ∃ (a : Station) (post : Station → Station) (e' : PendingEdge), a.start = st.start ∧ a.table = st.table ∧
        a.scan = st.scan ∧ a.position.counter = st.position.counter ∧ a.edge.frozen = st.edge.frozen ∧
        (st.edge.state ≠ .rising → a.edge.state = st.edge.state) ∧ a.edge.pending = some e' ∧ e'.qualified = true ∧
        e'.rise = e.rise ∧ e'.fall = e.fall ∧ (∀ x, LineOnly x (post x) ∧ (post x).engine = x.engine) ∧
        exec c ⟨st, q⟩ = .next ⟨post (attachTest a), q⟩ := by
      rcases hc with ⟨rfl, hd, hf, hs, hw⟩ | ⟨ht, hq, hc⟩
      · exact ⟨(dropCompare .qualification st).qualifiedAs e, id, { e with qualified := true }, rfl, rfl, rfl, rfl, rfl,
          fun h => absurd hs h, rfl, rfl, rfl, rfl, fun x => ⟨LineOnly.refl x, rfl⟩, exec_qualification q hl hf hd hs hp hw⟩
      · obtain ⟨a, post, k, hpost, heq⟩ := makesWaitingTest_spec ht hc
        exact ⟨a, post, e, k.start, k.table, k.scan, k.counter, by rw [k.edge], fun _ => by rw [k.edge], k.edge ▸ hp, hq, rfl,
          rfl, hpost, by rw [exec_live c q hl, heq]⟩
    obtain ⟨a, post, e', h1, h2, h3, h4, h5, h6, h7, h8, h9, h10, hpost, he⟩ := key
    set y : Station := { a with edge := { a.edge with testDeferred := false } } with hy
    have hsh : y.shared = st.shared := shared_of_start h1
    have hyd : y.seqsDistinct := by show (a.table.map _).Nodup; rw [h2]; exact hdis
    have hya : a.newest = some r := by unfold Station.newest; rw [h2]; exact hn
    have hm : r ∈ y.table := newest_mem hya
    have hyo : y.openRecord = none := (openRecord_congr (a := st) h2).trans ho
    have hao : a.openRecord = none := (openRecord_congr (a := st) h2).trans ho
    have hat : attachTest a = attachEdge e' r.seq y :=
      attachTest_attach a e' r h7 h8 hya (attaches_of hb hao (by rw [shared_of_start h1, h9]; exact ha))
    rw [hat] at he
    obtain ⟨hx, _⟩ := hpost (attachEdge e' r.seq y)
    have hreach : y.position.reached (e'.rise + counts y.shared.overlength) =
        atOrAfter st.position.counter (e.rise + counts st.shared.overlength) := by
      unfold PositionUnit.reached
      rw [show y.position.counter = st.position.counter from h4, hsh, h9]
    have fin : ∀ b, Attached e' r.seq y.scan.overrun (attachEdge e' r.seq y) b →
        (post (attachEdge e' r.seq y)).record r.seq = some b ∧ b.band.lead = some e.rise ∧
        (post (attachEdge e' r.seq y)).edge.pending = none ∧ (post (attachEdge e' r.seq y)).edge.testDeferred = false ∧
        (post (attachEdge e' r.seq y)).scan.overrun = false ∧ (st.scan.overrun = true → b.band.summary.incomplete = true) := by
      intro b k
      rw [hx.edge, hx.scan, record_congr hx.table, ← h9, ← h3]
      exact ⟨k.record, k.lead, k.pending, k.deferred, k.overrun, k.incomplete⟩
    intro limit ended
    cases hfall : e.fall with
    | some f =>
      obtain ⟨b, hatt, k1, k2, k3, k4⟩ := attachEdge_closes_spec hyd (record_of_mem hyd hm) rfl (h10.trans hfall)
      obtain ⟨f1, f2, f3, f4, f5, f6⟩ := fin b hatt
      rw [hsh, h9] at k2 k3
      refine ⟨_, b, he, f1, f2, f3, f4, f5, f6, nofun, nofun, fun f' hf' => ?_⟩
      cases hf'
      exact ⟨k1, k2, k3, fun h => by rw [hx.edge, k4]; exact h6 h⟩
    | none =>
      by_cases hl' : y.position.reached (e'.rise + counts y.shared.overlength) = false ∨ y.edge.frozen = true
      · obtain ⟨b, hatt, k1, k2, k3, k4⟩ := attachEdge_opens_spec hyd hm hyo rfl (h10.trans hfall) hl'
        obtain ⟨f1, f2, f3, f4, f5, f6⟩ := fin b hatt
        refine ⟨_, b, he, f1, f2, f3, f4, f5, f6, fun _ _ => ⟨k1, ?_, ?_⟩, fun _ hr hz => ?_, nofun⟩
        · rw [stores_congr hx.compares]; exact k3
        · rw [stores_congr hx.compares]; exact k4
        · rcases hl' with h | h
          · rw [hreach] at h; exact absurd (hr.symm.trans h) (by decide)
          · exact absurd (h.symm.trans (h5.trans hz)) (by decide)
      · have hr : y.position.reached (e'.rise + counts y.shared.overlength) = true := by
          by_contra h; exact hl' (.inl (by simpa using h))
        have hz : y.edge.frozen = false := by
          by_contra h; exact hl' (.inr (by simpa using h))
        obtain ⟨b, hatt, k1, k2, k3, k4, k5, k6⟩ := attachEdge_forced_spec hyd hm hyo (h10.trans hfall) hr hz
        obtain ⟨f1, f2, f3, f4, f5, f6⟩ := fin b hatt
        rw [hsh, h9] at k2
        refine ⟨_, b, he, f1, f2, f3, f4, f5, f6, fun _ h => ?_, fun _ _ _ => ⟨k1, k2, k3, ?_, ?_, ?_⟩, nofun⟩
        · rw [hreach] at hr; exact absurd (hr.symm.trans h) (by decide)
        · rw [stores_congr hx.compares]; exact k4
        · rw [stores_congr hx.compares]; exact k5
        · rw [hx.edge]; exact k6

end Sys2Proof.Machine

namespace Sys2Proof.Machine

/-! ## The peer map and the agreement read from the ROLL slots (R121, R122) -/

theorem toList_eq_map {α : Type} (e : Eight α) : e.toList = indices.map e.get := rfl

theorem newPeers_get (before : Eight (Option Nat)) (readings : Eight (Reading RollEntry)) (k : Index) :
    (newPeers before readings).get k = match readings.get k with
      | .entry _ => some 0
      | .silent => none
      | .damaged => if (before.get k).isSome then some 0 else none :=
  get_tabulate _ k

/-- The entry in a slot, if one was read. -/
def Reading.entry? {α : Type} (r : Reading α) : Option α :=
  match r with
  | .entry e => some e
  | .silent => none
  | .damaged => none

theorem entry?_iff {α : Type} (r : Reading α) (e : α) : r.entry? = some e ↔ r = .entry e := by
  cases r <;> simp [Reading.entry?]

/-- Whether a slot was read with the outlet strap set. -/
def outletRead (r : Reading RollEntry) : Bool := r.entry?.any (·.outlet)

theorem outletRead_iff (r : Reading RollEntry) : outletRead r = true ↔ ∃ e, r = .entry e ∧ e.outlet = true := by
  cases r <;> simp [outletRead, Reading.entry?]

theorem agreement_eq (digest : BitVec 32) (readings : Eight (Reading RollEntry)) : agreement digest readings =
    (((indices.filterMap fun k => (readings.get k).entry?).all fun e => e.digest == digest) &&
      decide ((indices.countP fun k => outletRead (readings.get k)) ≤ 1)) := by
  have hl : readings.toList.filterMap Reading.entry? = indices.filterMap fun k => (readings.get k).entry? := by
    rw [toList_eq_map, List.filterMap_map]; rfl
  have hc : ((indices.filterMap fun k => (readings.get k).entry?).countP fun e => e.outlet) =
      indices.countP fun k => outletRead (readings.get k) := by
    rw [List.countP_filterMap]
    refine congrArg (List.countP · indices) (funext fun k => ?_)
    cases readings.get k <;> rfl
  have key : ∀ f : Reading RollEntry → Option RollEntry, (∀ r, f r = r.entry?) →
      (((readings.toList.filterMap f).all fun e => e.digest == digest) &&
        decide (((readings.toList.filterMap f).countP fun e => e.outlet) ≤ 1)) =
      (((indices.filterMap fun k => (readings.get k).entry?).all fun e => e.digest == digest) &&
        decide ((indices.countP fun k => outletRead (readings.get k)) ≤ 1)) := by
    intro f hf
    rw [funext hf, hl, hc]
  exact key _ fun r => by cases r <;> rfl

/-- At most one index has a property exactly where no two have it. -/
theorem countP_le_one {l : List Index} (hl : l.Nodup) (p : Index → Bool) :
    l.countP p ≤ 1 ↔ ∀ j ∈ l, ∀ k ∈ l, p j = true → p k = true → j = k := by
  rw [List.countP_eq_length_filter, ← List.toFinset_card_of_nodup (hl.filter p), Finset.card_le_one]
  simp only [List.mem_toFinset, List.mem_filter, and_imp]
  exact ⟨fun h j hj k hk pj pk => h j hj pj k hk pk, fun h j hj pj k hk pk => h j hj k hk pj pk⟩

theorem agreement_iff (digest : BitVec 32) (readings : Eight (Reading RollEntry)) : agreement digest readings = true ↔
    (∀ (k : Index) (e : RollEntry), readings.get k = .entry e → e.digest = digest) ∧
    (∀ (j k : Index) (e f : RollEntry), readings.get j = .entry e → readings.get k = .entry f →
      e.outlet = true → f.outlet = true → j = k) := by
  have hn : indices.Nodup := by decide
  simp only [agreement_eq, Bool.and_eq_true, List.all_eq_true, List.mem_filterMap, beq_iff_eq, decide_eq_true_eq,
    countP_le_one hn, outletRead_iff, entry?_iff]
  constructor
  · rintro ⟨h1, h2⟩
    exact ⟨fun k e hk => h1 e ⟨k, mem_indices k, hk⟩,
      fun j k e f hj hk he hf => h2 j (mem_indices j) k (mem_indices k) ⟨e, hj, he⟩ ⟨f, hk, hf⟩⟩
  · rintro ⟨h1, h2⟩
    refine ⟨?_, ?_⟩
    · rintro e ⟨k, _, hk⟩
      exact h1 k e hk
    · rintro j _ k _ ⟨e, hj, he⟩ ⟨f, hk, hf⟩
      exact h2 j k e f hj hk he hf

/-! ## A record after a change of the peer map (R21) -/

/-- What the joining or leaving of one index does to a record. -/
def Record.peerChanged (joined left : Index → Bool) (r : Record) (k : Index) : Record :=
  if joined k then r.joined k else if left k then r.left k else r

theorem peersChanged_eq (joined left : Index → Bool) (r : Record) :
    r.peersChanged joined left = indices.foldl (Record.peerChanged joined left) r := rfl

/-- One index joins or leaves: its own entry, BLIND, and nothing else. -/
theorem peerChanged_spec (joined left : Index → Bool) (r : Record) (k : Index) :
    (∀ j : Index, (r.peerChanged joined left k).entries.get j =
      if j = k ∧ joined k = true ∧ r.entries.get k = none then some .unknown else r.entries.get j) ∧
    ((r.peerChanged joined left k).flags.blind = true ↔
      r.flags.blind = true ∨ (joined k = true ∨ left k = true) ∧ r.entries.get k = none) ∧
    r.peerChanged joined left k = { r with
      entries := (r.peerChanged joined left k).entries
      flags := { r.flags with blind := (r.peerChanged joined left k).flags.blind } } := by
  cases hk : r.entries.get k with
  | some e =>
    have h : r.peerChanged joined left k = r := by
      simp [Record.peerChanged, Record.joined, Record.left, hk]
    rw [h]
    exact ⟨fun j => by simp, by simp, rfl⟩
  | none =>
    cases hj : joined k with
    | true =>
      have h : r.peerChanged joined left k = r.storeEntry k .unknown := by
        simp [Record.peerChanged, Record.joined, hk, hj]
      rw [h]
      exact ⟨fun j => by simp [Record.storeEntry, get_set], by simp [Record.storeEntry], rfl⟩
    | false =>
      cases hl : left k with
      | true =>
        have h : r.peerChanged joined left k = { r with flags := { r.flags with blind := true } } := by
          simp [Record.peerChanged, Record.left, hk, hj, hl]
        rw [h]
        exact ⟨fun j => by simp, by simp, rfl⟩
      | false =>
        have h : r.peerChanged joined left k = r := by simp [Record.peerChanged, hj, hl]
        rw [h]
        exact ⟨fun j => by simp, by simp, rfl⟩

/-- The indices of a list join or leave, one after another. -/
theorem peersFold_spec (joined left : Index → Bool) : ∀ (l : List Index) (r : Record),
    (∀ j : Index, (l.foldl (Record.peerChanged joined left) r).entries.get j =
      if j ∈ l ∧ joined j = true ∧ r.entries.get j = none then some .unknown else r.entries.get j) ∧
    ((l.foldl (Record.peerChanged joined left) r).flags.blind = true ↔
      r.flags.blind = true ∨ ∃ k ∈ l, (joined k = true ∨ left k = true) ∧ r.entries.get k = none) ∧
    l.foldl (Record.peerChanged joined left) r = { r with
      entries := (l.foldl (Record.peerChanged joined left) r).entries
      flags := { r.flags with blind := (l.foldl (Record.peerChanged joined left) r).flags.blind } }
  | [], r => ⟨fun j => by simp, by simp, rfl⟩
  | k :: l, r => by
    obtain ⟨h1, h2, h3⟩ := peerChanged_spec joined left r k
    obtain ⟨k1, k2, k3⟩ := peersFold_spec joined left l (r.peerChanged joined left k)
    rw [List.foldl_cons]
    refine ⟨fun j => ?_, ?_, ?_⟩
    · rw [k1, h1]
      by_cases hj : j = k
      · subst hj
        by_cases hc : joined j = true ∧ r.entries.get j = none
        · simp [hc]
        · simp only [true_and, if_neg hc, List.mem_cons, true_or]
          exact if_neg fun h => hc h.2
      · simp [hj]
    · rw [k2, h2]
      simp only [h1, List.mem_cons]
      constructor
      · rintro ((h | h) | ⟨j, hj, hjl, he⟩)
        · exact .inl h
        · exact .inr ⟨k, .inl rfl, h⟩
        · refine .inr ⟨j, .inr hj, hjl, ?_⟩
          split at he
          · cases he
          · exact he
      · rintro (h | ⟨j, rfl | hj, hjl, he⟩)
        · exact .inl (.inl h)
        · exact .inl (.inr ⟨hjl, he⟩)
        · by_cases hc : j = k ∧ joined k = true ∧ r.entries.get k = none
          · exact .inl (.inr ⟨.inl hc.2.1, hc.2.2⟩)
          · exact .inr ⟨j, hj, hjl, by rw [if_neg hc]; exact he⟩
    · rw [k3, h3]

theorem peersChanged_entries (joined left : Index → Bool) (r : Record) (k : Index) :
    (r.peersChanged joined left).entries.get k =
      if joined k && (r.entries.get k).isNone then some .unknown else r.entries.get k := by
  rw [peersChanged_eq, (peersFold_spec joined left indices r).1 k]
  simp [mem_indices]

theorem peersChanged_blind (joined left : Index → Bool) (r : Record) :
    (r.peersChanged joined left).flags.blind = true ↔ r.flags.blind = true ∨
      ∃ k : Index, (joined k = true ∨ left k = true) ∧ r.entries.get k = none := by
  rw [peersChanged_eq, (peersFold_spec joined left indices r).2.1]
  simp [mem_indices]

theorem peersChanged_same (joined left : Index → Bool) (r : Record) : r.peersChanged joined left = { r with
    entries := (r.peersChanged joined left).entries
    flags := { r.flags with blind := (r.peersChanged joined left).flags.blind } } :=
  (peersFold_spec joined left indices r).2.2

/-- Settles O43. -/
theorem peerMapAndAgreementFromSlots : Obligations.PeerMapAndAgreementFromSlots := by
  refine ⟨fun before readings k => ⟨fun h => ?_, fun e h => ?_, fun h => ?_⟩, agreement_iff, fun joined left r => ?_⟩
  · rw [newPeers_get, h]
  · rw [newPeers_get, h]
  · rw [newPeers_get, h]
  · exact ⟨peersChanged_entries joined left r, peersChanged_blind joined left r, peersChanged_same joined left r⟩

/-! ## The completion of a VERDICT round (R134, R135) -/

theorem completeVerdict_off {st : Station} {r : Round} (h : completing .verdict st = some r)
    (hc : r.result 0 = none ∨ st.start.node ≠ .running) : completeVerdict st = toGuard st := by
  unfold completeVerdict
  simp only [h]
  rcases hc with hc | hc
  · rw [hc]
  · split
    · rfl
    · exact if_neg hc

theorem completeVerdict_running {st : Station} {r : Round} (h : completing .verdict st = some r) (hn : st.start.node = .running)
    {subject : Nat} (hs : r.result 0 = some subject) :
    completeVerdict st = verdictEffects r (BitVec.ofNat 16 subject) (toGuard st) := by
  unfold completeVerdict
  simp only [h, hs]
  exact if_pos hn

theorem readyResult_iff (v : Option Nat) : readyResult v = true ↔ v ≠ some 0 := by
  unfold readyResult
  simp

/-- A mark set on the VERDICT request of a subject that has none changes nothing. -/
theorem markVerdict_none {s : Seq} {b : Bool} {q : Requests} (h : ∀ x ∈ q.verdict, x.subject ≠ s) : q.markVerdict s b = q := by
  unfold Requests.markVerdict
  have : (q.verdict.map fun x => if x.subject = s then { x with heldBack := b } else x) = q.verdict := by
    conv_rhs => rw [← List.map_id q.verdict]
    exact List.map_congr_left fun x hx => if_neg (h x hx)
  rw [this]

theorem verdictEffects_notReady {r : Round} {s : Seq} {st : Station} (h : r.result 1 = some 0) : verdictEffects r s st =
    withRequests (fun q => if r.offers.ready = some 1 then q.markVerdict s true else q) st := by
  unfold verdictEffects
  rw [h, if_neg (by simp [readyResult])]
  split <;> rfl

theorem verdictEffects_ready {r : Round} {s : Seq} {st : Station} (h : r.result 1 ≠ some 0) :
    (∀ low high, r.result 2 = some low → r.result 3 = some high → verdictEffects r s st = decideRecord s low high st) ∧
    ((r.result 2 = none ∨ r.result 3 = none) → verdictEffects r s st = st) := by
  unfold verdictEffects
  rw [if_pos ((readyResult_iff _).2 h)]
  refine ⟨fun low high h2 h3 => by rw [h2, h3], fun hc => ?_⟩
  rcases hc with hc | hc
  · rw [hc]
  · rw [hc]; cases r.result 2 <;> rfl

/-- What a VERDICT round does where the record is neither held nor named by a VERDICT request: nothing. -/
theorem verdictEffects_unknown {r : Round} {s : Seq} {st : Station} (hr : st.record s = none)
    (h : ∀ x ∈ st.engine.requests.verdict, x.subject ≠ s) : verdictEffects r s st = st := by
  by_cases h1 : r.result 1 = some 0
  · rw [verdictEffects_notReady h1]
    unfold withRequests
    split
    · simp only [markVerdict_none h]
    · rfl
  · obtain ⟨k1, k2⟩ := verdictEffects_ready (s := s) (st := st) h1
    cases h2 : r.result 2 with
    | none => exact k2 (.inl h2)
    | some low =>
      cases h3 : r.result 3 with
      | none => exact k2 (.inr h3)
      | some high =>
        rw [k1 low high h2 h3]
        unfold decideRecord
        rw [hr]

theorem decideRecord_decided {s : Seq} {low high : Nat} {st : Station} {x : Record} (hr : st.record s = some x)
    (h : x.phase = .decided) : decideRecord s low high st = st := by
  unfold decideRecord
  rw [hr]
  exact if_pos h

theorem decideRecord_decides {s : Seq} {low high : Nat} {st : Station} {x : Record} (hr : st.record s = some x)
    (h : x.phase ≠ .decided) : decideRecord s low high st =
      withRequests (fun q => (q.dropVerdict s).dropTally s) (updateRecord s (Record.decide low high) st) := by
  unfold decideRecord
  rw [hr]
  exact if_neg h

/-- Settles O46. -/
theorem verdictRoundDecidesRecord : Obligations.VerdictRoundDecidesRecord := by
  refine ⟨fun r st q hl hc h => ?_, fun r subject rec st q hl hc hs hn hr => ?_⟩
  · have he : completeVerdict st = toGuard st := by
      rcases h with h | h | ⟨subject, h1, h2, h3⟩
      · exact completeVerdict_off hc (.inr h)
      · exact completeVerdict_off hc (.inl h)
      · by_cases hn : st.start.node = .running
        · rw [completeVerdict_running hc hn h1]
          exact verdictEffects_unknown (st := toGuard st) h2 h3
        · exact completeVerdict_off hc (.inr hn)
    rw [exec_live _ q hl]
    simp only [commandEffect, he]
    rfl
  · have he := exec_live .verdictRoundComplete q hl
    simp only [commandEffect, completeVerdict_running hc hn hs] at he
    have hg : (toGuard st).record (BitVec.ofNat 16 subject) = some rec := hr
    refine ⟨fun h1 => ?_, fun h1 h => ?_, fun low high h1 hp h2 h3 => ?_⟩
    · rw [he, verdictEffects_notReady h1]; rfl
    · have : verdictEffects r (BitVec.ofNat 16 subject) (toGuard st) = toGuard st := by
        obtain ⟨k1, k2⟩ := verdictEffects_ready (s := BitVec.ofNat 16 subject) (st := toGuard st) h1
        by_cases h' : r.result 2 = none ∨ r.result 3 = none
        · exact k2 h'
        · have hp : rec.phase = .decided := h.resolve_right h'
          obtain ⟨low, h2⟩ := Option.ne_none_iff_exists'.1 fun hh => h' (.inl hh)
          obtain ⟨high, h3⟩ := Option.ne_none_iff_exists'.1 fun hh => h' (.inr hh)
          rw [k1 low high h2 h3, decideRecord_decided hg hp]
      rw [he, this]; rfl
    · rw [he, (verdictEffects_ready h1).1 low high h2 h3, decideRecord_decides hg hp]
      by_cases hlh : low = high
      · have hd : Record.decide low high = fun x => { x with phase := .decided, outcome := some (Verdict.ofCode low) } :=
          funext fun x => if_pos hlh
        simp only [hd, if_pos hlh, Bool.or_false]
        rfl
      · have hd : Record.decide low high = fun x =>
            { x with phase := .decided, outcome := some .manual, flags := { x.flags with disputed := true } } :=
          funext fun x => if_neg hlh
        simp only [hd, if_neg hlh, Bool.or_true]
        rfl

end Sys2Proof.Machine

namespace Sys2Proof.Machine

/-! ## The Edge Unit and its compares (R35, R48, R49) -/

/-- Edge Unit, edge compares, counter and configuration are the same. -/
structure EdgeSame (a b : Station) : Prop where
  edge : b.edge = a.edge
  counter : b.position.counter = a.position.counter
  start : b.start = a.start
  find : ∀ id, id = .qualification ∨ id = .bridging ∨ id = .blankRelease → b.position.find id = a.position.find id

theorem EdgeSame.refl (a : Station) : EdgeSame a a := ⟨rfl, rfl, rfl, fun _ _ => rfl⟩

theorem EdgeSame.trans {a b c : Station} (h : EdgeSame a b) (k : EdgeSame b c) : EdgeSame a c :=
  ⟨k.edge.trans h.edge, k.counter.trans h.counter, k.start.trans h.start, fun id hid => (k.find id hid).trans (h.find id hid)⟩

theorem EdgeSame.ofPosition {a b : Station} (he : b.edge = a.edge) (hs : b.start = a.start) (hp : b.position = a.position) :
    EdgeSame a b := ⟨he, by rw [hp], hs, fun _ _ => by rw [hp]⟩

theorem HeadFrame.edgeSame {a b : Station} (h : HeadFrame a b) : EdgeSame a b := .ofPosition h.edge h.start h.position

theorem EdgeSame.entersBlanked {a b t u : Station} (h : EdgeSame a b) (hb : b.entersBlanked t) (k : EdgeSame t u) :
    a.entersBlanked u := by
  have hst : ∀ id, id = .qualification ∨ id = .bridging ∨ id = .blankRelease → u.stores id = t.stores id := fun id hid => by
    rw [stores_eq_find, stores_eq_find, k.find id hid]
  exact entersBlanked_congr h.edge h.counter h.start k.edge (hst _ (.inl rfl)) (hst _ (.inr (.inl rfl)))
    (hst _ (.inr (.inr rfl))) (k.find _ (.inr (.inr rfl))) hb

theorem EdgeSame.presenceHeld {a b : Station} (h : EdgeSame a b) : b.presenceHeld = a.presenceHeld := by
  unfold Station.presenceHeld Station.loc; rw [h.edge, h.start]

theorem dropCompare_edgeSame {id : CompareId} (h : id ≠ .qualification ∧ id ≠ .bridging ∧ id ≠ .blankRelease) (st : Station) :
    EdgeSame st (dropCompare id st) := by
  refine ⟨rfl, rfl, rfl, fun a ha => find_drop_other ?_ _⟩
  obtain ⟨h1, h2, h3⟩ := h
  rcases ha with rfl | rfl | rfl
  · exact Ne.symm h1
  · exact Ne.symm h2
  · exact Ne.symm h3

/-! ## The compares stored for a purpose (R35) -/

/-- The compares stored for a purpose. -/
def PositionUnit.stored (id : CompareId) (p : PositionUnit) : List Compare := p.compares.filter fun c => c.id == id

theorem find_eq_stored (id : CompareId) (p : PositionUnit) : p.find id = (p.stored id).head? := List.head?_filter.symm

theorem isDue_eq_stored (id : CompareId) (p : PositionUnit) : p.isDue id = (p.stored id).any fun c => c.progress == .due := by
  unfold PositionUnit.isDue PositionUnit.stored
  rw [List.any_filter]

theorem stores_eq_stored (st : Station) (id : CompareId) : st.stores id = !(st.position.stored id).isEmpty := by
  rw [stores_eq_find, find_eq_stored]
  cases st.position.stored id <;> rfl

theorem stored_drop_same (id : CompareId) (p : PositionUnit) : (p.drop id).stored id = [] := by
  refine List.filter_eq_nil_iff.2 fun c hc => ?_
  simpa [PositionUnit.drop] using (List.mem_filter.1 hc).2

theorem stored_drop_other {a b : CompareId} (h : a ≠ b) (p : PositionUnit) : (p.drop b).stored a = p.stored a := by
  unfold PositionUnit.stored PositionUnit.drop
  rw [List.filter_filter]
  refine List.filter_congr fun c _ => ?_
  by_cases hc : c.id = a
  · simp [hc, h]
  · simp [hc]

theorem stored_store_same (id : CompareId) (pos : Pos) (g : Progress) (p : PositionUnit) :
    (p.store id pos g).stored id = [⟨id, pos, g⟩] := by
  have h : (p.drop id).compares.filter (fun c => c.id == id) = [] := stored_drop_same id p
  unfold PositionUnit.stored PositionUnit.store
  rw [List.filter_append, h]
  simp

theorem stored_store_other {a b : CompareId} (h : a ≠ b) (pos : Pos) (g : Progress) (p : PositionUnit) :
    (p.store b pos g).stored a = p.stored a := by
  rw [← stored_drop_other h p]
  unfold PositionUnit.stored PositionUnit.store
  rw [List.filter_append]
  simp [Ne.symm h]

theorem followAbsence_stored {id : CompareId} (h : id ≠ .blankRelease) (st : Station) :
    (followAbsence st).position.stored id = st.position.stored id := by
  unfold followAbsence
  split
  · exact stored_drop_other h _
  · simp only
    split
    · split
      · exact stored_store_other h _ _ _
      · exact stored_drop_other h _
    · exact stored_store_other h _ _ _

/-- An entry to BLANKED touches the edge compares alone. -/
theorem enterBlanked_stored {id : CompareId} (h1 : id ≠ .qualification) (h2 : id ≠ .bridging) (h3 : id ≠ .blankRelease)
    (st : Station) : (enterBlanked st).position.stored id = st.position.stored id := by
  have h : (dropCompare .bridging (discardPending st)).position.stored id = st.position.stored id :=
    (stored_drop_other h2 _).trans (stored_drop_other h1 _)
  unfold enterBlanked
  simp only
  split
  · exact h
  · exact (followAbsence_stored h3 _).trans h

/-! ## The result record of a removed record (R160, R168) -/

theorem get_perClass {α : Type} (f : DefectClass → α) (c : DefectClass) : (PerClass.tabulate f).get c = f c := by
  cases c <;> rfl

/-- The flags that a removal sets itself. -/
def SheetFlags.removal (f g : SheetFlags) : Prop :=
  g = { f with purged := g.purged, undecided := g.undecided, gateBusy := g.gateBusy }

theorem resultOf_carries (sh : Shared) (outcome : Verdict) (r : Record) (mark : SheetFlags → SheetFlags)
    (hm : r.flags.removal (mark r.flags)) :
    (resultOf sh outcome { r with flags := mark r.flags }).carries sh r := by
  unfold SheetFlags.removal at hm
  rw [hm]
  exact ⟨rfl, rfl, rfl, fun c => get_perClass _ c, rfl, rfl, rfl, rfl, rfl, rfl⟩

theorem offer_room (x : ResultRecord) {p : ResultPort} (h : p.fifo.length < 16) :
    (p.offer x).fifo = p.fifo ++ [{ x with lost := p.lost }] ∧ (p.offer x).lost = 0 := by
  unfold ResultPort.offer
  rw [if_pos (show p.fifo.length < Config.resultFifoCapacity from h)]
  exact ⟨rfl, rfl⟩

theorem offer_full (x : ResultRecord) {p : ResultPort} (h : 16 ≤ p.fifo.length) :
    (p.offer x).fifo = p.fifo ∧ (p.offer x).causes.resultOverflow = true ∧ (p.offer x).lost.toNat = min 255 (p.lost.toNat + 1) := by
  unfold ResultPort.offer
  rw [if_neg (show ¬ p.fifo.length < Config.resultFifoCapacity from Nat.not_lt.2 h)]
  refine ⟨rfl, rfl, ?_⟩
  show (if p.lost = 255#8 then 255#8 else p.lost + 1).toNat = _
  split
  · next hl => rw [hl]; rfl
  · next hl => bv_omega

/-! ## Removal (R25) -/

/-- The station as a record has left the table with its requests and compares, before the effects of R19. -/
def Station.withoutRecord (s : Seq) (st : Station) : Station :=
  { st with
    table := st.table.filter fun x => x.seq != s
    position := st.position.dropRecord s
    engine := { st.engine with requests := st.engine.requests.dropSubject s } }

/-- The station as the removal of an OPEN band has blanked the Edge Unit. -/
def Station.bandRemoved (s : Seq) (st : Station) : Station :=
  enterBlanked (dropCompare .overlength (dropCompare .sample (st.withoutRecord s)))

theorem removeRecord_none {outcome : Verdict} {mark : SheetFlags → SheetFlags} {s : Seq} {st : Station} (h : st.record s = none) :
    removeRecord outcome mark s st = st := by
  unfold removeRecord; rw [h]

theorem removeRecord_eq {outcome : Verdict} {mark : SheetFlags → SheetFlags} {s : Seq} {st : Station} {r : Record}
    (hr : st.record s = some r) : removeRecord outcome mark s st =
      let x := loseTarget s (if r.band.state = .opened then st.bandRemoved s else st.withoutRecord s)
      { x with port := x.port.offer (resultOf st.shared outcome { r with flags := mark r.flags }) } := by
  unfold removeRecord; rw [hr]; rfl

theorem stored_dropRecord {id : CompareId} (s : Seq) (p : PositionUnit) :
    (p.dropRecord s).stored id = if CompareId.subject id = some s then [] else p.stored id := by
  have hn : ∀ {a b : CompareId} {q : PositionUnit}, q.stored a = [] → (q.drop b).stored a = [] := by
    intro a b q h
    by_cases hab : a = b
    · subst hab; exact stored_drop_same _ _
    · rw [stored_drop_other hab, h]
  have ho : (∀ a ∈ [CompareId.empty s, .lag s, .decision s, .gate s], id ≠ a) → (p.dropRecord s).stored id = p.stored id := by
    intro h
    simp only [List.forall_mem_cons] at h
    obtain ⟨h1, h2, h3, h4, _⟩ := h
    unfold PositionUnit.dropRecord
    rw [stored_drop_other h4, stored_drop_other h3, stored_drop_other h2, stored_drop_other h1]
  split
  · next h =>
    unfold PositionUnit.dropRecord
    cases id <;> simp only [CompareId.subject, reduceCtorEq, Option.some.injEq] at h
    · subst h; exact hn (hn (hn (stored_drop_same _ _)))
    · subst h; exact hn (hn (stored_drop_same _ _))
    · subst h; exact hn (stored_drop_same _ _)
    · subst h; exact stored_drop_same _ _
  · next h =>
    refine ho fun a ha hid => h ?_
    subst hid
    simp only [List.mem_cons, List.not_mem_nil, or_false] at ha
    rcases ha with rfl | rfl | rfl | rfl <;> rfl

theorem withoutRecord_edgeSame (s : Seq) (st : Station) : EdgeSame st (st.withoutRecord s) := by
  refine ⟨rfl, rfl, rfl, fun id h => ?_⟩
  have hs : (st.position.dropRecord s).stored id = st.position.stored id := (stored_dropRecord s _).trans (if_neg (by
    rcases h with rfl | rfl | rfl <;> simp [CompareId.subject]))
  rw [find_eq_stored, find_eq_stored, ← hs]
  rfl

theorem bandRemoved_entersBlanked (s : Seq) (st : Station) : st.entersBlanked (st.bandRemoved s) :=
  EdgeSame.entersBlanked (((withoutRecord_edgeSame s st).trans (dropCompare_edgeSame (by simp) _)).trans
    (dropCompare_edgeSame (by simp) _)) (enterBlanked_entersBlanked _) (.refl _)

theorem bandRemoved_stored {id : CompareId} (h1 : id ≠ .qualification) (h2 : id ≠ .bridging) (h3 : id ≠ .blankRelease) (s : Seq)
    (st : Station) : (st.bandRemoved s).position.stored id =
      if id = .overlength ∨ id = .sample ∨ CompareId.subject id = some s then [] else st.position.stored id := by
  rw [Station.bandRemoved, enterBlanked_stored h1 h2 h3]
  simp only [dropCompare_position]
  by_cases ho : id = .overlength
  · subst ho; rw [stored_drop_same]; simp
  · rw [stored_drop_other ho]
    by_cases hs : id = .sample
    · subst hs; rw [stored_drop_same]; simp
    · rw [stored_drop_other hs]
      simp only [ho, hs, false_or]
      exact stored_dropRecord s _

/-- What the removal of a record does to the Edge Unit, the compares, the requests and the Result Port. -/
structure Removed (outcome : Verdict) (mark : SheetFlags → SheetFlags) (s : Seq) (r : Record) (a b : Station) : Prop where
  port : b.port = a.port.offer (resultOf a.shared outcome { r with flags := mark r.flags })
  engine : b.engine = { a.engine with requests := a.engine.requests.dropSubject s }
  outlet : b.outlet = a.outlet
  kept : r.band.state ≠ .opened → EdgeSame a b
  blanked : r.band.state = .opened → a.entersBlanked b ∧ b.stores .overlength = false ∧ b.stores .sample = false
  stored : ∀ id u, CompareId.subject id = some u → b.position.stored id = if u = s then [] else a.position.stored id

theorem removeRecord_removed (outcome : Verdict) (mark : SheetFlags → SheetFlags) {s : Seq} {st : Station} {r : Record}
    (hr : st.record s = some r) : Removed outcome mark s r st (removeRecord outcome mark s st) := by
  rw [removeRecord_eq hr]
  by_cases hb : r.band.state = .opened
  · simp only [if_pos hb]
    have hf : EdgeFrame (st.withoutRecord s) (st.bandRemoved s) :=
      ((dropCompare_edgeFrame _ _).trans (dropCompare_edgeFrame _ _)).trans (enterBlanked_edgeFrame _)
    have he : (st.bandRemoved s).engine = (st.withoutRecord s).engine := (enterBlanked_scan _).2
    refine ⟨?_, he, hf.outlet, fun h => absurd hb h, fun _ => ⟨?_, ?_, ?_⟩, fun id u hu => ?_⟩
    · exact congrArg (ResultPort.offer _) hf.port
    · exact EdgeSame.entersBlanked (.refl st) (bandRemoved_entersBlanked s st) (.ofPosition rfl rfl rfl)
    · rw [stores_eq_stored]
      exact congrArg (fun l => !List.isEmpty l) ((bandRemoved_stored (by simp) (by simp) (by simp) s st).trans (if_pos (by simp)))
    · rw [stores_eq_stored]
      exact congrArg (fun l => !List.isEmpty l) ((bandRemoved_stored (by simp) (by simp) (by simp) s st).trans (if_pos (by simp)))
    · have hne : ∀ x, CompareId.subject x = none → id ≠ x := by
        rintro x hx rfl; rw [hu] at hx; cases hx
      refine (bandRemoved_stored (hne _ rfl) (hne _ rfl) (hne _ rfl) s st).trans ?_
      simp [hu, hne .overlength rfl, hne .sample rfl]
  · simp only [if_neg hb]
    refine ⟨rfl, rfl, rfl, fun _ => (withoutRecord_edgeSame s st).trans (.ofPosition rfl rfl rfl), fun h => absurd h hb,
      fun id u hu => (stored_dropRecord s _).trans ?_⟩
    simp [hu]

/-! ## The VERDICT requests under head takes, whatever the sequence numbers -/

/-- Every VERDICT request is an old one, or one for a record held; the sequence numbers held are the same. -/
structure HeldVerdicts (a b : Station) : Prop where
  seqs : b.table.map (·.seq) = a.table.map (·.seq)
  verdict : ∀ h ∈ b.engine.requests.verdict, h ∈ a.engine.requests.verdict ∨ h.subject ∈ a.table.map (·.seq)

theorem HeldVerdicts.refl (a : Station) : HeldVerdicts a a := ⟨rfl, fun _ h => .inl h⟩

theorem HeldVerdicts.trans {a b c : Station} (h : HeldVerdicts a b) (k : HeldVerdicts b c) : HeldVerdicts a c := by
  refine ⟨k.seqs.trans h.seqs, fun x hx => ?_⟩
  rcases k.verdict x hx with h1 | h1
  · exact h.verdict x h1
  · exact .inr (h.seqs ▸ h1)

theorem HeldVerdicts.ofFrame {a b : Station} (h : HeadFrame a b) (hv : b.engine.requests.verdict = a.engine.requests.verdict) :
    HeldVerdicts a b := ⟨seqs_of_identities h.identities, fun _ hx => .inl (hv ▸ hx)⟩

theorem completeRecord_heldVerdicts (own : Bool) (s : Seq) (st : Station) : HeldVerdicts st (completeRecord own s st) := by
  refine ⟨seqs_of_identities (completeRecord_frame own s st).identities, fun h hh => ?_⟩
  cases hr : st.record s with
  | none => rw [completeRecord_none hr] at hh; exact .inl hh
  | some r =>
    by_cases hc : r.phase = .gathering ∧ recordComplete st.engine.peers r = true
    · rw [completeRecord_complete hr hc] at hh
      have hh' : h ∈ (st.engine.requests.complete own r.frozen s).verdict := hh
      have hv : h ∈ st.engine.requests.verdict ∨ h.subject = s := by
        cases own <;> cases hf : r.frozen <;> simp only [Requests.complete, hf, if_true, if_false, Bool.false_eq_true] at hh'
        · exact mem_raiseVerdict (q := st.engine.requests.dropTally s) hh'
        · exact .inl hh'
        · exact mem_raiseVerdict hh'
        · exact .inl hh'
      rcases hv with hv | hv
      · exact .inl hv
      · exact .inr (hv ▸ record_mem_seqs hr)
    · rw [completeRecord_incomplete hr hc] at hh; exact .inl hh

theorem settleBand_heldVerdicts (state : BandState) (entry : Record → Entry) (s : Seq) (st : Station) :
    HeldVerdicts st (settleBand state entry s st) := by
  rw [settleBand_eq]
  refine HeldVerdicts.trans ?_ (completeRecord_heldVerdicts true s _)
  refine .ofFrame ((HeadFrame.ofUpdate s _ ?_ st).trans (HeadFrame.ofRaiseTally s _)) (Requests.raiseTally_verdict s _)
  exact fun _ => rfl

theorem testClosing_heldVerdicts (s : Seq) (st : Station) : HeldVerdicts st (testClosing s st) := by
  unfold testClosing
  split
  · exact .refl st
  · split
    · exact settleBand_heldVerdicts _ _ s st
    · exact .refl st

theorem testAllClosing_heldVerdicts (st : Station) : HeldVerdicts st (testAllClosing st) := by
  have : ∀ (l : List Seq) (x : Station), HeldVerdicts x (l.foldl (fun s q => testClosing q s) x) := by
    intro l
    induction l with
    | nil => exact HeldVerdicts.refl
    | cons q rest ih => exact fun x => (testClosing_heldVerdicts q x).trans (ih _)
  exact this _ st

theorem headTake_heldVerdicts (st : Station) : HeldVerdicts st (headTake st).1 := by
  refine .ofFrame (headTake_frame st) ?_
  unfold headTake
  split
  · rfl
  · split
    · rfl
    · split
      · rfl
      · split <;> rfl

theorem headTakes_heldVerdicts (st : Station) : HeldVerdicts st (headTakes st) := by
  have : ∀ (n : Nat) (x : Station), HeldVerdicts x (headLoop n x) := by
    intro n
    induction n with
    | zero => exact HeldVerdicts.refl
    | succ n ih =>
      intro x
      have h := (headTake_heldVerdicts x).trans (testAllClosing_heldVerdicts _)
      simp only [headLoop]
      split
      · exact h.trans (ih _)
      · exact h
  exact this _ st

/-! ## Dispatch (R164 to R168) -/

/-- Whether a gate command is refused with GATE_BUSY. -/
theorem gateCommand_busy (r : Record) (outcome : Verdict) (st : Station) :
    (gateCommand r outcome st).2 = (st.shared.binMap.get outcome.index != 0 && st.outlet.window.isSome) := by
  unfold gateCommand
  simp only
  split
  · next hb => rw [hb]; rfl
  · next hb =>
    rw [bne_iff_ne.2 hb]
    split
    · next hw => rw [hw]; rfl
    · next hw => rw [hw]; rfl

/-- A gate command changes gate window and window compare alone. -/
theorem gateCommand_same (r : Record) (outcome : Verdict) (st : Station) : ∃ (o : OutletUnit) (p : PositionUnit),
    (gateCommand r outcome st).1 = { st with outlet := o, position := p } ∧ p.counter = st.position.counter ∧
      ∀ id, id ≠ .windowEnd → p.stored id = st.position.stored id := by
  unfold gateCommand
  simp only
  split
  · exact ⟨_, _, rfl, rfl, fun _ _ => rfl⟩
  · split
    · exact ⟨_, _, rfl, rfl, fun _ _ => rfl⟩
    · split
      · exact ⟨_, _, rfl, rfl, fun id h => (stored_drop_other h _).trans (stored_store_other h _ _ _)⟩
      · exact ⟨_, _, rfl, rfl, fun id h => stored_store_other h _ _ _⟩

/-- The station as the gate command of a record has been issued, where it is DECIDED on the outlet station. -/
def Station.commanded (r : Record) (st : Station) : Station × Bool :=
  if r.phase = .decided ∧ st.start.outlet = true then gateCommand r (r.outcome.getD .manual) st else (st, false)

/-- R164: the outcome with which a record is dispatched, and its flags. -/
def Record.dispatchOutcome (r : Record) : Verdict := if r.phase = .decided then r.outcome.getD .manual else .manual

def Record.dispatchMark (r : Record) (busy : Bool) (f : SheetFlags) : SheetFlags :=
  { f with gateBusy := f.gateBusy || busy, undecided := f.undecided || r.phase != .decided }

theorem dispatch_eq {s : Seq} {st : Station} {r : Record} (hr : st.record s = some r) : dispatch s st =
    headTakes (removeRecord r.dispatchOutcome (r.dispatchMark (st.commanded r).2) s (st.commanded r).1) := by
  unfold dispatch; rw [hr]
  simp only
  by_cases hp : r.phase = .decided
  · have h1 : st.commanded r = if st.start.outlet then gateCommand r (r.outcome.getD .manual) st else (st, false) := by
      simp [Station.commanded, hp]
    have h2 : ∀ b, r.dispatchMark b = fun f => { f with gateBusy := f.gateBusy || b } := by
      intro b; funext f; simp [Record.dispatchMark, hp]
    rw [if_pos hp, h2, h1, Record.dispatchOutcome, if_pos hp]
  · have h1 : st.commanded r = (st, false) := by simp [Station.commanded, hp]
    have h2 : r.dispatchMark false = fun f => { f with undecided := true } := by
      funext f; simp [Record.dispatchMark, hp]
    rw [if_neg hp, h1, h2, Record.dispatchOutcome, if_neg hp]

theorem commanded_same (r : Record) (st : Station) : ∃ (o : OutletUnit) (p : PositionUnit),
    (st.commanded r).1 = { st with outlet := o, position := p } ∧ p.counter = st.position.counter ∧
      ∀ id, id ≠ .windowEnd → p.stored id = st.position.stored id := by
  unfold Station.commanded
  split
  · exact gateCommand_same _ _ st
  · exact ⟨_, _, rfl, rfl, fun _ _ => rfl⟩

theorem commanded_busy (r : Record) (st : Station) : (st.commanded r).2 = (st.start.outlet && r.phase == .decided &&
    st.shared.binMap.get (r.outcome.getD .manual).index != 0 && st.outlet.window.isSome) := by
  unfold Station.commanded
  by_cases hp : r.phase = .decided <;> cases ho : st.start.outlet <;> simp [hp, gateCommand_busy]

/-- The result record of a dispatched record, before the lost count. -/
def Station.dispatchResult (r : Record) (st : Station) : ResultRecord :=
  resultOf st.shared r.dispatchOutcome { r with flags := r.dispatchMark (st.commanded r).2 r.flags }

/-- What the dispatch of a record does. -/
structure Dispatched (s : Seq) (r : Record) (a b : Station) : Prop where
  seqs : b.table.map (·.seq) = (a.table.map (·.seq)).filter (· != s)
  verdict : ∀ h ∈ b.engine.requests.verdict, h.subject ≠ s
  port : b.port = a.port.offer (a.dispatchResult r)
  kept : r.band.state ≠ .opened → EdgeSame a b
  blanked : r.band.state = .opened → a.entersBlanked b ∧ b.stores .overlength = false ∧ b.stores .sample = false
  stored : ∀ id u, CompareId.subject id = some u → b.position.stored id = if u = s then [] else a.position.stored id

theorem map_seq_filter (l : List Record) (p : Seq → Bool) :
    (l.filter fun x => p x.seq).map (·.seq) = (l.map (·.seq)).filter p := by
  rw [List.filter_map]; rfl

theorem dispatch_dispatched {s : Seq} {st : Station} {r : Record} (hr : st.record s = some r) :
    Dispatched s r st (dispatch s st) := by
  obtain ⟨o, p, hc, hcount, hstored⟩ := commanded_same r st
  have hsame : EdgeSame st (st.commanded r).1 := by
    rw [hc]
    refine ⟨rfl, hcount, rfl, fun id h => ?_⟩
    rw [find_eq_stored, find_eq_stored, hstored]
    rintro rfl
    rcases h with h | h | h <;> cases h
  have hr' : (st.commanded r).1.record s = some r := by rw [hc]; exact hr
  have h := removeRecord_removed r.dispatchOutcome (r.dispatchMark (st.commanded r).2) hr'
  have htab := removeRecord_table r.dispatchOutcome (r.dispatchMark (st.commanded r).2) s (st.commanded r).1
  have htab' : (st.commanded r).1.table = st.table := by rw [hc]
  rw [dispatch_eq hr]
  generalize hx : removeRecord r.dispatchOutcome (r.dispatchMark (st.commanded r).2) s (st.commanded r).1 = x at h htab
  have hf := headTakes_frame x
  have hseqs : x.table.map (·.seq) = (st.table.map (·.seq)).filter (· != s) := by
    rw [htab, htab']; exact map_seq_filter _ (· != s)
  refine ⟨(seqs_of_identities hf.identities).trans hseqs, fun y hy => ?_, ?_, fun hb => ?_, fun hb => ?_, fun id u hu => ?_⟩
  · rcases (headTakes_heldVerdicts x).verdict y hy with h1 | h1
    · rw [h.engine] at h1
      have h2 : y ∈ (st.commanded r).1.engine.requests.verdict.filter fun z => z.subject != s := h1
      simpa using (List.mem_filter.1 h2).2
    · rw [hseqs] at h1
      simpa using (List.mem_filter.1 h1).2
  · rw [hf.port, h.port, Station.dispatchResult, hc]; rfl
  · exact (hsame.trans (h.kept hb)).trans hf.edgeSame
  · obtain ⟨k1, k2, k3⟩ := h.blanked hb
    exact ⟨hsame.entersBlanked k1 hf.edgeSame, (hf.stores _).trans k2, (hf.stores _).trans k3⟩
  · rw [hf.position, h.stored id u hu, hc, hstored]
    rintro rfl
    cases hu

theorem oldestGateDue_isDue {st : Station} {s : Seq} (h : oldestGateDue st = some s) : st.position.isDue (.gate s) = true := by
  unfold oldestGateDue at h
  obtain ⟨r, hr, rfl⟩ := Option.map_eq_some_iff.1 h
  exact List.find?_some (p := fun r : Record => st.position.isDue (.gate r.seq)) hr

/-- Settles O21. -/
theorem gateCompareDispatchesOldestDue : Obligations.GateCompareDispatchesOldestDue := by
  intro seq r st q hl ho hr
  set x := dropCompare (.gate seq) st with hx
  have he : exec .gateCompare ⟨st, q⟩ = .next ⟨dispatch seq x, q⟩ := by
    rw [exec_live _ q hl]
    simp only [commandEffect, ho]
    rw [takeDue_acts _ st (oldestGateDue_isDue ho) (.inl (by simp [CompareId.owner]))]
    rfl
  have hrx : x.record seq = some r := hr
  have h := dispatch_dispatched hrx
  have hsame : EdgeSame st x := dropCompare_edgeSame (by simp) st
  have hframe := (dropCompare_frame (.gate seq) st).trans (dispatch_frame seq x)
  have hport : x.port = st.port := rfl
  refine ⟨dispatch seq x, x.dispatchResult r, he, h.seqs, h.verdict, ?_, ?_, ?_, rfl, rfl, ?_, fun hp v hv => ?_, fun hp => ?_,
    fun hroom => ?_, fun hfull => ?_, fun hb => ?_, fun hb => ?_, hframe.line, hframe.start, hframe.nextSeq⟩
  · rw [stores_eq_stored, h.stored _ seq rfl, if_pos rfl]; rfl
  · rw [stores_eq_stored, h.stored _ seq rfl, if_pos rfl]; rfl
  · exact resultOf_carries _ _ _ (r.dispatchMark (x.commanded r).2) rfl
  · exact congrArg (r.flags.gateBusy || ·) (commanded_busy r x)
  · show r.dispatchOutcome = v
    rw [Record.dispatchOutcome, if_pos hp, hv]; rfl
  · exact if_neg hp
  · rw [h.port, hport]; exact offer_room _ hroom
  · rw [h.port, hport]; exact offer_full _ hfull
  · rw [(h.kept hb).edge]; rfl
  · obtain ⟨k1, k2, k3⟩ := h.blanked hb
    exact ⟨hsame.entersBlanked k1 (.refl _), k2, k3⟩

end Sys2Proof.Machine

namespace Sys2Proof.Machine

/-! ## Records removed one after another (R138, R139) -/

/-- A result record of a purged record. -/
def purgedResult (sh : Shared) (x : ResultRecord) (y : Record) : Prop :=
  x.carries sh y ∧ x.outcome = .manual ∧ x.flags.purged = true

theorem resultOf_purged (sh : Shared) (y : Record) (lost : BitVec 8) :
    purgedResult sh { resultOf sh .manual { y with flags := { y.flags with purged := true } } with lost := lost } y :=
  ⟨resultOf_carries sh .manual y (fun f => { f with purged := true }) rfl, rfl, rfl⟩

/-- What the removal of the records `m`, oldest first, leaves, and the result records it offers. -/
structure Purged (m : List Record) (a b : Station) : Prop where
  frame : CompareFrame a b
  table : b.table = a.table.filter fun x => !(m.map (·.seq)).contains x.seq
  results : a.port.fifo.length + m.length ≤ 16 →
    ∃ l, b.port.fifo = a.port.fifo ++ l ∧ List.Forall₂ (purgedResult a.shared) l m
  kept : (∀ x ∈ m, x.band.state ≠ .opened) → EdgeSame a b

theorem purgeRecord_removed {st : Station} {s : Seq} {r : Record} (hr : st.record s = some r) :
    Removed .manual (fun f => { f with purged := true }) s r st (purgeRecord st s) := removeRecord_removed _ _ hr

theorem purgeRecord_table (st : Station) (s : Seq) : (purgeRecord st s).table = st.table.filter fun x => x.seq != s :=
  removeRecord_table _ _ s st

/-- The records that stay are found as before. -/
theorem purgeRecord_record (st : Station) {s u : Seq} (h : u ≠ s) : (purgeRecord st s).record u = st.record u := by
  unfold Station.record
  rw [purgeRecord_table, List.find?_filter]
  congr 1
  funext x
  by_cases hx : x.seq = u
  · simp [hx, h]
  · simp [hx]

theorem purgeFold_purged : ∀ (m : List Record) (st : Station), (∀ x ∈ m, st.record x.seq = some x) → (m.map (·.seq)).Nodup →
    Purged m st ((m.map (·.seq)).foldl purgeRecord st)
  | [], st, _, _ => ⟨CompareFrame.refl st, by simp, fun _ => ⟨[], by simp, .nil⟩, fun _ => .refl st⟩
  | x :: m, st, hr, hn => by
    obtain ⟨hx, hm⟩ := List.nodup_cons.1 hn
    have h := purgeRecord_removed (hr x (List.mem_cons_self ..))
    have hf : CompareFrame st (purgeRecord st x.seq) := removeRecord_frame _ _ _ st
    have ih := purgeFold_purged m (purgeRecord st x.seq) (fun y hy => by
      rw [purgeRecord_record st fun he => hx (List.mem_map.2 ⟨y, hy, he⟩)]
      exact hr y (List.mem_cons_of_mem _ hy)) hm
    refine ⟨hf.trans ih.frame, ?_, fun hl => ?_, fun hb => ?_⟩
    · show (List.foldl purgeRecord (purgeRecord st x.seq) (m.map (·.seq))).table = _
      rw [ih.table, purgeRecord_table, List.filter_filter]
      refine List.filter_congr fun y _ => ?_
      by_cases hy : y.seq = x.seq <;> simp [hy]
    · have hlen : st.port.fifo.length < 16 := by
        have := List.length_cons (a := x) (as := m); omega
      obtain ⟨h1, _⟩ := offer_room (resultOf st.shared .manual { x with flags := { x.flags with purged := true } }) hlen
      rw [← h.port] at h1
      obtain ⟨l, hl1, hl2⟩ := ih.results (by
        rw [h1, List.length_append]
        simp only [List.length_cons, List.length_nil] at hl ⊢
        omega)
      refine ⟨_ :: l, ?_, .cons (resultOf_purged _ x st.port.lost) (shared_of_start hf.start ▸ hl2)⟩
      show (List.foldl purgeRecord (purgeRecord st x.seq) (m.map (·.seq))).port.fifo = _
      rw [hl1, h1, List.append_assoc]; rfl
    · exact (h.kept (hb x (List.mem_cons_self ..))).trans (ih.kept fun y hy => hb y (List.mem_cons_of_mem _ hy))

/-- Two records of a table in which one band is OPEN at most are the same where both bands are OPEN. -/
theorem opened_unique {l : List Record} (h : l.countP (fun r => r.band.state == .opened) ≤ 1) {x y : Record} (hx : x ∈ l)
    (hy : y ∈ l) (hxo : x.band.state = .opened) (hyo : y.band.state = .opened) : x = y := by
  rw [List.countP_eq_length_filter] at h
  have hm : ∀ z ∈ l, z.band.state = .opened → z ∈ l.filter fun r => r.band.state == .opened :=
    fun z hz ho => List.mem_filter.2 ⟨hz, by simp [ho]⟩
  have h1 := hm x hx hxo
  have h2 := hm y hy hyo
  match hl : l.filter fun r => r.band.state == .opened with
  | [] => rw [hl] at h1; cases h1
  | [z] =>
    rw [hl] at h1 h2
    rw [List.mem_singleton.1 h1, List.mem_singleton.1 h2]
  | _ :: _ :: _ => rw [hl] at h; simp at h

/-- Where the OPEN band is among the records removed, the Edge Unit is blanked. -/
theorem purgeFold_entersBlanked : ∀ (m : List Record) (st : Station), (∀ x ∈ m, st.record x.seq = some x) →
    (m.map (·.seq)).Nodup → st.oneOpenBand → (∃ x ∈ m, x.band.state = .opened) →
    st.entersBlanked ((m.map (·.seq)).foldl purgeRecord st)
  | [], _, _, _, _, h => by obtain ⟨_, hx, _⟩ := h; cases hx
  | x :: m, st, hr, hn, ho, hb => by
    obtain ⟨hx, hm⟩ := List.nodup_cons.1 hn
    have hrx := hr x (List.mem_cons_self ..)
    have h := purgeRecord_removed hrx
    have hrest : ∀ y ∈ m, (purgeRecord st x.seq).record y.seq = some y := fun y hy => by
      rw [purgeRecord_record st fun he => hx (List.mem_map.2 ⟨y, hy, he⟩)]
      exact hr y (List.mem_cons_of_mem _ hy)
    show st.entersBlanked (List.foldl purgeRecord (purgeRecord st x.seq) (m.map (·.seq)))
    by_cases hxo : x.band.state = .opened
    · have hk := (purgeFold_purged m _ hrest hm).kept fun y hy hyo => by
        have hym := record_mem (hr y (List.mem_cons_of_mem _ hy))
        exact hx (List.mem_map.2 ⟨y, hy, by rw [opened_unique ho hym (record_mem hrx) hyo hxo]⟩)
      exact EdgeSame.entersBlanked (.refl st) (h.blanked hxo).1 hk
    · have ho' : (purgeRecord st x.seq).oneOpenBand := by
        show List.countP _ _ ≤ 1
        rw [purgeRecord_table]
        exact (List.Sublist.countP_le List.filter_sublist).trans ho
      have hb' : ∃ y ∈ m, y.band.state = .opened := by
        obtain ⟨y, hy, hyo⟩ := hb
        rcases List.mem_cons.1 hy with rfl | hy
        · exact absurd hyo hxo
        · exact ⟨y, hy, hyo⟩
      exact (h.kept hxo).entersBlanked (purgeFold_entersBlanked m _ hrest hm ho' hb') (.refl _)

/-! ## Blanking with presence held -/

theorem enterBlanked_discardPending (st : Station) : enterBlanked (discardPending st) = enterBlanked st := by
  have h : discardPending (discardPending st) = discardPending st := by
    unfold discardPending
    simp only [drop_drop, Option.isNone_none, Bool.and_true]
  have h1 : (discardPending st).edge.state = st.edge.state := rfl
  have h2 : (discardPending st).presenceHeld = st.presenceHeld := rfl
  have h3 : (discardPending st).edge.fall = st.edge.fall := rfl
  have h4 : (discardPending st).position.counter = st.position.counter := rfl
  simp only [enterBlanked, h, h1, h2, h3, h4]

/-- Presence held and BLANKED without a start of absence already: another entry to BLANKED is the same entry. -/
theorem entersBlanked_again {st x : Station} (hp : st.presenceHeld = true) (h : st.entersBlanked x) :
    st.entersBlanked (enterBlanked x) := by
  obtain ⟨_, _, h1, h2, _, _⟩ := h
  have hb : x.edge.state = .blanked := by
    by_cases hs : st.edge.state = .blanked
    · rw [h1 hs]; exact hs
    · rw [(h2 hs hp).1]
  have he : enterBlanked x = dropCompare .bridging (discardPending x) := if_pos hb
  have hst : ∀ id, (enterBlanked x).stores id = (x.stores id && id != .qualification && id != .bridging) := by
    intro id
    rw [he, stores_drop]
    exact congrArg (· && _) (stores_drop x .qualification id)
  have hne : ∀ {P : Prop}, st.presenceHeld = false → P := fun h => absurd (hp.symm.trans h) (by decide)
  have hedge : (enterBlanked x).edge = { x.edge with pending := none, testDeferred := false } := by rw [he]; rfl
  refine ⟨by rw [hst]; simp, by rw [hst]; simp, fun hs => ?_, fun hs _ => ⟨?_, ?_⟩, fun _ => hne, fun _ => hne⟩
  · rw [hedge, h1 hs]
  · rw [hedge, (h2 hs hp).1]
  · rw [hst, (h2 hs hp).2]; rfl

/-- The Edge Unit as before, or blanked. -/
def Station.sameOrBlanked (st x : Station) : Prop := EdgeSame st x ∨ st.entersBlanked x

/-- With presence held, an entry to BLANKED from either is an entry to BLANKED from the station before. -/
theorem sameOrBlanked_entersBlanked {st x t : Station} (hp : st.presenceHeld = true) (h : st.sameOrBlanked x)
    (ht : EdgeSame (enterBlanked x) t) : st.entersBlanked t := by
  rcases h with h | h
  · exact h.entersBlanked (enterBlanked_entersBlanked x) ht
  · exact EdgeSame.entersBlanked (.refl st) (entersBlanked_again hp h) ht

/-- The removal of one record leaves the Edge Unit, or blanks it. -/
theorem purgeRecord_edge {x : Station} (s : Seq) : EdgeSame x (purgeRecord x s) ∨
    ∃ y, EdgeSame x y ∧ EdgeSame (enterBlanked y) (purgeRecord x s) := by
  cases hr : x.record s with
  | none => exact .inl (by rw [show purgeRecord x s = x from removeRecord_none hr]; exact .refl x)
  | some r =>
    by_cases hb : r.band.state = .opened
    · refine .inr ⟨_, ((withoutRecord_edgeSame s x).trans (dropCompare_edgeSame (id := .sample) (by simp) _)).trans
        (dropCompare_edgeSame (id := .overlength) (by simp) _), ?_⟩
      rw [show purgeRecord x s = _ from removeRecord_eq hr]
      simp only [if_pos hb]
      exact .ofPosition rfl rfl rfl
    · exact .inl ((purgeRecord_removed hr).kept hb)

theorem enterBlanked_congr_entersBlanked {st x y t : Station} (hp : st.presenceHeld = true) (h : st.sameOrBlanked x)
    (hxy : EdgeSame x y) (ht : EdgeSame (enterBlanked y) t) : st.entersBlanked t := by
  refine sameOrBlanked_entersBlanked hp ?_ ht
  rcases h with h | h
  · exact .inl (h.trans hxy)
  · exact .inr (EdgeSame.entersBlanked (.refl st) h hxy)

theorem purgeFold_sameOrBlanked {st : Station} (hp : st.presenceHeld = true) : ∀ (l : List Seq) (x : Station),
    st.sameOrBlanked x → st.sameOrBlanked (l.foldl purgeRecord x)
  | [], _, h => h
  | s :: l, x, h => by
    refine purgeFold_sameOrBlanked hp l (purgeRecord x s) ?_
    rcases purgeRecord_edge s with k | ⟨y, k1, k2⟩
    · rcases h with h | h
      · exact .inl (h.trans k)
      · exact .inr (EdgeSame.entersBlanked (.refl st) h k)
    · exact .inr (enterBlanked_congr_entersBlanked hp h k1 k2)

/-! ## A PURGE round of scope ALL (R50, R138) -/

/-- The Edge Unit after a PURGE ALL that finds presence held. -/
theorem purgeEdge_held {b : Bool} {x : Station} (h : x.presenceHeld = true) : purgeEdge b x = enterBlanked x := by
  unfold purgeEdge
  have h' : (discardPending x).presenceHeld = true := h
  simp only [h', if_true, enterBlanked_discardPending]

theorem purgeEdge_blanked {x : Station} (h : x.presenceHeld = false) : purgeEdge true x = discardPending x := by
  unfold purgeEdge
  have h' : (discardPending x).presenceHeld = false := h
  simp only [h', if_true, Bool.false_eq_true, if_false]

theorem purgeEdge_absent {x : Station} (h : x.presenceHeld = false) : (purgeEdge false x).edge = { x.edge with
    state := .idle, pending := none, fall := none, absence := none, testDeferred := false } := by
  unfold purgeEdge
  have h' : (discardPending x).presenceHeld = false := h
  simp only [h', Bool.false_eq_true, if_false]
  rfl

theorem purgeEdge_pending (b : Bool) (x : Station) : (purgeEdge b x).edge.pending = none := by
  cases hp : x.presenceHeld with
  | true => rw [purgeEdge_held hp]; exact (enterBlanked_pending x).1
  | false =>
    cases b with
    | true => rw [purgeEdge_blanked hp]; rfl
    | false => rw [purgeEdge_absent hp]

theorem purgeEdge_edgeFrame (b : Bool) (x : Station) : EdgeFrame x (purgeEdge b x) := by
  cases hp : x.presenceHeld with
  | true => rw [purgeEdge_held hp]; exact enterBlanked_edgeFrame x
  | false =>
    cases b with
    | true => rw [purgeEdge_blanked hp]; exact discardPending_edgeFrame x
    | false =>
      have hp' : (discardPending x).presenceHeld = false := hp
      have h := ((discardPending_edgeFrame x).trans (dropCompare_edgeFrame .bridging _)).trans (dropCompare_edgeFrame .blankRelease _)
      have he : purgeEdge false x = { dropCompare .blankRelease (dropCompare .bridging (discardPending x)) with
          edge := { (discardPending x).edge with state := .idle, fall := none, absence := none } } := by
        unfold purgeEdge
        simp only [hp', Bool.false_eq_true, if_false]
        rfl
      rw [he]
      exact h.trans (EdgeFrame.ofEdge _ _ rfl rfl)

/-- Where the Edge Unit is blanked already, no edge pending, the discarding of the pending edge leaves it. -/
theorem entersBlanked_discardPending {st x : Station} (h : st.entersBlanked x) : st.entersBlanked (discardPending x) := by
  have hst : ∀ id, (discardPending x).stores id = (x.stores id && id != .qualification) := fun id => stores_drop x .qualification id
  have hfind : (discardPending x).position.find .blankRelease = x.position.find .blankRelease := find_drop_other (by simp) _
  have hedge : x.edge = { st.edge with state := x.edge.state, fall := x.edge.fall, absence := x.edge.absence, pending := none, testDeferred := false } →
      (discardPending x).edge = x.edge := by
    intro h
    show { x.edge with pending := none, testDeferred := false } = x.edge
    rw [h]
  obtain ⟨h0, h1, h2, h3, h4, h5⟩ := h
  refine ⟨by rw [hst]; simp, by rw [hst, h1]; rfl, fun a => ?_, fun a b => ?_, fun a b c d => ?_, fun a b c => ?_⟩
  · rw [hedge (by rw [h2 a]), h2 a]
  · obtain ⟨k1, k2⟩ := h3 a b
    exact ⟨by rw [hedge (by rw [k1]), k1], by rw [hst, k2]; rfl⟩
  · obtain ⟨k1, k2⟩ := h4 a b c d
    exact ⟨by rw [hedge (by rw [k1]), k1], by rw [hst, k2]; rfl⟩
  · obtain ⟨k1, k2⟩ := h5 a b c
    exact ⟨by rw [hedge (by rw [k1]), k1], by rw [hfind, k2]⟩

/-- What a PURGE ALL does at a station with distinct sequence numbers. -/
theorem purgeAll_spec {st : Station} (hd : st.seqsDistinct) : let t := purgeAll st
    t.table = [] ∧ t.scan.fifo = [] ∧ t.scan.overrun = false ∧ t.edge.pending = none ∧
    t.engine.requests = { opening := false, roll := st.engine.requests.roll, tally := [], verdict := [], purge := .none } ∧
    (st.presenceHeld = true → st.entersBlanked t) ∧
    (st.presenceHeld = false → st.oneOpenBand → st.openRecord.isSome = true → st.entersBlanked t) ∧
    (st.presenceHeld = false → st.openRecord = none → t.edge = { st.edge with
      state := .idle, pending := none, fall := none, absence := none, testDeferred := false }) ∧
    (st.port.fifo.length + st.table.length ≤ 16 →
      ∃ l, t.port.fifo = st.port.fifo ++ l ∧ List.Forall₂ (purgedResult st.shared) l st.table) := by
  intro t
  have hrec : ∀ x ∈ st.table, st.record x.seq = some x := fun x hx => record_of_mem hd hx
  have hm := purgeFold_purged st.table st hrec hd
  set x := (st.table.map (·.seq)).foldl purgeRecord st with hx
  have hpf := purgeEdge_edgeFrame st.openRecord.isSome x
  have hxp : x.presenceHeld = st.presenceHeld := by
    unfold Station.presenceHeld Station.loc; rw [hm.frame.pin, hm.frame.start]
  have ht : EdgeSame (purgeEdge st.openRecord.isSome x) t := .ofPosition rfl rfl rfl
  refine ⟨?_, rfl, rfl, purgeEdge_pending _ x, ?_, fun hp => ?_, fun hp ho hs => ?_, fun hp hs => ?_, fun hl => ?_⟩
  · have h1 : x.table = [] := by
      rw [hm.table, List.filter_eq_nil_iff]
      intro y hy
      simp only [Bool.not_eq_true', Bool.not_eq_false, List.contains_iff_mem]
      exact List.mem_map.2 ⟨y, hy, rfl⟩
    show (purgeEdge _ x).table = []
    rw [(purgeEdge_aside _ x).table, h1]
  · have h1 : (purgeEdge st.openRecord.isSome x).engine.requests.roll = st.engine.requests.roll := hpf.roll.trans hm.frame.roll
    exact congrArg (fun b => ({ opening := false, roll := b, tally := [], verdict := [], purge := .none } : Requests)) h1
  · rw [purgeEdge_held (hxp.trans hp)] at ht
    exact sameOrBlanked_entersBlanked hp (purgeFold_sameOrBlanked hp _ st (.inl (.refl st))) ht
  · rw [hs, purgeEdge_blanked (hxp.trans hp)] at ht
    obtain ⟨r, hr⟩ := Option.isSome_iff_exists.1 hs
    have hb := purgeFold_entersBlanked st.table st hrec hd ho ⟨r, openRecord_mem hr⟩
    exact EdgeSame.entersBlanked (.refl st) (entersBlanked_discardPending hb) ht
  · rw [ht.edge, hs]
    refine (purgeEdge_absent (hxp.trans hp)).trans ?_
    have hk := hm.kept fun y hy hyo => by
      have := List.find?_eq_none.1 hs y hy
      simp [hyo] at this
    rw [hk.edge]
  · obtain ⟨l, h1, h2⟩ := hm.results hl
    refine ⟨l, ?_, h2⟩
    show (purgeEdge _ x).port.fifo = _
    rw [hpf.port, h1]

/-! ## PURGE rounds of scope OPEN and ONE (R139, R140) -/

/-- What the removal of a part of the records, with the head takes that follow, does. -/
structure PurgedPart (m : List Record) (a b : Station) : Prop where
  frame : CompareFrame a b
  seqs : b.table.map (·.seq) = (a.table.filter fun x => !(m.map (·.seq)).contains x.seq).map (·.seq)
  results : a.port.fifo.length + m.length ≤ 16 →
    ∃ l, b.port.fifo = a.port.fifo ++ l ∧ List.Forall₂ (purgedResult a.shared) l m
  blanked : (∃ x ∈ m, x.band.state = .opened) → a.oneOpenBand → a.entersBlanked b
  kept : (∀ x ∈ m, x.band.state ≠ .opened) → b.edge = a.edge

theorem purgedPart_nil (a : Station) : PurgedPart [] a a :=
  ⟨CompareFrame.refl a, by simp, fun _ => ⟨[], by simp, .nil⟩, fun h _ => absurd h (by simp), fun _ => rfl⟩

theorem purgedPart_of {m : List Record} {st : Station} (hr : ∀ x ∈ m, st.record x.seq = some x) (hn : (m.map (·.seq)).Nodup) :
    PurgedPart m st (headTakes ((m.map (·.seq)).foldl purgeRecord st)) := by
  have h := purgeFold_purged m st hr hn
  set x := (m.map (·.seq)).foldl purgeRecord st with hx
  have hf := headTakes_frame x
  refine ⟨h.frame.trans (headTakes_compareFrame x), ?_, fun hl => ?_, fun hb ho => ?_, fun hb => ?_⟩
  · rw [seqs_of_identities hf.identities, h.table]
  · rw [hf.port]; exact h.results hl
  · exact EdgeSame.entersBlanked (.refl st) (purgeFold_entersBlanked m st hr hn ho hb) hf.edgeSame
  · rw [hf.edge, (h.kept hb).edge]

/-- A change of the requests beside ROLL, after. -/
theorem PurgedPart.withRequests {m : List Record} {a b : Station} (h : PurgedPart m a b) (f : Requests → Requests)
    (hf : ∀ q, (f q).roll = q.roll) : PurgedPart m a (withRequests f b) :=
  ⟨h.frame.trans (withRequests_frame f hf b), h.seqs, h.results,
    fun hb ho => EdgeSame.entersBlanked (.refl a) (h.blanked hb ho) (.ofPosition rfl rfl rfl), h.kept⟩

theorem purgeOpen_spec {st : Station} (hd : st.seqsDistinct) :
    PurgedPart (st.table.filter fun x => x.phase != .decided) st (purgeOpen st) ∧
      (purgeOpen st).engine.requests.purge ≠ .opened := by
  constructor
  · unfold purgeOpen
    refine PurgedPart.withRequests ?_ _ fun _ => rfl
    split
    · next h =>
      have h' : (st.table.filter fun x => x.phase != .decided) = [] := by simpa [List.isEmpty_iff] using h
      rw [h']
      exact purgedPart_nil st
    · exact purgedPart_of (fun x hx => record_of_mem hd (List.mem_filter.1 hx).1)
        (List.Nodup.sublist (List.Sublist.map _ List.filter_sublist) hd)
  · have hne : ∀ (d : Seq → Bool) (p : PurgeSet), p.afterOpen d ≠ .opened := by
      intro d p
      cases p with
      | ones l => simp only [PurgeSet.afterOpen, PurgeSet.ofOnes]; split <;> simp
      | _ => simp [PurgeSet.afterOpen]
    exact hne _ _

theorem filter_seq_eq {st : Station} (hd : st.seqsDistinct) (s : Seq) :
    (st.table.filter fun x => x.seq == s) = (st.record s).toList := by
  cases hr : st.record s with
  | none =>
    refine List.filter_eq_nil_iff.2 fun x hx => ?_
    have := List.find?_eq_none.1 hr x hx
    simpa using this
  | some r =>
    have h1 : ∀ x ∈ st.table.filter (fun x => x.seq == s), x = r := by
      intro x hx
      obtain ⟨hx1, hx2⟩ := List.mem_filter.1 hx
      exact List.inj_on_of_nodup_map hd hx1 (record_mem hr) (by rw [record_seq hr]; simpa using hx2)
    have h2 : r ∈ st.table.filter (fun x => x.seq == s) := List.mem_filter.2 ⟨record_mem hr, by simp [record_seq hr]⟩
    have h3 : (st.table.filter fun x => x.seq == s).Nodup := (List.Nodup.of_map _ hd).filter _
    exact List.perm_singleton.1 ((List.perm_ext_iff_of_nodup h3 (List.nodup_singleton r)).2 fun x =>
      ⟨fun hx => List.mem_singleton.2 (h1 x hx), fun hx => List.mem_singleton.1 hx ▸ h2⟩)

theorem purgeOne_spec {st : Station} (hd : st.seqsDistinct) (s : Seq) :
    PurgedPart (st.table.filter fun x => x.seq == s) st (purgeOne s st) := by
  rw [filter_seq_eq hd]
  unfold purgeOne
  refine PurgedPart.withRequests ?_ _ fun _ => rfl
  cases hr : st.record s with
  | none => exact purgedPart_nil st
  | some r =>
    have h := purgedPart_of (m := [r]) (st := st) (fun x hx => by
      rw [List.mem_singleton.1 hx, record_seq hr, hr]) (by simp)
    simpa [record_seq hr] using h

/-- A completed PURGE round, by node state and scope. -/
theorem completePurge_eq {st : Station} {r : Round} (h : completing .purge st = some r) :
    completePurge st = toGuard st ∧ ¬ (st.start.node = .running ∧
      (r.result 0 = some 1 ∨ r.result 0 = some 2 ∨ ∃ s, r.result 0 = some 3 ∧ r.result 1 = some s)) ∨
    st.start.node = .running ∧ (r.result 0 = some 1 ∧ completePurge st = purgeAll (toGuard st) ∨
      r.result 0 = some 2 ∧ completePurge st = purgeOpen (toGuard st) ∨
      ∃ s, r.result 0 = some 3 ∧ r.result 1 = some s ∧ completePurge st = purgeOne (BitVec.ofNat 16 s) (toGuard st)) := by
  unfold completePurge
  simp only [h]
  by_cases hn : st.start.node = .running
  · simp only [if_pos hn]
    split
    · next h0 => exact .inr ⟨hn, .inl ⟨h0, rfl⟩⟩
    · next h0 => exact .inr ⟨hn, .inr (.inl ⟨h0, rfl⟩)⟩
    · next s h0 h1 => exact .inr ⟨hn, .inr (.inr ⟨s, h0, h1, rfl⟩)⟩
    · next k1 k2 k3 =>
      refine .inl ⟨rfl, ?_⟩
      rintro ⟨_, h0 | h0 | ⟨s, h0, h1⟩⟩
      · exact k1 h0
      · exact k2 h0
      · exact k3 s h0 h1
  · simp only [if_neg hn]
    exact .inl ⟨trivial, fun hh => hn hh.1⟩

/-- What a PURGE round of any scope leaves unchanged, whatever the sequence numbers. -/
structure PurgeKept (a b : Station) : Prop where
  line : b.line = a.line
  nextSeq : b.engine.nextSeq = a.engine.nextSeq
  roll : b.engine.requests.roll = a.engine.requests.roll

theorem CompareFrame.purgeKept {a b : Station} (h : CompareFrame a b) : PurgeKept a b := ⟨h.line, h.nextSeq, h.roll⟩

theorem purgeFold_frame : ∀ (l : List Seq) (st : Station), CompareFrame st (l.foldl purgeRecord st)
  | [], st => CompareFrame.refl st
  | s :: l, st => (removeRecord_frame _ _ s st).trans (purgeFold_frame l (purgeRecord st s))

theorem purgeAll_kept (st : Station) : PurgeKept st (purgeAll st) := by
  have h := ((purgeFold_frame (st.table.map (·.seq)) st).trans (purgeEdge_edgeFrame st.openRecord.isSome _).toCompareFrame).purgeKept
  exact ⟨h.line, h.nextSeq, h.roll⟩

theorem purgeOpen_kept (st : Station) : PurgeKept st (purgeOpen st) := by
  refine CompareFrame.purgeKept ?_
  unfold purgeOpen
  refine CompareFrame.trans ?_ (withRequests_frame _ ?_ _)
  rotate_left
  · exact fun _ => rfl
  split
  · exact CompareFrame.refl st
  · exact (purgeFold_frame _ st).trans (headTakes_compareFrame _)

theorem purgeOne_kept (s : Seq) (st : Station) : PurgeKept st (purgeOne s st) := by
  refine CompareFrame.purgeKept ?_
  unfold purgeOne
  refine CompareFrame.trans ?_ (withRequests_frame _ ?_ _)
  rotate_left
  · exact fun _ => rfl
  split
  · exact (removeRecord_frame _ _ s st).trans (headTakes_compareFrame _)
  · exact CompareFrame.refl st

theorem completePurge_kept {st : Station} {r : Round} (h : completing .purge st = some r) :
    PurgeKept (toGuard st) (completePurge st) := by
  rcases completePurge_eq h with ⟨he, _⟩ | ⟨_, ⟨_, he⟩ | ⟨_, he⟩ | ⟨s, _, _, he⟩⟩ <;> rw [he]
  · exact ⟨rfl, rfl, rfl⟩
  · exact purgeAll_kept _
  · exact purgeOpen_kept _
  · exact purgeOne_kept _ _

/-- Settles O47. -/
theorem purgeRoundRemovesRecords : Obligations.PurgeRoundRemovesRecords := by
  intro r st q hl hc results blanksIfOpen
  have hk := completePurge_kept hc
  refine ⟨completePurge st, exec_live _ q hl, hk.line, hk.nextSeq, hk.roll, fun h => ?_, fun hn hd => ⟨fun h0 => ?_, fun h0 => ?_,
    fun s h0 h1 => ?_⟩⟩
  all_goals rcases completePurge_eq hc with ⟨he, hno⟩ | ⟨hn', ⟨k0, he⟩ | ⟨k0, he⟩ | ⟨s', k0, k1, he⟩⟩
  · rw [he]; exact ⟨rfl, rfl, rfl, rfl⟩
  · rcases h with h | h
    · exact absurd hn' h
    · rw [h] at k0; cases k0
  · rcases h with h | h
    · exact absurd hn' h
    · rw [h] at k0; cases k0
  · rcases h with h | h
    · exact absurd hn' h
    · rw [h] at k0; cases k0
  · exact absurd ⟨hn, .inl h0⟩ hno
  · rw [he]
    exact purgeAll_spec (st := toGuard st) hd
  · rw [h0] at k0; cases k0
  · rw [h0] at k0; cases k0
  · exact absurd ⟨hn, .inr (.inl h0)⟩ hno
  · rw [h0] at k0; cases k0
  · rw [he]
    obtain ⟨h, hp⟩ := purgeOpen_spec (st := toGuard st) hd
    refine ⟨h.seqs.trans (congrArg _ (List.filter_congr fun x hx => ?_)), hp, h.results, h.blanked, h.kept⟩
    rw [Bool.eq_iff_iff]
    simp only [Bool.not_eq_true', ← Bool.not_eq_true, List.contains_iff_mem, List.mem_map, List.mem_filter, bne_iff_ne, ne_eq,
      beq_iff_eq, not_exists, not_and]
    constructor
    · intro hh
      by_contra hp
      exact hh x ⟨hx, hp⟩ rfl
    · rintro hp y ⟨hy, hyp⟩ hyx
      rw [List.inj_on_of_nodup_map (f := Record.seq) hd hy hx hyx] at hyp
      exact hyp hp
  · rw [h0] at k0; cases k0
  · exact absurd ⟨hn, .inr (.inr ⟨s, h0, h1⟩)⟩ hno
  · rw [h0] at k0; cases k0
  · rw [h0] at k0; cases k0
  · rw [h1] at k1; cases k1
    rw [he]
    have h := purgeOne_spec (st := toGuard st) hd (BitVec.ofNat 16 s)
    refine ⟨h.seqs.trans ?_, h.results, h.blanked, h.kept⟩
    rw [← map_seq_filter _ (· != BitVec.ofNat 16 s)]
    refine congrArg _ (List.filter_congr fun x hx => ?_)
    rw [Bool.eq_iff_iff]
    simp only [Bool.not_eq_true', ← Bool.not_eq_true, List.contains_iff_mem, List.mem_map, List.mem_filter, bne_iff_ne, ne_eq,
      beq_iff_eq, not_exists, not_and]
    constructor
    · intro hh hs
      exact hh x ⟨hx, hs⟩ rfl
    · rintro hs y ⟨_, hys⟩ hyx
      exact hs (hyx ▸ hys)

end Sys2Proof.Machine

namespace Sys2Proof.Machine

/-! ## The readings of the TALLY slots in the subject record (R128) -/

/-- What the slot of one index does to the subject record. -/
def Record.tookSlot (members : Index → Bool) (readings : Eight (Reading TallyEntry)) (r : Record) (k : Index) : Record :=
  if members k then r.takeReading k (readings.get k) else r

/-- The entry that a reading stores. -/
def storedBy (reading : Reading TallyEntry) : Option Entry :=
  match reading with
  | .entry (.closed s) => some (.closed s)
  | .entry .empty => some .empty
  | .entry .unknown => some .unknown
  | .entry .pending => none
  | .silent => none
  | .damaged => none

theorem storedBy_unknown (reading : Reading TallyEntry) : storedBy reading = some .unknown ↔ reading = .entry .unknown := by
  cases reading with
  | entry e => cases e <;> simp [storedBy]
  | _ => simp [storedBy]

theorem takeReading_eq (k : Index) (reading : Reading TallyEntry) (r : Record) :
    r.takeReading k reading = match storedBy reading with
      | some e => r.storeEntry k e
      | none => r := by
  cases reading with
  | entry e => cases e <;> rfl
  | _ => rfl

theorem tookSlot_spec (members : Index → Bool) (readings : Eight (Reading TallyEntry)) (r : Record) (k : Index) :
    (∀ j : Index, (r.tookSlot members readings k).entries.get j =
      if j = k ∧ members k = true then (storedBy (readings.get k)).or (r.entries.get j) else r.entries.get j) ∧
    ((r.tookSlot members readings k).flags.blind = true ↔
      r.flags.blind = true ∨ members k = true ∧ readings.get k = .entry .unknown) ∧
    r.tookSlot members readings k = { r with
      entries := (r.tookSlot members readings k).entries
      flags := { r.flags with blind := (r.tookSlot members readings k).flags.blind } } := by
  cases hm : members k with
  | false =>
    have h : r.tookSlot members readings k = r := by simp [Record.tookSlot, hm]
    rw [h]
    exact ⟨fun j => by simp, by simp, rfl⟩
  | true =>
    have h : r.tookSlot members readings k = r.takeReading k (readings.get k) := by simp [Record.tookSlot, hm]
    rw [h, takeReading_eq, ← storedBy_unknown]
    cases storedBy (readings.get k) with
    | none => exact ⟨fun j => by simp, by simp, rfl⟩
    | some e =>
      by_cases he : e = .unknown
      · subst he
        exact ⟨fun j => by simp [Record.storeEntry, get_set], by simp [Record.storeEntry], rfl⟩
      · exact ⟨fun j => by simp [Record.storeEntry, get_set], by simp [Record.storeEntry, he], by simp [Record.storeEntry, he]⟩

theorem tookSlots_spec (members : Index → Bool) (readings : Eight (Reading TallyEntry)) : ∀ (l : List Index) (r : Record),
    (∀ j : Index, (l.foldl (Record.tookSlot members readings) r).entries.get j =
      if j ∈ l ∧ members j = true then (storedBy (readings.get j)).or (r.entries.get j) else r.entries.get j) ∧
    ((l.foldl (Record.tookSlot members readings) r).flags.blind = true ↔
      r.flags.blind = true ∨ ∃ k ∈ l, members k = true ∧ readings.get k = .entry .unknown) ∧
    l.foldl (Record.tookSlot members readings) r = { r with
      entries := (l.foldl (Record.tookSlot members readings) r).entries
      flags := { r.flags with blind := (l.foldl (Record.tookSlot members readings) r).flags.blind } }
  | [], r => ⟨fun j => by simp, by simp, rfl⟩
  | k :: l, r => by
    obtain ⟨h1, h2, h3⟩ := tookSlot_spec members readings r k
    obtain ⟨k1, k2, k3⟩ := tookSlots_spec members readings l (r.tookSlot members readings k)
    rw [List.foldl_cons]
    refine ⟨fun j => ?_, ?_, ?_⟩
    · rw [k1, h1]
      by_cases hj : j = k
      · subst hj
        by_cases hm : members j = true
        · cases hs : storedBy (readings.get j) <;> simp [hm]
        · simp [hm]
      · simp [hj]
    · rw [k2, h2]
      simp only [List.mem_cons, exists_eq_or_imp, or_assoc]
    · rw [k3, h3]

/-- What the slots of the indices `l` do to the station. -/
structure SlotsTaken (s : Seq) (readings : Eight (Reading TallyEntry)) (l : List Index) (a b : Station) : Prop where
  same : b = { a with engine := { a.engine with peers := b.engine.peers }, table := b.table }
  peers : ∀ k, b.engine.peers.get k =
    if k ∈ l then (a.engine.peers.get k).map (silenceAfter (readings.get k)) else a.engine.peers.get k
  table : b.table = a.table.map fun r =>
    if r.seq = s then l.foldl (Record.tookSlot (fun k => (a.engine.peers.get k).isSome) readings) r else r

theorem takeSlot_taken (s : Seq) (readings : Eight (Reading TallyEntry)) (k : Index) (a : Station) :
    SlotsTaken s readings [k] a (takeSlot s readings a k) := by
  unfold takeSlot
  cases hp : a.engine.peers.get k with
  | none =>
    refine ⟨rfl, fun j => ?_, ?_⟩
    · by_cases hj : j = k
      · subst hj; simp [hp]
      · simp [hj]
    · simp [Record.tookSlot, hp]
  | some n =>
    refine ⟨rfl, fun j => ?_, ?_⟩
    · show (a.engine.peers.set k _).get j = _
      rw [get_set]
      by_cases hj : j = k
      · subst hj; simp [hp]
      · simp [hj]
    · simp [Record.tookSlot, hp, updateRecord]

theorem takeSlots_taken (s : Seq) (readings : Eight (Reading TallyEntry)) : ∀ (l : List Index) (a : Station), l.Nodup →
    SlotsTaken s readings l a (l.foldl (takeSlot s readings) a)
  | [], a, _ => ⟨rfl, fun k => by simp, by simp⟩
  | k :: l, a, hn => by
    obtain ⟨hk, hl⟩ := List.nodup_cons.1 hn
    obtain ⟨h1, h2, h3⟩ := takeSlot_taken s readings k a
    obtain ⟨k1, k2, k3⟩ := takeSlots_taken s readings l (takeSlot s readings a k) hl
    rw [List.foldl_cons]
    have hm : (fun j => ((takeSlot s readings a k).engine.peers.get j).isSome) = fun j => (a.engine.peers.get j).isSome := by
      funext j; rw [h2]; split <;> simp
    refine ⟨k1.trans ?_, fun j => ?_, ?_⟩
    · rw [h1]
    · rw [k2, h2]
      by_cases hj : j = k
      · subst hj; simp [hk]
      · simp [hj]
    · rw [k3, hm, h3, List.map_map]
      refine List.map_congr_left fun r _ => ?_
      simp only [Function.comp]
      by_cases hr : r.seq = s
      · have hs : (r.tookSlot (fun j => (a.engine.peers.get j).isSome) readings k).seq = s := by
          rw [(tookSlot_spec _ readings r k).2.2]; exact hr
        simp [hr, hs]
      · simp [hr]

/-! ## Silent members (R130) -/

theorem peersChanged_none (r : Record) : r.peersChanged (fun _ => false) (fun _ => false) = r := by
  have : ∀ l : List Index, l.foldl (Record.peerChanged (fun _ => false) (fun _ => false)) r = r := by
    intro l
    induction l with
    | nil => rfl
    | cons k l ih => exact ih
  exact this indices

/-- A GATHERING record after a change of the peer map; any other is kept. -/
def Record.gatheringChanged (joined left : Index → Bool) (r : Record) : Record :=
  if r.phase = .gathering then r.peersChanged joined left else r

theorem gatheringChanged_keeps (joined left : Index → Bool) (r : Record) : (r.gatheringChanged joined left).seq = r.seq ∧
    (r.gatheringChanged joined left).phase = r.phase := by
  unfold Record.gatheringChanged
  split
  · rw [peersChanged_same]; exact ⟨rfl, rfl⟩
  · exact ⟨rfl, rfl⟩

/-- What the removal of silent members does. -/
structure MembersRemoved (a b : Station) : Prop where
  same : b = { a with engine := { a.engine with peers := b.engine.peers }, table := b.table, port := b.port }
  peers : ∀ k, b.engine.peers.get k = if silentMember a.engine.peers k then none else a.engine.peers.get k
  table : b.table = a.table.map (Record.gatheringChanged (fun _ => false) (silentMember a.engine.peers))
  told : (∃ k, silentMember a.engine.peers k = true) → b.port.causes.peerChange = true

theorem removeMembers_removed (a : Station) : MembersRemoved a (removeMembers a) := by
  unfold removeMembers
  simp only
  split
  · next h =>
    exact ⟨rfl, fun k => get_tabulate _ k, rfl, fun _ => rfl⟩
  · next h =>
    have hn : ∀ k, silentMember a.engine.peers k = false := by
      intro k
      by_contra hk
      exact h (List.any_eq_true.2 ⟨k, mem_indices k, by simpa using hk⟩)
    refine ⟨rfl, fun k => by simp [hn], ?_, fun ⟨k, hk⟩ => absurd (hk.symm.trans (hn k)) (by decide)⟩
    rw [funext hn]
    conv_lhs => rw [← List.map_id a.table]
    refine List.map_congr_left fun r _ => ?_
    unfold Record.gatheringChanged
    rw [peersChanged_none]
    simp

/-! ## The completeness test of every record (R20) -/

/-- Whether the completeness test of a record at a station with these members makes it TALLIED. -/
def Record.completeFor (peers : Eight (Option Nat)) (r : Record) : Prop := r.phase = .gathering ∧ recordComplete peers r = true

theorem tallied_not_gathering (sh : Shared) (r : Record) (peers : Eight (Option Nat)) : ¬ (r.tallied sh).completeFor peers := by
  rintro ⟨h, _⟩
  rw [(tallied_fixed sh r).2.2.2.2.2] at h
  cases h

/-- The test changes records and requests alone. -/
theorem completeRecord_same (own : Bool) (s : Seq) (st : Station) : ∃ (t : List Record) (q : Requests),
    completeRecord own s st = { st with table := t, engine := { st.engine with requests := q } } := by
  cases hr : st.record s with
  | none => exact ⟨_, _, completeRecord_none hr⟩
  | some r =>
    by_cases hc : r.phase = .gathering ∧ recordComplete st.engine.peers r = true
    · exact ⟨_, _, completeRecord_complete hr hc⟩
    · exact ⟨_, _, completeRecord_incomplete hr hc⟩

theorem completeFold_same : ∀ (l : List Seq) (st : Station), ∃ (t : List Record) (q : Requests),
    l.foldl (fun x u => completeRecord false u x) st = { st with table := t, engine := { st.engine with requests := q } }
  | [], st => ⟨_, _, rfl⟩
  | u :: l, st => by
    obtain ⟨t, q, h⟩ := completeRecord_same false u st
    obtain ⟨t', q', h'⟩ := completeFold_same l (completeRecord false u st)
    exact ⟨t', q', h'.trans (by rw [h])⟩

theorem completeAll_same (st : Station) : ∃ (t : List Record) (q : Requests),
    completeAll st = { st with table := t, engine := { st.engine with requests := q } } := completeFold_same _ st

theorem completeRecord_record_cases {s u : Seq} {st : Station} {r : Record} (hr : st.record s = some r)
    (p : Prop) [Decidable p] (hp : p ↔ s = u ∧ r.completeFor st.engine.peers) :
    (completeRecord false u st).record s = some (if p then r.tallied st.shared else r) := by
  by_cases hs : s = u
  · subst hs
    by_cases hc : r.completeFor st.engine.peers
    · rw [if_pos (hp.2 ⟨rfl, hc⟩)]; exact completeRecord_record hr hc
    · rw [if_neg fun h => hc (hp.1 h).2, completeRecord_incomplete hr hc, hr]
  · rw [if_neg fun h => hs (hp.1 h).1, completeRecord_other st hs, hr]

theorem completeFold_record {s : Seq} : ∀ (l : List Seq) (st : Station) {r : Record}, st.record s = some r →
    ∀ (p : Prop) [Decidable p], (p ↔ s ∈ l ∧ r.completeFor st.engine.peers) →
    (l.foldl (fun x u => completeRecord false u x) st).record s = some (if p then r.tallied st.shared else r)
  | [], st, r, hr, p, _, hp => by rw [if_neg fun h => by cases (hp.1 h).1]; exact hr
  | u :: l, st, r, hr, p, _, hp => by
    obtain ⟨t, q, h⟩ := completeRecord_same false u st
    have hpe : (completeRecord false u st).engine.peers = st.engine.peers := by rw [h]
    have hsh : (completeRecord false u st).shared = st.shared := shared_of_start (by rw [h])
    classical
    have h1 := completeRecord_record_cases (u := u) hr (s = u ∧ r.completeFor st.engine.peers) Iff.rfl
    rw [List.foldl_cons]
    by_cases hu : s = u ∧ r.completeFor st.engine.peers
    · rw [if_pos hu] at h1
      rw [if_pos (hp.2 ⟨hu.1 ▸ List.mem_cons_self .., hu.2⟩)]
      have h2 := completeFold_record l _ h1 False ⟨False.elim, fun h => tallied_not_gathering _ _ _ h.2⟩
      rwa [if_neg id] at h2
    · rw [if_neg hu] at h1
      have h2 := completeFold_record l _ h1 p (by
        rw [hp, hpe, List.mem_cons]
        exact ⟨fun ⟨a, b⟩ => ⟨a.resolve_left fun c => hu ⟨c, b⟩, b⟩, fun ⟨a, b⟩ => ⟨.inr a, b⟩⟩)
      rwa [hsh] at h2

/-- The record with a sequence number after the test of every record. -/
theorem completeAll_record {s : Seq} {st : Station} {r : Record} (hr : st.record s = some r) (p : Prop) [Decidable p]
    (hp : p ↔ r.completeFor st.engine.peers) : (completeAll st).record s = some (if p then r.tallied st.shared else r) :=
  completeFold_record _ st hr p (hp.trans ⟨fun h => ⟨record_mem_seqs hr, h⟩, fun h => h.2⟩)

/-- A record after the test is one from before, or TALLIED. -/
theorem completeRecord_mem {own : Bool} {s : Seq} {st : Station} {b : Record} (hb : b ∈ (completeRecord own s st).table) :
    b ∈ st.table ∨ b.phase = .tallied := by
  cases hr : st.record s with
  | none => rw [completeRecord_none hr] at hb; exact .inl hb
  | some r =>
    by_cases hc : r.phase = .gathering ∧ recordComplete st.engine.peers r = true
    · rw [completeRecord_complete hr hc] at hb
      obtain ⟨x, hx, rfl⟩ := List.mem_map.1 hb
      split
      · exact .inr (tallied_fixed _ x).2.2.2.2.2
      · exact .inl hx
    · rw [completeRecord_incomplete hr hc] at hb; exact .inl hb

theorem completeAll_mem {st : Station} {b : Record} (hb : b ∈ (completeAll st).table) : b ∈ st.table ∨ b.phase = .tallied := by
  have : ∀ (l : List Seq) (x : Station), b ∈ (l.foldl (fun x u => completeRecord false u x) x).table →
      b ∈ x.table ∨ b.phase = .tallied := by
    intro l
    induction l with
    | nil => exact fun x h => .inl h
    | cons u l ih =>
      intro x h
      rcases ih _ h with h | h
      · exact completeRecord_mem h
      · exact .inr h
  exact this _ st hb

theorem tallied_blind (sh : Shared) (r : Record) : (r.tallied sh).flags.blind = r.flags.blind := by
  unfold Record.tallied
  split <;> rfl

/-! ## The completion of a TALLY round (R128 to R132) -/

theorem completeTally_off {slots : List (BitVec 448)} {st : Station} {r : Round} (h : completing .tally st = some r)
    (hc : st.start.node ≠ .running ∨ r.result 0 = none ∨
      ∃ subject, r.result 0 = some subject ∧ st.record (BitVec.ofNat 16 subject) = none) :
    completeTally slots st = toGuard st := by
  unfold completeTally
  simp only [h]
  split
  · next subject sent h0 h1 =>
    refine if_neg ?_
    rintro ⟨hn, hs⟩
    rcases hc with hc | hc | ⟨u, h2, h3⟩
    · exact hc hn
    · rw [hc] at h0; cases h0
    · rw [h2] at h0; cases h0; rw [h3] at hs; cases hs
  · rfl

theorem completeTally_running {slots : List (BitVec 448)} {st : Station} {r : Round} (h : completing .tally st = some r)
    {subject : Nat} {sent : TallyEntry} {rec : Record} (h0 : r.result 0 = some subject) (h1 : r.slotEntry = some (.tally sent))
    (hn : st.start.node = .running) (hr : st.record (BitVec.ofNat 16 subject) = some rec) :
    completeTally slots st = tallyEffects (BitVec.ofNat 16 subject) sent slots (toGuard st) := by
  unfold completeTally
  simp only [h, h0, h1]
  exact if_pos ⟨hn, by rw [hr]; rfl⟩

/-- The requests after a TALLY round are all that its last part changes. -/
theorem settleTally_same (s : Seq) (raised : Bool) (sent : TallyEntry) (st : Station) : ∃ q : Requests,
    settleTally s raised sent st = { st with engine := { st.engine with requests := q } } := by
  have h1 : ∃ q : Requests, (if raised then withRequests (Requests.raiseTally s) st
      else if ((st.record s).any fun r => r.phase == .gathering) && decide (ownTallyEntry st s = sent) then
        withRequests (Requests.markTally s true) st
      else st) = { st with engine := { st.engine with requests := q } } := by
    split
    · exact ⟨_, rfl⟩
    · split <;> exact ⟨_, rfl⟩
  obtain ⟨q1, h1⟩ := h1
  unfold settleTally
  simp only [h1]
  split <;> exact ⟨_, rfl⟩

/-- The station as the slots have been taken and the silent members removed, before the completeness test. -/
def slotsSettled (s : Seq) (readings : Eight (Reading TallyEntry)) (st : Station) : Station :=
  removeMembers (indices.foldl (takeSlot s readings) st)

/-- The subject record as the slots have been taken in it. -/
def Record.readFrom (peers : Eight (Option Nat)) (readings : Eight (Reading TallyEntry)) (r : Record) : Record :=
  indices.foldl (Record.tookSlot (fun k => (peers.get k).isSome) readings) r

/-- The peer map as the silence counts have been kept. -/
def silenced (readings : Eight (Reading TallyEntry)) (peers : Eight (Option Nat)) (k : Index) : Option Nat :=
  (peers.get k).map (silenceAfter (readings.get k))

/-- Whether a member is removed: its count has reached the limit. -/
def removedMember (readings : Eight (Reading TallyEntry)) (peers : Eight (Option Nat)) (k : Index) : Bool :=
  (silenced readings peers k).any fun n => decide (Config.silenceLimit ≤ n)

/-- What the slots and the removal of silent members do together. -/
structure Settled (s : Seq) (readings : Eight (Reading TallyEntry)) (a b : Station) : Prop where
  same : b = { a with engine := { a.engine with peers := b.engine.peers }, table := b.table, port := b.port }
  peers : ∀ k, b.engine.peers.get k =
    if removedMember readings a.engine.peers k then none else silenced readings a.engine.peers k
  table : b.table = a.table.map fun r => (if r.seq = s then r.readFrom a.engine.peers readings else r).gatheringChanged
    (fun _ => false) (removedMember readings a.engine.peers)
  told : (∃ k, removedMember readings a.engine.peers k = true) → b.port.causes.peerChange = true

theorem slotsSettled_spec (s : Seq) (readings : Eight (Reading TallyEntry)) (a : Station) :
    Settled s readings a (slotsSettled s readings a) := by
  obtain ⟨h1, h2, h3⟩ := takeSlots_taken s readings indices a (by decide)
  obtain ⟨k1, k2, k3, k4⟩ := removeMembers_removed (indices.foldl (takeSlot s readings) a)
  have hp : ∀ k, (indices.foldl (takeSlot s readings) a).engine.peers.get k = silenced readings a.engine.peers k :=
    fun k => (h2 k).trans (if_pos (mem_indices k))
  have hg : silentMember (indices.foldl (takeSlot s readings) a).engine.peers = removedMember readings a.engine.peers := by
    funext k
    unfold silentMember removedMember
    rw [hp]
    cases silenced readings a.engine.peers k <;> rfl
  rw [hg] at k2 k3 k4
  refine ⟨k1.trans ?_, fun k => (k2 k).trans (by rw [hp]), ?_, k4⟩
  · unfold slotsSettled
    generalize removeMembers (indices.foldl (takeSlot s readings) a) = z
    rw [h1]
  · show (removeMembers _).table = _
    rw [k3, h3, List.map_map]; rfl

theorem readFrom_seq (peers : Eight (Option Nat)) (readings : Eight (Reading TallyEntry)) (r : Record) :
    (r.readFrom peers readings).seq = r.seq ∧ (r.readFrom peers readings).phase = r.phase := by
  unfold Record.readFrom
  rw [(tookSlots_spec _ readings indices r).2.2]
  exact ⟨rfl, rfl⟩

/-- A member that is removed has stored no entry in this round. -/
theorem removedMember_stored {readings : Eight (Reading TallyEntry)} {peers : Eight (Option Nat)} {k : Index}
    (h : removedMember readings peers k = true) : storedBy (readings.get k) = none := by
  unfold removedMember silenced at h
  cases hr : readings.get k with
  | entry e =>
    cases hp : peers.get k <;> simp [hp, hr, silenceAfter, Config.silenceLimit] at h
  | _ => rfl

theorem silenced_isSome (readings : Eight (Reading TallyEntry)) (peers : Eight (Option Nat)) (k : Index) :
    (silenced readings peers k).isSome = (peers.get k).isSome := by
  unfold silenced; simp

theorem removedMember_isSome {readings : Eight (Reading TallyEntry)} {peers : Eight (Option Nat)} {k : Index}
    (h : removedMember readings peers k = true) : (peers.get k).isSome = true := by
  rw [← silenced_isSome readings]
  unfold removedMember at h
  cases hs : silenced readings peers k with
  | none => rw [hs] at h; cases h
  | some n => rfl

/-- A member has left exactly where it was removed. -/
theorem Settled.left_iff {s : Seq} {readings : Eight (Reading TallyEntry)} {a b : Station} (h : Settled s readings a b) (k : Index) :
    (a.engine.peers.get k).isSome = true ∧ b.engine.peers.get k = none ↔ removedMember readings a.engine.peers k = true := by
  rw [h.peers, ← silenced_isSome readings]
  constructor
  · rintro ⟨h1, h2⟩
    by_contra hk
    rw [if_neg hk] at h2
    rw [h2] at h1; cases h1
  · intro hk
    exact ⟨(silenced_isSome _ _ _).trans (removedMember_isSome hk), if_pos hk⟩

/-- The subject record after the slots and the removal of silent members. -/
theorem readChanged_spec (peers : Eight (Option Nat)) (readings : Eight (Reading TallyEntry)) (r : Record) :
    let x := (r.readFrom peers readings).gatheringChanged (fun _ => false) (removedMember readings peers)
    (∀ k : Index, x.entries.get k =
      if (peers.get k).isSome then (storedBy (readings.get k)).or (r.entries.get k) else r.entries.get k) ∧
    (x.flags.blind = true ↔ r.flags.blind = true ∨
      (∃ k : Index, (peers.get k).isSome = true ∧ readings.get k = .entry .unknown) ∨
      (r.phase = .gathering ∧ ∃ k : Index, removedMember readings peers k = true ∧ r.entries.get k = none)) ∧
    x = { r with entries := x.entries, flags := { r.flags with blind := x.flags.blind } } := by
  intro x
  obtain ⟨h1, h2, h3⟩ := tookSlots_spec (fun k => (peers.get k).isSome) readings indices r
  have e1 : ∀ k : Index, (r.readFrom peers readings).entries.get k =
      if (peers.get k).isSome then (storedBy (readings.get k)).or (r.entries.get k) else r.entries.get k := fun k => by
    show (indices.foldl _ r).entries.get k = _
    rw [h1 k]
    simp [mem_indices]
  have e2 : (r.readFrom peers readings).flags.blind = true ↔ r.flags.blind = true ∨
      ∃ k : Index, (peers.get k).isSome = true ∧ readings.get k = .entry .unknown := by
    refine h2.trans ?_
    simp [mem_indices]
  have e3 : r.readFrom peers readings = { r with entries := (r.readFrom peers readings).entries
                                                 flags := { r.flags with blind := (r.readFrom peers readings).flags.blind } } := h3
  obtain ⟨_, hph⟩ := readFrom_seq peers readings r
  by_cases hg : r.phase = .gathering
  · have hx : x = (r.readFrom peers readings).peersChanged (fun _ => false) (removedMember readings peers) :=
      if_pos (hph.trans hg)
    refine ⟨fun k => ?_, ?_, ?_⟩
    · rw [hx, peersChanged_entries, ← e1]; simp
    · rw [hx, peersChanged_blind, e2, or_assoc]
      refine or_congr_right (or_congr_right ?_)
      simp only [Bool.false_eq_true, false_or, hg, true_and]
      refine exists_congr fun k => and_congr_right fun hk => ?_
      rw [e1, removedMember_stored hk]; simp
    · rw [hx, peersChanged_same, e3]
  · have hx : x = r.readFrom peers readings := if_neg (by rw [hph]; exact hg)
    refine ⟨fun k => by rw [hx, e1], ?_, by rw [hx]; exact e3⟩
    rw [hx, e2]; simp [hg]

theorem slotsSettled_record {s : Seq} {readings : Eight (Reading TallyEntry)} {st : Station} {r : Record}
    (hr : st.record s = some r) : (slotsSettled s readings st).record s =
      some ((r.readFrom st.engine.peers readings).gatheringChanged (fun _ => false) (removedMember readings st.engine.peers)) := by
  rw [record_map _ ?_ (slotsSettled_spec s readings st).table, hr]
  · simp [record_seq hr]
  · intro x
    rw [(gatheringChanged_keeps _ _ _).1]
    split
    · exact (readFrom_seq _ _ _).1
    · rfl

theorem tallyEffects_eq (s : Seq) (sent : TallyEntry) (slots : List (BitVec 448)) (st : Station) : ∃ raised : Bool,
    tallyEffects s sent slots st =
      settleTally s raised sent (completeAll (slotsSettled s (tallyReadings st.start.index sent slots) st)) := ⟨_, rfl⟩

/-- What a reading leaves of the entry at its index, in the statement's words. -/
theorem storedBy_or (reading : Reading TallyEntry) (e : Option Entry) : (storedBy reading).or e = match reading with
    | .entry (.closed x) => some (.closed x)
    | .entry .empty => some .empty
    | .entry .unknown => some .unknown
    | .entry .pending => e
    | .silent => e
    | .damaged => e := by
  cases reading with
  | entry x => cases x <;> rfl
  | _ => rfl

/-- The peer map after the round, in the statement's words. -/
theorem Settled.peer {s : Seq} {readings : Eight (Reading TallyEntry)} {a b : Station} (h : Settled s readings a b) (k : Index) :
    b.engine.peers.get k = match a.engine.peers.get k with
      | none => none
      | some n => match readings.get k with
        | .entry _ => some 0
        | .silent => if 4 ≤ n + 1 then none else some (n + 1)
        | .damaged => if 4 ≤ n then none else some n := by
  rw [h.peers]
  unfold removedMember silenced
  cases a.engine.peers.get k with
  | none => rfl
  | some n =>
    cases readings.get k with
    | entry e => rfl
    | silent => exact if_congr decide_eq_true_iff rfl rfl
    | damaged => exact if_congr decide_eq_true_iff rfl rfl

/-- Settles O45. -/
theorem tallyRoundStoresEntries : Obligations.TallyRoundStoresEntries := by
  refine ⟨fun slots r st q hl hc h => ?_, fun slots r sent subject rec st q hl hc h0 h1 hn hr => ?_⟩
  · rw [exec_live _ q hl]
    simp only [commandEffect, completeTally_off hc h]
    rfl
  · intro s readings
    have he := exec_live (.tallyRoundComplete slots) q hl
    simp only [commandEffect, completeTally_running hc h0 h1 hn hr] at he
    obtain ⟨raised, ht⟩ := tallyEffects_eq s sent slots (toGuard st)
    have hst := slotsSettled_spec s readings (toGuard st)
    have hrec := slotsSettled_record (readings := readings) (st := toGuard st) (show (toGuard st).record s = some rec from hr)
    obtain ⟨x1, x2, x3⟩ := readChanged_spec st.engine.peers readings rec
    change (slotsSettled s readings (toGuard st)).record s = some
      ((rec.readFrom st.engine.peers readings).gatheringChanged (fun _ => false) (removedMember readings st.engine.peers)) at hrec
    generalize hx : (rec.readFrom st.engine.peers readings).gatheringChanged (fun _ => false)
      (removedMember readings st.engine.peers) = x at hrec x1 x2 x3
    change tallyEffects s sent slots (toGuard st) = settleTally s raised sent (completeAll (slotsSettled s readings (toGuard st))) at ht
    generalize hy : slotsSettled s readings (toGuard st) = y at hst hrec ht
    obtain ⟨tab, q1, hca⟩ := completeAll_same y
    obtain ⟨q2, hse⟩ := settleTally_same s raised sent (completeAll y)
    have htab : (tallyEffects s sent slots (toGuard st)).table = (completeAll y).table := by rw [ht, hse]
    have hpeers : (tallyEffects s sent slots (toGuard st)).engine.peers = y.engine.peers := by rw [ht, hse, hca]
    have hport : (tallyEffects s sent slots (toGuard st)).port = y.port := by rw [ht, hse, hca]
    have hall : ∀ {α : Type} (f : Station → α), (∀ (a : Station) (t : List Record) (p : Eight (Option Nat)) (u : ResultPort)
        (z : Requests), f { a with table := t, port := u, engine := { a.engine with requests := z, peers := p } } = f a) →
        f (tallyEffects s sent slots (toGuard st)) = f (toGuard st) := by
      intro α f hf
      rw [ht, hse, hca, hst.same]
      exact hf (toGuard st) tab y.engine.peers y.port q2
    classical
    have hb := completeAll_record hrec (x.completeFor y.engine.peers) Iff.rfl
    refine ⟨_, he, hall (·.line) fun _ _ _ _ _ => rfl, hall (·.position) fun _ _ _ _ _ => rfl,
      hall (·.engine.nextSeq) fun _ _ _ _ _ => rfl, hall (·.engine.openCount) fun _ _ _ _ _ => rfl,
      hall (·.start) fun _ _ _ _ _ => rfl, hall (·.edge) fun _ _ _ _ _ => rfl, hall (·.scan) fun _ _ _ _ _ => rfl,
      hall (·.probe) fun _ _ _ _ _ => rfl, hall (·.outlet) fun _ _ _ _ _ => rfl, ⟨_, (record_congr htab s).trans hb, ?_⟩,
      fun b hb' hg k hk1 hk2 hk3 => ?_, ?_, fun k => ?_⟩
    · have hfix : ∀ z : Record, (z = x ∨ z = x.tallied y.shared) → z.outcome = x.outcome ∧ z.band = x.band ∧
          z.flags.blind = x.flags.blind ∧ z.entries = x.entries := by
        rintro z (rfl | rfl)
        · exact ⟨rfl, rfl, rfl, rfl⟩
        · obtain ⟨_, f2, f3, _, f5, _⟩ := tallied_fixed y.shared x
          exact ⟨f5, f2, tallied_blind _ _, f3⟩
      obtain ⟨f1, f2, f3, f4⟩ := hfix (if x.completeFor y.engine.peers then x.tallied y.shared else x) (by
        split
        · exact .inr rfl
        · exact .inl rfl)
      rw [f1, f2, f3, f4]
      refine ⟨by rw [x3], by rw [x3], fun hg => ?_, ?_, fun k => ?_⟩
      · have hng : ¬ x.completeFor y.engine.peers := fun h => hg (by have := h.1; rwa [x3] at this)
        rw [if_neg hng, x3]
        exact ⟨rfl, rfl⟩
      · rw [x2, hpeers]
        refine or_congr_right (or_congr_right (and_congr_right fun _ => exists_congr fun k => ?_))
        rw [← and_assoc]
        exact and_congr_left fun _ => (hst.left_iff k).symm
      · exact (x1 k).trans (if_congr Iff.rfl (storedBy_or _ _) rfl)
    · rw [htab] at hb'
      rw [hpeers] at hk2
      have hrem := (hst.left_iff k).1 ⟨hk1, hk2⟩
      rcases completeAll_mem hb' with hb' | hb'
      · rw [hst.table] at hb'
        obtain ⟨z, hz, rfl⟩ := List.mem_map.1 hb'
        have hzg := (gatheringChanged_keeps _ _ _).2.symm.trans hg
        unfold Record.gatheringChanged at hk3 ⊢
        rw [if_pos hzg] at hk3 ⊢
        rw [peersChanged_entries] at hk3
        exact (peersChanged_blind _ _ _).2 (.inr ⟨k, .inr hrem, by simpa using hk3⟩)
      · rw [hb'] at hg; cases hg
    · rintro ⟨k, hk1, hk2⟩
      rw [hport]
      exact hst.told ⟨k, (hst.left_iff k).1 ⟨hk1, hpeers ▸ hk2⟩⟩
    · rw [hpeers]
      exact hst.peer k

end Sys2Proof.Machine

namespace Sys2Proof.Machine

/-! ## Completeness at the end of a round (R20) -/

theorem completeAll_distinct {st : Station} (hd : st.seqsDistinct) : (completeAll st).seqsDistinct := by
  show ((completeAll st).table.map (·.seq)).Nodup
  rw [seqs_of_identities (completeAll_frame st).identities]
  exact hd

theorem completeAll_peers (st : Station) : (completeAll st).engine.peers = st.engine.peers := (completeAll_frame st).peers

/-- A record found after the test of every record has one it comes from. -/
theorem completeAll_record_from {s : Seq} {st : Station} {b : Record} (hb : (completeAll st).record s = some b) :
    ∃ r, st.record s = some r ∧ (b = r ∧ ¬ r.completeFor st.engine.peers ∨ b = r.tallied st.shared ∧ r.completeFor st.engine.peers) := by
  have hs : s ∈ st.table.map (·.seq) := by
    rw [← seqs_of_identities (completeAll_frame st).identities]
    exact record_mem_seqs hb
  cases hr : st.record s with
  | none =>
    obtain ⟨x, hx, hxs⟩ := List.mem_map.1 hs
    have := List.find?_eq_none.1 hr x hx
    simp [hxs] at this
  | some r =>
    classical
    have h := completeAll_record hr (r.completeFor st.engine.peers) Iff.rfl
    rw [hb] at h
    refine ⟨r, rfl, ?_⟩
    by_cases hc : r.completeFor st.engine.peers
    · rw [if_pos hc] at h; exact .inr ⟨Option.some.inj h, hc⟩
    · rw [if_neg hc] at h; exact .inl ⟨Option.some.inj h, hc⟩

/-- After the test of every record, each GATHERING record awaits a member. -/
theorem completeAll_awaits {st : Station} (hd : st.seqsDistinct) {b : Record} (hb : b ∈ (completeAll st).table)
    (hg : b.phase = .gathering) : ∃ k : Index, (st.engine.peers.get k).isSome = true ∧ b.entries.get k = none := by
  obtain ⟨r, _, ⟨rfl, hn⟩ | ⟨rfl, _⟩⟩ := completeAll_record_from (record_of_mem (completeAll_distinct hd) hb)
  · by_contra h
    refine hn ⟨hg, (recordComplete_iff _ _).2 fun k hk => ?_⟩
    by_contra hk'
    exact h ⟨k, hk, by simpa using hk'⟩
  · rw [(tallied_fixed _ r).2.2.2.2.2] at hg; cases hg

/-- The requests of a record that the test of every record completes. -/
structure CompletedRequests (s : Seq) (frozen : Bool) (st : Station) : Prop where
  tally : ∀ h ∈ st.engine.requests.tally, h.subject ≠ s
  verdict : frozen = false → ∃ h ∈ st.engine.requests.verdict, h.subject = s

theorem raiseVerdict_mem (s : Seq) (b : Bool) (q : Requests) : ∃ h ∈ (q.raiseVerdict s b).verdict, h.subject = s := by
  unfold Requests.raiseVerdict
  split
  · next h =>
    obtain ⟨x, hx, hs⟩ := List.any_eq_true.1 h
    exact ⟨x, hx, by simpa using hs⟩
  · exact ⟨⟨s, b⟩, by simp, rfl⟩

theorem mem_raiseVerdict_of_mem {s : Seq} {b : Bool} {q : Requests} {h : Held} (hh : h ∈ q.verdict) :
    h ∈ (q.raiseVerdict s b).verdict := by
  unfold Requests.raiseVerdict
  split
  · exact hh
  · exact List.mem_append_left _ hh

theorem complete_requests (frozen : Bool) (u : Seq) (q : Requests) :
    (∀ h ∈ (q.complete false frozen u).tally, h ∈ q.tally ∧ h.subject ≠ u) ∧
    (∀ h ∈ q.verdict, h ∈ (q.complete false frozen u).verdict) ∧
    (frozen = false → ∃ h ∈ (q.complete false frozen u).verdict, h.subject = u) := by
  have ht : ∀ h ∈ (q.dropTally u).tally, h ∈ q.tally ∧ h.subject ≠ u := fun h hh => by
    simpa [Requests.dropTally] using hh
  cases frozen with
  | true => exact ⟨ht, fun _ hh => hh, nofun⟩
  | false =>
    refine ⟨fun h hh => ht h ?_, fun h hh => mem_raiseVerdict_of_mem hh, fun _ => raiseVerdict_mem u false _⟩
    have hh' : h ∈ ((q.dropTally u).raiseVerdict u false).tally := hh
    rwa [Requests.raiseVerdict_tally] at hh'

theorem completeRecord_keepsCompleted {s u : Seq} {frozen : Bool} {st : Station} (h : CompletedRequests s frozen st) :
    CompletedRequests s frozen (completeRecord false u st) := by
  cases hr : st.record u with
  | none => rw [completeRecord_none hr]; exact h
  | some r =>
    by_cases hc : r.phase = .gathering ∧ recordComplete st.engine.peers r = true
    · rw [completeRecord_complete hr hc]
      obtain ⟨h1, h2, _⟩ := complete_requests r.frozen u st.engine.requests
      refine ⟨fun x hx => h.tally x (h1 x hx).1, fun hf => ?_⟩
      obtain ⟨x, hx, hxs⟩ := h.verdict hf
      exact ⟨x, h2 x hx, hxs⟩
    · rw [completeRecord_incomplete hr hc]; exact h

theorem completeFold_keepsCompleted {s : Seq} {frozen : Bool} : ∀ (l : List Seq) {st : Station}, CompletedRequests s frozen st →
    CompletedRequests s frozen (l.foldl (fun x u => completeRecord false u x) st)
  | [], _, h => h
  | _ :: l, _, h => completeFold_keepsCompleted l (completeRecord_keepsCompleted h)

theorem completeFold_completed {s : Seq} {r : Record} : ∀ (l : List Seq) {st : Station}, s ∈ l → st.record s = some r →
    r.completeFor st.engine.peers → CompletedRequests s r.frozen (l.foldl (fun x u => completeRecord false u x) st)
  | [], _, hs, _, _ => by cases hs
  | u :: l, st, hs, hr, hc => by
    rw [List.foldl_cons]
    by_cases hu : s = u
    · subst hu
      refine completeFold_keepsCompleted l ?_
      rw [completeRecord_complete hr hc]
      obtain ⟨h1, _, h3⟩ := complete_requests r.frozen s st.engine.requests
      exact ⟨fun x hx => (h1 x hx).2, h3⟩
    · refine completeFold_completed l ((List.mem_cons.1 hs).resolve_left hu) ((completeRecord_other st hu).trans hr) ?_
      rwa [(completeRecord_frame false u st).peers]

theorem completeAll_completed {s : Seq} {r : Record} {st : Station} (hr : st.record s = some r)
    (hc : r.completeFor st.engine.peers) : CompletedRequests s r.frozen (completeAll st) :=
  completeFold_completed _ (record_mem_seqs hr) hr hc

/-- A record that is TALLIED unfrozen has the verdict of its own entries and flags. -/
theorem tallied_verdict {sh : Shared} {r : Record} (h : r.frozen = false) : (r.tallied sh).verdict.isSome = true ∧
    (r.tallied sh).verdict = (gradeRecord sh (r.tallied sh)).verdict := by
  rw [tallied_graded h]
  exact ⟨rfl, (gradeRecord_verdict_of_flags sh r { gradeRecord sh r with phase := .tallied } rfl rfl).symm⟩

/-! ## Distinct sequence numbers under compares (R35) -/

/-- Records leave, and none joins. -/
def SeqsFewer (a b : Station) : Prop := (b.table.map (·.seq)).Sublist (a.table.map (·.seq))

theorem SeqsFewer.refl (a : Station) : SeqsFewer a a := List.Sublist.refl _

theorem SeqsFewer.trans {a b c : Station} (h : SeqsFewer a b) (k : SeqsFewer b c) : SeqsFewer a c := List.Sublist.trans k h

theorem SeqsFewer.distinct {a b : Station} (h : SeqsFewer a b) (hd : a.seqsDistinct) : b.seqsDistinct := List.Nodup.sublist h hd

theorem SeqsFewer.ofSeqs {a b : Station} (h : b.table.map (·.seq) = a.table.map (·.seq)) : SeqsFewer a b := by
  unfold SeqsFewer; rw [h]

theorem EdgeFrame.fewer {a b : Station} (h : EdgeFrame a b) : SeqsFewer a b := .ofSeqs h.seqs

theorem takeDecision_seqs (s : Seq) (st : Station) : (takeDecision s st).table.map (·.seq) = st.table.map (·.seq) := by
  unfold takeDecision
  split
  · rfl
  · simp only
    split
    · exact updateRecord_seqs s (fun x => { x with
        verdict := some .manual, frozen := true, flags := { x.flags with incomplete := true } }) (fun _ => rfl)
        (withRequests (Requests.markVerdict s false) st)
    · exact updateRecord_seqs s (fun x => { x with frozen := true }) (fun _ => rfl) (withRequests (Requests.markVerdict s false) st)
    · exact updateRecord_seqs s (fun x => { x with frozen := true }) (fun _ => rfl) (withRequests (Requests.markVerdict s false) st)

theorem takeEmpty_frame' (s : Seq) (st : Station) : HeadFrame st (takeEmpty s st) := by
  unfold takeEmpty
  split
  · exact HeadFrame.refl st
  · split
    · exact settleBand_frame _ _ s st
    · exact HeadFrame.refl st

theorem takeLag_edgeFrame (s : Seq) (st : Station) : EdgeFrame st (takeLag s st) := by
  have h : ∀ c : Station, HeadFrame (updateBand s (fun b => { b with lagPassed := true }) st) c → EdgeFrame st c :=
    fun c hc => (updateBand_edgeFrame s _ st).trans hc.toEdge
  unfold takeLag
  simp only
  split
  · exact h _ ((testClosing_frame s _).trans (headTakes_frame _))
  · exact h _ (testClosing_frame s _)

theorem takeSample_table (st : Station) : (takeSample st).table = st.table := by
  have hs : (storeSample st).table = st.table := by unfold storeSample; split <;> rfl
  unfold takeSample
  split
  · rfl
  · simp only
    split <;> exact hs

theorem dispatch_fewer (s : Seq) (st : Station) : SeqsFewer st (dispatch s st) := by
  cases hr : st.record s with
  | none => unfold dispatch; rw [hr]; exact .refl st
  | some r =>
    unfold SeqsFewer
    rw [(dispatch_dispatched hr).seqs]
    exact List.filter_sublist

theorem compareEffect_fewer (id : CompareId) (st : Station) : SeqsFewer st (compareEffect id st) := by
  cases id with
  | qualification => exact (takeQualification_edgeFrame st).fewer
  | bridging => exact (takeBridging_edgeFrame st).fewer
  | blankRelease => exact (releaseBlank_edgeFrame st).fewer
  | overlength => exact (forceOverlength_edgeFrame st).fewer
  | empty s => exact (takeEmpty_frame' s st).toEdge.fewer
  | lag s => exact (takeLag_edgeFrame s st).fewer
  | decision s => exact .ofSeqs (takeDecision_seqs s st)
  | gate s => exact dispatch_fewer s st
  | sample => exact .ofSeqs (by rw [show (compareEffect .sample st).table = st.table from takeSample_table st])
  | windowEnd => exact .refl st

theorem takeCompare_fewer (id : CompareId) (st : Station) : SeqsFewer st (takeCompare id st) := by
  unfold takeCompare
  split
  · exact .refl st
  · exact compareEffect_fewer id (dropCompare id st)

theorem takeOrdered_fewer : ∀ (order : List CompareId) (st : Station), SeqsFewer st (takeOrdered order st)
  | [], st => .refl st
  | id :: rest, st => by
    refine SeqsFewer.trans ?_ (takeOrdered_fewer rest _)
    split
    · exact takeCompare_fewer id st
    · exact .refl st

theorem takeRest_fewer : ∀ (n : Nat) (st : Station), SeqsFewer st (takeRest n st)
  | 0, st => .refl st
  | n + 1, st => by
    unfold takeRest
    split
    · exact .refl st
    · exact (takeCompare_fewer _ st).trans (takeRest_fewer n _)

theorem takeAllDue_fewer (order : List CompareId) (st : Station) : SeqsFewer st (takeAllDue order st) :=
  (takeOrdered_fewer order st).trans (takeRest_fewer _ _)

/-- The station as the alignment has moved the positions, before the head takes. -/
def aligned (d : Pos) (st : Station) : Station :=
  { st with position := { st.position with
      counter := st.position.counter + d, highWater := st.position.highWater + d, triggerPos := st.position.triggerPos + d } }

theorem applyAlignment_eq (d : Pos) (order : List CompareId) (st : Station) : applyAlignment d order st =
    if d ≠ 0 ∧ d.toNat < 2147483648 then
      takeAllDue order { headTakes (aligned d st) with position := (headTakes (aligned d st)).position.markCrossed st.position.counter }
    else headTakes (aligned d st) := rfl

theorem applyAlignment_fewer (d : Pos) (order : List CompareId) (st : Station) : SeqsFewer st (applyAlignment d order st) := by
  have h : SeqsFewer st (headTakes (aligned d st)) := .ofSeqs (seqs_of_identities (headTakes_frame _).identities)
  rw [applyAlignment_eq]
  split
  · exact SeqsFewer.trans h (takeAllDue_fewer order _)
  · exact h

theorem applyAgreement_seqs (agreed : Bool) (st : Station) :
    (applyAgreement agreed st).table.map (·.seq) = st.table.map (·.seq) := by
  unfold applyAgreement
  split
  · split
    · rfl
    · unfold enterRunning
      simp only
      split
      · rw [seqs_of_identities (headTakes_frame _).identities, enterBlanked_table]
      · rfl
  · rfl

/-! ## A ROLL round in parts (R120 to R124) -/

/-- The station as a ROLL round's alignment has been applied, its sequence result and the peer map taken. -/
def rollKnown (alignment sequence : Nat) (slots : List (BitVec 52)) (entry : RollEntry) (order : List CompareId) (st : Station) :
    Station :=
  let a := applyAlignment (BitVec.ofNat 32 alignment - st.position.capture.getD 0) order (toGuard st)
  { a with engine := { a.engine with
      nextSeq := BitVec.ofNat 16 sequence
      peers := newPeers a.engine.peers (rollReadings st.start.index entry slots) } }

/-- The station as the request has been served, the count cleared and a peer change told. -/
def rollServed (before after : Eight (Option Nat)) (readings : Eight (Reading RollEntry)) (st : Station) : Station :=
  let served : Station := { st with engine := { st.engine with
    openCount := 0, requests := { st.engine.requests with roll := anyDamaged readings } } }
  if before.toList.map Option.isSome = after.toList.map Option.isSome then served else raiseCause .peerChange served

theorem settleRoll_eq (before after : Eight (Option Nat)) (readings : Eight (Reading RollEntry)) (st : Station) :
    settleRoll before after readings st = withRequests Requests.releaseTally (completeAll (updateGathering
      (Record.peersChanged (joins before after readings) (leaves before after)) (rollServed before after readings st))) := rfl

theorem applyAlignment_frame_peers (d : Pos) (order : List CompareId) (st : Station) :
    (applyAlignment d order st).engine.peers = st.engine.peers := by
  have h : (headTakes (aligned d st)).engine.peers = st.engine.peers := (headTakes_frame _).peers
  rw [applyAlignment_eq]
  split
  · exact (takeAllDue_frame order _).peers.trans h
  · exact h

theorem completeRoll_eq {slots : List (BitVec 52)} {order : List CompareId} {st : Station} {r : Round} {entry : RollEntry}
    {alignment sequence : Nat} (h : completing .roll st = some r) (he : r.slotEntry = some (.roll entry))
    (h0 : r.result 0 = some alignment) (h1 : r.result 1 = some sequence) : completeRoll slots order st =
      settleRoll st.engine.peers (newPeers st.engine.peers (rollReadings st.start.index entry slots))
        (rollReadings st.start.index entry slots)
        (applyAgreement (agreement entry.digest (rollReadings st.start.index entry slots))
          (rollKnown alignment sequence slots entry order st)) := by
  have hp := applyAlignment_frame_peers (BitVec.ofNat 32 alignment - st.position.capture.getD 0) order (toGuard st)
  have hp' : (toGuard st).engine.peers = st.engine.peers := rfl
  unfold completeRoll
  simp only [h, he, h0, h1, rollEffects, rollKnown, hp, hp']

theorem rollServed_table (before after : Eight (Option Nat)) (readings : Eight (Reading RollEntry)) (st : Station) :
    (rollServed before after readings st).table = st.table ∧ (rollServed before after readings st).engine.peers = st.engine.peers := by
  unfold rollServed
  simp only
  split <;> exact ⟨rfl, rfl⟩

/-- After the settling of a ROLL round each GATHERING record awaits a member. -/
theorem settleRoll_awaits {before after : Eight (Option Nat)} {readings : Eight (Reading RollEntry)} {st : Station}
    (hd : st.seqsDistinct) : ∀ b ∈ (settleRoll before after readings st).table, b.phase = .gathering →
      ∃ k : Index, ((settleRoll before after readings st).engine.peers.get k).isSome = true ∧ b.entries.get k = none := by
  intro b hb hg
  obtain ⟨ht, _⟩ := rollServed_table before after readings st
  have hd' : (updateGathering (Record.peersChanged (joins before after readings) (leaves before after))
      (rollServed before after readings st)).seqsDistinct := by
    show (List.map _ _).Nodup
    rw [updateGathering_seqs _ (fun r => (peersChanged_keeps _ _ r).1), ht]
    exact hd
  rw [settleRoll_eq] at hb ⊢
  obtain ⟨k, hk, he⟩ := completeAll_awaits hd' hb hg
  refine ⟨k, ?_, he⟩
  show ((completeAll _).engine.peers.get k).isSome = true
  rw [completeAll_peers]
  exact hk

/-! ## Completeness (R20) -/

/-- The empty compare: what the end of a band with no edge stores, and the completeness test. -/
theorem emptyCompare_completes {seq : Seq} {r : Record} {st : Station} (hr : st.record seq = some r) :
    let t := settleBand .empty (fun _ => .empty) seq st
    ∃ b, t.record seq = some b ∧ b.entries = r.entries.set st.start.index (some .empty) ∧
      (⟨seq, false⟩ : Held) ∈ t.engine.requests.tally ∧
      (¬ st.completes r .empty → b.phase = r.phase ∧ b.verdict = r.verdict ∧ b.flags = r.flags ∧
        t.engine.requests.verdict = st.engine.requests.verdict) ∧
      (st.completes r .empty → b.phase = .tallied ∧
        (r.frozen = true → b.verdict = r.verdict ∧ t.engine.requests.verdict = st.engine.requests.verdict) ∧
        (r.frozen = false → b.verdict.isSome = true ∧ b.verdict = (gradeRecord st.shared b).verdict ∧
          t.engine.requests.verdict =
            if st.engine.requests.verdict.any (·.subject == seq) then st.engine.requests.verdict
            else st.engine.requests.verdict ++ [⟨seq, true⟩])) := by
  intro t
  have htally : (⟨seq, false⟩ : Held) ∈ t.engine.requests.tally := settleBand_tally hr
  have hraise := Requests.raiseTally_verdict seq st.engine.requests
  by_cases hc : st.completes r .empty
  · obtain ⟨h1, h2⟩ := settleBand_complete (state := .empty) (entry := fun _ => .empty) hr hc
    obtain ⟨_, _, f3, _, _, f6⟩ := tallied_fixed st.shared (r.ended st.start.index .empty .empty)
    refine ⟨_, h1, f3, htally, fun h => absurd hc h, fun _ => ⟨f6, fun hf => ⟨?_, ?_⟩, fun hf => ?_⟩⟩
    · rw [tallied_frozen (r := r.ended st.start.index .empty .empty) hf]; rfl
    · rw [h2, hf]; exact hraise
    · obtain ⟨k1, k2⟩ := tallied_verdict (sh := st.shared) (r := r.ended st.start.index .empty .empty) hf
      refine ⟨k1, k2, ?_⟩
      rw [h2, hf, ← hraise]
      show (Requests.raiseVerdict seq true (Requests.raiseTally seq st.engine.requests)).verdict = _
      unfold Requests.raiseVerdict
      split <;> rfl
  · refine ⟨r.ended st.start.index .empty .empty, ?_, rfl, htally, fun _ => ⟨rfl, rfl, rfl, ?_⟩, fun h => absurd h hc⟩
    · show (settleBand _ _ _ _).record seq = _
      rw [settleBand_incomplete hr hc]; exact settleBand_before hr
    · show (settleBand _ _ _ _).engine.requests.verdict = _
      rw [settleBand_incomplete hr hc]; exact hraise

/-- The lag compare of a CLOSING band whose other conditions hold. -/
theorem lagCompare_storesOwnEntry {r : Record} {trail : Pos} {st : Station} (hd : st.seqsDistinct) (hr : st.record r.seq = some r)
    (hs : r.band.state = .closing) (ht : r.band.trail = some trail) (hc : st.headClear trail)
    (hp : st.probe.target ≠ some (.held r.seq)) :
    st.storesOwnEntry r (.closed r.band.summary) (takeLag r.seq (dropCompare (.lag r.seq) st)) := by
  set a := updateBand r.seq (fun b => { b with lagPassed := true }) (dropCompare (.lag r.seq) st) with ha
  have hr1 : a.record r.seq = some { r with band := { r.band with lagPassed := true } } := record_updateBand _ hr
  have hd1 : a.seqsDistinct := updateBand_distinct _ _ (st := dropCompare (.lag r.seq) st) hd
  have hholds : closingHolds a { r with band := { r.band with lagPassed := true } } = true :=
    (closingHolds_eq a { r with band := { r.band with lagPassed := true } } ht).2
      ⟨hs, rfl, (headClear_congr (a := st) rfl rfl rfl rfl trail).2 hc, hp⟩
  have h := (closes_then_headTakes hd1 hr1 hholds ((testClosing r.seq a).closingCount < a.closingCount)).2.1
  exact storesOwnEntry_congr (x := { r with band := { r.band with lagPassed := true } }) (b := a) rfl rfl rfl rfl h

/-- The completion of a sample of a CLOSING band whose other conditions hold. -/
theorem sampleCompletion_storesOwnEntry {r : Record} {trail : Pos} {st : Station} (raw : BitVec 10) (hd : st.seqsDistinct)
    (hr : st.record r.seq = some r) (hs : r.band.state = .closing) (ht : r.band.trail = some trail) (hc : st.headClear trail)
    (hl : r.band.lagPassed = true) (hp : st.probe.target = some (.held r.seq)) (hv : st.probe.timing = .conversion) :
    st.storesOwnEntry r (.closed (r.band.summary.withReading (trimmed raw st.loc.trim))) (sampleCompletion raw st) := by
  obtain ⟨hr1, hd1, hclear⟩ := sampleFolded_spec raw hr
  have hholds : closingHolds (sampleFolded raw r.seq st)
      { r with band := { r.band with summary := r.band.summary.withReading (trimmed raw st.loc.trim) } } = true :=
    (closingHolds_eq (trail := trail) _ _ ht).2 ⟨hs, hl, (hclear trail).2 hc, by simp [sampleFolded, ProbeUnit.sampleOver]⟩
  have h := (closes_then_headTakes (hd1 hd) hr1 hholds
    ((testClosing r.seq (sampleFolded raw r.seq st)).closingCount < (sampleFolded raw r.seq st).closingCount)).2.1
  rw [← sampleCompletion_held hv hp] at h
  exact storesOwnEntry_congr (b := sampleFolded raw r.seq st)
    (x := { r with band := { r.band with summary := r.band.summary.withReading (trimmed raw st.loc.trim) } }) rfl rfl rfl rfl h

/-- The trailing edge of an OPEN band that closes at once. -/
theorem bridging_storesOwnEntry {r : Record} {trail : Pos} {st : Station} (hd : st.seqsDistinct) (hr : st.record r.seq = some r)
    (ho : st.openRecord = some r) (hc : st.headClear trail) (hp : st.probe.target ≠ some (.held r.seq))
    (hl : atOrAfter st.position.counter (trail + counts st.shared.lag) = true) (hs : st.edge.state = .falling)
    (hf : st.edge.fall = some trail) :
    st.storesOwnEntry r (.closed r.band.summary) (takeBridging (dropCompare .bridging st)) := by
  rw [takeBridging_open (st := dropCompare .bridging st) hs hf ho]
  have h := closes_at_once r.seq trail (st := (dropCompare .bridging st).bridged) hd hr hl
    ((headClear_congr (a := st) (b := (dropCompare .bridging st).bridged) rfl rfl rfl rfl trail).2 hc) hp
  exact storesOwnEntry_congr (b := (dropCompare .bridging st).bridged) rfl rfl rfl rfl h

/-- The overlength of an OPEN band that closes at once. -/
theorem overlength_storesOwnEntry {r : Record} {e : Pos} {st : Station} (hd : st.seqsDistinct) (hr : st.record r.seq = some r)
    (ho : st.openRecord = some r) (he : r.band.lead = some e) (hc : st.headClear (e + counts st.shared.overlength))
    (hp : st.probe.target ≠ some (.held r.seq))
    (hl : atOrAfter st.position.counter (e + counts st.shared.overlength + counts st.shared.lag) = true) :
    st.storesOwnEntry r (.closed { r.band.summary with overlength := true }) (forceOverlength (dropCompare .overlength st)) := by
  set x := dropCompare .overlength st with hx
  have hr1 := overlengthBlanked_record (st := x) (s := r.seq) hr
  have hf := overlengthBlanked_frame r.seq x
  obtain ⟨hscan, heng⟩ := overlengthBlanked_scan r.seq x
  have hsh : (overlengthBlanked r.seq x).shared = st.shared := shared_of_start hf.start
  have hlim : r.band.lead.getD 0 + counts x.shared.overlength = e + counts st.shared.overlength := by rw [he]; rfl
  rw [forceOverlength_open (st := x) ho, hlim]
  have h := closes_at_once r.seq (e + counts st.shared.overlength) (hf.distinct hd) hr1
    (by unfold PositionUnit.reached; rw [hsh, hf.counter]; exact hl)
    ((headClear_congr (a := st) (by rw [hscan]; rfl) hf.triggerCount hf.triggerPos hf.start _).2 hc) (by rw [hf.probe]; exact hp)
  refine storesOwnEntry_congr (x := { r with band := { r.band with summary := { r.band.summary with overlength := true } } })
    hf.start hf.peers rfl ?_ h
  unfold Station.verdictOf
  rw [heng]; rfl

/-- What a TALLY round at a RUNNING station does to a record other than by completing it. -/
theorem Settled.record {s : Seq} {readings : Eight (Reading TallyEntry)} {a b : Station} (h : Settled s readings a b) {u : Seq}
    {r : Record} (hr : a.record u = some r) : ∃ x, b.record u = some x ∧ x.seq = r.seq ∧ x.phase = r.phase ∧
      x.frozen = r.frozen ∧ x.verdict = r.verdict := by
  have key : ∀ x : Record, let y := ((if x.seq = s then x.readFrom a.engine.peers readings else x).gatheringChanged
        (fun _ => false) (removedMember readings a.engine.peers))
      y.seq = x.seq ∧ y.phase = x.phase ∧ y.frozen = x.frozen ∧ y.verdict = x.verdict := by
    intro x
    have h1 : ∀ z : Record, let y := (z.gatheringChanged (fun _ => false) (removedMember readings a.engine.peers))
        y.seq = z.seq ∧ y.phase = z.phase ∧ y.frozen = z.frozen ∧ y.verdict = z.verdict := by
      intro z
      unfold Record.gatheringChanged
      split
      · rw [peersChanged_same]; exact ⟨rfl, rfl, rfl, rfl⟩
      · exact ⟨rfl, rfl, rfl, rfl⟩
    simp only
    split
    · rw [(readChanged_spec a.engine.peers readings x).2.2]; exact ⟨rfl, rfl, rfl, rfl⟩
    · exact h1 x
  exact ⟨_, by rw [record_map _ (fun x => (key x).1) h.table, hr]; rfl, key r⟩

theorem Settled.distinct {s : Seq} {readings : Eight (Reading TallyEntry)} {a b : Station} (h : Settled s readings a b)
    (hd : a.seqsDistinct) : b.seqsDistinct := by
  show (b.table.map (·.seq)).Nodup
  rw [h.table, List.map_map]
  have : (Record.seq ∘ fun r => (if r.seq = s then r.readFrom a.engine.peers readings else r).gatheringChanged
      (fun _ => false) (removedMember readings a.engine.peers)) = Record.seq := by
    funext x
    simp only [Function.comp, (gatheringChanged_keeps _ _ _).1]
    split
    · exact (readFrom_seq _ _ _).1
    · rfl
  rw [this]
  exact hd

/-- The requests after a TALLY round: none for a TALLIED record stays, and a VERDICT request keeps its subject. -/
theorem settleTally_completed {s u : Seq} {raised frozen : Bool} {sent : TallyEntry} {st : Station}
    (hr : raised = true → ∃ x, st.record s = some x ∧ x.phase = .gathering) (hu : ∀ x, st.record u = some x → x.phase ≠ .gathering)
    (h : CompletedRequests u frozen st) : CompletedRequests u frozen (settleTally s raised sent st) := by
  have hmark : ∀ (l : List Held) (b : Bool), (∀ x ∈ l, x.subject ≠ u) →
      ∀ x ∈ l.map (fun h => if h.subject = s then { h with heldBack := b } else h), x.subject ≠ u := by
    intro l b hl x hx
    obtain ⟨y, hy, rfl⟩ := List.mem_map.1 hx
    have := hl y hy
    split <;> exact this
  have h1 : CompletedRequests u frozen (if raised then withRequests (Requests.raiseTally s) st
      else if ((st.record s).any fun r => r.phase == .gathering) && decide (ownTallyEntry st s = sent) then
        withRequests (Requests.markTally s true) st
      else st) := by
    split
    · next hra =>
      obtain ⟨y, hy, hyg⟩ := hr hra
      have hsu : s ≠ u := fun hsu => hu y (hsu ▸ hy) hyg
      refine ⟨fun x hx => ?_, fun hf => ?_⟩
      · have hx' : x ∈ (Requests.raiseTally s st.engine.requests).tally := hx
        unfold Requests.raiseTally at hx'
        split at hx'
        · exact hmark _ _ h.tally x hx'
        · rcases List.mem_append.1 hx' with hx' | hx'
          · exact h.tally x hx'
          · rw [List.mem_singleton.1 hx']; exact hsu
      · show ∃ x ∈ (Requests.raiseTally s st.engine.requests).verdict, x.subject = u
        rw [Requests.raiseTally_verdict]; exact h.verdict hf
    · split
      · exact ⟨hmark _ _ h.tally, h.verdict⟩
      · exact h
  have h2 : ∀ z : Station, CompletedRequests u frozen z → CompletedRequests u frozen
      (if (z.record s).any (fun r => r.phase == .tallied) then withRequests (Requests.dropTally s) z else z) := by
    intro z hz
    split
    · exact ⟨fun x hx => hz.tally x (List.mem_filter.1 hx).1, hz.verdict⟩
    · exact hz
  have h3 : ∀ z : Station, CompletedRequests u frozen z → CompletedRequests u frozen (withRequests (Requests.markVerdict s false) z) := by
    refine fun z hz => ⟨hz.tally, fun hf => ?_⟩
    obtain ⟨x, hx, hxu⟩ := hz.verdict hf
    refine ⟨_, List.mem_map.2 ⟨x, hx, rfl⟩, ?_⟩
    split <;> exact hxu
  exact h3 _ (h2 _ h1)

theorem damagedRaise_gathering {s : Seq} {members : Index → Bool} {readings : Eight (Reading TallyEntry)} {st : Station}
    (h : damagedRaise s members readings st = true) : ∃ x, st.record s = some x ∧ x.phase = .gathering := by
  unfold damagedRaise at h
  rw [Bool.and_eq_true, Option.any_eq_true] at h
  obtain ⟨⟨x, hx, hg⟩, _⟩ := h
  exact ⟨x, hx, by simpa using hg⟩

/-- What the completeness test at the end of a TALLY round leaves. -/
theorem tallyEffects_completes {s : Seq} {sent : TallyEntry} {slots : List (BitVec 448)} {st : Station} (hd : st.seqsDistinct) :
    let t := tallyEffects s sent slots st
    (∀ b ∈ t.table, b.phase = .gathering → ∃ k : Index, (t.engine.peers.get k).isSome = true ∧ b.entries.get k = none) ∧
    (∀ x ∈ st.table, x.phase = .gathering → ∀ b, t.record x.seq = some b → b.phase = .tallied →
      (∀ h ∈ t.engine.requests.tally, h.subject ≠ x.seq) ∧ (x.frozen = true → b.verdict = x.verdict) ∧
      (x.frozen = false → b.verdict.isSome = true ∧ b.verdict = (gradeRecord st.shared b).verdict ∧
        ∃ h ∈ t.engine.requests.verdict, h.subject = x.seq)) := by
  intro t
  have hst := slotsSettled_spec s (tallyReadings st.start.index sent slots) st
  set y := slotsSettled s (tallyReadings st.start.index sent slots) st with hy
  set raised := damagedRaise s (fun k => (st.engine.peers.get k).isSome) (tallyReadings st.start.index sent slots) (completeAll y)
  have ht : t = settleTally s raised sent (completeAll y) := rfl
  obtain ⟨q, hse⟩ := settleTally_same s raised sent (completeAll y)
  have htab : t.table = (completeAll y).table := by rw [ht, hse]
  have hpeers : t.engine.peers = y.engine.peers := by rw [ht, hse]; exact completeAll_peers y
  have hdy := hst.distinct hd
  refine ⟨fun b hb hg => ?_, fun x hx hg b hb hbt => ?_⟩
  · rw [hpeers]
    exact completeAll_awaits hdy (htab ▸ hb) hg
  · rw [record_congr htab] at hb
    obtain ⟨z, hz, _, hzp, hzf, hzv⟩ := hst.record (record_of_mem hd hx)
    obtain ⟨z', hz', hcase⟩ := completeAll_record_from hb
    cases hz.symm.trans hz'
    rcases hcase with ⟨rfl, _⟩ | ⟨rfl, hc⟩
    · rw [hzp, hg] at hbt; cases hbt
    · have hreq : CompletedRequests x.seq z.frozen t := settleTally_completed damagedRaise_gathering
        (fun w hw => by cases hb.symm.trans hw; rw [hbt]; decide) (completeAll_completed hz hc)
      have hsh : y.shared = st.shared := shared_of_start (by rw [hst.same])
      refine ⟨hreq.tally, fun hf => ?_, fun hf => ?_⟩
      · rw [tallied_frozen (hzf.trans hf)]; exact hzv
      · obtain ⟨k1, k2⟩ := tallied_verdict (sh := y.shared) (hzf.trans hf)
        exact ⟨k1, hsh ▸ k2, hreq.verdict (hzf.trans hf)⟩

/-- Settles O30. -/
theorem completenessTest : Obligations.CompletenessTest := by
  refine ⟨fun seq r st q hl hdue hr hb => ?_, fun r trail st q hl hd hm => ⟨fun hs ht hc => ⟨fun hdue hp => ?_, fun raw hlag hp hv => ?_⟩,
    fun hs ho hf hc hp hlag => ⟨fun hdue hst hfall => ?_, fun e hdue he htrail => ?_⟩⟩, fun r b st hd hm hs hb hbs => ?_,
    fun slots r sent subject st q hl hc h0 h1 hn hrec hd => ?_, fun slots order r entry alignment sequence st q hl hc he h0 h1 hd => ?_⟩
  · intro entries complete
    have he := exec_due (c := .emptyCompare seq) rfl q hl hdue (.inl (by simp [CompareId.owner]))
    have hr' : (dropCompare (.empty seq) st).record seq = some r := hr
    have ht : takeEmpty seq (dropCompare (.empty seq) st) =
        settleBand .empty (fun _ => .empty) seq (dropCompare (.empty seq) st) := by
      simp only [takeEmpty, hr', if_pos hb]
    obtain ⟨b, h1, h2⟩ := emptyCompare_completes hr'
    refine ⟨_, b, by rw [he]; simp only [compareEffect, ht], h1, h2⟩
  · refine ⟨_, exec_due (c := .lagCompare r.seq) rfl q hl hdue (.inl (by simp [CompareId.owner])), ?_⟩
    exact lagCompare_storesOwnEntry hd (record_of_mem hd hm) hs ht hc hp
  · exact ⟨sampleCompletion raw st, r.band.summary.withReading (trimmed raw st.loc.trim), exec_live _ q hl, rfl, rfl,
      sampleCompletion_storesOwnEntry raw hd (record_of_mem hd hm) hs ht hc hlag hp hv⟩
  · refine ⟨_, exec_due (c := .bridgingCompare) rfl q hl hdue (.inr hf), ?_⟩
    exact bridging_storesOwnEntry hd (record_of_mem hd hm) ho hc hp hlag hst hfall
  · subst htrail
    refine ⟨_, exec_due (c := .overlengthCompare) rfl q hl hdue (.inr hf), ?_⟩
    exact overlength_storesOwnEntry hd (record_of_mem hd hm) ho he hc hp hlag
  · obtain ⟨x, hx, ⟨hk, _⟩ | ⟨_, _, h⟩⟩ := (headTakes_headStep hd).own r.seq r (record_of_mem hd hm) <;> cases hx.symm.trans hb
    · rw [hk.state, hs] at hbs; cases hbs
    · exact h
  · obtain ⟨rec, hrec⟩ := Option.isSome_iff_exists.1 hrec
    refine ⟨_, exec_live (.tallyRoundComplete slots) q hl, ?_⟩
    simp only [commandEffect, completeTally_running hc h0 h1 hn hrec]
    exact tallyEffects_completes (st := toGuard st) hd
  · refine ⟨_, exec_live (.rollRoundComplete slots order) q hl, ?_⟩
    simp only [commandEffect, completeRoll_eq hc he h0 h1]
    refine settleRoll_awaits ?_
    show (List.map _ _).Nodup
    rw [applyAgreement_seqs]
    exact (applyAlignment_fewer _ order (toGuard st)).distinct hd

end Sys2Proof.Machine

namespace Sys2Proof.Machine

/-! ## The alignment of a ROLL round (R36, R37, R120) -/

theorem applyAlignment_frame (d : Pos) (order : List CompareId) (st : Station) :
    CompareFrame (aligned d st) (applyAlignment d order st) := by
  rw [applyAlignment_eq]
  split
  · refine CompareFrame.trans ((headTakes_compareFrame _).trans ?_) (takeAllDue_frame order _)
    constructor <;> rfl
  · exact headTakes_compareFrame _

/-- Taking the due compares where none is due takes none. -/
theorem takeAllDue_none (order : List CompareId) {st : Station} (h : ∀ c ∈ st.position.compares, c.progress ≠ .due) :
    takeAllDue order st = st := by
  have hf : st.position.compares.filter (fun c => c.progress == .due) = [] :=
    List.filter_eq_nil_iff.2 fun c hc => by simpa using h c hc
  have h1 : firstCompare .due st = none := by unfold firstCompare; rw [hf]; rfl
  have h2 : ∀ id, mayBeNext st id = false := by
    intro id
    unfold mayBeNext
    split
    · rfl
    · next c hc =>
      have := h c (List.mem_of_find?_eq_some hc)
      simp [this]
  have h3 : ∀ l : List CompareId, takeOrdered l st = st := by
    intro l
    induction l with
    | nil => rfl
    | cons id rest ih => simp only [takeOrdered, h2, Bool.false_eq_true, if_false]; exact ih
  have h4 : ∀ n, takeRest n st = st := by
    intro n
    cases n with
    | zero => rfl
    | succ n => simp only [takeRest, h1]
  unfold takeAllDue
  simp only [h3, h4]

/-- No compare is due, and the alignment by `d` carries none from before to at or after the counter (R37). -/
def crossesNone (d : Pos) (st : Station) : Prop := ∀ c ∈ st.position.compares, c.progress ≠ .due ∧
  ¬ (c.progress = .waiting ∧ atOrAfter st.position.counter c.pos = false ∧ atOrAfter (st.position.counter + d) c.pos = true)

theorem markCrossed_none {d : Pos} {st : Station} (h : crossesNone d st) :
    (aligned d st).position.markCrossed st.position.counter = (aligned d st).position := by
  unfold PositionUnit.markCrossed
  have : ((aligned d st).position.compares.map fun c => if c.progress = .waiting ∧ atOrAfter st.position.counter c.pos = false ∧
      (aligned d st).position.reached c.pos = true then { c with progress := .due } else c) = (aligned d st).position.compares := by
    conv_rhs => rw [← List.map_id (aligned d st).position.compares]
    exact List.map_congr_left fun c hc => if_neg (h c hc).2
  rw [this]

/-- Where the alignment takes no compare, it moves the positions and takes the head. -/
theorem applyAlignment_none {d : Pos} (order : List CompareId) {st : Station}
    (h : d = 0 ∨ 2147483648 ≤ d.toNat ∨ crossesNone d st) : applyAlignment d order st = headTakes (aligned d st) := by
  rw [applyAlignment_eq]
  split
  · next hd =>
    rcases h with h | h | h
    · exact absurd h hd.1
    · exact absurd hd.2 (Nat.not_lt.2 h)
    · rw [headTakes_position, markCrossed_none h, ← headTakes_position]
      exact takeAllDue_none order fun c hc => (h c (by rw [headTakes_position] at hc; exact hc)).1
  · rfl

theorem bandRemoved_probe (s : Seq) (st : Station) : (st.bandRemoved s).probe = st.probe := by
  rw [Station.bandRemoved, (enterBlanked_edgeFrame _).probe, dropCompare_probe, dropCompare_probe, Station.withoutRecord]

/-- A removal leaves the state of the probe: a sample in flight loses its target only. -/
theorem removeRecord_probe (outcome : Verdict) (mark : SheetFlags → SheetFlags) (s : Seq) (st : Station) :
    (removeRecord outcome mark s st).probe.state = st.probe.state := by
  cases hr : st.record s with
  | none => rw [removeRecord_none hr]
  | some r =>
    rw [removeRecord_eq hr]
    by_cases hb : r.band.state = .opened
    · simp only [if_pos hb]
      show (st.bandRemoved s).probe.state = st.probe.state
      rw [bandRemoved_probe]
    · simp only [if_neg hb]
      rfl

/-- A probe in OFF stays in OFF under compares. -/
theorem takeCompare_probeOff (id : CompareId) {st : Station} (h : st.probe.state = .off) : (takeCompare id st).probe.state = .off := by
  have key : ∀ x : Station, x.probe.state = .off → (compareEffect id x).probe.state = .off := by
    intro x hx
    have he : ∀ {y : Station}, y.probe = x.probe → y.probe.state = .off := fun hy => by rw [hy]; exact hx
    cases id with
    | qualification => exact he (takeQualification_edgeFrame x).probe
    | bridging => exact he (takeBridging_edgeFrame x).probe
    | blankRelease => exact he rfl
    | overlength => exact he (forceOverlength_edgeFrame x).probe
    | empty s => exact he (takeEmpty_frame' s x).probe
    | lag s => exact he (takeLag_edgeFrame s x).probe
    | decision s =>
      refine he ?_
      show (takeDecision s x).probe = x.probe
      unfold takeDecision
      split
      · rfl
      · simp only
        split <;> rfl
    | gate s =>
      show (dispatch s x).probe.state = .off
      cases hr : x.record s with
      | none => unfold dispatch; rw [hr]; exact hx
      | some r =>
        obtain ⟨o, p, hc, _⟩ := commanded_same r x
        rw [dispatch_eq hr, headTakes_probe, removeRecord_probe, hc]
        exact hx
    | sample =>
      show (takeSample x).probe.state = .off
      have hs : (storeSample x).probe = x.probe := by unfold storeSample; split <;> rfl
      unfold takeSample
      split
      · exact hx
      · simp only
        rw [if_neg (by rw [hs, hx]; decide), hs]; exact hx
    | windowEnd => exact he rfl
  unfold takeCompare
  split
  · exact h
  · exact key (dropCompare id st) h

theorem takeAllDue_probeOff (order : List CompareId) {st : Station} (h : st.probe.state = .off) :
    (takeAllDue order st).probe.state = .off := by
  have h1 : ∀ (l : List CompareId) (x : Station), x.probe.state = .off → (takeOrdered l x).probe.state = .off := by
    intro l
    induction l with
    | nil => exact fun _ h => h
    | cons id rest ih =>
      intro x hx
      refine ih _ ?_
      split
      · exact takeCompare_probeOff id hx
      · exact hx
  have h2 : ∀ (n : Nat) (x : Station), x.probe.state = .off → (takeRest n x).probe.state = .off := by
    intro n
    induction n with
    | zero => exact fun _ h => h
    | succ n ih =>
      intro x hx
      unfold takeRest
      split
      · exact hx
      · exact ih _ (takeCompare_probeOff _ hx)
  exact h2 _ _ (h1 order st h)

theorem applyAlignment_probeOff (d : Pos) (order : List CompareId) {st : Station} (h : st.probe.state = .off) :
    (applyAlignment d order st).probe.state = .off := by
  have h' : (headTakes (aligned d st)).probe.state = .off := by rw [headTakes_probe]; exact h
  rw [applyAlignment_eq]
  split
  · exact takeAllDue_probeOff order h'
  · exact h'

/-! ## The node state after the comparison (R122) -/

/-- Whether the agreement leads the station into RUNNING. -/
def Station.entering (agreed : Bool) (st : Station) : Prop := st.start.node ≠ .running ∧ agreed = true

/-- What the comparison of the digests does. -/
structure Agreed (agreed : Bool) (a b : Station) : Prop where
  start : b.start = { a.start with node := if agreed then .running else .mismatch }
  frame : CompareFrame { a with start := b.start, port := b.port } b
  table : agreed = false ∨ a.start.node = .running → b.table = a.table
  mismatch : agreed = false → b.port.causes.mismatch = true
  pending : a.entering agreed → b.edge.pending = none
  warms : a.entering agreed → a.probe.state = .off → b.probe.state = .warming ∧ b.probe.warmTimer = some a.loc.warmUpTime
  probe : ¬ a.entering agreed ∨ a.probe.state ≠ .off → b.probe = a.probe
  edge : ¬ a.entering agreed ∨ a.edge.pending = none → b.edge = a.edge
  blanked : a.entering agreed → a.edge.pending.isSome = true → a.entersBlanked b

/-- The station as the node state is RUNNING and the probe warms. -/
def runningStarted (st : Station) : Station :=
  { st with
    start := { st.start with node := .running }
    probe := if st.probe.state = .off then { st.probe with state := .warming, warmTimer := some st.loc.warmUpTime } else st.probe }

theorem enterRunning_eq (st : Station) : enterRunning st =
    if st.edge.pending.isSome then headTakes (enterBlanked (runningStarted st)) else runningStarted st := rfl

theorem enterRunning_agreed {st : Station} (hn : st.start.node ≠ .running) : Agreed true st (enterRunning st) := by
  have hf : EdgeFrame (runningStarted st) (enterRunning st) := by
    rw [enterRunning_eq]
    split
    · exact (enterBlanked_edgeFrame _).trans (headTakes_edgeFrame _)
    · exact EdgeFrame.refl _
  have hwarm : st.probe.state = .off → (enterRunning st).probe = { st.probe with state := .warming, warmTimer := some st.loc.warmUpTime } :=
    fun h => hf.probe.trans (if_pos h)
  refine ⟨hf.start, ?_, fun h => ?_, fun h => (by cases h), fun _ => ?_, fun _ h => ?_, fun h => ?_, fun h => ?_, fun _ h => ?_⟩
  · have k := hf.toCompareFrame
    exact ⟨k.heldInReset, rfl, k.line, k.counter, k.direction, k.highWater, k.reverseTravel, k.triggerCount, k.triggerPos,
      k.pulsesOwed, k.triggerLine, k.capture, k.frozen, k.pin, k.frame, k.peers, k.nextSeq, k.openCount, k.roll, rfl, rfl, rfl, rfl,
      rfl, rfl⟩
  · rcases h with h | h
    · cases h
    · exact absurd h hn
  · rw [enterRunning_eq]
    split
    · rw [headTakes_edge]; exact (enterBlanked_pending _).1
    · next h => exact Option.not_isSome_iff_eq_none.1 h
  · rw [hwarm h]; exact ⟨rfl, rfl⟩
  · rcases h with h | h
    · exact absurd ⟨hn, rfl⟩ h
    · exact hf.probe.trans (if_neg h)
  · rcases h with h | h
    · exact absurd ⟨hn, rfl⟩ h
    · rw [enterRunning_eq, h]; rfl
  · have he : (runningStarted st).entersBlanked (enterRunning st) := by
      rw [enterRunning_eq, if_pos h]
      exact EdgeSame.entersBlanked (.refl _) (enterBlanked_entersBlanked _) (headTakes_frame _).edgeSame
    exact he

theorem applyAgreement_agreed (agreed : Bool) (st : Station) : Agreed agreed st (applyAgreement agreed st) := by
  unfold applyAgreement
  cases agreed with
  | false =>
    rw [if_neg Bool.false_ne_true]
    have hne : ¬ st.entering false := fun h => absurd h.2 (by decide)
    refine ⟨rfl, ?_, fun _ => rfl, fun _ => rfl, fun h => absurd h hne, fun h => absurd h hne, fun _ => rfl, fun _ => rfl,
      fun h => absurd h hne⟩
    constructor <;> rfl
  | true =>
    rw [if_pos rfl]
    split
    · next hn =>
      have hne : ¬ st.entering true := fun h => absurd hn h.1
      refine ⟨?_, CompareFrame.refl st, fun _ => rfl, nofun, fun h => absurd h hne, fun h => absurd h hne, fun _ => rfl, fun _ => rfl,
        fun h => absurd h hne⟩
      rw [if_pos rfl, ← hn]
    · next hn => exact enterRunning_agreed hn

/-! ## The settling of a ROLL round (R121, R124) -/

/-- What the last part of a ROLL round does. -/
structure RollSettled (before after : Eight (Option Nat)) (readings : Eight (Reading RollEntry)) (a b : Station) : Prop where
  heldInReset : b.heldInReset = a.heldInReset
  start : b.start = a.start
  position : b.position = a.position
  edge : b.edge = a.edge
  probe : b.probe = a.probe
  line : b.line = a.line
  nextSeq : b.engine.nextSeq = a.engine.nextSeq
  openCount : b.engine.openCount = 0
  peers : b.engine.peers = a.engine.peers
  roll : b.engine.requests.roll = anyDamaged readings
  tally : ∀ h ∈ b.engine.requests.tally, h.heldBack = false
  mismatch : b.port.causes.mismatch = a.port.causes.mismatch
  told : before.toList.map Option.isSome ≠ after.toList.map Option.isSome → b.port.causes.peerChange = true
  records : ∀ x ∈ b.table, x.phase = .gathering → ∃ r : Record, x = r.peersChanged (joins before after readings) (leaves before after)

theorem settleRoll_settled (before after : Eight (Option Nat)) (readings : Eight (Reading RollEntry)) (st : Station) :
    RollSettled before after readings st (settleRoll before after readings st) := by
  rw [settleRoll_eq]
  set u := updateGathering (Record.peersChanged (joins before after readings) (leaves before after))
    (rollServed before after readings st) with hu
  have hs : ∀ {α : Type} (f : Station → α), (∀ (e : RoundEngine) (p : ResultPort) (l : List Record),
      f { st with engine := { e with peers := st.engine.peers, nextSeq := st.engine.nextSeq }, port := p, table := l } = f st) →
      f u = f st := by
    intro α f hf
    rw [hu]
    unfold rollServed
    simp only
    split
    · exact hf { st.engine with openCount := 0, requests := { st.engine.requests with roll := anyDamaged readings } } st.port _
    · exact hf { st.engine with openCount := 0, requests := { st.engine.requests with roll := anyDamaged readings } }
        (st.port.raise .peerChange) _
  have hroll : u.engine.requests.roll = anyDamaged readings ∧ u.engine.openCount = 0 := by
    rw [hu]
    unfold rollServed
    simp only
    split <;> exact ⟨rfl, rfl⟩
  have hport : u.port.causes.mismatch = st.port.causes.mismatch ∧
      (before.toList.map Option.isSome ≠ after.toList.map Option.isSome → u.port.causes.peerChange = true) := by
    rw [hu]
    unfold rollServed
    simp only
    split
    · next h => exact ⟨rfl, fun hn => absurd h hn⟩
    · exact ⟨rfl, fun _ => rfl⟩
  have hf := completeAll_frame u
  refine ⟨hf.heldInReset.trans (hs (·.heldInReset) fun _ _ _ => rfl), hf.start.trans (hs (·.start) fun _ _ _ => rfl),
    hf.position.trans (hs (·.position) fun _ _ _ => rfl), hf.edge.trans (hs (·.edge) fun _ _ _ => rfl),
    hf.probe.trans (hs (·.probe) fun _ _ _ => rfl), hf.line.trans (hs (·.line) fun _ _ _ => rfl),
    hf.nextSeq.trans (hs (·.engine.nextSeq) fun _ _ _ => rfl), hf.openCount.trans hroll.2,
    hf.peers.trans (hs (·.engine.peers) fun _ _ _ => rfl), hf.roll.trans hroll.1, ?_, ?_, ?_, ?_⟩
  · intro h hh
    obtain ⟨x, _, rfl⟩ := List.mem_map.1 (show h ∈ (completeAll u).engine.requests.tally.map fun h => { h with heldBack := false } from hh)
    rfl
  · exact (congrArg (·.causes.mismatch) hf.port).trans hport.1
  · exact fun h => (congrArg (·.causes.peerChange) hf.port).trans (hport.2 h)
  · intro x hx hg
    rcases completeAll_mem (show x ∈ (completeAll u).table from hx) with hx | hx
    · obtain ⟨r, _, rfl⟩ := List.mem_map.1 (show x ∈ (rollServed before after readings st).table.map fun r =>
        if r.phase = .gathering then r.peersChanged (joins before after readings) (leaves before after) else r from hx)
      by_cases hr : r.phase = .gathering
      · exact ⟨r, if_pos hr⟩
      · rw [if_neg hr] at hg; exact absurd hg hr
    · rw [hx] at hg; cases hg

theorem joins_of {before after : Eight (Option Nat)} {readings : Eight (Reading RollEntry)} {k : Index}
    (ha : (after.get k).isSome = true) (h : before.get k = none ∨ ∃ e, readings.get k = .entry e ∧ e.node = .joining) :
    joins before after readings k = true := by
  unfold joins
  rw [ha]
  rcases h with h | ⟨e, h, he⟩
  · rw [h]; rfl
  · rw [h]; simp [he]

theorem leaves_of {before after : Eight (Option Nat)} {k : Index} (hb : (before.get k).isSome = true) (ha : after.get k = none) :
    leaves before after k = true := by
  unfold leaves; rw [hb, ha]; rfl

/-- Settles O42. -/
theorem rollRoundAlignsAndAgrees : Obligations.RollRoundAlignsAndAgrees := by
  intro slots order r entry alignment sequence capture st q hl hc he h0 h1 hcap d readings entering takesNone moved
  set known := rollKnown alignment sequence slots entry order st with hknown
  have hd : BitVec.ofNat 32 alignment - st.position.capture.getD 0 = d := by rw [hcap]; rfl
  have hal : CompareFrame (aligned d (toGuard st)) (applyAlignment d order (toGuard st)) := applyAlignment_frame _ _ _
  have hke : known = { applyAlignment d order (toGuard st) with engine := { (applyAlignment d order (toGuard st)).engine with
      nextSeq := BitVec.ofNat 16 sequence, peers := newPeers (applyAlignment d order (toGuard st)).engine.peers readings } } := by
    rw [hknown]; unfold rollKnown; rw [hd]
  have hpeers : known.engine.peers = newPeers st.engine.peers readings := by
    rw [hke]
    show newPeers (applyAlignment d order (toGuard st)).engine.peers readings = _
    rw [applyAlignment_frame_peers]; rfl
  have hag := applyAgreement_agreed (agreement entry.digest readings) known
  set x := applyAgreement (agreement entry.digest readings) known with hx
  have hse := settleRoll_settled st.engine.peers (newPeers st.engine.peers readings) readings x
  set t := settleRoll st.engine.peers (newPeers st.engine.peers readings) readings x with ht
  have hstart : known.start = st.start := by rw [hke]; exact hal.start
  have hent : known.entering (agreement entry.digest readings) ↔ entering := by
    unfold Station.entering; rw [hstart]
  have hpeersT : t.engine.peers = newPeers st.engine.peers readings := hse.peers.trans (hag.frame.peers.trans hpeers)
  have hpos : ∀ {α : Type} (f : PositionUnit → α), f x.position = f known.position → f known.position = f (aligned d (toGuard st)).position →
      f t.position = f (aligned d (toGuard st)).position := by
    intro α f k1 k2
    rw [hse.position, k1, k2]
  have hkp : known.position = (applyAlignment d order (toGuard st)).position := by rw [hke]
  refine ⟨t, ?_, hpos _ hag.frame.counter (hkp ▸ hal.counter), hpos _ hag.frame.highWater (hkp ▸ hal.highWater),
    hpos _ hag.frame.triggerPos (hkp ▸ hal.triggerPos), hpos _ hag.frame.triggerCount (hkp ▸ hal.triggerCount),
    hpos _ hag.frame.reverseTravel (hkp ▸ hal.reverseTravel), hpos _ hag.frame.direction (hkp ▸ hal.direction),
    hpos _ hag.frame.capture (hkp ▸ hal.capture), ?_, hse.openCount, hpeersT, hse.roll, hse.tally, ?_, fun h => ?_, fun h => ?_,
    fun b hb hg k => ⟨fun hk hj => ?_, fun hk hl => ?_⟩, fun h => ⟨?_, fun hp => ?_⟩, fun hnone => ?_, ?_⟩
  · rw [exec_live _ q hl]
    simp only [commandEffect, completeRoll_eq hc he h0 h1]
    rfl
  · rw [hse.nextSeq, hag.frame.nextSeq, hke]
  · rw [hse.start, hag.start, hstart]
  · rw [hse.mismatch]; exact hag.mismatch h
  · exact hse.told (hpeersT ▸ h)
  · obtain ⟨r, rfl⟩ := hse.records b hb hg
    rw [peersChanged_entries, joins_of (hpeersT ▸ hk) hj]
    cases r.entries.get k <;> simp
  · intro hb'
    obtain ⟨r, rfl⟩ := hse.records b hb hg
    rw [peersChanged_entries] at hb'
    refine (peersChanged_blind _ _ _).2 (.inr ⟨k, .inr (leaves_of hk (hpeersT ▸ hl)), ?_⟩)
    split at hb'
    · cases hb'
    · exact hb'
  · rw [hse.edge]; exact hag.pending (hent.2 h)
  · have hoff : known.probe.state = .off := by
      rw [hke]; exact applyAlignment_probeOff d order (st := toGuard st) hp
    obtain ⟨w1, w2⟩ := hag.warms (hent.2 h) hoff
    have hloc : known.loc = st.loc := by unfold Station.loc; rw [hstart]
    refine ⟨by rw [hse.probe, w1], by rw [hse.probe, w2, hloc], ?_⟩
    have hres : t.heldInReset = false := by
      rw [hse.heldInReset, hag.frame.heldInReset]
      show known.heldInReset = false
      rw [hke]
      exact hal.heldInReset.trans hl
    unfold Station.probeExcite
    rw [hres, hse.probe, w1]; rfl
  · have hk : known = { headTakes (aligned d (toGuard st)) with engine := { (headTakes (aligned d (toGuard st))).engine with
        nextSeq := BitVec.ofNat 16 sequence, peers := newPeers (headTakes (aligned d (toGuard st))).engine.peers readings } } := by
      rw [hke, applyAlignment_none order (st := toGuard st) hnone]
    have hhf := headTakes_frame (aligned d (toGuard st))
    have hsame : EdgeSame moved known := by
      rw [hk]
      exact EdgeSame.trans (b := aligned d (toGuard st)) ⟨rfl, rfl, rfl, fun _ _ => rfl⟩ (.ofPosition hhf.edge hhf.start hhf.position)
    have hpr : known.probe = st.probe := by rw [hk]; exact hhf.probe
    refine ⟨fun h hp => ?_, fun h => ?_, fun h => ?_⟩
    · exact hsame.entersBlanked (hag.blanked (hent.2 h) (by rw [hsame.edge]; exact hp)) (.ofPosition hse.edge hse.start hse.position)
    · rw [hse.edge, hag.edge (h.imp (fun h => hent.not.2 h) fun h => (by rw [hsame.edge]; exact h)), hsame.edge]
    · rw [hse.probe, hag.probe (h.imp (fun h => hent.not.2 h) fun h => (by rw [hpr]; exact h)), hpr]
  · rw [hse.line, hag.frame.line]
    show known.line = _
    rw [hke]
    exact hal.line

end Sys2Proof.Machine

namespace Sys2Proof.Machine

/-! ## The OPEN request and the pending edge (R12, R126) -/

/-- A qualified edge is pending. -/
def Station.unattached (st : Station) : Prop := ∃ e, st.edge.pending = some e ∧ e.qualified = true

/-- The OPEN request is as before, and the pending edge too, unless it is discarded. -/
structure EdgeLeft (a b : Station) : Prop where
  opening : b.engine.requests.opening = a.engine.requests.opening
  pending : b.edge.pending = a.edge.pending ∨ b.edge.pending = none

theorem EdgeLeft.refl (a : Station) : EdgeLeft a a := ⟨rfl, .inl rfl⟩

theorem EdgeLeft.trans {a b c : Station} (h : EdgeLeft a b) (k : EdgeLeft b c) : EdgeLeft a c := by
  refine ⟨k.opening.trans h.opening, ?_⟩
  rcases k.pending with hk | hk
  · rw [hk]; exact h.pending
  · exact .inr hk

theorem EdgeLeft.ofSame {a b : Station} (he : b.engine = a.engine) (hd : b.edge.pending = a.edge.pending) : EdgeLeft a b :=
  ⟨by rw [he], .inl hd⟩

theorem HeadFrame.edgeLeft {a b : Station} (h : HeadFrame a b) : EdgeLeft a b := ⟨h.opening, .inl (by rw [h.edge])⟩

theorem EdgeLeft.unattached {a b : Station} (h : EdgeLeft a b) (hb : b.unattached) : a.unattached := by
  obtain ⟨e, he, hq⟩ := hb
  rcases h.pending with hp | hp
  · exact ⟨e, hp ▸ he, hq⟩
  · rw [hp] at he; cases he

theorem enterBlanked_edgeLeft (st : Station) : EdgeLeft st (enterBlanked st) :=
  ⟨by rw [(enterBlanked_scan st).2], .inr (enterBlanked_pending st).1⟩

theorem enterClosing_edgeLeft (s : Seq) (trail : Pos) (st : Station) : EdgeLeft st (enterClosing s trail st) := by
  obtain ⟨he, _, hn⟩ := closingStart_same s trail st
  exact EdgeLeft.trans (.ofSame hn (by rw [he])) (testClosing_frame s _).edgeLeft

theorem storeSample_edgeLeft (st : Station) : EdgeLeft st (storeSample st) := by
  unfold storeSample
  split <;> exact .ofSame rfl rfl

theorem forceOverlength_edgeLeft (st : Station) : EdgeLeft st (forceOverlength st) := by
  unfold forceOverlength
  split
  · exact .refl st
  · refine EdgeLeft.trans (EdgeLeft.trans (EdgeLeft.trans ?_ (enterBlanked_edgeLeft _)) (enterClosing_edgeLeft _ _ _))
      (headTakes_frame _).edgeLeft
    exact .ofSame rfl rfl

/-- An attachment leaves the OPEN request, and no edge pending. -/
theorem attachEdge_attaches (edge : PendingEdge) (s : Seq) (st : Station) :
    (attachEdge edge s st).engine.requests.opening = st.engine.requests.opening ∧ (attachEdge edge s st).edge.pending = none := by
  have ho : (openBand s edge.rise st).engine = st.engine ∧ (openBand s edge.rise st).edge.pending = none := ⟨rfl, rfl⟩
  have key : ∀ b, EdgeLeft (openBand s edge.rise st) b → b.engine.requests.opening = st.engine.requests.opening ∧ b.edge.pending = none := by
    refine fun b h => ⟨h.opening.trans (by rw [ho.1]), ?_⟩
    rcases h.pending with h | h
    · rw [h]; exact ho.2
    · exact h
  have hs := storeSample_edgeLeft (openBand s edge.rise st)
  have hst : ∀ (x : Station) (pos : Pos) (g : Progress), EdgeLeft x (headTakes (storeCompare .overlength pos g x)) :=
    fun x pos g => EdgeLeft.trans (b := storeCompare .overlength pos g x) (.ofSame rfl rfl) (headTakes_frame _).edgeLeft
  unfold attachEdge
  simp only
  split
  · split
    · split
      · exact key _ (hs.trans (hst _ _ _))
      · exact key _ (hs.trans (forceOverlength_edgeLeft _))
    · exact key _ (hs.trans (hst _ _ _))
  · split
    · refine key _ (EdgeLeft.trans (EdgeLeft.trans ?_ (enterClosing_edgeLeft _ _ _)) (headTakes_frame _).edgeLeft)
      exact .ofSame rfl rfl
    · exact key _ ((enterClosing_edgeLeft _ _ _).trans (headTakes_frame _).edgeLeft)

/-- The station as no test waits any longer. -/
def testMade (st : Station) : Station := { st with edge := { st.edge with testDeferred := false } }

/-- The attachment test finds no qualified edge, raises OPEN, or attaches the edge to the newest record. -/
theorem attachTest_cases (st : Station) : attachTest st = testMade st ∧ ¬ st.unattached ∨
    attachTest st = raiseOpen (testMade st) ∧ st.unattached ∨
    ∃ e r, st.edge.pending = some e ∧ e.qualified = true ∧ st.newest = some r ∧ attaches st e.rise r = true ∧
      attachTest st = attachEdge e r.seq (testMade st) := by
  cases hp : st.edge.pending with
  | none =>
    refine .inl ⟨by unfold attachTest testMade; simp only [hp], ?_⟩
    rintro ⟨e, he, _⟩
    rw [hp] at he; cases he
  | some e =>
    cases hq : e.qualified with
    | false =>
      refine .inl ⟨by unfold attachTest testMade; simp only [hp, hq, Bool.false_eq_true, if_false], ?_⟩
      rintro ⟨e', he, hqe⟩
      cases he.symm.trans hp
      rw [hq] at hqe; cases hqe
    | true =>
      have hu : st.unattached := ⟨e, hp, hq⟩
      cases hn : st.newest with
      | none =>
        refine .inr (.inl ⟨attachTest_raise st e hp hq (.inl ?_), hu⟩)
        exact List.getLast?_eq_none_iff.1 hn
      | some r =>
        cases ha : attaches st e.rise r with
        | true => exact .inr (.inr ⟨e, r, rfl, hq, rfl, ha, attachTest_attach st e r hp hq hn ha⟩)
        | false =>
          refine .inr (.inl ⟨attachTest_raise st e hp hq (.inr ?_), hu⟩)
          unfold attaches at ha
          simp only [Bool.and_eq_false_iff, beq_eq_false_iff_ne, Option.isNone_eq_false_iff] at ha
          rcases ha with (ha | ha) | ha
          · exact .inr ⟨r, hn, .inl ha⟩
          · exact .inl ha
          · exact .inr ⟨r, hn, .inr ha⟩

/-- The attachment test raises OPEN exactly where it leaves a qualified edge unattached. -/
theorem attachTest_opening (st : Station) :
    (attachTest st).engine.requests.opening = st.engine.requests.opening ∧ ¬ (attachTest st).unattached ∨
    (attachTest st).engine.requests.opening = true ∧ (attachTest st).unattached ∧ st.unattached := by
  rcases attachTest_cases st with ⟨h, hn⟩ | ⟨h, hu⟩ | ⟨e, r, _, _, _, _, h⟩ <;> rw [h]
  · exact .inl ⟨rfl, hn⟩
  · exact .inr ⟨rfl, hu, hu⟩
  · obtain ⟨h1, h2⟩ := attachEdge_attaches e r.seq (testMade st)
    refine .inl ⟨h1, ?_⟩
    rintro ⟨e', he, _⟩
    rw [h2] at he; cases he

theorem takeDecision_edgeLeft (s : Seq) (st : Station) : EdgeLeft st (takeDecision s st) ∧ (takeDecision s st).edge = st.edge := by
  have hv : ∀ b : Bool, ∀ q : Requests, (q.raiseVerdict s b).opening = q.opening := fun b q => Requests.raiseVerdict_opening s b q
  unfold takeDecision
  split
  · exact ⟨.refl st, rfl⟩
  · simp only
    split
    · exact ⟨⟨hv false _, .inl rfl⟩, rfl⟩
    · exact ⟨⟨hv false _, .inl rfl⟩, rfl⟩
    · exact ⟨⟨rfl, .inl rfl⟩, rfl⟩

/-- An entry to BLANKED leaves no edge pending. -/
theorem entersBlanked_pending {a t : Station} (h : a.entersBlanked t) : t.edge.pending = none := by
  obtain ⟨_, _, h1, h2, h3, h4⟩ := h
  by_cases hs : a.edge.state = .blanked
  · rw [h1 hs]
  · cases hp : a.presenceHeld with
    | true => rw [(h2 hs hp).1]
    | false =>
      by_cases hb : atOrAfter a.position.counter (a.absenceStart + counts a.shared.bridge) = true ∧ a.edge.frozen = false
      · rw [(h3 hs hp hb.1 hb.2).1]
      · refine (h4 hs hp ?_).1 ▸ rfl
        by_cases hr : atOrAfter a.position.counter (a.absenceStart + counts a.shared.bridge) = true
        · exact .inr (by by_contra hf; exact hb ⟨hr, by simpa using hf⟩)
        · exact .inl (by simpa using hr)

theorem dispatch_edgeLeft (s : Seq) (st : Station) : EdgeLeft st (dispatch s st) := by
  cases hr : st.record s with
  | none => unfold dispatch; rw [hr]; exact .refl st
  | some r =>
    have h := dispatch_dispatched hr
    refine ⟨?_, ?_⟩
    · obtain ⟨o, p, hc, _⟩ := commanded_same r st
      rw [dispatch_eq hr, (headTakes_frame _).opening, (removeRecord_removed _ _ (r := r) (by rw [hc]; exact hr)).engine, hc]
      rfl
    · by_cases hb : r.band.state = .opened
      · exact .inr (entersBlanked_pending (h.blanked hb).1)
      · exact .inl (by rw [(h.kept hb).edge])

/-- One step of the taking of due gate compares: the record's, where it is due. -/
def takeDueGate (st : Station) (s : Seq) : Station :=
  if st.position.isDue (.gate s) then dispatch s (dropCompare (.gate s) st) else st

theorem takeDueGates_eq (st : Station) : takeDueGates st = (st.table.map (·.seq)).foldl takeDueGate st := rfl

theorem takeDueGate_edgeLeft (st : Station) (s : Seq) : EdgeLeft st (takeDueGate st s) := by
  unfold takeDueGate
  split
  · exact EdgeLeft.trans (b := dropCompare (.gate s) st) (.ofSame rfl rfl) (dispatch_edgeLeft s _)
  · exact .refl st

theorem takeDueGate_frame (st : Station) (s : Seq) : CompareFrame st (takeDueGate st s) := by
  unfold takeDueGate
  split
  · exact (dropCompare_frame _ st).trans (dispatch_frame s _)
  · exact CompareFrame.refl st

theorem takeDueGates_kept (st : Station) : EdgeLeft st (takeDueGates st) ∧ CompareFrame st (takeDueGates st) := by
  have : ∀ (l : List Seq) (x : Station), EdgeLeft x (l.foldl takeDueGate x) ∧ CompareFrame x (l.foldl takeDueGate x) := by
    intro l
    induction l with
    | nil => exact fun x => ⟨.refl x, CompareFrame.refl x⟩
    | cons s l ih =>
      intro x
      obtain ⟨h1, h2⟩ := ih (takeDueGate x s)
      exact ⟨(takeDueGate_edgeLeft x s).trans h1, (takeDueGate_frame x s).trans h2⟩
  exact this _ st

/-! ## Creation in parts (R10) -/

/-- The record that a position result creates. -/
def Station.created (result : Pos) (st : Station) : Record := newRecord st.shared st.engine.nextSeq (creationP st result)

/-- The position of a record's empty compare. -/
def Station.emptyPos (result : Pos) (st : Station) : Pos :=
  creationP st result + counts st.shared.attachWindow + counts st.shared.qualification

/-- The station as the new record stands in the table. -/
def creationPlaced (result : Pos) (st : Station) : Station :=
  { st with table := st.table ++ [st.created result], engine := { st.engine with nextSeq := st.engine.nextSeq + 1 } }

/-- The station as the new record's compares have been stored. -/
def creationStored (result : Pos) (st : Station) : Station :=
  storeCreationCompare (.gate st.engine.nextSeq) (st.created result).gatePos
    (storeCreationCompare (.decision st.engine.nextSeq) (st.created result).decisionPos
      (storeCreationCompare (.empty st.engine.nextSeq) (st.emptyPos result) (creationPlaced result st)))

/-- The station as the attachment test has been made, with the empty compare taken where it is reached. -/
def creationTested (result : Pos) (st : Station) : Station :=
  let tested := headTakes (attachTest (creationStored result st))
  if st.position.reached (st.emptyPos result) then takeEmpty st.engine.nextSeq tested else tested

/-- The station as the decision compare has been taken too, where it is reached. -/
def creationSettled (result : Pos) (st : Station) : Station :=
  if st.position.reached (st.created result).decisionPos then takeDecision st.engine.nextSeq (creationTested result st)
  else creationTested result st

theorem createRecord_eq (result : Pos) (st : Station) : createRecord result st =
    if st.position.reached (st.created result).gatePos then dispatch st.engine.nextSeq (takeDueGates (creationSettled result st))
    else creationSettled result st := rfl

theorem storeCreationCompare_eq (id : CompareId) (pos : Pos) (st : Station) : ∃ p : PositionUnit,
    storeCreationCompare id pos st = { st with position := p } ∧ CompareFrame st (storeCreationCompare id pos st) := by
  unfold storeCreationCompare
  split
  · exact ⟨_, rfl, CompareFrame.refl st⟩
  · exact ⟨_, rfl, storeCompare_frame _ _ _ st⟩

/-- The storing of the compares changes the compares alone. -/
theorem creationStored_eq (result : Pos) (st : Station) : ∃ p : PositionUnit,
    creationStored result st = { creationPlaced result st with position := p } ∧
      CompareFrame (creationPlaced result st) (creationStored result st) := by
  obtain ⟨p1, h1, k1⟩ := storeCreationCompare_eq (.empty st.engine.nextSeq) (st.emptyPos result) (creationPlaced result st)
  obtain ⟨p2, h2, k2⟩ := storeCreationCompare_eq (.decision st.engine.nextSeq) (st.created result).decisionPos
    (storeCreationCompare (.empty st.engine.nextSeq) (st.emptyPos result) (creationPlaced result st))
  obtain ⟨p3, h3, k3⟩ := storeCreationCompare_eq (.gate st.engine.nextSeq) (st.created result).gatePos
    (storeCreationCompare (.decision st.engine.nextSeq) (st.created result).decisionPos
      (storeCreationCompare (.empty st.engine.nextSeq) (st.emptyPos result) (creationPlaced result st)))
  exact ⟨p3, h3.trans (by rw [h2, h1]), (k1.trans k2).trans k3⟩

theorem takeDecision_identities (s : Seq) (st : Station) :
    (takeDecision s st).table.map Record.identity = st.table.map Record.identity := by
  have h : ∀ f : Record → Record, (∀ x, (f x).identity = x.identity) →
      (updateRecord s f (withRequests (Requests.markVerdict s false) st)).table.map Record.identity = st.table.map Record.identity :=
    fun f hf => (HeadFrame.ofUpdate s f hf _).identities
  unfold takeDecision
  split
  · rfl
  · simp only
    split
    · exact h (fun x => { x with verdict := some .manual, frozen := true, flags := { x.flags with incomplete := true } }) fun _ => rfl
    · exact h (fun x => { x with frozen := true }) fun _ => rfl
    · exact h (fun x => { x with frozen := true }) fun _ => rfl

/-- What a creation leaves after the attachment test, up to the gate position. -/
structure CreationKept (a b : Station) : Prop where
  frame : CompareFrame a b
  edge : b.edge = a.edge
  opening : b.engine.requests.opening = a.engine.requests.opening
  identities : b.table.map Record.identity = a.table.map Record.identity

theorem CreationKept.refl (a : Station) : CreationKept a a := ⟨CompareFrame.refl a, rfl, rfl, rfl⟩

theorem CreationKept.trans {a b c : Station} (h : CreationKept a b) (k : CreationKept b c) : CreationKept a c :=
  ⟨h.frame.trans k.frame, k.edge.trans h.edge, k.opening.trans h.opening, k.identities.trans h.identities⟩

theorem HeadFrame.creationKept {a b : Station} (h : HeadFrame a b) : CreationKept a b := ⟨h.toCompare, h.edge, h.opening, h.identities⟩

theorem creationSettled_kept (result : Pos) (st : Station) :
    CreationKept (attachTest (creationStored result st)) (creationSettled result st) := by
  have h1 : CreationKept (attachTest (creationStored result st)) (creationTested result st) := by
    have h := (headTakes_frame (attachTest (creationStored result st))).creationKept
    unfold creationTested
    simp only
    split
    · exact h.trans (takeEmpty_frame' _ _).creationKept
    · exact h
  unfold creationSettled
  split
  · exact h1.trans ⟨takeDecision_frame _ _, (takeDecision_edgeLeft _ _).2, (takeDecision_edgeLeft _ _).1.opening,
      takeDecision_identities _ _⟩
  · exact h1

/-- The frame of a whole creation. -/
theorem createRecord_kept (result : Pos) (st : Station) :
    EdgeLeft (attachTest (creationStored result st)) (createRecord result st) ∧
      CompareFrame (creationPlaced result st) (createRecord result st) := by
  have h := creationSettled_kept result st
  obtain ⟨_, _, hs⟩ := creationStored_eq result st
  have hf := (hs.trans (attachTest_frame _)).trans h.frame
  have hl : EdgeLeft (attachTest (creationStored result st)) (creationSettled result st) := ⟨h.opening, .inl (by rw [h.edge])⟩
  rw [createRecord_eq]
  split
  · obtain ⟨k1, k2⟩ := takeDueGates_kept (creationSettled result st)
    exact ⟨(hl.trans k1).trans (dispatch_edgeLeft _ _), (hf.trans k2).trans (dispatch_frame _ _)⟩
  · exact ⟨hl, hf⟩

/-! ## The completion of an OPEN round (R11, R123, R126) -/

/-- What the service of the OPEN request and the count of the round do. -/
structure Served (a b : Station) : Prop where
  table : b.table = a.table
  same : EdgeSame a b
  line : b.line = { a.line with state := .guard, opener := false, longDrive := false, round := none }
  capture : b.position.capture = none
  nextSeq : b.engine.nextSeq = a.engine.nextSeq
  opening : b.engine.requests.opening = false
  count : b.engine.openCount = satAdd a.engine.openCount 1
  roll : a.engine.openCount.toNat + 1 = a.shared.rollPeriod.toNat → b.engine.requests.roll = true

theorem satAdd_one (a : BitVec 8) : (satAdd a 1).toNat = min 255 (a.toNat + 1) := by
  simp only [satAdd, BitVec.toNat_ofNat]
  have := a.isLt
  omega

theorem openServed_served (st : Station) : Served st (openServed st) := by
  have hs := openServed_same st
  have key : ∀ y : Station, (y = toGuard st → (countOpenRound (withRequests (fun q => { q with opening := false }) y)).line = y.line ∧
      (countOpenRound (withRequests (fun q => { q with opening := false }) y)).position = y.position ∧
      (countOpenRound (withRequests (fun q => { q with opening := false }) y)).engine.nextSeq = y.engine.nextSeq ∧
      (countOpenRound (withRequests (fun q => { q with opening := false }) y)).engine.requests.opening = false ∧
      (countOpenRound (withRequests (fun q => { q with opening := false }) y)).engine.openCount = satAdd y.engine.openCount 1) := by
    intro y _
    unfold countOpenRound
    simp only
    split <;> exact ⟨rfl, rfl, rfl, rfl, rfl⟩
  obtain ⟨k1, k2, k3, k4, k5⟩ := key (toGuard st) rfl
  refine ⟨hs.table, ⟨hs.edge, hs.counter, hs.start, fun id _ => ?_⟩, k1, ?_, k3, k4, k5, fun h => ?_⟩
  · unfold PositionUnit.find; rw [hs.compares]
  · show (openServed st).position.capture = none
    unfold openServed
    rw [k2]; rfl
  · have h1 : satAdd st.engine.openCount 1 ≠ st.engine.openCount := by
      intro hh
      have h2 := satAdd_one st.engine.openCount
      rw [hh] at h2
      have := st.shared.rollPeriod.isLt
      omega
    have h3 : satAdd st.engine.openCount 1 = st.shared.rollPeriod := by
      apply BitVec.eq_of_toNat_eq
      rw [satAdd_one]
      have := st.shared.rollPeriod.isLt
      omega
    have h4 : openServed st = raiseRoll { withRequests (fun q => { q with opening := false }) (toGuard st) with
        engine := { (withRequests (fun q => { q with opening := false }) (toGuard st)).engine with
          openCount := satAdd st.engine.openCount 1 } } := if_pos ⟨h1, h3⟩
    rw [h4]; rfl

theorem creationRefused_iff (st : Station) : creationRefused st = true ↔ 12 ≤ st.table.length ∨
    (∃ n, st.newest = some n ∧ olderSeq n.seq st.engine.nextSeq = false) ∨ ∃ x ∈ st.table, x.seq = st.engine.nextSeq := by
  unfold creationRefused
  simp only [Bool.or_eq_true, List.any_eq_true, beq_iff_eq, or_assoc]
  refine or_congr decide_eq_true_iff (or_congr_left ?_)
  cases st.newest with
  | none => simp
  | some n => simp

/-- The choice of a creation reads records, next number and configuration alone. -/
theorem creation_congr {a b : Station} (ht : b.table = a.table) (hn : b.engine.nextSeq = a.engine.nextSeq) :
    creationRefused b = creationRefused a ∧ ∀ p, creationP b p = creationP a p := by
  unfold creationRefused creationP Station.newest
  rw [ht, hn]
  exact ⟨rfl, fun _ => rfl⟩

theorem refuseCreation_spec (st : Station) : let t := refuseCreation st
    CompareFrame { st with engine := { st.engine with nextSeq := st.engine.nextSeq + 1 }, port := st.port.raise .tableFull } t ∧
    t.port.causes.tableFull = true ∧ st.entersBlanked t ∧ t.engine.requests.opening = st.engine.requests.opening ∧
      t.table.map (·.seq) = st.table.map (·.seq) := by
  intro t
  set x : Station := { st with engine := { st.engine with nextSeq := st.engine.nextSeq + 1 } } with hx
  have hf := headTakes_frame (raiseCause .tableFull (enterBlanked x))
  have hb := enterBlanked_edgeFrame x
  refine ⟨?_, ?_, ?_, ?_, ?_⟩
  · refine CompareFrame.trans ?_ hf.toCompare
    have hp : (raiseCause .tableFull (enterBlanked x)).port = st.port.raise .tableFull := congrArg (ResultPort.raise .tableFull) hb.port
    exact ⟨hb.heldInReset, hb.start, hb.line, hb.counter, hb.direction, hb.highWater, hb.reverseTravel, hb.triggerCount, hb.triggerPos,
      hb.pulsesOwed, hb.triggerLine, hb.capture, hb.frozen, hb.pin, hb.frame, hb.peers, hb.nextSeq, hb.openCount, hb.roll,
      by rw [hp], by rw [hp], by rw [hp], by rw [hp], by rw [hp], by rw [hp]⟩
  · show (headTakes (raiseCause .tableFull (enterBlanked x))).port.causes.tableFull = true
    rw [hf.port]; rfl
  · exact EdgeSame.entersBlanked (b := x) (.ofPosition rfl rfl rfl) (enterBlanked_entersBlanked x)
      (EdgeSame.trans (b := raiseCause .tableFull (enterBlanked x)) (.ofPosition rfl rfl rfl) hf.edgeSame)
  · exact hf.opening.trans (congrArg (·.requests.opening) (enterBlanked_scan x).2)
  · refine (seqs_of_identities hf.identities).trans ?_
    show (enterBlanked x).table.map (·.seq) = _
    rw [enterBlanked_table]

/-- The creation where the gate position lies ahead. -/
theorem createRecord_ahead {result : Pos} {st : Station} (hg : st.position.reached (st.created result).gatePos = false)
    (ho : st.engine.requests.opening = false) :
    ((createRecord result st).engine.requests.opening = true ↔ (createRecord result st).unattached) ∧
      (createRecord result st).table.map Record.identity = st.table.map Record.identity ++ [(st.created result).identity] := by
  obtain ⟨p, hp, _⟩ := creationStored_eq result st
  have h := creationSettled_kept result st
  have he : createRecord result st = creationSettled result st := by
    rw [createRecord_eq, hg]; rfl
  rw [he]
  refine ⟨?_, ?_⟩
  · have hun : (creationSettled result st).unattached ↔ (attachTest (creationStored result st)).unattached := by
      unfold Station.unattached; rw [h.edge]
    have ho' : (creationStored result st).engine.requests.opening = false := by rw [hp]; exact ho
    rw [hun, h.opening]
    rcases attachTest_opening (creationStored result st) with ⟨h1, h2⟩ | ⟨h1, h2, _⟩
    · rw [h1, ho']; exact ⟨fun hh => (by cases hh), fun hh => absurd hh h2⟩
    · exact ⟨fun _ => h2, fun _ => h1⟩
  · rw [h.identities, (attachTest_edgeFrame _).identities, hp]
    show (st.table ++ [st.created result]).map Record.identity = _
    rw [List.map_append]; rfl

/-- Settles O44. -/
theorem openRoundCreatesOrRefuses : Obligations.OpenRoundCreatesOrRefuses := by
  refine ⟨fun st => ⟨creationRefused_iff st, fun p => ⟨fun h => ?_, fun n h => ?_⟩⟩, fun r st q hl hc => ?_⟩
  · unfold creationP Station.newest; rw [h]; rfl
  · unfold creationP; rw [h]
  · intro unattached
    have he := exec_live .openRoundComplete q hl
    simp only [commandEffect] at he
    obtain ⟨hc1, hc2, hc3⟩ := completeOpen_eq hc
    have hs := openServed_served st
    by_cases hn : st.start.node = .running
    · have hcount : ∀ t : Station, t.engine.openCount = (openServed st).engine.openCount →
          t.engine.openCount.toNat = min 255 (st.engine.openCount.toNat + 1) := fun t ht => by
        rw [ht, hs.count, satAdd_one]
      obtain ⟨hcr, hcp⟩ := creation_congr hs.table hs.nextSeq
      have hsh : (openServed st).shared = st.shared := shared_of_start hs.same.start
      have hun : (openServed st).unattached ↔ st.unattached := by unfold Station.unattached; rw [hs.same.edge]
      cases h0 : r.result 0 with
      | none =>
        have f := attachTest_frame (openServed st)
        rw [hc2 hn h0] at he
        have ho := attachTest_opening (openServed st)
        rw [hs.opening] at ho
        refine ⟨_, he, f.line.trans hs.line, f.capture.trans hs.capture, fun h => absurd hn h, fun _ => ⟨hcount _ f.openCount,
          fun h => f.roll.trans (hs.roll h), fun h => ?_, fun h => ?_, fun _ => ⟨f.nextSeq.trans hs.nextSeq, ?_⟩, nofun, nofun, nofun⟩⟩
        · rcases ho with ⟨h1, _⟩ | ⟨_, _, h1⟩
          · exact h1
          · exact absurd (hun.1 h1) h
        · rcases ho with ⟨_, h1⟩ | ⟨h1, _⟩
          · exact absurd h h1
          · exact h1
        · rcases ho with ⟨h1, h2⟩ | ⟨h1, h2, _⟩
          · rw [h1]; exact ⟨fun h => (by cases h), fun h => absurd h h2⟩
          · exact ⟨fun _ => h2, fun _ => h1⟩
      | some p =>
        rw [hc1 hn p h0, hcr] at he
        cases hrf : creationRefused st with
        | true =>
          rw [if_pos hrf] at he
          obtain ⟨f, h1, h2, h3, h4⟩ := refuseCreation_spec (openServed st)
          have h2' := hs.same.entersBlanked h2 (.refl _)
          refine ⟨_, he, f.line.trans hs.line, f.capture.trans hs.capture, fun h => absurd hn h, fun _ => ⟨hcount _ f.openCount,
            fun h => f.roll.trans (hs.roll h), fun _ => h3.trans hs.opening, fun ⟨e, hp, _⟩ => ?_, nofun,
            fun _ _ => f.nextSeq.trans (by rw [← hs.nextSeq]),
            fun _ _ _ => ⟨h1, h2', h3.trans hs.opening, h4.trans (by rw [hs.table])⟩, fun _ _ h => (by cases h)⟩⟩
          rw [entersBlanked_pending h2] at hp; cases hp
        | false =>
          rw [hrf, if_neg Bool.false_ne_true] at he
          obtain ⟨k, f⟩ := createRecord_kept (BitVec.ofNat 32 p) (openServed st)
          obtain ⟨pos, hpos, _⟩ := creationStored_eq (BitVec.ofNat 32 p) (openServed st)
          have ho := attachTest_opening (creationStored (BitVec.ofNat 32 p) (openServed st))
          have hus : (creationStored (BitVec.ofNat 32 p) (openServed st)).unattached ↔ st.unattached := by
            rw [← hun, hpos]; exact Iff.rfl
          have hos : (creationStored (BitVec.ofNat 32 p) (openServed st)).engine.requests.opening = false := by
            rw [hpos]; exact hs.opening
          rw [hos] at ho
          refine ⟨_, he, f.line.trans hs.line, f.capture.trans hs.capture, fun h => absurd hn h, fun _ => ⟨hcount _ f.openCount,
            fun h => f.roll.trans (hs.roll h), fun h => ?_, fun h => ?_, nofun, fun _ _ => f.nextSeq.trans ?_, fun _ _ h => (by cases h),
            fun p' hp' _ hg => ?_⟩⟩
          · rw [k.opening]
            rcases ho with ⟨h1, _⟩ | ⟨_, _, h1⟩
            · exact h1
            · exact absurd (hus.1 h1) h
          · rw [k.opening]
            rcases ho with ⟨_, h1⟩ | ⟨h1, _⟩
            · exact absurd (k.unattached h) h1
            · exact h1
          · show (openServed st).engine.nextSeq + 1 = _
            rw [hs.nextSeq]
          · cases hp'
            have hcreated : (openServed st).created (BitVec.ofNat 32 p) = newRecord st.shared st.engine.nextSeq
                (creationP st (BitVec.ofNat 32 p)) := by
              unfold Station.created; rw [hsh, hs.nextSeq, hcp]
            obtain ⟨k1, k2⟩ := createRecord_ahead (result := BitVec.ofNat 32 p) (st := openServed st)
              (by rw [hcreated]; unfold PositionUnit.reached; rw [hs.same.counter]; exact hg) hs.opening
            refine ⟨k1, k2.trans ?_⟩
            rw [hcreated, hs.table]; rfl
    · rw [hc3 hn] at he
      have f := deferredTest_frame (toGuard st)
      refine ⟨_, he, f.line, f.capture, fun _ => ⟨f.nextSeq, f.openCount, fun h => ?_, fun h => ?_⟩, fun h => absurd h hn⟩
      · rw [show deferredTest (toGuard st) = toGuard st from if_neg (by rw [show (toGuard st).edge.testDeferred = false from h]; decide)]
        rfl
      · unfold deferredTest
        split
        · rcases attachTest_opening (toGuard st) with ⟨h1, _⟩ | ⟨h1, _⟩
          · exact h1.trans h
          · exact h1
        · exact h

end Sys2Proof.Machine

namespace Sys2Proof.Machine

/-! ## The compares of a creation (R9, R10, R25) -/

/-- The purposes of the compares that a creation stores. -/
def CompareId.ofCreation : CompareId → Bool
  | .empty _ => true
  | .decision _ => true
  | .gate _ => true
  | _ => false

/-- The compares stored at a creation are the same. -/
def StoredSame (a b : Station) : Prop := ∀ id, CompareId.ofCreation id = true → b.position.stored id = a.position.stored id

theorem StoredSame.refl (a : Station) : StoredSame a a := fun _ _ => rfl

theorem StoredSame.trans {a b c : Station} (h : StoredSame a b) (k : StoredSame b c) : StoredSame a c :=
  fun id hid => (k id hid).trans (h id hid)

theorem StoredSame.ofPosition {a b : Station} (h : b.position = a.position) : StoredSame a b := fun _ _ => by rw [h]

theorem CompareId.ofCreation_ne {a b : CompareId} (ha : CompareId.ofCreation a = true) (hb : CompareId.ofCreation b = false) : a ≠ b := by
  rintro rfl; rw [ha] at hb; cases hb

theorem dropCompare_storedSame {b : CompareId} (hb : CompareId.ofCreation b = false) (st : Station) : StoredSame st (dropCompare b st) :=
  fun _ ha => stored_drop_other (CompareId.ofCreation_ne ha hb) _

theorem storeCompare_storedSame {b : CompareId} (hb : CompareId.ofCreation b = false) (pos : Pos) (g : Progress) (st : Station) :
    StoredSame st (storeCompare b pos g st) :=
  fun _ ha => stored_store_other (CompareId.ofCreation_ne ha hb) pos g _

theorem enterBlanked_storedSame (st : Station) : StoredSame st (enterBlanked st) := fun _ ha =>
  enterBlanked_stored (CompareId.ofCreation_ne ha rfl) (CompareId.ofCreation_ne ha rfl) (CompareId.ofCreation_ne ha rfl) st

theorem closingStart_storedSame (seq : Seq) (trail : Pos) (st : Station) : StoredSame st (closingStart seq trail st) := by
  have h : ∀ f, StoredSame st (updateBand seq f (dropCompare .overlength (dropCompare .sample st))) := fun f =>
    StoredSame.trans (b := dropCompare .overlength (dropCompare .sample st))
      ((dropCompare_storedSame rfl st).trans (dropCompare_storedSame rfl _)) (.ofPosition rfl)
  unfold closingStart
  simp only
  split
  · exact h _
  · exact (h _).trans (storeCompare_storedSame rfl _ _ _)

theorem stored_of_subjectsHeld {st : Station} (h : st.subjectsHeld) {s : Seq} (hs : s ∉ st.table.map (·.seq)) {id : CompareId}
    (hid : CompareId.subject id = some s) : st.position.stored id = [] := by
  refine List.filter_eq_nil_iff.2 fun c hc hce => hs ?_
  have hall := h.1 c hc
  rw [beq_iff_eq.1 hce, hid] at hall
  simpa using hall

theorem storeCreationCompare_same (id : CompareId) (pos : Pos) (st : Station) :
    (storeCreationCompare id pos st).position.stored id =
      if st.position.reached pos then st.position.stored id else [⟨id, pos, .waiting⟩] := by
  unfold storeCreationCompare
  split
  · rfl
  · exact stored_store_same id pos .waiting _

theorem storeCreationCompare_other {a b : CompareId} (h : a ≠ b) (pos : Pos) (st : Station) :
    (storeCreationCompare b pos st).position.stored a = st.position.stored a := by
  unfold storeCreationCompare
  split
  · rfl
  · exact stored_store_other h pos .waiting _

theorem storeCreationCompare_reached (id : CompareId) (pos p : Pos) (st : Station) :
    (storeCreationCompare id pos st).position.reached p = st.position.reached p := by
  unfold storeCreationCompare
  split <;> rfl

/-- The compares of the new record as they are stored: none that is reached already. -/
theorem creationStored_stored (result : Pos) (st : Station) :
    ((creationStored result st).position.stored (.empty st.engine.nextSeq) =
      if st.position.reached (st.emptyPos result) then st.position.stored (.empty st.engine.nextSeq)
      else [⟨.empty st.engine.nextSeq, st.emptyPos result, .waiting⟩]) ∧
    ((creationStored result st).position.stored (.decision st.engine.nextSeq) =
      if st.position.reached (st.created result).decisionPos then st.position.stored (.decision st.engine.nextSeq)
      else [⟨.decision st.engine.nextSeq, (st.created result).decisionPos, .waiting⟩]) ∧
    ((creationStored result st).position.stored (.gate st.engine.nextSeq) =
      if st.position.reached (st.created result).gatePos then st.position.stored (.gate st.engine.nextSeq)
      else [⟨.gate st.engine.nextSeq, (st.created result).gatePos, .waiting⟩]) ∧
    ∀ u, u ≠ st.engine.nextSeq → (creationStored result st).position.stored (.gate u) = st.position.stored (.gate u) := by
  have hp : (creationPlaced result st).position = st.position := rfl
  unfold creationStored
  refine ⟨?_, ?_, ?_, fun u hu => ?_⟩
  · rw [storeCreationCompare_other (by simp), storeCreationCompare_other (by simp), storeCreationCompare_same, hp]
  · rw [storeCreationCompare_other (by simp), storeCreationCompare_same, storeCreationCompare_reached,
      storeCreationCompare_other (by simp), hp]
  · rw [storeCreationCompare_same, storeCreationCompare_reached, storeCreationCompare_reached,
      storeCreationCompare_other (by simp), storeCreationCompare_other (by simp), hp]
  · rw [storeCreationCompare_other (by simpa using hu), storeCreationCompare_other (by simp), storeCreationCompare_other (by simp), hp]

/-! ## A record before its decision compare (R20, R22) -/

/-- Not frozen, and GATHERING or TALLIED with a local verdict. -/
def Record.undecided (r : Record) : Prop := r.frozen = false ∧ (r.phase = .gathering ∨ r.phase = .tallied ∧ r.verdict.isSome = true)

theorem Record.Kept.undecided {r x : Record} (h : r.Kept x) (hu : r.undecided) : x.undecided := by
  unfold Record.undecided
  rw [h.same]; exact hu

/-- The storing of the own entry leaves the record undecided: where it is then complete, it has been graded. -/
theorem storesOwnEntry_undecided {a b : Station} {r x : Record} {e : Entry} (h : a.storesOwnEntry r e b)
    (hx : b.record r.seq = some x) (hf : x.frozen = r.frozen) (hu : r.undecided) : x.undecided := by
  obtain ⟨y, hy, _, _, hn, hc⟩ := h
  cases hx.symm.trans hy
  obtain ⟨hfr, hph⟩ := hu
  refine ⟨hf.trans hfr, ?_⟩
  by_cases hcomplete : r.phase = .gathering ∧ ∀ k : Index, (a.engine.peers.get k).isSome = true →
      ((r.entries.set a.start.index (some e)).get k).isSome = true
  · obtain ⟨hp, _, hg⟩ := hc hcomplete
    exact .inr ⟨hp, (hg hfr).1⟩
  · obtain ⟨hp, hv, _⟩ := hn hcomplete
    rw [hp, hv]; exact hph

/-- Head takes and closings leave an undecided record undecided, and its lead. -/
theorem HeadStep.undecided {a b : Station} (h : HeadStep a b) {s : Seq} {r : Record} (hr : a.record s = some r) (hu : r.undecided) :
    ∃ x, b.record s = some x ∧ x.undecided ∧ x.band.lead = r.band.lead := by
  obtain ⟨x, hx, hown⟩ := h.own s r hr
  obtain ⟨y, hy, hs⟩ := h.toTakeStep.record hr
  cases hx.symm.trans hy
  refine ⟨x, hx, ?_, hs.lead⟩
  rcases hown with ⟨hk, _⟩ | ⟨_, _, hst⟩
  · exact hk.undecided hu
  · exact storesOwnEntry_undecided hst (record_seq hr ▸ hx) hs.frozen hu

theorem takeEmpty_undecided {st : Station} {s : Seq} {r : Record} (hr : st.record s = some r) (hu : r.undecided) :
    ∃ x, (takeEmpty s st).record s = some x ∧ x.undecided ∧ x.band.lead = r.band.lead ∧
      (r.band.state = .none → x.band.state = .empty ∧ x.entries.get st.start.index = some .empty) := by
  unfold takeEmpty
  rw [hr]
  simp only
  split
  · obtain ⟨x, hx, hband, hent, hf, _⟩ := settleBand_record (state := .empty) (entry := fun _ => .empty) hr
    have hst := settleBand_storesOwnEntry (state := .empty) (entry := fun _ => .empty) hr (by simp)
    refine ⟨x, hx, storesOwnEntry_undecided hst (by rw [record_seq hr]; exact hx) hf hu, by rw [hband], fun _ => ⟨by rw [hband], ?_⟩⟩
    rw [hent, get_set, if_pos rfl]
  · next hn => exact ⟨r, hr, hu, rfl, fun h => absurd h hn⟩

/-- The decision compare freezes an undecided record, which then has its local verdict. -/
theorem takeDecision_record {st : Station} {s : Seq} {r : Record} (hr : st.record s = some r) (hu : r.undecided) :
    ∃ x, (takeDecision s st).record s = some x ∧ x.frozen = true ∧ x.verdict.isSome = true ∧ x.band = r.band ∧
      x.entries = r.entries := by
  have h : ∀ f : Record → Record, (∀ x, (f x).seq = x.seq) →
      (updateRecord s f (withRequests (Requests.markVerdict s false) st)).record s = some (f r) :=
    fun f hf => record_updateRecord f hf hr
  obtain ⟨_, hp⟩ := hu
  unfold takeDecision
  rw [hr]
  rcases hp with hp | ⟨hp, hv⟩
  · simp only [hp]
    exact ⟨_, h (fun x => { x with verdict := some .manual, frozen := true, flags := { x.flags with incomplete := true } }) fun _ => rfl,
      rfl, rfl, rfl, rfl⟩
  · simp only [hp]
    exact ⟨_, h (fun x => { x with frozen := true }) fun _ => rfl, rfl, hv, rfl, rfl⟩

theorem takeDecision_same (s : Seq) (st : Station) : (takeDecision s st).position = st.position ∧
    (takeDecision s st).port = st.port := by
  unfold takeDecision
  split
  · exact ⟨rfl, rfl⟩
  · simp only
    split <;> exact ⟨rfl, rfl⟩

/-! ## The attachment test of a creation (R12, R46) -/

/-- From `a` by changes of the band of `r` alone to `y`, and by closings and head takes to `b`; the compares of creations stay. -/
structure BandThenTakes (r : Record) (a b y : Station) (band : Band) : Prop where
  distinct : y.seqsDistinct
  record : y.record r.seq = some { r with band := band }
  stored : StoredSame a y
  step : HeadStep y b

theorem enterClosing_bandThenTakes {a y : Station} {r : Record} {band : Band} (trail : Pos) (hd : y.seqsDistinct)
    (hr : y.record r.seq = some { r with band := band }) (hs : StoredSame a y) : ∃ (z : Station) (closing : Band),
      BandThenTakes r a (headTakes (enterClosing r.seq trail y)) z closing ∧ closing.lead = band.lead := by
  have hz := (closingStart_frame r.seq trail y).distinct hd
  have h := testClosing_headStep r.seq hz
  exact ⟨_, _, ⟨hz, (closingStart_record r.seq trail hr :), hs.trans (closingStart_storedSame r.seq trail y),
    h.trans (headTakes_headStep (h.distinct hz))⟩, rfl⟩

theorem attachEdge_bandThenTakes {st : Station} (hd : st.seqsDistinct) {r : Record} (hm : r ∈ st.table) (ho : st.openRecord = none)
    (e : PendingEdge) : ∃ (y : Station) (band : Band), BandThenTakes r st (attachEdge e r.seq st) y band ∧ band.lead = some e.rise := by
  have hopen := openBand_record (record_of_mem hd hm) e.rise
  have hsampled : StoredSame st (openedSampled e.rise r.seq st) := storeCompare_storedSame rfl _ _ (openBand r.seq e.rise st)
  have hdist : (openedSampled e.rise r.seq st).seqsDistinct := openBand_distinct hd r.seq e.rise
  have flagged : ∀ {x : Station} {band : Band}, x.record r.seq = some { r with band := band } →
      (updateBand r.seq (fun b => { b with summary := { b.summary with overlength := true } }) x).record r.seq =
        some { r with band := { band with summary := { band.summary with overlength := true } } } :=
    fun hx => record_updateBand (fun b => { b with summary := { b.summary with overlength := true } }) hx
  cases hf : e.fall with
  | some f =>
    rw [attachEdge_closes st r.seq hf]
    have hcd := openedClosed_distinct hd r.seq e.rise (atOrAfter f (e.rise + counts st.shared.overlength))
    generalize atOrAfter f (e.rise + counts st.shared.overlength) = beyond at hcd ⊢
    cases beyond with
    | false => exact enterClosing_bandThenTakes _ hcd hopen (.ofPosition rfl)
    | true => exact enterClosing_bandThenTakes _ hcd (flagged hopen) (.ofPosition rfl)
  | none =>
    by_cases hl : st.position.reached (e.rise + counts st.shared.overlength) = false ∨ st.edge.frozen = true
    · obtain ⟨g, hg, _⟩ := attachEdge_opens hd hm ho hf hl
      rw [hg]
      exact ⟨storeCompare .overlength _ g (openedSampled e.rise r.seq st), _,
        ⟨hdist, hopen, hsampled.trans (storeCompare_storedSame rfl _ g _), headTakes_headStep hdist⟩, rfl⟩
    · obtain ⟨hl1, hl2⟩ := not_or.1 hl
      rw [attachEdge_forced hd hm ho hf (by simpa using hl1) (by simpa using hl2),
        forceOverlength_open (show (openedSampled e.rise r.seq st).openRecord = _ from openBand_openRecord hd hm ho e.rise)]
      exact enterClosing_bandThenTakes _ ((overlengthBlanked_frame r.seq _).distinct hdist) (overlengthBlanked_record (st := openedSampled e.rise r.seq st) hopen :)
        (hsampled.trans (StoredSame.trans (.ofPosition rfl) (enterBlanked_storedSame _)))

/-- The attachment test of a newest record without a band: with no edge pending it leaves the record, and an edge that attaches
gives it its lead. -/
theorem attachTest_bandThenTakes {st : Station} (hd : st.seqsDistinct) {r : Record} (hn : st.newest = some r)
    (hb : r.band.state = .none) : ∃ (y : Station) (band : Band), BandThenTakes r st (attachTest st) y band ∧
      (st.edge.pending = none → band = r.band) ∧
      ∀ e, st.edge.pending = some e → e.qualified = true → st.openRecord = none →
        atOrAfter (r.refPos + counts st.shared.attachWindow) e.rise = true →
        band.lead = some e.rise ∧ (attachTest st).edge.pending = none := by
  have hr := record_of_mem hd (newest_mem hn)
  by_cases hat : ∃ e, st.edge.pending = some e ∧ e.qualified = true ∧ attaches st e.rise r = true
  · obtain ⟨e, hp, hq, ha⟩ := hat
    have ho : st.openRecord = none := by
      unfold attaches at ha
      simp only [Bool.and_eq_true, Option.isNone_iff_eq_none] at ha
      exact ha.1.2
    rw [attachTest_attach st e r hp hq hn ha]
    obtain ⟨y, band, h, hlead⟩ := attachEdge_bandThenTakes (st := testMade st) hd (newest_mem hn) ho e
    refine ⟨y, band, ⟨h.distinct, h.record, h.stored, h.step⟩, fun hne => ?_, fun e' he' _ _ _ => ?_⟩
    · rw [hp] at hne; cases hne
    · cases hp.symm.trans he'
      exact ⟨hlead, (attachEdge_attaches e r.seq (testMade st)).2⟩
  · have hkept : (attachTest st).table = st.table ∧ (attachTest st).position = st.position := by
      rcases attachTest_cases st with ⟨h, _⟩ | ⟨h, _⟩ | ⟨e, n, hp, hq, hn', ha, _⟩
      · rw [h]; exact ⟨rfl, rfl⟩
      · rw [h]; exact ⟨rfl, rfl⟩
      · cases hn.symm.trans hn'
        exact absurd ⟨e, hp, hq, ha⟩ hat
    refine ⟨attachTest st, r.band, ⟨?_, (record_congr hkept.1 _).trans hr, .ofPosition hkept.2, HeadStep.refl _⟩, fun _ => rfl,
      fun e h1 h2 h3 h4 => absurd ⟨e, h1, h2, attaches_of hb h3 h4⟩ hat⟩
    show ((attachTest st).table.map _).Nodup
    rw [hkept.1]; exact hd

/-! ## The new record up to the gate position (R9, R10) -/

theorem creationRefused_distinct {st : Station} (hd : st.seqsDistinct) (hc : creationRefused st = false) (result : Pos) :
    st.engine.nextSeq ∉ st.table.map (·.seq) ∧ (creationStored result st).seqsDistinct := by
  have hnew : st.engine.nextSeq ∉ st.table.map (·.seq) := by
    intro h
    obtain ⟨x, hx, hs⟩ := List.mem_map.1 h
    rw [(creationRefused_iff st).2 (.inr (.inr ⟨x, hx, hs⟩))] at hc
    cases hc
  obtain ⟨p, hp, _⟩ := creationStored_eq result st
  refine ⟨hnew, ?_⟩
  rw [hp]
  show ((st.table ++ [st.created result]).map (·.seq)).Nodup
  rw [List.map_append]
  exact List.concat_eq_append ▸ List.Nodup.concat hnew hd

/-- The pending edge attaches to the record that the result creates (R12). -/
def Station.edgeForCreated (result : Pos) (st : Station) (e : PendingEdge) : Prop :=
  st.edge.pending = some e ∧ e.qualified = true ∧ st.openRecord = none ∧
    atOrAfter ((st.created result).refPos + counts st.shared.attachWindow) e.rise = true

/-- The attachment test of a creation finds the new record the newest, without a band. -/
theorem creationStored_tested {st : Station} (hd : st.seqsDistinct) (hc : creationRefused st = false) (result : Pos) :
    ∃ (y : Station) (band : Band), BandThenTakes (st.created result) (creationStored result st)
        (attachTest (creationStored result st)) y band ∧
      (st.edge.pending = none → band = (st.created result).band) ∧
      ∀ e, st.edgeForCreated result e → band.lead = some e.rise ∧ (attachTest (creationStored result st)).edge.pending = none := by
  obtain ⟨p, hp, hframe⟩ := creationStored_eq result st
  obtain ⟨_, hxd⟩ := creationRefused_distinct hd hc result
  have hn : (creationStored result st).newest = some (st.created result) := by
    rw [hp]; exact List.getLast?_concat
  have hopen : st.openRecord = none → (creationStored result st).openRecord = none := by
    intro ho
    rw [hp]
    show (st.table ++ [st.created result]).find? _ = none
    rw [List.find?_append, show st.table.find? (fun r => r.band.state == .opened) = none from ho]
    rfl
  have hedge : (creationStored result st).edge = st.edge := by rw [hp]; rfl
  have hshared : (creationStored result st).shared = st.shared := shared_of_start hframe.start
  obtain ⟨y, band, hy, hnone, hattach⟩ := attachTest_bandThenTakes hxd hn rfl
  rw [hedge] at hnone
  rw [hedge, hshared] at hattach
  exact ⟨y, band, hy, hnone, fun e ⟨h1, h2, h3, h4⟩ => hattach e h1 h2 (hopen h3) h4⟩

/-- The new record once attachment test and empty compare have been made. -/
structure TestedRecord (result : Pos) (st : Station) (w : Record) : Prop where
  record : (creationTested result st).record st.engine.nextSeq = some w
  undecided : w.undecided
  empty : st.position.reached (st.emptyPos result) = true → st.edge.pending = none →
    w.band.state = .empty ∧ w.entries.get st.start.index = some .empty
  attached : ∀ e, st.edgeForCreated result e →
    (attachTest (creationStored result st)).edge.pending = none ∧ w.band.lead = some e.rise

theorem creationTested_spec {st : Station} (hd : st.seqsDistinct) (hc : creationRefused st = false) (result : Pos) :
    StoredSame (creationStored result st) (creationTested result st) ∧ (creationTested result st).port = st.port ∧
      ∃ w, TestedRecord result st w := by
  obtain ⟨p, hp, hframe⟩ := creationStored_eq result st
  obtain ⟨y, band, hy, hnone, hattach⟩ := creationStored_tested hd hc result
  set t := headTakes (attachTest (creationStored result st)) with ht
  have htf : HeadFrame (attachTest (creationStored result st)) t := headTakes_frame _
  have hz : HeadStep y t := hy.step.trans (headTakes_headStep (hy.step.distinct hy.distinct))
  have hyr : y.record st.engine.nextSeq = some { st.created result with band := band } := hy.record
  obtain ⟨z, hzr, hzu, hzl⟩ := hz.undecided hyr ⟨rfl, .inl rfl⟩
  have hzn : st.edge.pending = none → z.band.state = .none := by
    intro h
    rw [hnone h] at hyr
    obtain ⟨z', hz', hk, _⟩ := hz.kept hyr (by show BandState.none ≠ .closing; decide)
    cases hzr.symm.trans hz'
    exact hk.state
  have hatt : ∀ w : Record, w.band.lead = z.band.lead → ∀ e, st.edgeForCreated result e →
      (attachTest (creationStored result st)).edge.pending = none ∧ w.band.lead = some e.rise := fun w hw e he =>
    ⟨(hattach e he).2, (hw.trans hzl).trans (hattach e he).1⟩
  have hstored : StoredSame (creationStored result st) t := hy.stored.trans (.ofPosition hz.position)
  have hport : t.port = st.port := by
    rw [htf.port, (attachTest_edgeFrame _).port, hp]; rfl
  have hstart : t.start = st.start := htf.start.trans ((attachTest_frame _).start.trans hframe.start)
  by_cases hr : st.position.reached (st.emptyPos result) = true
  · have he : creationTested result st = takeEmpty st.engine.nextSeq t := if_pos hr
    have hf := takeEmpty_frame' st.engine.nextSeq t
    obtain ⟨w, hw, hwu, hwl, hwe⟩ := takeEmpty_undecided hzr hzu
    refine ⟨he ▸ hstored.trans (.ofPosition hf.position), he ▸ hf.port.trans hport, w, he ▸ hw, hwu, fun _ h => ?_, hatt w hwl⟩
    rw [← hstart]; exact hwe (hzn h)
  · have he : creationTested result st = t := if_neg hr
    exact ⟨he ▸ hstored, he ▸ hport, z, he ▸ hzr, hzu, fun h => absurd h hr, hatt z rfl⟩

/-- The new record once the decision compare has been taken too, where it is reached. -/
structure SettledRecord (result : Pos) (st : Station) (b : Record) : Prop where
  record : (creationSettled result st).record st.engine.nextSeq = some b
  decided : st.position.reached (st.created result).decisionPos = true → b.frozen = true ∧ b.verdict.isSome = true
  waiting : st.position.reached (st.created result).decisionPos = false → b.frozen = false
  empty : st.position.reached (st.emptyPos result) = true → st.edge.pending = none →
    b.band.state = .empty ∧ b.entries.get st.start.index = some .empty
  attached : ∀ e, st.edgeForCreated result e → (creationSettled result st).edge.pending = none ∧ b.band.lead = some e.rise

theorem creationSettled_spec {st : Station} (hd : st.seqsDistinct) (hc : creationRefused st = false) (result : Pos) :
    StoredSame (creationStored result st) (creationSettled result st) ∧ (creationSettled result st).port = st.port ∧
      ∃ b, SettledRecord result st b := by
  have hedge := (creationSettled_kept result st).edge
  obtain ⟨hs, hport, w, hw⟩ := creationTested_spec hd hc result
  by_cases hr : st.position.reached (st.created result).decisionPos = true
  · have he : creationSettled result st = takeDecision st.engine.nextSeq (creationTested result st) := if_pos hr
    obtain ⟨hpos, hpt⟩ := takeDecision_same st.engine.nextSeq (creationTested result st)
    obtain ⟨b, hb, hbf, hbv, hbb, hbe⟩ := takeDecision_record hw.record hw.undecided
    refine ⟨he ▸ hs.trans (.ofPosition hpos), he ▸ hpt.trans hport, b, he ▸ hb, fun _ => ⟨hbf, hbv⟩, fun h => ?_, ?_, ?_⟩
    · rw [hr] at h; cases h
    · rw [hbb, hbe]; exact hw.empty
    · rw [hbb, hedge]; exact hw.attached
  · have he : creationSettled result st = creationTested result st := if_neg hr
    refine ⟨he ▸ hs, he ▸ hport, w, he ▸ hw.record, fun h => absurd h hr, fun _ => hw.undecided.1, hw.empty, ?_⟩
    rw [hedge]; exact hw.attached

/-! ## The taking of the due gate compares (R167, R197) -/

/-- What the taking of the due gate compares of the records of `l`, in their order, does. -/
structure GatesTaken (l : List Seq) (a b : Station) : Prop where
  seqs : b.table.map (·.seq) = (a.table.map (·.seq)).filter fun u => !(l.contains u && a.position.isDue (.gate u))
  stored : ∀ u, u ∉ l → b.position.stored (.gate u) = a.position.stored (.gate u)
  fifo : a.port.fifo.length + l.length ≤ 16 →
    b.port.fifo.map (·.seq) = a.port.fifo.map (·.seq) ++ l.filter fun u => a.position.isDue (.gate u)

theorem dispatch_port {st : Station} {s : Seq} {r : Record} (hr : st.record s = some r) (h : st.port.fifo.length < 16) :
    (dispatch s st).port.fifo.map (·.seq) = st.port.fifo.map (·.seq) ++ [s] := by
  rw [(dispatch_dispatched hr).port, (offer_room _ h).1, List.map_append]
  exact congrArg (fun u => st.port.fifo.map (·.seq) ++ [u]) (record_seq hr)

theorem exists_record {st : Station} {s : Seq} (h : s ∈ st.table.map (·.seq)) : ∃ r, st.record s = some r := by
  obtain ⟨x, hx, hs⟩ := List.mem_map.1 h
  exact Option.isSome_iff_exists.1 (List.find?_isSome.2 ⟨x, hx, by simp [hs]⟩)

theorem record_none_of_not_mem {st : Station} {s : Seq} (h : s ∉ st.table.map (·.seq)) : st.record s = none := by
  cases hr : st.record s with
  | none => rfl
  | some r => exact absurd (record_mem_seqs hr) h

/-- One due gate compare taken: its record is dispatched. -/
theorem takeDueGate_due {st : Station} {s : Seq} (hs : s ∈ st.table.map (·.seq)) (hd : st.position.isDue (.gate s) = true) :
    (takeDueGate st s).table.map (·.seq) = (st.table.map (·.seq)).filter (· != s) ∧
    (∀ u, u ≠ s → (takeDueGate st s).position.stored (.gate u) = st.position.stored (.gate u)) ∧
    (st.port.fifo.length < 16 → (takeDueGate st s).port.fifo.map (·.seq) = st.port.fifo.map (·.seq) ++ [s]) := by
  obtain ⟨r, hr⟩ := exists_record hs
  have hr' : (dropCompare (.gate s) st).record s = some r := hr
  have h := dispatch_dispatched hr'
  have he : takeDueGate st s = dispatch s (dropCompare (.gate s) st) := if_pos hd
  rw [he]
  refine ⟨h.seqs, fun u hu => ?_, fun hf => dispatch_port hr' hf⟩
  rw [h.stored (.gate u) u rfl, if_neg hu]
  exact stored_drop_other (by simpa using hu) _

theorem takeGates_taken : ∀ (l : List Seq) (st : Station), l.Nodup → (∀ s ∈ l, s ∈ st.table.map (·.seq)) →
    GatesTaken l st (l.foldl takeDueGate st) := by
  intro l
  induction l with
  | nil => exact fun st _ _ => ⟨by simp, fun _ _ => rfl, fun _ => by simp⟩
  | cons s l ih =>
    intro st hn hl
    obtain ⟨hsl, hnl⟩ := List.nodup_cons.1 hn
    simp only [List.foldl_cons]
    by_cases hd : st.position.isDue (.gate s) = true
    · obtain ⟨k1, k2, k3⟩ := takeDueGate_due (hl s List.mem_cons_self) hd
      have hne : ∀ u ∈ l, u ≠ s := fun u hu h => hsl (h ▸ hu)
      have hdue : ∀ u, u ≠ s → (takeDueGate st s).position.isDue (.gate u) = st.position.isDue (.gate u) := fun u hu => by
        rw [isDue_eq_stored, isDue_eq_stored, k2 u hu]
      have h := ih (takeDueGate st s) hnl fun u hu => by
        rw [k1]
        exact List.mem_filter.2 ⟨hl u (List.mem_cons_of_mem _ hu), by simpa using hne u hu⟩
      refine ⟨?_, fun u hu => ?_, fun hlen => ?_⟩
      · rw [h.seqs, k1, List.filter_filter]
        refine List.filter_congr fun u _ => ?_
        by_cases hu : u = s
        · simp [hu, hd]
        · simp [hu, hdue u hu]
      · obtain ⟨h1, h2⟩ := not_or.1 (fun h => hu (List.mem_cons.2 h))
        exact (h.stored u h2).trans (k2 u h1)
      · rw [List.length_cons] at hlen
        have hport := k3 (by omega)
        have hlength := congrArg List.length hport
        simp only [List.length_map, List.length_append, List.length_cons, List.length_nil] at hlength
        rw [h.fifo (by omega), hport, List.filter_cons_of_pos (by exact hd), List.filter_congr fun u hu => hdue u (hne u hu)]
        simp
    · have he : takeDueGate st s = st := if_neg hd
      rw [he]
      have h := ih st hnl fun u hu => hl u (List.mem_cons_of_mem _ hu)
      refine ⟨?_, fun u hu => h.stored u fun hm => hu (List.mem_cons_of_mem _ hm), fun hlen => ?_⟩
      · rw [h.seqs]
        refine List.filter_congr fun u _ => ?_
        by_cases hu : u = s
        · simp [hu, hd]
        · simp [hu]
      · rw [List.length_cons] at hlen
        rw [h.fifo (by omega), List.filter_cons_of_neg (by exact hd)]

/-! ## The creation, by whether the gate position is reached (R10, R167) -/

/-- No compare is stored for the number of the next record. -/
def Station.numberFree (st : Station) : Prop := ∀ id, CompareId.subject id = some st.engine.nextSeq → st.position.stored id = []

theorem numberFree_of_creation {st : Station} (hc : creationRefused st = false) (hd : st.seqsDistinct) (hh : st.subjectsHeld) :
    st.numberFree := fun _ hid => stored_of_subjectsHeld hh (creationRefused_distinct hd hc 0).1 hid

theorem find_of_stored {id : CompareId} {st : Station} {c : Compare} (h : st.position.stored id = [c]) : st.position.find id = some c := by
  rw [find_eq_stored, h]; rfl

theorem stores_of_stored {id : CompareId} {st : Station} (h : st.position.stored id = []) : st.stores id = false := by
  rw [stores_eq_stored, h]; rfl

/-- The compares of the new record that a creation leaves. -/
theorem creationSettled_stored {st : Station} (hc : creationRefused st = false) (hd : st.seqsDistinct) (hfree : st.numberFree)
    (result : Pos) :
    ((creationSettled result st).position.stored (.empty st.engine.nextSeq) = if st.position.reached (st.emptyPos result) then []
      else [⟨.empty st.engine.nextSeq, st.emptyPos result, .waiting⟩]) ∧
    ((creationSettled result st).position.stored (.decision st.engine.nextSeq) =
      if st.position.reached (st.created result).decisionPos then []
      else [⟨.decision st.engine.nextSeq, (st.created result).decisionPos, .waiting⟩]) ∧
    ((creationSettled result st).position.stored (.gate st.engine.nextSeq) = if st.position.reached (st.created result).gatePos then []
      else [⟨.gate st.engine.nextSeq, (st.created result).gatePos, .waiting⟩]) ∧
    ∀ u, u ≠ st.engine.nextSeq → (creationSettled result st).position.stored (.gate u) = st.position.stored (.gate u) := by
  obtain ⟨hs, _⟩ := creationSettled_spec hd hc result
  obtain ⟨h1, h2, h3, h4⟩ := creationStored_stored result st
  rw [hfree _ rfl] at h1 h2 h3
  exact ⟨(hs _ rfl).trans h1, (hs _ rfl).trans h2, (hs _ rfl).trans h3, fun u hu => (hs _ rfl).trans (h4 u hu)⟩

/-- A creation whose gate position is reached: every record whose gate compare is due is dispatched, and the new one last. -/
theorem createRecord_dispatches {st : Station} (hc : creationRefused st = false) (hd : st.seqsDistinct) (hfree : st.numberFree)
    {result : Pos} (hg : st.position.reached (st.created result).gatePos = true) : let t := createRecord result st
    t.record st.engine.nextSeq = none ∧ (∀ x ∈ st.table, st.position.isDue (.gate x.seq) = true → t.record x.seq = none) ∧
      (st.port.fifo.length + st.table.length < 16 → t.port.fifo.map (·.seq) =
        st.port.fifo.map (·.seq) ++ (st.table.filter fun x => st.position.isDue (.gate x.seq)).map (·.seq) ++ [st.engine.nextSeq]) := by
  intro t
  obtain ⟨hnew, _⟩ := creationRefused_distinct hd hc result
  obtain ⟨_, hport, _⟩ := creationSettled_spec hd hc result
  obtain ⟨_, _, hgate, hother⟩ := creationSettled_stored hc hd hfree result
  rw [if_pos hg] at hgate
  set x := creationSettled result st with hx
  set z := takeDueGates x with hz
  have ht : t = dispatch st.engine.nextSeq z := by
    show createRecord result st = _
    rw [createRecord_eq, if_pos hg]
  have hseqs : x.table.map (·.seq) = st.table.map (·.seq) ++ [st.engine.nextSeq] := by
    obtain ⟨p, hp, _⟩ := creationStored_eq result st
    rw [seqs_of_identities (creationSettled_kept result st).identities, (attachTest_edgeFrame _).seqs, hp]
    show (st.table ++ [st.created result]).map (·.seq) = _
    rw [List.map_append]; rfl
  have hdue : ∀ u, x.position.isDue (.gate u) = st.position.isDue (.gate u) := by
    intro u
    rw [isDue_eq_stored, isDue_eq_stored]
    by_cases hu : u = st.engine.nextSeq
    · rw [hu, hgate, hfree _ rfl]
    · rw [hother u hu]
  have hnot : st.position.isDue (.gate st.engine.nextSeq) = false := by
    rw [isDue_eq_stored, hfree _ rfl]; rfl
  have hxd : (x.table.map (·.seq)).Nodup := by
    rw [hseqs]; exact List.concat_eq_append ▸ List.Nodup.concat hnew hd
  have h : GatesTaken (x.table.map (·.seq)) x z := by
    rw [hz, takeDueGates_eq]
    exact takeGates_taken _ x hxd fun _ hs => hs
  obtain ⟨r, hr⟩ : ∃ r, z.record st.engine.nextSeq = some r := exists_record (by
    rw [h.seqs, hseqs]
    exact List.mem_filter.2 ⟨by simp, by rw [hdue, hnot]; simp⟩)
  have hdis := dispatch_dispatched hr
  rw [ht]
  refine ⟨record_none_of_not_mem ?_, fun y hy hyd => record_none_of_not_mem ?_, fun hroom => ?_⟩
  · rw [hdis.seqs]; simp
  · rw [hdis.seqs, h.seqs, hseqs]
    have hm : y.seq ∈ st.table.map (·.seq) := List.mem_map_of_mem hy
    intro hmem
    obtain ⟨hmem, _⟩ := List.mem_filter.1 hmem
    obtain ⟨_, hmem⟩ := List.mem_filter.1 hmem
    rw [hdue, hyd] at hmem
    simp [hm] at hmem
  · have hlen : x.port.fifo.length + (x.table.map (·.seq)).length ≤ 16 := by
      rw [hport, hseqs, List.length_append, List.length_map]
      exact hroom
    have hfifo := h.fifo hlen
    rw [hport, hseqs, List.filter_append, List.filter_congr fun u _ => hdue u, List.filter_cons_of_neg (by rw [hdue, hnot]; decide),
      List.filter_nil, List.append_nil, ← map_seq_filter st.table fun u => st.position.isDue (.gate u)] at hfifo
    have hz16 : z.port.fifo.length < 16 := by
      have h1 := congrArg List.length hfifo
      simp only [List.length_map, List.length_append] at h1
      have h2 := List.length_filter_le (fun x : Record => st.position.isDue (.gate x.seq)) st.table
      omega
    rw [dispatch_port hr hz16, hfifo]

theorem openServed_stored (st : Station) (id : CompareId) : (openServed st).position.stored id = st.position.stored id := by
  unfold PositionUnit.stored
  rw [(openServed_same st).compares]

theorem openServed_port (st : Station) : (openServed st).port = st.port := by
  unfold openServed countOpenRound
  simp only
  split <;> rfl

/-- Settles O27. -/
theorem creationTakesReachedCompares : Obligations.CreationTakesReachedCompares := by
  intro r p st q hl hcomp hn h0 hcr hd hh seq refPos emptyPos decisionPos gatePos reached gateDue
  have hs := openServed_served st
  have hstored := openServed_stored st
  have hport := openServed_port st
  have hserved : exec .openRoundComplete ⟨st, q⟩ = .next ⟨createRecord (BitVec.ofNat 32 p) (openServed st), q⟩ := by
    rw [exec_live .openRoundComplete q hl]
    simp only [commandEffect]
    rw [(completeOpen_eq hcomp).1 hn p h0, (creation_congr hs.table hs.nextSeq).1, hcr]
    rfl
  have hfree := numberFree_of_creation hcr hd hh
  have hrefPos : ((openServed st).created (BitVec.ofNat 32 p)) = newRecord st.shared seq refPos := by
    unfold Station.created
    rw [shared_of_start hs.same.start, hs.nextSeq, (creation_congr hs.table hs.nextSeq).2]
  have hemptyPos : (openServed st).emptyPos (BitVec.ofNat 32 p) = emptyPos := by
    unfold Station.emptyPos
    rw [shared_of_start hs.same.start, (creation_congr hs.table hs.nextSeq).2]
  have hreached : ∀ pos, (openServed st).position.reached pos = reached pos := fun pos => by
    unfold PositionUnit.reached; rw [hs.same.counter]
  have hshared := shared_of_start hs.same.start
  have hdue : ∀ x : Record, (openServed st).position.isDue (.gate x.seq) = gateDue x := fun x => by
    rw [isDue_eq_stored, hstored, ← isDue_eq_stored]
  have hyc : creationRefused (openServed st) = false := (creation_congr hs.table hs.nextSeq).1.trans hcr
  have hyd : (openServed st).seqsDistinct := by show ((openServed st).table.map _).Nodup; rw [hs.table]; exact hd
  have hyf : (openServed st).numberFree := fun id hid => by rw [hstored]; exact hfree id (hs.nextSeq ▸ hid)
  have hnum : (openServed st).engine.nextSeq = seq := hs.nextSeq
  have htable := hs.table
  have hedge := hs.same.edge
  have hstart := hs.same.start
  have hopen := openRecord_congr hs.table
  generalize openServed st = y at *
  refine ⟨createRecord (BitVec.ofNat 32 p) y, hserved, fun hg => ?_, fun hg => ?_⟩
  · have hahead : createRecord (BitVec.ofNat 32 p) y = creationSettled (BitVec.ofNat 32 p) y := by
      rw [createRecord_eq, if_neg]
      rw [hrefPos, hreached]
      exact Bool.eq_false_iff.1 hg
    obtain ⟨_, _, b, hb⟩ := creationSettled_spec hyd hyc (BitVec.ofNat 32 p)
    obtain ⟨hempty, hdecision, hgate, _⟩ := creationSettled_stored hyc hyd hyf (BitVec.ofNat 32 p)
    obtain ⟨hrec, hdec, hwait, hemp, hatt⟩ := hb
    rw [hahead]
    generalize creationSettled (BitVec.ofNat 32 p) y = t at *
    rw [hnum, hemptyPos, hreached] at hempty
    rw [hnum, hrefPos, hreached] at hdecision hgate
    rw [hrefPos, hreached] at hdec hwait
    rw [hemptyPos, hreached, hedge, hstart] at hemp
    have hgate' : t.position.stored (.gate seq) = [⟨.gate seq, gatePos, .waiting⟩] := hgate.trans (if_neg (Bool.eq_false_iff.1 hg))
    refine ⟨b, hnum ▸ hrec, find_of_stored hgate', fun h => ⟨find_of_stored (hdecision.trans (if_neg (Bool.eq_false_iff.1 h))), hwait h⟩,
      fun h => ⟨stores_of_stored (hdecision.trans (if_pos h)), hdec h⟩,
      fun h => find_of_stored (hempty.trans (if_neg (Bool.eq_false_iff.1 h))),
      fun h => ⟨stores_of_stored (hempty.trans (if_pos h)), hemp h⟩, fun e h1 h2 h3 h4 => hatt e ⟨hedge ▸ h1, h2, hopen.trans h3, ?_⟩⟩
    rw [hrefPos, hshared]; exact h4
  · obtain ⟨k1, k2, k3⟩ := createRecord_dispatches hyc hyd hyf (result := BitVec.ofNat 32 p) (by rw [hrefPos, hreached]; exact hg)
    refine ⟨hnum ▸ k1, fun x hx hxd => k2 x (htable ▸ hx) ((hdue x).trans hxd), fun hroom => ?_⟩
    rw [hport, htable, hnum, List.filter_congr fun x _ => hdue x] at k3
    exact k3 hroom

end Sys2Proof.Machine

namespace Sys2Proof.Machine

/-- Settles O58: the probe and the round in flight are two parts of `Keeps`. -/
theorem everyStepKeepsProbeAndRoundInFlight : Obligations.EveryStepKeepsProbeAndRoundInFlight :=
  ⟨fun _ _ h hs => (step_keeps Keeps.refl commandEffect_keeps hs).probe h,
    fun _ _ hc hr hs => (step_keeps Keeps.refl commandEffect_keeps hs).round hc hr⟩

end Sys2Proof.Machine

namespace Sys2Proof.Machine

/-! ## Reverse steps (R27, R30, R31, R51, R78, R79) -/

/-- The travel after a reverse step is a new value and the limit just where the step counts up to the limit. -/
theorem travel_reaches_limit (travel limit : BitVec 16) : (satAdd travel 1 = limit ∧ travel ≠ satAdd travel 1) ↔
    (travel.toNat < 65535 ∧ travel.toNat + 1 = limit.toNat) := by
  have h : (satAdd travel 1).toNat = min 65535 (travel.toNat + 1) := by
    have := travel.isLt
    simp only [satAdd, BitVec.toNat_ofNat]
    omega
  have hl := limit.isLt
  have ht := travel.isLt
  simp only [ne_eq, ← BitVec.toNat_inj, h]
  omega

theorem probe_encoderStep_eq (warmUpTime parkTime : Byte) (p : ProbeUnit) : p.encoderStep warmUpTime parkTime =
    if p.state = .parked then { p with state := .warming, warmTimer := some warmUpTime }
    else if p.state = .ready then { p with parkTimer := some parkTime } else p := by
  unfold ProbeUnit.encoderStep
  split <;> next hs => simp [hs]

/-- The station after a reverse step, before the PURGE request of the limit. -/
def Station.movedBack (st : Station) : Station :=
  { st with
    position := { st.position with
      counter := st.position.counter - 1, direction := .reverse, reverseTravel := satAdd st.position.reverseTravel 1 }
    edge := { st.edge with frozen := true }
    probe := st.probe.encoderStep st.loc.warmUpTime st.loc.parkTime }

theorem raisePurge_all (st : Station) : raisePurge .all st =
    { st with engine := { st.engine with requests := { st.engine.requests with purge := .all } } } := rfl

/-- All that a reverse step does: the travel's arrival at the limit replaces the PURGE requests by ALL. -/
theorem stepReverse_eq (st : Station) : stepReverse st = { st.movedBack with
    engine :=
      if st.start.node = .running ∧ st.position.reverseTravel.toNat < 65535 ∧
          st.position.reverseTravel.toNat + 1 = st.shared.reverseLimit.toNat then
        { st.engine with requests := { st.engine.requests with purge := .all } }
      else st.engine } := by
  have hm : probeStep
      { st with
        position := { st.position with counter := st.position.counter - 1, direction := .reverse,
                                       reverseTravel := satAdd st.position.reverseTravel 1 }
        edge := { st.edge with frozen := true } } = st.movedBack := rfl
  unfold stepReverse
  simp only [hm, raisePurge_all, travel_reaches_limit]
  split <;> rfl

/-- Settles O9. -/
theorem reverseStepRaisesPurgeAtLimit : Obligations.ReverseStepRaisesPurgeAtLimit := by
  intro st q hl hn
  rw [exec_live _ q hl]
  simp only [commandEffect, encoderStep, takeAllDue_none [] hn, stepReverse_eq]
  rw [← probe_encoderStep_eq]
  rfl

/-! ## Forward steps (R27, R29, R33, R34, R51) -/

/-- R33: the next forward step gives a trigger. -/
def Station.triggers (st : Station) : Prop :=
  st.start.node.onLine = true ∧ isAfter (st.position.counter + 1) st.position.highWater = true ∧
    st.position.counter + 1 = st.position.triggerPos + counts st.shared.scanPitch

/-- What a forward step does to the Position Unit and the freeze, and what it leaves unchanged. -/
structure ForwardStep (a b : Station) : Prop where
  start : b.start = a.start
  line : b.line = a.line
  counter : b.position.counter = a.position.counter + 1
  direction : b.position.direction = .forward
  capture : b.position.capture = a.position.capture
  pin : b.edge.pin = a.edge.pin
  frame : b.scan.frame = a.scan.frame
  peers : b.engine.peers = a.engine.peers
  nextSeq : b.engine.nextSeq = a.engine.nextSeq
  openCount : b.engine.openCount = a.engine.openCount
  passes : isAfter (a.position.counter + 1) a.position.highWater = true →
    b.position.highWater = a.position.counter + 1 ∧ b.position.reverseTravel = 0 ∧ b.edge.frozen = false
  retravels : isAfter (a.position.counter + 1) a.position.highWater = false →
    b.position.highWater = a.position.highWater ∧ b.position.reverseTravel = a.position.reverseTravel ∧
      b.edge.frozen = a.edge.frozen
  trigger : a.triggers →
    b.position.triggerCount = a.position.triggerCount + 1 ∧ b.position.triggerPos = a.position.counter + 1 ∧
      (a.position.pulsesOwed = 255 → b.position.pulsesOwed = 255 ∧ b.port.causes.scanFault = true) ∧
      (a.position.pulsesOwed ≠ 255 → a.position.triggerLine ≠ .idle →
        b.position.pulsesOwed = a.position.pulsesOwed + 1 ∧ b.position.triggerLine = a.position.triggerLine) ∧
      (a.position.pulsesOwed ≠ 255 → a.position.triggerLine = .idle →
        b.position.pulsesOwed = a.position.pulsesOwed ∧ b.position.triggerLine = .pulse)
  noTrigger : ¬ a.triggers →
    b.position.triggerCount = a.position.triggerCount ∧ b.position.triggerPos = a.position.triggerPos ∧
      b.position.pulsesOwed = a.position.pulsesOwed ∧ b.position.triggerLine = a.position.triggerLine

/-- A forward step after the taking of compares is one of the station before it. -/
theorem ForwardStep.afterCompares {a b c : Station} (f : CompareFrame a b) (h : ForwardStep b c) : ForwardStep a c := by
  have ht : a.triggers ↔ b.triggers := by
    unfold Station.triggers
    rw [shared_of_start f.start, f.start, f.counter, f.highWater, f.triggerPos]
  obtain ⟨h1, h2, h3, h4, h5, h6, h7, h8, h9, h10, h11, h12, h13, h14⟩ := h
  rw [← ht] at h13 h14
  rw [f.counter, f.highWater] at h11
  rw [f.counter, f.highWater, f.reverseTravel, f.frozen] at h12
  rw [f.triggerCount, f.counter, f.pulsesOwed, f.triggerLine] at h13
  rw [f.triggerCount, f.triggerPos, f.pulsesOwed, f.triggerLine] at h14
  exact ⟨h1.trans f.start, h2.trans f.line, h3.trans (by rw [f.counter]), h4, h5.trans f.capture, h6.trans f.pin,
    h7.trans f.frame, h8.trans f.peers, h9.trans f.nextSeq, h10.trans f.openCount, h11, h12, h13, h14⟩

theorem ForwardStep.beforeCompares {a b c : Station} (h : ForwardStep a b) (f : CompareFrame b c) : ForwardStep a c := by
  obtain ⟨h1, h2, h3, h4, h5, h6, h7, h8, h9, h10, h11, h12, h13, h14⟩ := h
  have hs : c.port.causes.scanFault = b.port.causes.scanFault :=
    (congrArg Causes.scanFault f.causes :)
  rw [← f.highWater, ← f.reverseTravel, ← f.frozen] at h11 h12
  rw [← f.triggerCount, ← f.triggerPos, ← f.pulsesOwed, ← f.triggerLine, ← hs] at h13
  rw [← f.triggerCount, ← f.triggerPos, ← f.pulsesOwed, ← f.triggerLine] at h14
  exact ⟨f.start.trans h1, f.line.trans h2, f.counter.trans h3, f.direction.trans h4, f.capture.trans h5, f.pin.trans h6,
    f.frame.trans h7, f.peers.trans h8, f.nextSeq.trans h9, f.openCount.trans h10, h11, h12, h13, h14⟩

/-- The station as a forward step has moved the counter. -/
def Station.movedOn (st : Station) : Station :=
  { st with
    position := { st.position with counter := st.position.counter + 1, direction := .forward }
    probe := st.probe.encoderStep st.loc.warmUpTime st.loc.parkTime }

/-- The station as a forward step that passes the high-water position has moved the counter. -/
def Station.advanced (st : Station) : Station :=
  { st.movedOn with position := { st.movedOn.position with highWater := st.position.counter + 1, reverseTravel := 0 } }

theorem stepForward_eq (st : Station) : stepForward st = markDue
    (if isAfter (st.position.counter + 1) st.position.highWater then resumeEdge (triggerTest st.advanced) else st.movedOn) := rfl

theorem markDue_frame (st : Station) : CompareFrame st (markDue st) := by constructor <;> rfl

def Station.unfrozen (st : Station) : Station := { st with edge := { st.edge with frozen := false } }

theorem unfrozen_of_not_frozen {st : Station} (h : st.edge.frozen = false) : st.unfrozen = st := by
  unfold Station.unfrozen; rw [← h]

/-- Beside the freeze, a resume changes what the taking of compares changes. -/
theorem resumeEdge_frame (st : Station) : CompareFrame st.unfrozen (resumeEdge st) := by
  unfold resumeEdge
  split
  · simp only
    split
    · exact (takeChange_frame st.unfrozen).trans (actOnKept_frame _ _)
    · exact CompareFrame.refl _
  · next h => rw [unfrozen_of_not_frozen (by simpa using h)]; exact CompareFrame.refl st

theorem CompareFrame.unfrozen {a b : Station} (h : CompareFrame a b) : CompareFrame a.unfrozen b.unfrozen :=
  { h with frozen := rfl }

/-- The station as a trigger has been counted, before its pulse is owed. -/
def Station.triggerCounted (st : Station) : Station :=
  { st with position := { st.position with triggerCount := st.position.triggerCount + 1, triggerPos := st.position.counter } }

theorem triggerTest_due {st : Station} (h : st.start.node.onLine = true ∧
    st.position.counter = st.position.triggerPos + counts st.shared.scanPitch) :
    triggerTest st = headTakes (owePulse st.triggerCounted) := if_pos h

theorem triggerTest_none {st : Station} (h : ¬ (st.start.node.onLine = true ∧
    st.position.counter = st.position.triggerPos + counts st.shared.scanPitch)) : triggerTest st = st := if_neg h

/-- A pulse owed changes the trigger line, the pulses owed and SCAN_FAULT only. -/
theorem owePulse_spec (st : Station) : (∃ (p : PositionUnit) (x : ResultPort), owePulse st = { st with position := p, port := x } ∧
      p = { st.position with pulsesOwed := p.pulsesOwed, triggerLine := p.triggerLine }) ∧
    (st.position.pulsesOwed = 255 → (owePulse st).position.pulsesOwed = 255 ∧ (owePulse st).port.causes.scanFault = true) ∧
    (st.position.pulsesOwed ≠ 255 → st.position.triggerLine ≠ .idle →
      (owePulse st).position.pulsesOwed = st.position.pulsesOwed + 1 ∧
        (owePulse st).position.triggerLine = st.position.triggerLine) ∧
    (st.position.pulsesOwed ≠ 255 → st.position.triggerLine = .idle →
      (owePulse st).position.pulsesOwed = st.position.pulsesOwed ∧ (owePulse st).position.triggerLine = .pulse) := by
  by_cases hp : st.position.pulsesOwed = 255#8
  · have he : owePulse st = raiseCause .scanFault st := if_pos hp
    rw [he]
    exact ⟨⟨_, _, rfl, rfl⟩, fun _ => ⟨hp, rfl⟩, fun h => absurd hp h, fun h => absurd hp h⟩
  · have he : owePulse st = { st with
        position := { st.position with pulsesOwed := st.position.pulsesOwed + 1 }.beginPulse } := if_neg hp
    have hne : st.position.pulsesOwed + 1 ≠ 0 := by bv_omega
    rw [he]
    by_cases hi : st.position.triggerLine = .idle
    · have hb : { st.position with pulsesOwed := st.position.pulsesOwed + 1 }.beginPulse =
          { st.position with triggerLine := .pulse, pulsesOwed := st.position.pulsesOwed + 1 - 1 } := if_pos ⟨hi, hne⟩
      rw [hb]
      exact ⟨⟨_, _, rfl, rfl⟩, fun h => absurd h hp, fun _ h => absurd hi h, fun _ _ => ⟨by simp, rfl⟩⟩
    · have hb : { st.position with pulsesOwed := st.position.pulsesOwed + 1 }.beginPulse =
          { st.position with pulsesOwed := st.position.pulsesOwed + 1 } := if_neg fun h => hi h.1
      rw [hb]
      exact ⟨⟨_, _, rfl, rfl⟩, fun h => absurd h hp, fun _ _ => ⟨rfl, rfl⟩, fun _ h => absurd h hi⟩

theorem advanced_triggers_iff {st : Station} (hp : isAfter (st.position.counter + 1) st.position.highWater = true) :
    st.triggers ↔ st.advanced.start.node.onLine = true ∧
      st.advanced.position.counter = st.advanced.position.triggerPos + counts st.advanced.shared.scanPitch :=
  ⟨fun h => ⟨h.1, h.2.2⟩, fun h => ⟨h.1, hp, h.2⟩⟩

/-- A forward step that passes the high-water position, as the trigger test and the end of the freeze leave the station. -/
theorem advanced_forwardStep {st : Station} (hp : isAfter (st.position.counter + 1) st.position.highWater = true) :
    ForwardStep st (triggerTest st.advanced).unfrozen := by
  have hr : ∀ {P : Prop}, isAfter (st.position.counter + 1) st.position.highWater = false → P := fun h => by
    rw [hp] at h; cases h
  by_cases ht : st.triggers
  · rw [triggerTest_due ((advanced_triggers_iff hp).1 ht)]
    obtain ⟨⟨p, x, he, hpos⟩, h1, h2, h3⟩ := owePulse_spec st.advanced.triggerCounted
    have hs : ForwardStep st (owePulse st.advanced.triggerCounted).unfrozen := by
      have hq : (owePulse st.advanced.triggerCounted).position = p := by rw [he]
      have hx : (owePulse st.advanced.triggerCounted).port = x := by rw [he]
      rw [hq, hx] at h1
      rw [hq] at h2 h3
      rw [he]
      have hf : ∀ {α : Type} (f : PositionUnit → α), f p = f { st.advanced.triggerCounted.position with
          pulsesOwed := p.pulsesOwed, triggerLine := p.triggerLine } := fun f => congrArg f hpos
      exact ⟨rfl, rfl, hf (·.counter), hf (·.direction), hf (·.capture), rfl, rfl, rfl, rfl, rfl,
        fun _ => ⟨hf (·.highWater), hf (·.reverseTravel), rfl⟩, hr, fun _ => ⟨hf (·.triggerCount), hf (·.triggerPos), h1, h2, h3⟩,
        fun h => absurd ht h⟩
    exact hs.beforeCompares (headTakes_compareFrame _).unfrozen
  · rw [triggerTest_none ((advanced_triggers_iff hp).not.1 ht)]
    exact ⟨rfl, rfl, rfl, rfl, rfl, rfl, rfl, rfl, rfl, rfl, fun _ => ⟨rfl, rfl, rfl⟩, hr, fun h => absurd h ht,
      fun _ => ⟨rfl, rfl, rfl, rfl⟩⟩

theorem stepForward_forwardStep (st : Station) : ForwardStep st (stepForward st) := by
  rw [stepForward_eq]
  refine ForwardStep.beforeCompares ?_ (markDue_frame _)
  split
  · next hp => exact (advanced_forwardStep hp).beforeCompares (resumeEdge_frame _)
  · next hp =>
    have ht : ¬ st.triggers := fun h => hp h.2.1
    exact ⟨rfl, rfl, rfl, rfl, rfl, rfl, rfl, rfl, rfl, rfl, fun h => absurd h hp, fun _ => ⟨rfl, rfl, rfl⟩,
      fun h => absurd h ht, fun _ => ⟨rfl, rfl, rfl, rfl⟩⟩

/-- What the command of a forward step does, the taking of due compares included. -/
theorem encoderStep_forwardStep (st : Station) : ForwardStep st (encoderStep .forward st) :=
  .afterCompares (takeAllDue_frame [] st) (stepForward_forwardStep _)

/-- What the command of a reverse step leaves unchanged, the taking of due compares included. -/
structure ReverseStep (a b : Station) : Prop where
  start : b.start = a.start
  line : b.line = a.line
  pin : b.edge.pin = a.edge.pin
  frame : b.scan.frame = a.scan.frame
  peers : b.engine.peers = a.engine.peers
  nextSeq : b.engine.nextSeq = a.engine.nextSeq
  openCount : b.engine.openCount = a.engine.openCount
  frozen : b.edge.frozen = true
  counter : b.position.counter = a.position.counter - 1
  direction : b.position.direction = .reverse
  capture : b.position.capture = a.position.capture
  highWater : b.position.highWater = a.position.highWater
  reverseTravel : b.position.reverseTravel = satAdd a.position.reverseTravel 1
  triggerCount : b.position.triggerCount = a.position.triggerCount
  triggerPos : b.position.triggerPos = a.position.triggerPos

theorem encoderStep_reverseStep (st : Station) : ReverseStep st (encoderStep .reverse st) := by
  have f := takeAllDue_frame [] st
  have he : encoderStep .reverse st = stepReverse (takeAllDue [] st) := rfl
  rw [he, stepReverse_eq]
  generalize takeAllDue [] st = x at f
  have hif : ∀ (c : Prop) [Decidable c] (q : Requests), (if c then { x.engine with requests := q } else x.engine) =
      { x.engine with requests := if c then q else x.engine.requests } := fun c _ _ => by split <;> rfl
  rw [hif]
  exact ⟨f.start, f.line, f.pin, f.frame, f.peers, f.nextSeq, f.openCount, rfl, congrArg (· - 1) f.counter, rfl, f.capture, f.highWater,
    congrArg (satAdd · 1) f.reverseTravel, f.triggerCount, f.triggerPos⟩

/-- Settles O7. -/
theorem encoderStepMovesCounter : Obligations.EncoderStepMovesCounter := by
  intro st q hl
  have hf := encoderStep_forwardStep st
  have hr := encoderStep_reverseStep st
  refine ⟨⟨_, exec_live _ q hl, hf.counter, hf.direction, hf.capture, hf.start, hf.line, hf.pin, hf.frame, hf.peers, hf.nextSeq,
    hf.openCount⟩, ⟨_, exec_live _ q hl, hr.counter, hr.direction, hr.capture, hr.triggerCount, hr.triggerPos, hr.start,
    hr.line, hr.pin, hr.frame, hr.peers, hr.nextSeq, hr.openCount⟩, exec_live _ q hl⟩

/-- Settles O8. -/
theorem highWaterTravelAndTriggersFollowSteps : Obligations.HighWaterTravelAndTriggersFollowSteps := by
  refine ⟨fun st q hl => ⟨⟨_, exec_live _ q hl, ?_, ?_⟩, ⟨_, exec_live _ q hl, ?_, ?_, ?_⟩⟩, fun st q hl =>
    ⟨_, exec_live _ q hl, (encoderStep_forwardStep st).trigger, (encoderStep_forwardStep st).noTrigger⟩⟩
  · exact (encoderStep_forwardStep st).passes
  · exact (encoderStep_forwardStep st).retravels
  · exact (encoderStep_reverseStep st).highWater
  · show (encoderStep .reverse st).position.reverseTravel.toNat = _
    rw [(encoderStep_reverseStep st).reverseTravel, satAdd, BitVec.toNat_ofNat]
    omega
  · exact (encoderStep_reverseStep st).frozen

end Sys2Proof.Machine

namespace Sys2Proof.Machine

/-! ## The scan trigger line (R34, R56) -/

theorem beginPulse_idle {p : PositionUnit} (h : p.pulsesOwed = 0) :
    { p with triggerLine := .idle }.beginPulse = { p with triggerLine := .idle } := if_neg fun hc => hc.2 h

theorem beginPulse_owed {p : PositionUnit} (h : p.pulsesOwed ≠ 0) :
    { p with triggerLine := .idle }.beginPulse = { p with triggerLine := .pulse, pulsesOwed := p.pulsesOwed - 1 } :=
  if_pos ⟨rfl, h⟩

/-- Settles O10. -/
theorem triggerLineFollowsPulses : Obligations.TriggerLineFollowsPulses := by
  intro st q hl
  simp only [exec_live _ q hl, commandEffect]
  refine ⟨?_, fun h => ?_, fun h h0 => ?_, fun h h0 => ?_, fun h => ?_, fun h h0 => ?_, fun h h0 => ?_⟩
  · simp [Station.scanTriggerDriven, hl]
  · simp only [PositionUnit.pulseEnd, h]
  · simp only [PositionUnit.pulseEnd, h, beginPulse_idle h0]
  · simp only [PositionUnit.pulseEnd, h, beginPulse_owed h0]
  · simp only [PositionUnit.markEnd, h]
  · simp only [PositionUnit.markEnd, h, beginPulse_idle h0]
  · simp only [PositionUnit.markEnd, h, beginPulse_owed h0]

/-! ## Presence (R39, R41, R43, R44, R49, R51) -/

/-- The station as the level at the presence pin has changed. -/
def Station.pinned (st : Station) : Station := { st with edge := { st.edge with pin := !st.edge.pin } }

theorem pinned_presenceHeld (st : Station) : st.pinned.presenceHeld = !st.presenceHeld := by
  show ((!st.edge.pin) != decide (st.loc.presenceInvert = 1)) = !(st.edge.pin != decide (st.loc.presenceInvert = 1))
  exact Bool.not_bne _ _

theorem presenceInput_change {held : Bool} {st : Station} (h : st.presenceHeld = !held) : presenceInput held st =
    if st.start.node.onLine && !st.edge.frozen then takeChange st.pinned else st.pinned := by
  have hne : st.presenceHeld ≠ held := by rw [h]; simp
  exact if_neg hne

/-- Where the Edge Unit is frozen or the station not yet JOINING, presence moves the pin only (R39, R51). -/
theorem presenceInput_still {held : Bool} {st : Station} (h : st.presenceHeld = !held)
    (hf : st.edge.frozen = true ∨ st.start.node.onLine = false) : presenceInput held st = st.pinned := by
  rw [presenceInput_change h]
  rcases hf with hf | hf <;> simp [hf]

theorem presenceInput_taken {held : Bool} {st : Station} (h : st.presenceHeld = !held) (hn : st.start.node.onLine = true)
    (hf : st.edge.frozen = false) : presenceInput held st = takeChange st.pinned := by
  rw [presenceInput_change h]
  simp [hn, hf]

theorem exec_presenceAppears (st : Station) (q : List Instr) :
    exec .presenceAppears ⟨st, q⟩ = .next ⟨presenceInput true st, q⟩ := rfl

theorem exec_presenceLost (st : Station) (q : List Instr) :
    exec .presenceLost ⟨st, q⟩ = .next ⟨presenceInput false st, q⟩ := rfl

/-- A due compare of the frozen Edge Unit is kept (R51). -/
theorem takeDue_frozen {id : CompareId} {st : Station} (hf : st.edge.frozen = true) (ho : CompareId.owner id = .edge)
    (hd : st.position.isDue id = true) : takeDue id st = { st with position := st.position.setProgress id .kept } := by
  unfold takeDue takeCompare
  rw [if_pos hd, if_pos ⟨ho, hf⟩]

/-- Settles O13. -/
theorem frozenEdgeUnitHoldsStill : Obligations.FrozenEdgeUnitHoldsStill := by
  refine ⟨fun st q h => ⟨fun hp => ?_, fun hp => ?_⟩, fun st q hl hf => ?_⟩
  · rw [exec_presenceAppears, presenceInput_still (held := true) hp h]; rfl
  · rw [exec_presenceLost, presenceInput_still (held := false) hp h]; rfl
  · simp only [exec_live _ q hl, commandEffect]
    refine ⟨fun hd => ?_, fun hd => ?_, fun hd => ?_, fun hd => ?_⟩ <;> rw [takeDue_frozen hf rfl hd]

/-- A start of absence at the counter leaves the blank release compare ahead, where H is not 0. -/
theorem reached_counter_add {p : PositionUnit} {h : BitVec 8} (hh : h ≠ 0) : p.reached (p.counter + counts h) = false := by
  have hlt := h.isLt
  have hpos : 0 < h.toNat := Nat.pos_of_ne_zero fun h0 => hh (BitVec.eq_of_toNat_eq h0)
  have hc : (counts h).toNat = h.toNat := by simp only [counts, BitVec.toNat_ofNat]; omega
  unfold PositionUnit.reached atOrAfter
  rw [decide_eq_false_iff_not]
  bv_omega

/-- R41: what the appearance of presence in IDLE does; a head take follows where a pending edge was held. -/
theorem riseAt_spec (e : Pos) (st : Station) : ∃ t : Station,
    riseAt e st = (if st.edge.pending.isSome then headTakes t else t) ∧
    t = { st with
      edge := { st.edge with state := .rising, testDeferred := false, pending := some { rise := e, qualified := false, fall := none } }
      position := st.position.store .qualification (e + counts st.shared.qualification) .waiting
      scan := { st.scan with overrun := st.scan.overrun && st.edge.pending.isNone } } := by
  refine ⟨_, rfl, ?_⟩
  show ({ st with position := (st.position.drop .qualification).store .qualification _ .waiting, edge := _, scan := _ } : Station) = _
  rw [drop_store]
  rfl

/-- R43: what the loss of presence in RISING does, before the head take. -/
def Station.riseFailed (st : Station) : Station :=
  { discardPending st with edge := { st.edge with state := .idle, pending := none, testDeferred := false } }

theorem failRise_eq (st : Station) : failRise st = headTakes st.riseFailed := rfl

theorem takeChange_idle {st : Station} (hs : st.edge.state = .idle) (hp : st.presenceHeld = true) :
    takeChange st = riseAt st.position.counter st := by unfold takeChange; rw [hs, hp]
theorem takeChange_rising {st : Station} (hs : st.edge.state = .rising) (hp : st.presenceHeld = false) :
    takeChange st = failRise st := by unfold takeChange; rw [hs, hp]
theorem takeChange_present {st : Station} (hs : st.edge.state = .present) (hp : st.presenceHeld = false) :
    takeChange st = fallAt st.position.counter st := by unfold takeChange; rw [hs, hp]
theorem takeChange_falling {st : Station} (hs : st.edge.state = .falling) (hp : st.presenceHeld = true) :
    takeChange st = bridgeGap st := by unfold takeChange; rw [hs, hp]
theorem takeChange_blanked_held {st : Station} (hs : st.edge.state = .blanked) (hp : st.presenceHeld = true)
    (ha : st.edge.absence.isSome = true) : takeChange st = blankedAppears st := by
  unfold takeChange; rw [hs, hp]; exact if_pos ha
theorem takeChange_blanked_absent {st : Station} (hs : st.edge.state = .blanked) (hp : st.presenceHeld = false)
    (ha : st.edge.absence = none) : takeChange st = blankedLost st := by
  unfold takeChange; rw [hs, hp]; exact if_pos (by rw [ha]; rfl)

/-- Settles O11. -/
theorem presenceChangesByEdgeState : Obligations.PresenceChangesByEdgeState := by
  refine ⟨fun st q hn hf hp => ?_, fun st q hn hf hp => ?_⟩
  · have hh : st.pinned.presenceHeld = true := by rw [pinned_presenceHeld, hp]; rfl
    rw [exec_presenceAppears, presenceInput_taken (held := true) hp hn hf]
    refine ⟨fun hs => ?_, fun hs => ?_, fun hs ha => ?_⟩
    · rw [takeChange_idle (st := st.pinned) hs hh]
      obtain ⟨t, he, ht⟩ := riseAt_spec st.pinned.position.counter st.pinned
      have hframe : HeadFrame t (riseAt st.pinned.position.counter st.pinned) := by
        rw [he]
        split
        · exact headTakes_frame t
        · exact HeadFrame.refl t
      refine ⟨_, rfl, hframe.edge.trans (by rw [ht]; rfl), hframe.position.trans (by rw [ht]; rfl), hframe.probe.trans (by rw [ht]; rfl),
        hframe.line.trans (by rw [ht]; rfl), hframe.start.trans (by rw [ht]; rfl), hframe.outlet.trans (by rw [ht]; rfl),
        hframe.port.trans (by rw [ht]; rfl), fun hnone => ?_⟩
      have hnone' : st.pinned.edge.pending = none := hnone
      rw [he, hnone', ht, hnone']
      exact ⟨rfl, rfl, by simp [Station.pinned]⟩
    · rw [takeChange_falling (st := st.pinned) hs hh]; rfl
    · rw [takeChange_blanked_held (st := st.pinned) hs hh ha]; rfl
  · have hh : st.pinned.presenceHeld = false := by rw [pinned_presenceHeld, hp]; rfl
    rw [exec_presenceLost, presenceInput_taken (held := false) hp hn hf]
    refine ⟨fun hs => ?_, fun hs => ?_, fun hs ha hb => ?_⟩
    · rw [takeChange_rising (st := st.pinned) hs hh, failRise_eq]
      have hframe := headTakes_frame st.pinned.riseFailed
      exact ⟨_, rfl, hframe.edge, hframe.position, hframe.opening, hframe.probe, hframe.line, hframe.start, hframe.outlet,
        hframe.port⟩
    · rw [takeChange_present (st := st.pinned) hs hh]; rfl
    · rw [takeChange_blanked_absent (st := st.pinned) hs hh ha]
      have ha' : ({ st.pinned with edge := { st.pinned.edge with absence := some st.pinned.position.counter } } : Station).edge.absence =
        some st.pinned.position.counter := rfl
      unfold blankedLost
      rw [(followAbsence_cases _).2.1 _ ha' (reached_counter_add hb)]
      rfl

end Sys2Proof.Machine

namespace Sys2Proof.Machine

/-! ## The opening pulse and the alignment pattern (R93, R94) -/

/-- R93: the round that an opening pulse puts in flight. -/
def Station.openedRound (st : Station) : Round :=
  { kind := none, counted := countedAtOpening st, offers := offersAtOpening st, contest := none, passes := [],
    slotEntry := none, slotRead := false, cells := 0 }

theorem openRound_eq (st : Station) : openRound st = { st with
    position := { st.position with capture := some st.position.counter }
    line := { st.line with round := some st.openedRound } } := rfl

/-- R93: the first run of driven cells by its length. -/
theorem openingPulseEnd_eq {length : Nat} {st : Station} (hs : st.line.state = .opening) (hr : st.line.round = none)
    (hd : st.line.longDrive = false) : openingPulseEnd length st =
      if 2 * length < 3 * Config.nominalCell st.shared.lineRate then
        if st.line.opener then enterMute st else { st with line := { st.line with state := .idle } }
      else if length ≤ 3 * Config.nominalCell st.shared.lineRate then openRound st
      else { st with line := { st.line with longDrive := true } } := if_pos ⟨hs, hr, hd⟩

theorem openOffer_some {st : Station} {e : PendingEdge} (ho : st.engine.requests.opening = true) (he : st.edge.pending = some e)
    (hq : e.qualified = true) : openOffer st = some e.rise := by
  unfold openOffer; rw [if_pos ho, he]; exact if_pos hq

theorem openOffer_none {st : Station} (h : ¬ (st.engine.requests.opening = true ∧
    ∃ e, st.edge.pending = some e ∧ e.qualified = true)) : openOffer st = none := by
  unfold openOffer
  split
  · next ho =>
    split
    · next e he => exact if_neg fun hq => h ⟨ho, e, he, hq⟩
    · rfl
  · rfl

theorem spacingAccepted_iff (cell spacing : Nat) :
    spacingAccepted cell spacing = true ↔ 7 * cell ≤ 4 * spacing ∧ 4 * spacing ≤ 9 * cell := by
  simp [spacingAccepted]

/-- R94: the pattern's edges are judged by their spacings. -/
theorem alignmentPattern_eq {a b c : Nat} {st : Station} (hs : st.line.state = .opening) (hr : st.line.round.isSome = true) :
    alignmentPattern a b c st =
      if spacingAccepted (Config.nominalCell st.shared.lineRate) a && spacingAccepted (Config.nominalCell st.shared.lineRate) b &&
          spacingAccepted (Config.nominalCell st.shared.lineRate) c then
        { st with line := { st.line with state := .inRound, roundCell := some (a + b + c) } }
      else enterMute st := if_pos ⟨hs, hr⟩

/-- R106: an entry to MUTE ends the round and its capture, and raises LINE_ERROR. -/
theorem enterMute_spec (st : Station) : (enterMute st).line.state = .mute ∧ (enterMute st).line.round = none ∧
    (enterMute st).position.capture = none ∧ (enterMute st).port.causes.lineError = true ∧
    (enterMute st).engine.requests.roll = st.engine.requests.roll ∧ (enterMute st).engine.nextSeq = st.engine.nextSeq := by
  have h := deferredTest_frame
    { st with
      position := { st.position with capture := none }
      line := { st.line with opener := false, breakSender := false, longDrive := false, roundCell := none, round := none } }
  exact ⟨rfl, congrArg LineUnit.round h.line, h.capture, rfl, h.roll, h.nextSeq⟩

/-- Settles O33. -/
theorem openingPulseAndPatternStartRound : Obligations.OpeningPulseAndPatternStartRound := by
  refine ⟨fun length st q hl hs hr hd => ?_, fun a b c st q hl hs hr => ?_⟩
  · intro cell running clear
    rw [exec_live _ q hl]
    simp only [commandEffect, openingPulseEnd_eq hs hr hd]
    refine ⟨fun h1 h2 => ⟨st.openedRound, ?_, rfl, rfl, rfl, rfl, rfl, rfl, rfl, fun e hrun ho he hq => ?_, fun h => ?_, fun hrun => ?_,
      fun hrun => ?_⟩, fun h1 ho => ?_, fun h1 => ?_⟩
    · rw [if_neg (Nat.not_lt.2 h1), if_pos h2, openRound_eq]
    · show (if st.start.node = .running then (openOffer st).map (·.toNat) else none) = _
      rw [if_pos hrun, openOffer_some ho he hq]; rfl
    · show (if st.start.node = .running then (openOffer st).map (·.toNat) else none) = _
      split
      · next hrun => rw [openOffer_none fun hc => h ⟨hrun, hc⟩]; rfl
      · rfl
    · exact if_pos hrun
    · exact if_neg hrun
    · rw [if_pos h1, ho]; rfl
    · have h2 : ¬ 2 * length < 3 * cell := by omega
      rw [if_neg h2, if_neg (Nat.not_le.2 h1)]
  · intro cell inside
    have hin : (spacingAccepted cell a && spacingAccepted cell b && spacingAccepted cell c) = true ↔ inside a ∧ inside b ∧ inside c := by
      simp only [Bool.and_eq_true, spacingAccepted_iff, and_assoc, inside]
    rw [exec_live _ q hl]
    simp only [commandEffect, alignmentPattern_eq hs hr]
    refine ⟨fun h => by rw [if_pos (hin.2 h)], fun h => ⟨_, rfl, ?_⟩⟩
    rw [if_neg (hin.not.2 h)]
    exact enterMute_spec st

end Sys2Proof.Machine

namespace Sys2Proof.Machine

/-! ## The REQUEST commands (R113, R183, R187, R195) -/

/-- R113: the rows of the table. -/
theorem purge_take_ones {s : Seq} {l : List Seq} :
    (s ∈ l → (PurgeSet.ones l).take (.one s) = (.ones l, .accepted)) ∧
    (s ∉ l → l.length < 4 → (PurgeSet.ones l).take (.one s) = (.ones (l ++ [s]), .accepted)) ∧
    (s ∉ l → l.length = 4 → (PurgeSet.ones l).take (.one s) = (.ones l, .busy)) := by
  refine ⟨fun h => if_pos h, fun h hl => ?_, fun h hl => ?_⟩
  · exact (if_neg h).trans (if_pos hl)
  · exact (if_neg h).trans (if_neg (by rw [hl]; decide))

/-- R113, R187: a PURGE request with a scope that is taken into the set is answered ACCEPTED or BUSY. -/
theorem purge_take_answer (scope : PurgeScope) (p : PurgeSet) :
    RequestAnswer.code (p.take scope).2 = if (p.take scope).2 = .busy then 2 else 1 := by
  have h : (p.take scope).2 ≠ .refused := by
    cases scope <;> cases p <;> simp only [PurgeSet.take] <;> (repeat' split) <;> simp
  cases ha : (p.take scope).2 with
  | accepted => rfl
  | busy => rfl
  | refused => exact absurd ha h

theorem ofByte_none {scope : Byte} (seq : Seq) (h1 : scope ≠ 1) (h2 : scope ≠ 2) (h3 : scope ≠ 3) :
    PurgeScope.ofByte scope seq = none := by
  have hn : ∀ n : Nat, n < 256 → scope ≠ BitVec.ofNat 8 n → scope.toNat ≠ n := fun n hn h e =>
    h (BitVec.eq_of_toNat_eq (by rw [e, BitVec.toNat_ofNat]; omega))
  unfold PurgeScope.ofByte
  split
  · next h => exact absurd h (hn 1 (by omega) h1)
  · next h => exact absurd h (hn 2 (by omega) h2)
  · next h => exact absurd h (hn 3 (by omega) h3)
  · rfl

/-- A raised PURGE request changes the request set, and the ONE requests that count in the round in flight. -/
theorem requestPurge_running {scope : Byte} {seq : Seq} {sc : PurgeScope} {st : Station} (hn : st.start.node = .running)
    (hs : PurgeScope.ofByte scope seq = some sc) : requestPurge scope seq st =
      answer [if (st.engine.requests.purge.take sc).2 = .busy then 2 else 1] none (raisePurge sc st) := by
  unfold requestPurge
  rw [if_pos hn, hs]
  simp only [purge_take_answer]

theorem requestPurge_refused {scope : Byte} {seq : Seq} {st : Station}
    (h : st.start.node ≠ .running ∨ PurgeScope.ofByte scope seq = none) :
    requestPurge scope seq st = answer [3] none st := by
  have hnone : (if st.start.node = .running then PurgeScope.ofByte scope seq else none) = none := by
    split
    · next hn => exact h.resolve_left fun hc => hc hn
    · rfl
  unfold requestPurge
  rw [hnone]; rfl

theorem raisePurge_one_held {s : Seq} {st : Station} (h : s ∈ st.engine.requests.purge.subjects) : raisePurge (.one s) st =
    withRequests (fun q => { q with purge := (q.purge.take (.one s)).1 }) st := by
  have hw : waitForOpening (.one s) st = st := if_pos h
  unfold raisePurge; rw [hw]

theorem raisePurge_one_new {s : Seq} {st : Station} (h : s ∉ st.engine.requests.purge.subjects) : raisePurge (.one s) st =
    withRequests (fun q => { q with purge := (q.purge.take (.one s)).1 })
      { st with line := { st.line with round := st.line.round.map fun r =>
        { r with counted := { r.counted with purge := r.counted.purge.dropOne s } } } } := by
  have hw : waitForOpening (.one s) st = { st with line := { st.line with round := st.line.round.map fun r =>
      { r with counted := { r.counted with purge := r.counted.purge.dropOne s } } } } := if_neg h
  unfold raisePurge; rw [hw]

/-- R195: the codes that name no command. -/
theorem ofCode_unknown {code : Byte} (h : code = 0 ∨ 5#8 < code) : PortCommand.ofCode code = .unknown := by
  have hn : code.toNat = 0 ∨ 5 < code.toNat := by
    rcases h with rfl | h
    · exact .inl rfl
    · exact .inr h
  unfold PortCommand.ofCode
  split <;> first
    | omega
    | rfl

theorem wordAt_pair (scope high low : Byte) : wordAt [scope, high, low] 1 = high ++ low := rfl

/-- R183: REQUEST PURGE is taken with its last argument byte, not before. -/
theorem commandTaken_purge_short {arguments : List Byte} (h : arguments.length < 3) : commandTaken (4 :: arguments) = none :=
  if_neg (show arguments.length ≠ 3 by omega)

theorem commandTaken_unknown {code : Byte} (h : code = 0 ∨ 5#8 < code) : commandTaken [code] = some (.unknownCommand code) := by
  unfold commandTaken
  simp only [ofCode_unknown h]
  rfl

/-- Settles O48. -/
theorem requestCommandsAnswer : Obligations.RequestCommandsAnswer := by
  refine ⟨⟨fun p => ?_, rfl, rfl, rfl, fun _ => rfl, fun _ => rfl, fun _ _ => purge_take_ones.1, fun _ _ => purge_take_ones.2.1,
      fun _ _ => purge_take_ones.2.2, fun _ => rfl, fun _ => rfl⟩,
    fun st q hl => ⟨_, exec_live _ q hl, fun hn hd => ?_⟩, fun seq st q hl => ?_, fun code st q hl hc => ?_,
    ⟨rfl, rfl, rfl, fun scope high low => ?_, fun _ => commandTaken_purge_short, rfl, fun _ => commandTaken_unknown⟩⟩
  · cases p <;> rfl
  · show (stepReverse (takeAllDue [] st)).engine.requests.purge = _
    rw [takeAllDue_none [] hd, stepReverse_eq]
    exact congrArg (fun e : RoundEngine => e.requests.purge) (if_neg fun h => hn h.1)
  · intro answered purged discounted
    simp only [exec_live _ q hl, commandEffect]
    refine ⟨fun hn => ⟨?_, ?_, fun hs => ?_, fun hs => ?_, fun scope h1 h2 h3 => ?_⟩, fun hn scope => ?_, fun hn => ?_, fun hn => ?_⟩
    · rw [requestPurge_running (sc := .all) hn rfl]; rfl
    · rw [requestPurge_running (sc := .opened) hn rfl]; rfl
    · rw [requestPurge_running (sc := .one seq) hn rfl, raisePurge_one_held hs]; rfl
    · rw [requestPurge_running (sc := .one seq) hn rfl, raisePurge_one_new hs]; rfl
    · rw [requestPurge_refused (.inr (ofByte_none seq h1 h2 h3))]; rfl
    · rw [requestPurge_refused (.inl hn)]; rfl
    · unfold requestRoll; rw [if_pos hn]; rfl
    · unfold requestRoll; rw [hn]; rfl
  · rw [exec_live _ q hl]
    simp only [commandEffect, unknownCommand, if_pos (ofCode_unknown hc)]
    rfl
  · show some (Instr.requestPurge scope (wordAt [scope, high, low] 1)) = _
    rw [wordAt_pair]

end Sys2Proof.Machine

namespace Sys2Proof.Machine

/-! ## Compares by progress (R35, R51) -/

/-- The compares that have come this far. -/
def PositionUnit.withProgress (g : Progress) (p : PositionUnit) : List Compare := p.compares.filter fun c => c.progress == g

theorem mem_withProgress {g : Progress} {p : PositionUnit} {c : Compare} :
    c ∈ p.withProgress g ↔ c ∈ p.compares ∧ c.progress = g := by simp [PositionUnit.withProgress]

/-- No compare with this progress joins. -/
def NoneNew (g : Progress) (a b : Station) : Prop := (b.position.withProgress g).Sublist (a.position.withProgress g)

theorem NoneNew.refl (g : Progress) (a : Station) : NoneNew g a a := List.Sublist.refl _

theorem NoneNew.trans {g : Progress} {a b c : Station} (h : NoneNew g a b) (k : NoneNew g b c) : NoneNew g a c :=
  List.Sublist.trans k h

theorem NoneNew.ofPosition {g : Progress} {a b : Station} (h : b.position = a.position) : NoneNew g a b := by
  unfold NoneNew; rw [h]

theorem NoneNew.mem {g : Progress} {a b : Station} (h : NoneNew g a b) {c : Compare} (hc : c ∈ b.position.compares)
    (hg : c.progress = g) : c ∈ a.position.compares := (mem_withProgress.1 (h.subset (mem_withProgress.2 ⟨hc, hg⟩))).1

theorem NoneNew.none {g : Progress} {a b : Station} (h : NoneNew g a b) (ha : ∀ c ∈ a.position.compares, c.progress ≠ g) :
    ∀ c ∈ b.position.compares, c.progress ≠ g := fun c hc hg => ha c (h.mem hc hg) hg

theorem HeadFrame.noneNew {a b : Station} (h : HeadFrame a b) (g : Progress) : NoneNew g a b := .ofPosition h.position

theorem drop_comm (i j : CompareId) (p : PositionUnit) : (p.drop i).drop j = (p.drop j).drop i := by
  simp only [PositionUnit.drop, List.filter_filter, Bool.and_comm]

theorem mem_drop {id : CompareId} {p : PositionUnit} {c : Compare} : c ∈ (p.drop id).compares ↔ c ∈ p.compares ∧ c.id ≠ id := by
  simp [PositionUnit.drop]

theorem dropCompare_noneNew (g : Progress) (id : CompareId) (st : Station) : NoneNew g st (dropCompare id st) :=
  List.Sublist.filter _ List.filter_sublist

/-- A compare that is stored replaces those of its purpose, with its own progress. -/
theorem storeCompare_noneNew {g g' : Progress} (h : g' ≠ g) (id : CompareId) (pos : Pos) (st : Station) :
    NoneNew g st (storeCompare id pos g' st) := by
  have he : (storeCompare id pos g' st).position.withProgress g = (dropCompare id st).position.withProgress g := by
    simp [PositionUnit.withProgress, PositionUnit.store, List.filter_append, h]
  show List.Sublist _ _
  rw [he]
  exact dropCompare_noneNew g id st

section
variable {g : Progress} (hw : g ≠ .waiting)
include hw

/-- An Edge Unit that is not frozen keeps no compare. -/
theorem followAbsence_noneNew {st : Station} (hk : g = .kept → st.edge.frozen = false) : NoneNew g st (followAbsence st) := by
  unfold followAbsence
  split
  · exact dropCompare_noneNew g _ st
  · simp only
    split
    · split
      · next hf => exact storeCompare_noneNew (fun h => absurd (hk h.symm) (by simp [hf])) _ _ st
      · exact .trans (dropCompare_noneNew g .blankRelease st) (.ofPosition rfl)
    · exact storeCompare_noneNew hw.symm _ _ st

theorem enterBlanked_noneNew {st : Station} (hk : g = .kept → st.edge.frozen = false) :
    NoneNew g (dropCompare .bridging st) (enterBlanked st) := by
  have h : NoneNew g (dropCompare .bridging st) (dropCompare .bridging (discardPending st)) := by
    refine .trans (dropCompare_noneNew g .qualification _) (.ofPosition ?_)
    exact drop_comm _ _ _
  unfold enterBlanked
  simp only
  split
  · exact h
  · refine .trans (.trans h (.ofPosition rfl)) (followAbsence_noneNew hw ?_)
    exact hk

theorem enterClosing_noneNew (seq : Seq) (trail : Pos) (st : Station) :
    NoneNew g (dropCompare .overlength (dropCompare .sample st)) (enterClosing seq trail st) := by
  rw [enterClosing_eq]
  refine .trans ?_ ((testClosing_frame seq _).noneNew g)
  unfold closingStart
  simp only
  split
  · exact .ofPosition rfl
  · exact .trans (.ofPosition rfl) (storeCompare_noneNew hw.symm _ _ _)

theorem forceOverlength_noneNew {st : Station} {r : Record} (ho : st.openRecord = some r) (hk : g = .kept → st.edge.frozen = false) :
    NoneNew g (dropCompare .bridging st) (forceOverlength st) := by
  have h : NoneNew g (dropCompare .bridging st) (overlengthBlanked r.seq st) :=
    .trans (b := dropCompare .bridging (updateBand r.seq _ st)) (.ofPosition rfl) (enterBlanked_noneNew hw hk)
  rw [forceOverlength_open ho]
  refine .trans (h.trans ?_) ((headTakes_frame _).noneNew g)
  exact .trans ((dropCompare_noneNew g .sample _).trans (dropCompare_noneNew g .overlength _)) (enterClosing_noneNew hw _ _ _)
end

/-! ## The first compare of a progress (R51, log 4) -/

/-- The earlier of the compares seen so far and one more, in the default order. -/
def earlier (st : Station) (best : Option Compare) (c : Compare) : Option Compare :=
  match best with
  | none => some c
  | some b => if takenBefore st c b then some c else some b

theorem firstCompare_eq (g : Progress) (st : Station) :
    firstCompare g st = ((st.position.withProgress g).foldl (earlier st) none).map (·.id) := rfl

theorem takenBefore_along {st : Station} {a b : Compare} :
    (takenBefore st a b = true → alongTravel st a ≤ alongTravel st b) ∧
    (takenBefore st a b = false → alongTravel st b ≤ alongTravel st a) := by
  constructor <;> intro h <;> simp [takenBefore] at h <;> omega

/-- The earlier of two compares is one of them, and no later in position than either. -/
theorem earlier_some (st : Station) (b c : Compare) : ∃ x, earlier st (some b) c = some x ∧ (x = b ∨ x = c) ∧
    alongTravel st x ≤ alongTravel st b ∧ alongTravel st x ≤ alongTravel st c := by
  obtain ⟨h1, h2⟩ := takenBefore_along (st := st) (a := c) (b := b)
  unfold earlier
  simp only
  split
  · next h => exact ⟨c, rfl, .inr rfl, h1 h, le_rfl⟩
  · next h => exact ⟨b, rfl, .inl rfl, le_rfl, h2 (by simpa using h)⟩

theorem foldl_earlier (st : Station) : ∀ (l : List Compare) (b : Compare), ∃ c, l.foldl (earlier st) (some b) = some c ∧
    (c = b ∨ c ∈ l) ∧ alongTravel st c ≤ alongTravel st b ∧ ∀ x ∈ l, alongTravel st c ≤ alongTravel st x := by
  intro l
  induction l with
  | nil => exact fun b => ⟨b, rfl, .inl rfl, le_rfl, nofun⟩
  | cons y rest ih =>
    intro b
    obtain ⟨x, hx, hxy, hb, hy⟩ := earlier_some st b y
    obtain ⟨c, hc, hm, hcx, hrest⟩ := ih x
    refine ⟨c, by rw [List.foldl_cons, hx, hc], ?_, hcx.trans hb, fun z hz => ?_⟩
    · rcases hm with rfl | hm
      · rcases hxy with rfl | rfl
        · exact .inl rfl
        · exact .inr List.mem_cons_self
      · exact .inr (List.mem_cons_of_mem _ hm)
    · rcases List.mem_cons.1 hz with rfl | hz
      · exact hcx.trans hy
      · exact hrest z hz

theorem firstCompare_none {g : Progress} {st : Station} (h : ∀ c ∈ st.position.compares, c.progress ≠ g) :
    firstCompare g st = none := by
  have hnil : st.position.withProgress g = [] := List.filter_eq_nil_iff.2 fun c hc => by simpa using h c hc
  rw [firstCompare_eq, hnil]; rfl

/-- Where a compare has come this far, the first one is such a compare, and none of them lies before it. -/
theorem firstCompare_some {g : Progress} {st : Station} {x : Compare} (hx : x ∈ st.position.compares) (hg : x.progress = g) :
    ∃ c ∈ st.position.compares, c.progress = g ∧ firstCompare g st = some c.id ∧
      ∀ y ∈ st.position.compares, y.progress = g → alongTravel st c ≤ alongTravel st y := by
  have hmem : x ∈ st.position.withProgress g := mem_withProgress.2 ⟨hx, hg⟩
  rw [firstCompare_eq]
  cases hl : st.position.withProgress g with
  | nil => rw [hl] at hmem; cases hmem
  | cons b rest =>
    obtain ⟨c, hc, hm, hb, hrest⟩ := foldl_earlier st rest b
    have hcm : c ∈ st.position.withProgress g := by
      rw [hl]
      rcases hm with rfl | hm
      · exact List.mem_cons_self
      · exact List.mem_cons_of_mem _ hm
    obtain ⟨h1, h2⟩ := mem_withProgress.1 hcm
    refine ⟨c, h1, h2, ?_, fun y hy hyg => ?_⟩
    · show (rest.foldl (earlier st) (some b)).map (·.id) = _
      rw [hc]; rfl
    · have hyl : y ∈ b :: rest := hl ▸ mem_withProgress.2 ⟨hy, hyg⟩
      rcases List.mem_cons.1 hyl with rfl | hyl
      · exact hb
      · exact hrest y hyl

/-! ## The kept compares at a resume (R51) -/

theorem actOnKept_none (n : Nat) {st : Station} (h : ∀ c ∈ st.position.compares, c.progress ≠ .kept) : actOnKept n st = st := by
  cases n with
  | zero => rfl
  | succ n => simp only [actOnKept, firstCompare_none h]

/-- Where the first kept compare acts and leaves none kept, no other acts. -/
theorem actOnKept_first {n : Nat} (hn : 0 < n) {id : CompareId} {st : Station} (hf : firstCompare .kept st = some id)
    (h : ∀ c ∈ (compareEffect id (dropCompare id st)).position.compares, c.progress ≠ .kept) :
    actOnKept n st = compareEffect id (dropCompare id st) := by
  obtain ⟨m, rfl⟩ := Nat.exists_eq_succ_of_ne_zero hn.ne'
  simp only [actOnKept, hf]
  exact actOnKept_none m h

/-- R51: presence is as the edge state expects. -/
def Station.presenceExpected (st : Station) : Prop :=
  (st.edge.state = .idle ∧ st.presenceHeld = false) ∨ (st.edge.state = .rising ∧ st.presenceHeld = true) ∨
    (st.edge.state = .present ∧ st.presenceHeld = true) ∨ (st.edge.state = .falling ∧ st.presenceHeld = false) ∨
    (st.edge.state = .blanked ∧ (st.edge.absence = none ↔ st.presenceHeld = true))

theorem takeChange_expected {st : Station} (h : st.presenceExpected) : takeChange st = st := by
  unfold takeChange
  rcases h with ⟨hs, hp⟩ | ⟨hs, hp⟩ | ⟨hs, hp⟩ | ⟨hs, hp⟩ | ⟨hs, ha⟩
  · rw [hs, hp]
  · rw [hs, hp]
  · rw [hs, hp]
  · rw [hs, hp]
  · cases hp : st.presenceHeld with
    | true => rw [hs]; simp [ha.2 hp]
    | false =>
      have hne : st.edge.absence ≠ none := fun hn => by rw [ha.1 hn] at hp; cases hp
      rw [hs]
      simp [hne]

/-- The station at a resume: the step has passed the high-water position, and the freeze has ended. -/
def Station.resuming (st : Station) : Station := st.advanced.unfrozen

/-- A resume without a trigger, where no compare is due: presence first, then the kept compares. -/
theorem encoderStep_resumes {st : Station} (hn : st.start.node.onLine = true) (hf : st.edge.frozen = true)
    (hp : isAfter (st.position.counter + 1) st.position.highWater = true)
    (ht : st.position.counter + 1 ≠ st.position.triggerPos + counts st.shared.scanPitch)
    (hd : ∀ c ∈ st.position.compares, c.progress ≠ .due) : encoderStep .forward st =
      markDue (actOnKept (takeChange st.resuming).position.compares.length (takeChange st.resuming)) := by
  have hnt : triggerTest st.advanced = st.advanced := triggerTest_none fun h => ht h.2
  have hr : resumeEdge st.advanced =
      actOnKept (takeChange st.resuming).position.compares.length (takeChange st.resuming) := by
    have hf' : st.advanced.edge.frozen = true := hf
    have hn' : st.advanced.start.node.onLine = true := hn
    unfold resumeEdge
    rw [if_pos hf']
    simp only [if_pos hn']
    rfl
  show stepForward (takeAllDue [] st) = _
  rw [takeAllDue_none [] hd, stepForward_eq, if_pos hp, hnt, hr]

end Sys2Proof.Machine

namespace Sys2Proof.Machine

/-! ## The trailing edge and the forced close of an OPEN band at a resume (R45, R47, R51) -/

/-- The end of an OPEN band in FALLING by one of its two compares: no kept compare remains, and the band has this trail. -/
structure BandEnded (a b : Station) (r : Record) (trail : Pos) (overlength : Bool) : Prop where
  noneKept : ∀ c ∈ b.position.compares, c.progress ≠ .kept
  frozen : b.edge.frozen = a.edge.frozen
  fall : b.edge.fall = none
  bridging : b.stores .bridging = false
  overlengthDropped : b.stores .overlength = false
  band : ∃ x, b.record r.seq = some x ∧ (x.band.state = .closing ∨ x.band.state = .closed) ∧ x.band.lead = r.band.lead ∧
    x.band.trail = some trail ∧ x.band.summary.overlength = overlength

section
variable {st : Station} {r : Record} (hs : st.edge.state = .falling)
  (ho : st.openRecord = some r) (hd : st.seqsDistinct)
  (hk : ∀ c ∈ st.position.compares, c.progress = .kept → c.id = .bridging ∨ c.id = .overlength)
include hs ho hd hk

theorem bridging_endsBand {f : Pos} (hf : st.edge.fall = some f) :
    BandEnded st (takeBridging (dropCompare .bridging st)) r f r.band.summary.overlength ∧
    (takeBridging (dropCompare .bridging st)).edge.state = .idle := by
  have he := takeBridging_open (st := dropCompare .bridging st) hs hf ho
  set x := (dropCompare .bridging st).bridged with hx
  have hr : x.record r.seq = some r := record_of_mem hd (openRecord_mem ho).1
  have hdx : x.seqsDistinct := hd
  have hedge : (headTakes (enterClosing r.seq f x)).edge = x.edge := (headTakes_edge _).trans (enterClosing_edge _ _ _)
  have hnew : NoneNew .kept (dropCompare .overlength (dropCompare .sample x)) (headTakes (enterClosing r.seq f x)) :=
    (enterClosing_noneNew (by decide) r.seq f x).trans ((headTakes_frame _).noneNew _)
  have hstores := fun id => ((headTakes_frame (enterClosing r.seq f x)).stores id).trans ((enterClosing_spec r.seq f x hdx hr).2.1 id)
  rw [he]
  refine ⟨⟨fun c hc hck => ?_, by rw [hedge]; rfl, by rw [hedge]; rfl, ?_, ?_, ?_⟩, by rw [hedge]; rfl⟩
  · obtain ⟨hm, h1⟩ := mem_drop.1 (hnew.mem hc hck)
    obtain ⟨hm, h2⟩ := mem_drop.1 (mem_drop.1 hm).1
    exact (hk c hm hck).elim h2 h1
  · rw [hstores, show x.stores .bridging = false from (stores_drop st .bridging .bridging).trans (by simp)]; rfl
  · rw [hstores]; simp
  · obtain ⟨b, hb, hst, hlead, htrail, hover, _⟩ := closes_record r.seq f hdx hr
    exact ⟨b, hb, hst, hlead, htrail, hover⟩

theorem overlength_endsBand (hp : st.presenceHeld = false) (hz : st.edge.frozen = false) :
    BandEnded st (forceOverlength (dropCompare .overlength st)) r (r.band.lead.getD 0 + counts st.shared.overlength) true := by
  set x := dropCompare .overlength st with hx
  have hox : x.openRecord = some r := ho
  have hdx : x.seqsDistinct := hd
  obtain ⟨⟨_, hbr, _, _, hback, hahead⟩, hov, _⟩ := forceOverlength_entersBlanked hdx hox
  have hne : x.edge.state ≠ .blanked := by show st.edge.state ≠ _; rw [hs]; decide
  have hnew := forceOverlength_noneNew (g := .kept) (by decide) hox fun _ => hz
  refine ⟨fun c hc hck => ?_, (forceOverlength_frame x).frozen, ?_, hbr, hov, ?_⟩
  · obtain ⟨hm, h1⟩ := mem_drop.1 (hnew.mem hc hck)
    obtain ⟨hm, h2⟩ := mem_drop.1 hm
    exact (hk c hm hck).elim h1 h2
  · by_cases hb : atOrAfter x.position.counter (x.absenceStart + counts x.shared.bridge) = true
    · rw [(hback hne hp hb hz).1]
    · rw [(hahead hne hp (.inl (by simpa using hb))).1]
  · obtain ⟨b, hb, hst, hlead, htrail, hover, _⟩ := forceOverlength_record hdx hox
    exact ⟨b, hb, hst, hlead, htrail, hover⟩
end

theorem markDue_stores (st : Station) (id : CompareId) : (markDue st).stores id = st.stores id :=
  stores_eq_of_ids (markReached_ids _) id

theorem BandEnded.markDue {a b : Station} {r : Record} {trail : Pos} {o : Bool} (h : BandEnded a b r trail o) :
    ∃ x, (markDue b).edge.frozen = a.edge.frozen ∧ (markDue b).edge.fall = none ∧ (markDue b).stores .bridging = false ∧
      (markDue b).stores .overlength = false ∧ (markDue b).record r.seq = some x ∧
      (x.band.state = .closing ∨ x.band.state = .closed) ∧ x.band.lead = r.band.lead ∧ x.band.trail = some trail ∧
      x.band.summary.overlength = o := by
  obtain ⟨x, hx, hst, hlead, htrail, ho⟩ := h.band
  exact ⟨x, h.frozen, h.fall, (markDue_stores b _).trans h.bridging, (markDue_stores b _).trans h.overlengthDropped, hx, hst, hlead,
    htrail, ho⟩

/-- A compare alone among the kept ones is the first. -/
theorem firstCompare_alone {g : Progress} {st : Station} {c : Compare} (hc : c ∈ st.position.compares) (hg : c.progress = g)
    (ha : ∀ x ∈ st.position.compares, x.progress = g → x = c) : firstCompare g st = some c.id := by
  obtain ⟨x, hx, hxg, hf, _⟩ := firstCompare_some hc hg
  rw [hf, ha x hx hxg]

/-- R41: the appearance of presence in IDLE, where no pending edge is held. -/
theorem riseAt_new (e : Pos) {st : Station} (h : st.edge.pending = none) : riseAt e st = { st with
    edge := { st.edge with state := .rising, testDeferred := false, pending := some { rise := e, qualified := false, fall := none } }
    position := st.position.store .qualification (e + counts st.shared.qualification) .waiting } := by
  obtain ⟨t, he, ht⟩ := riseAt_spec e st
  rw [he, ht, h]
  simp

/-- Settles O12. -/
theorem resumeActsOnPresenceAndKept : Obligations.ResumeActsOnPresenceAndKept := by
  intro st q hl hn hz hp ht hd _ now moved resumed along
  have hrun : exec (.encoderStep .forward) ⟨st, q⟩ =
      .next ⟨markDue (actOnKept (takeChange st.resuming).position.compares.length (takeChange st.resuming)), q⟩ := by
    rw [exec_live _ q hl]
    simp only [commandEffect, encoderStep_resumes hn hz hp ht hd]
  rw [hrun]
  set x := st.resuming with hx
  refine ⟨fun hnone => ⟨fun he => ?_, fun hs hpend hh => ?_, fun hs hh => ?_⟩, fun hs hh hkept => ?_,
    fun f c hs hh hf ho hc hid hk hall => ?_, fun f e r b o hs hh hf hdis ho hlead hb hbid hbk ho' hoid hok hall => ?_⟩
  · have he' : x.presenceExpected := he
    have hnone' : ∀ c ∈ x.position.compares, c.progress ≠ .kept := hnone
    rw [takeChange_expected he', actOnKept_none _ hnone']
    rfl
  · have hnone' : ∀ c ∈ x.position.compares, c.progress ≠ .kept := hnone
    have hnew : NoneNew .kept x (storeCompare .qualification (now + counts x.shared.qualification) .waiting x) :=
      storeCompare_noneNew (by decide) _ _ x
    have hrise := riseAt_new now (st := x) hpend
    have hkt : ∀ c ∈ (riseAt now x).position.compares, c.progress ≠ .kept := by
      rw [hrise]
      exact hnew.none hnone'
    rw [takeChange_idle (st := x) hs hh]
    show Host.Outcome.next (⟨markDue (actOnKept _ (riseAt now x)), q⟩ : State) = _
    rw [actOnKept_none _ hkt, hrise]
    rfl
  · have hkt : ∀ c ∈ (fallAt x.position.counter x).position.compares, c.progress ≠ .kept := by
      have hnew : NoneNew .kept x (fallAt x.position.counter x) :=
        NoneNew.trans (b := storeCompare .bridging (x.position.counter + counts x.shared.bridge) .waiting x)
          (storeCompare_noneNew (by decide) _ _ x) (.ofPosition rfl)
      exact hnew.none hnone
    rw [takeChange_present (st := x) hs hh, actOnKept_none _ hkt]
    rfl
  · have hkt : ∀ c ∈ (bridgeGap x).position.compares, c.progress ≠ .kept := fun c hc hck => by
      obtain ⟨hm, hne⟩ := mem_drop.1 (show c ∈ (x.position.drop .bridging).compares from hc)
      exact hne (hkept c hm hck)
    rw [takeChange_falling (st := x) hs hh, actOnKept_none _ hkt]
    rfl
  · have hfirst : firstCompare .kept x = some .bridging := hid ▸ firstCompare_alone (st := x) hc hk hall
    have he := takeBridging_pending (st := dropCompare .bridging x) hs hf ho
    have hkt : ∀ y ∈ (takeBridging (dropCompare .bridging x)).position.compares, y.progress ≠ .kept := fun y hy hyk => by
      rw [he] at hy
      obtain ⟨hm, hne⟩ := mem_drop.1 (show y ∈ (x.position.drop .bridging).compares from hy)
      exact hne (hall y hm hyk ▸ hid)
    have hpos : 0 < x.position.compares.length := List.length_pos_of_mem hc
    rw [takeChange_expected (st := x) (.inr (.inr (.inr (.inl ⟨hs, hh⟩)))), actOnKept_first hpos hfirst hkt]
    show _ = resumed _ _
    simp only [compareEffect, he]
    rfl
  · have hk : ∀ c ∈ x.position.compares, c.progress = .kept → c.id = .bridging ∨ c.id = .overlength := fun c hc hck =>
      (hall c hc hck).imp (by rintro rfl; exact hbid) (by rintro rfl; exact hoid)
    obtain ⟨c, hc, hck, hfirst, hmin⟩ := firstCompare_some (st := x) hb hbk
    have hpos := List.length_pos_of_mem hc
    rw [takeChange_expected (st := x) (.inr (.inr (.inr (.inl ⟨hs, hh⟩))))]
    rcases hall c hc hck with rfl | rfl
    · rw [hbid] at hfirst
      obtain ⟨hend, hidle⟩ := bridging_endsBand (st := x) hs ho hdis hk hf
      rw [actOnKept_first hpos hfirst hend.noneKept]
      obtain ⟨y, h1, h2, h3, h4, h5, h6, h7, h8, h9⟩ := hend.markDue
      exact ⟨_, y, rfl, h1, h2, h3, h4, h5, h6, h7.trans hlead, fun _ => ⟨h8, h9, hidle⟩, fun hlt =>
        absurd (hmin o ho' hok) (Nat.not_le.2 hlt)⟩
    · rw [hoid] at hfirst
      have hend := overlength_endsBand (st := x) hs ho hdis hk hh rfl
      rw [actOnKept_first hpos hfirst hend.noneKept]
      obtain ⟨y, h1, h2, h3, h4, h5, h6, h7, h8, h9⟩ := hend.markDue
      refine ⟨_, y, rfl, h1, h2, h3, h4, h5, h6, h7.trans hlead, fun hlt => absurd (hmin b hb hbk) (Nat.not_le.2 hlt), fun _ =>
        ⟨h8.trans ?_, h9⟩⟩
      rw [hlead]; rfl

end Sys2Proof.Machine

namespace Sys2Proof.Machine

/-! ## The taking of every due compare (R35, R37) -/

theorem isDue_of_mem {p : PositionUnit} {c : Compare} (hc : c ∈ p.compares) (hd : c.progress = .due) : p.isDue c.id = true :=
  List.any_eq_true.2 ⟨c, hc, by simp [hd]⟩

theorem exists_of_isDue {p : PositionUnit} {id : CompareId} (h : p.isDue id = true) :
    ∃ c ∈ p.compares, c.id = id ∧ c.progress = .due := by
  obtain ⟨c, hc, h⟩ := List.any_eq_true.1 h
  exact ⟨c, hc, by simpa using h⟩

theorem isDue_of_mayBeNext {st : Station} {id : CompareId} (h : mayBeNext st id = true) : st.position.isDue id = true := by
  unfold mayBeNext at h
  split at h
  · cases h
  · next c hc =>
    have hid : c.id = id := by simpa using List.find?_some hc
    have hd : c.progress = .due := by simp at h; exact h.1
    exact hid ▸ isDue_of_mem (List.mem_of_find?_eq_some hc) hd

theorem isDue_of_firstCompare {st : Station} {id : CompareId} (h : firstCompare .due st = some id) : st.position.isDue id = true := by
  by_cases hn : ∀ c ∈ st.position.compares, c.progress ≠ .due
  · rw [firstCompare_none hn] at h; cases h
  · obtain ⟨x, hx, hd⟩ := by simpa using hn
    obtain ⟨c, hc, hcd, hf, _⟩ := firstCompare_some hx hd
    rw [hf] at h
    cases h
    exact isDue_of_mem hc hcd

/-- What each taking of a due compare keeps, the taking of all of them keeps. -/
theorem takeAllDue_induction {P : Station → Prop} (hP : ∀ (id : CompareId) (x : Station), x.position.isDue id = true → P x →
    P (takeCompare id x)) (order : List CompareId) {st : Station} (h : P st) : P (takeAllDue order st) := by
  have h1 : ∀ (l : List CompareId) (x : Station), P x → P (takeOrdered l x) := by
    intro l
    induction l with
    | nil => exact fun _ h => h
    | cons id rest ih =>
      intro x hx
      refine ih _ ?_
      split
      · next hm => exact hP id x (isDue_of_mayBeNext hm) hx
      · exact hx
  have h2 : ∀ (n : Nat) (x : Station), P x → P (takeRest n x) := by
    intro n
    induction n with
    | zero => exact fun _ h => h
    | succ n ih =>
      intro x hx
      unfold takeRest
      split
      · exact hx
      · next id hid => exact ih _ (hP id x (isDue_of_firstCompare hid) hx)
  exact h2 _ _ (h1 order st h)

/-! ## What the effects of compares do to due compares, to the compares of records, and to frozen records (R22, R35) -/

/-- Each record is one held before, and frozen where that was. -/
def KeepsFrozen (a b : Station) : Prop := ∀ y ∈ b.table, ∃ x ∈ a.table, x.seq = y.seq ∧ (x.frozen = true → y.frozen = true)

theorem KeepsFrozen.refl (a : Station) : KeepsFrozen a a := fun y hy => ⟨y, hy, rfl, id⟩

theorem KeepsFrozen.trans {a b c : Station} (h : KeepsFrozen a b) (k : KeepsFrozen b c) : KeepsFrozen a c := fun z hz => by
  obtain ⟨y, hy, hs, hf⟩ := k z hz
  obtain ⟨x, hx, hs', hf'⟩ := h y hy
  exact ⟨x, hx, hs'.trans hs, hf ∘ hf'⟩

theorem KeepsFrozen.ofTable {a b : Station} (h : b.table = a.table) : KeepsFrozen a b := fun y hy => ⟨y, h ▸ hy, rfl, id⟩

/-- No compare becomes due, the compares that a creation stores are the same, and frozen records stay frozen. -/
structure Calm (a b : Station) : Prop where
  noneDue : NoneNew .due a b
  stored : StoredSame a b
  frozen : KeepsFrozen a b

theorem Calm.refl (a : Station) : Calm a a := ⟨.refl _ a, .refl a, .refl a⟩

theorem Calm.trans {a b c : Station} (h : Calm a b) (k : Calm b c) : Calm a c :=
  ⟨h.noneDue.trans k.noneDue, h.stored.trans k.stored, h.frozen.trans k.frozen⟩

theorem Calm.ofSame {a b : Station} (hp : b.position = a.position) (ht : b.table = a.table) : Calm a b :=
  ⟨.ofPosition hp, .ofPosition hp, .ofTable ht⟩

theorem Calm.ofMap {a b : Station} (hp : b.position = a.position) (f : Record → Record) (ht : b.table = a.table.map f)
    (hf : ∀ r, (f r).seq = r.seq ∧ (r.frozen = true → (f r).frozen = true)) : Calm a b := by
  refine ⟨.ofPosition hp, .ofPosition hp, fun y hy => ?_⟩
  rw [ht] at hy
  obtain ⟨x, hx, rfl⟩ := List.mem_map.1 hy
  exact ⟨x, hx, (hf x).1.symm, (hf x).2⟩

theorem updateRecord_calm (s : Seq) (f : Record → Record) (hf : ∀ r, (f r).seq = r.seq ∧ (r.frozen = true → (f r).frozen = true))
    (st : Station) : Calm st (updateRecord s f st) := by
  refine .ofMap rfl _ rfl fun r => ?_
  by_cases h : r.seq = s
  · rw [if_pos h]; exact hf r
  · rw [if_neg h]; exact ⟨rfl, id⟩

theorem updateBand_calm (s : Seq) (f : Band → Band) (st : Station) : Calm st (updateBand s f st) :=
  updateRecord_calm s (fun r => { r with band := f r.band }) (fun _ => ⟨rfl, id⟩) st

theorem withRequests_calm (f : Requests → Requests) (st : Station) : Calm st (withRequests f st) := .ofSame rfl rfl

theorem dropCompare_calm {id : CompareId} (h : CompareId.ofCreation id = false) (st : Station) : Calm st (dropCompare id st) :=
  ⟨dropCompare_noneNew _ id st, dropCompare_storedSame h st, .ofTable rfl⟩

theorem storeCompare_calm {id : CompareId} {g : Progress} (h : CompareId.ofCreation id = false) (hg : g ≠ .due) (pos : Pos)
    (st : Station) : Calm st (storeCompare id pos g st) :=
  ⟨storeCompare_noneNew hg id pos st, storeCompare_storedSame h pos g st, .ofTable rfl⟩

theorem foldl_calm {α : Type} (f : Station → α → Station) (hf : ∀ st x, Calm st (f st x)) (l : List α) :
    ∀ st, Calm st (l.foldl f st) := by
  induction l with
  | nil => exact Calm.refl
  | cons x rest ih => exact fun st => (hf st x).trans (ih (f st x))

theorem completeRecord_calm (own : Bool) (s : Seq) (st : Station) : Calm st (completeRecord own s st) := by
  cases hr : st.record s with
  | none => rw [completeRecord_none hr]; exact .refl st
  | some r =>
    by_cases hc : r.phase = .gathering ∧ recordComplete st.engine.peers r = true
    · rw [completeRecord_complete hr hc]
      refine (updateRecord_calm s (Record.tallied st.shared) (fun x => ?_) st).trans (.ofSame rfl rfl)
      obtain ⟨h1, _, _, h2, _⟩ := tallied_fixed st.shared x
      exact ⟨h1, fun h => h2.trans h⟩
    · rw [completeRecord_incomplete hr hc]; exact .refl st

theorem settleBand_calm (state : BandState) (entry : Record → Entry) (s : Seq) (st : Station) :
    Calm st (settleBand state entry s st) := by
  rw [settleBand_eq]
  refine .trans (.trans (updateRecord_calm s _ ?_ st) (withRequests_calm _ _)) (completeRecord_calm true s _)
  exact fun _ => ⟨rfl, id⟩

theorem testClosing_calm (s : Seq) (st : Station) : Calm st (testClosing s st) := by
  unfold testClosing
  split
  · exact .refl st
  · split
    · exact settleBand_calm _ _ s st
    · exact .refl st

theorem dropHead_calm (st : Station) : Calm st (dropHead st) := .ofSame rfl rfl

theorem markLate_calm (p : Pos) (st : Station) : Calm st (markLate p st) :=
  .ofMap rfl _ rfl fun r => by split <;> exact ⟨rfl, id⟩

theorem headTake_calm (st : Station) : Calm st (headTake st).1 := by
  unfold headTake
  split
  · exact .ofSame rfl rfl
  · split
    · exact dropHead_calm st
    · split
      · exact (updateBand_calm _ _ st).trans (dropHead_calm _)
      · split
        · exact .ofSame rfl rfl
        · exact (markLate_calm _ st).trans (dropHead_calm _)

theorem headLoop_calm : ∀ (n : Nat) (st : Station), Calm st (headLoop n st)
  | 0, st => .refl st
  | n + 1, st => by
    have h : Calm st (testAllClosing (headTake st).1) :=
      (headTake_calm st).trans (foldl_calm _ (fun x s => testClosing_calm s x) _ _)
    unfold headLoop
    simp only
    split
    · exact h.trans (headLoop_calm n _)
    · exact h

theorem headTakes_calm (st : Station) : Calm st (headTakes st) := headLoop_calm _ st

theorem enterBlanked_calm (st : Station) : Calm st (enterBlanked st) :=
  ⟨(dropCompare_noneNew .due .bridging st).trans (enterBlanked_noneNew (by decide) nofun), enterBlanked_storedSame st,
    .ofTable (enterBlanked_table st)⟩

theorem enterClosing_calm (seq : Seq) (trail : Pos) (st : Station) : Calm st (enterClosing seq trail st) := by
  have h : ∀ f, Calm st (updateBand seq f (dropCompare .overlength (dropCompare .sample st))) := fun f =>
    ((dropCompare_calm rfl st).trans (dropCompare_calm rfl _)).trans (updateBand_calm seq f _)
  unfold enterClosing
  simp only
  refine .trans ?_ (testClosing_calm seq _)
  split
  · exact h _
  · exact (h _).trans (storeCompare_calm rfl (by decide) _ _)

theorem forceOverlength_calm (st : Station) : Calm st (forceOverlength st) := by
  unfold forceOverlength
  split
  · exact .refl st
  · exact (((updateBand_calm _ _ st).trans (enterBlanked_calm _)).trans (enterClosing_calm _ _ _)).trans (headTakes_calm _)

theorem storeSample_calm (st : Station) : Calm st (storeSample st) := by
  unfold storeSample
  split
  · exact dropCompare_calm rfl st
  · exact storeCompare_calm rfl (by decide) _ st

theorem openBand_calm (seq : Seq) (e : Pos) (st : Station) : Calm st (openBand seq e st) :=
  (updateBand_calm seq (fun b => { b with
    state := .opened, lead := some e, summary := { b.summary with incomplete := b.summary.incomplete || st.scan.overrun } }) st).trans
    (.ofSame rfl rfl)

theorem attachEdge_calm (edge : PendingEdge) (seq : Seq) (st : Station) : Calm st (attachEdge edge seq st) := by
  have h := openBand_calm seq edge.rise st
  unfold attachEdge
  simp only
  split
  · have hs := h.trans (storeSample_calm _)
    split
    · split
      · exact (hs.trans (storeCompare_calm rfl (by decide) _ _)).trans (headTakes_calm _)
      · exact hs.trans (forceOverlength_calm _)
    · exact (hs.trans (storeCompare_calm rfl (by decide) _ _)).trans (headTakes_calm _)
  · split
    · exact ((h.trans (updateBand_calm _ _ _)).trans (enterClosing_calm _ _ _)).trans (headTakes_calm _)
    · exact (h.trans (enterClosing_calm _ _ _)).trans (headTakes_calm _)

theorem attachTest_calm (st : Station) : Calm st (attachTest st) := by
  have h : Calm st (testMade st) := .ofSame rfl rfl
  rcases attachTest_cases st with ⟨he, _⟩ | ⟨he, _⟩ | ⟨e, n, _, _, _, _, he⟩ <;> rw [he]
  · exact h
  · exact h.trans (.ofSame rfl rfl)
  · exact h.trans (attachEdge_calm _ _ _)

theorem takeQualification_calm (st : Station) : Calm st (takeQualification st) := by
  unfold takeQualification
  split
  · simp only
    split
    · exact .ofSame rfl rfl
    · refine .trans ?_ (attachTest_calm _)
      exact .ofSame rfl rfl
  · exact .refl st

theorem takeBridging_calm (st : Station) : Calm st (takeBridging st) := by
  unfold takeBridging
  split
  · simp only
    split
    · refine .trans (.trans ?_ (enterClosing_calm _ _ _)) (headTakes_calm _)
      exact .ofSame rfl rfl
    · exact .ofSame rfl rfl
  · exact .refl st

theorem takeEmpty_calm (s : Seq) (st : Station) : Calm st (takeEmpty s st) := by
  unfold takeEmpty
  split
  · exact .refl st
  · split
    · exact settleBand_calm _ _ s st
    · exact .refl st

theorem takeLag_calm (s : Seq) (st : Station) : Calm st (takeLag s st) := by
  have h : Calm st (testClosing s (updateBand s (fun b => { b with lagPassed := true }) st)) :=
    (updateBand_calm s _ st).trans (testClosing_calm s _)
  unfold takeLag
  simp only
  split
  · exact h.trans (headTakes_calm _)
  · exact h

/-- A decision compare freezes, and unfreezes none. -/
theorem takeDecision_calm (s : Seq) (st : Station) : Calm st (takeDecision s st) := by
  have h : ∀ f : Record → Record, (∀ r, (f r).seq = r.seq ∧ (r.frozen = true → (f r).frozen = true)) →
      Calm st (updateRecord s f (withRequests (Requests.markVerdict s false) st)) := fun f hf =>
    (withRequests_calm _ st).trans (updateRecord_calm s f hf _)
  unfold takeDecision
  split
  · exact .refl st
  · simp only
    split
    · refine .trans (h _ ?_) (withRequests_calm _ _)
      exact fun _ => ⟨rfl, fun _ => rfl⟩
    · refine .trans (h _ ?_) (withRequests_calm _ _)
      exact fun _ => ⟨rfl, fun _ => rfl⟩
    · exact h _ fun _ => ⟨rfl, fun _ => rfl⟩

theorem takeSample_calm (st : Station) : Calm st (takeSample st) := by
  unfold takeSample
  split
  · exact dropCompare_calm rfl st
  · simp only
    split
    · exact (storeSample_calm st).trans (.ofSame rfl rfl)
    · exact storeSample_calm st

/-- The effect of every compare but a gate compare. -/
theorem compareEffect_calm {id : CompareId} (h : ∀ s, id ≠ .gate s) (st : Station) : Calm st (compareEffect id st) := by
  cases id with
  | qualification => exact takeQualification_calm st
  | bridging => exact takeBridging_calm st
  | blankRelease => exact (dropCompare_calm (id := .blankRelease) rfl st).trans (.ofSame rfl rfl)
  | overlength => exact forceOverlength_calm st
  | empty s => exact takeEmpty_calm s st
  | lag s => exact takeLag_calm s st
  | decision s => exact takeDecision_calm s st
  | gate s => exact absurd rfl (h s)
  | sample => exact takeSample_calm st
  | windowEnd => exact (dropCompare_calm (id := .windowEnd) rfl st).trans (.ofSame rfl rfl)

theorem removeRecord_noneDue (outcome : Verdict) (mark : SheetFlags → SheetFlags) (s : Seq) (st : Station) :
    NoneNew .due st (removeRecord outcome mark s st) := by
  have hdrop := fun (id : CompareId) (x : Station) => dropCompare_noneNew .due id x
  have h : NoneNew .due st (st.withoutRecord s) :=
    .trans (((hdrop (.empty s) st).trans (hdrop (.lag s) _)).trans ((hdrop (.decision s) _).trans (hdrop (.gate s) _))) (.ofPosition rfl)
  cases hr : st.record s with
  | none => rw [removeRecord_none hr]; exact .refl _ st
  | some r =>
    rw [removeRecord_eq hr]
    by_cases hb : r.band.state = .opened
    · simp only [if_pos hb]
      refine .trans ((h.trans ((hdrop .sample _).trans (hdrop .overlength _))).trans (enterBlanked_calm _).noneDue) ?_
      exact .ofPosition rfl
    · simp only [if_neg hb]
      exact h.trans (.ofPosition rfl)

theorem commanded_calm (r : Record) (st : Station) : Calm st (st.commanded r).1 := by
  have hs : ∀ (o : OutletUnit) (pos : Pos), Calm st (storeCompare .windowEnd pos .waiting { st with outlet := o }) :=
    fun o pos => .trans (b := { st with outlet := o }) (.ofSame rfl rfl) (storeCompare_calm rfl (by decide) pos _)
  unfold Station.commanded
  split
  · unfold gateCommand
    simp only
    split
    · exact .refl st
    · split
      · exact .refl st
      · split
        · exact ((hs _ _).trans (dropCompare_calm (id := .windowEnd) rfl _)).trans (.ofSame rfl rfl)
        · exact hs _ _
  · exact .refl st

/-- A dispatch makes no compare due, and the records that stay are frozen where they were. -/
theorem dispatch_keeps_frozen (s : Seq) (st : Station) : NoneNew .due st (dispatch s st) ∧ KeepsFrozen st (dispatch s st) := by
  cases hr : st.record s with
  | none => unfold dispatch; rw [hr]; exact ⟨.refl _ st, .refl st⟩
  | some r =>
    have hc := commanded_calm r st
    rw [dispatch_eq hr]
    generalize (st.commanded r).2 = busy
    generalize (st.commanded r).1 = x at hc ⊢
    have ht := headTakes_calm (removeRecord r.dispatchOutcome (r.dispatchMark busy) s x)
    refine ⟨(hc.noneDue.trans (removeRecord_noneDue _ _ s x)).trans ht.noneDue, (hc.frozen.trans fun y hy => ?_).trans ht.frozen⟩
    rw [removeRecord_table] at hy
    exact ⟨y, (List.mem_filter.1 hy).1, rfl, id⟩

theorem compareEffect_keeps_frozen (id : CompareId) (st : Station) :
    NoneNew .due st (compareEffect id st) ∧ KeepsFrozen st (compareEffect id st) := by
  by_cases h : ∃ s, id = .gate s
  · obtain ⟨s, rfl⟩ := h
    exact dispatch_keeps_frozen s st
  · have hc := compareEffect_calm (fun s hs => h ⟨s, hs⟩) st
    exact ⟨hc.noneDue, hc.frozen⟩

theorem setProgress_kept_due (id : CompareId) (p : PositionUnit) :
    (p.setProgress id .kept).withProgress .due = (p.drop id).withProgress .due := by
  have h : ∀ l : List Compare, (l.map fun c => if c.id = id then { c with progress := .kept } else c).filter (fun c => c.progress == .due) =
      (l.filter fun c => c.id != id).filter (fun c => c.progress == .due) := by
    intro l
    induction l with
    | nil => rfl
    | cons c rest ih => by_cases hc : c.id = id <;> simp [List.filter_cons, hc] at ih ⊢ <;> rw [ih]
  exact h _

/-- A compare taken is no longer due, and no other becomes due. -/
theorem takeCompare_noneDue (id : CompareId) (st : Station) : NoneNew .due (dropCompare id st) (takeCompare id st) := by
  unfold takeCompare
  split
  · show List.Sublist _ _
    rw [show ({ st with position := st.position.setProgress id .kept } : Station).position.withProgress .due = _ from
      setProgress_kept_due id st.position]
    exact List.Sublist.refl _
  · exact (compareEffect_keeps_frozen id _).1

theorem takeCompare_fewerDue {id : CompareId} {st : Station} (h : st.position.isDue id = true) :
    ((takeCompare id st).position.withProgress .due).length < (st.position.withProgress .due).length := by
  obtain ⟨c, hc, hid, hd⟩ := exists_of_isDue h
  refine lt_of_le_of_lt (takeCompare_noneDue id st).length_le ?_
  have he : (dropCompare id st).position.withProgress .due = (st.position.withProgress .due).filter fun c => c.id != id := by
    simp only [PositionUnit.withProgress, dropCompare_position, PositionUnit.drop, List.filter_filter, Bool.and_comm]
  rw [he]
  exact List.length_filter_lt_length_iff_exists.2 ⟨c, mem_withProgress.2 ⟨hc, hd⟩, by simp [hid]⟩

theorem takeRest_noneDue : ∀ (n : Nat) (st : Station), (st.position.withProgress .due).length ≤ n →
    ∀ c ∈ (takeRest n st).position.compares, c.progress ≠ .due
  | 0, st, h => fun c hc hd => by
    have hm : c ∈ st.position.withProgress .due := mem_withProgress.2 ⟨hc, hd⟩
    rw [List.length_eq_zero_iff.1 (Nat.le_zero.1 h)] at hm
    cases hm
  | n + 1, st, h => by
    unfold takeRest
    split
    · next hf =>
      intro c hc hd
      obtain ⟨x, _, _, hx, _⟩ := firstCompare_some hc hd
      rw [hx] at hf; cases hf
    · next id hf =>
      have := takeCompare_fewerDue (isDue_of_firstCompare hf)
      exact takeRest_noneDue n _ (by omega)

/-- After the taking of every due compare none is due. -/
theorem takeAllDue_noneDue (order : List CompareId) (st : Station) : ∀ c ∈ (takeAllDue order st).position.compares, c.progress ≠ .due :=
  takeRest_noneDue _ _ (List.length_filter_le _ _)

end Sys2Proof.Machine

namespace Sys2Proof.Machine

/-! ## The records whose compares are taken (R22, R164) -/

/-- Every record with this sequence number is frozen. -/
def Station.allFrozen (s : Seq) (st : Station) : Prop := ∀ y ∈ st.table, y.seq = s → y.frozen = true

theorem KeepsFrozen.allFrozen {a b : Station} (h : KeepsFrozen a b) {s : Seq} (ha : a.allFrozen s) : b.allFrozen s :=
  fun y hy hs => by
    obtain ⟨x, hx, hxs, hf⟩ := h y hy
    exact hf (ha x hx (hxs.trans hs))

theorem KeepsFrozen.notHeld {a b : Station} (h : KeepsFrozen a b) {s : Seq} (ha : s ∉ a.table.map (·.seq)) :
    s ∉ b.table.map (·.seq) := fun hm => by
  obtain ⟨y, hy, hs⟩ := List.mem_map.1 hm
  obtain ⟨x, hx, hxs, _⟩ := h y hy
  exact ha (List.mem_map.2 ⟨x, hx, hxs.trans hs⟩)

theorem allFrozen_of_notHeld {st : Station} {s : Seq} (h : s ∉ st.table.map (·.seq)) : st.allFrozen s :=
  fun _ hy hs => absurd (List.mem_map.2 ⟨_, hy, hs⟩) h

theorem notHeld_of_record_none {st : Station} {s : Seq} (h : st.record s = none) : s ∉ st.table.map (·.seq) := fun hm => by
  obtain ⟨r, hr⟩ := exists_record hm
  rw [h] at hr; cases hr

theorem dispatch_notHeld (s : Seq) (st : Station) : s ∉ (dispatch s st).table.map (·.seq) := by
  cases hr : st.record s with
  | none =>
    have he : dispatch s st = st := by unfold dispatch; rw [hr]
    rw [he]; exact notHeld_of_record_none hr
  | some r => rw [(dispatch_dispatched hr).seqs]; simp

theorem takeDecision_allFrozen (s : Seq) (st : Station) : (takeDecision s st).allFrozen s := by
  have h : ∀ (f : Record → Record) (x : Station), (∀ r, (f r).frozen = true) → (updateRecord s f x).allFrozen s := by
    intro f x hf y hy hs
    obtain ⟨r, _, rfl⟩ := List.mem_map.1 (show y ∈ x.table.map fun r => if r.seq = s then f r else r from hy)
    by_cases hr : r.seq = s
    · rw [if_pos hr]; exact hf r
    · rw [if_neg hr] at hs; exact absurd hs hr
  cases hr : st.record s with
  | none => unfold takeDecision; rw [hr]; exact allFrozen_of_notHeld (notHeld_of_record_none hr)
  | some r =>
    unfold takeDecision; rw [hr]
    simp only
    split
    · exact h (fun x => { x with verdict := some .manual, frozen := true, flags := { x.flags with incomplete := true } }) _ fun _ => rfl
    · exact h (fun x => { x with frozen := true }) _ fun _ => rfl
    · exact h (fun x => { x with frozen := true }) _ fun _ => rfl

theorem takeCompare_keepsFrozen (id : CompareId) (st : Station) : KeepsFrozen st (takeCompare id st) := by
  unfold takeCompare
  split
  · exact .ofTable rfl
  · exact (compareEffect_keeps_frozen id (dropCompare id st)).2

theorem takeCompare_effect {id : CompareId} (h : CompareId.owner id ≠ .edge) (st : Station) :
    takeCompare id st = compareEffect id (dropCompare id st) := if_neg fun hc => h hc.1

theorem stored_setProgress_other {a b : CompareId} (h : a ≠ b) (g : Progress) (p : PositionUnit) :
    (p.setProgress b g).stored a = p.stored a := by
  have hl : ∀ l : List Compare, (l.map fun c => if c.id = b then { c with progress := g } else c).filter (fun c => c.id == a) =
      l.filter fun c => c.id == a := by
    intro l
    induction l with
    | nil => rfl
    | cons c rest ih =>
      by_cases hc : c.id = b
      · simp [hc, Ne.symm h, ih]
      · simp [List.filter_cons, hc, ih]
  exact hl _

/-- The taking of another compare leaves a record's empty, decision or gate compare, or the record leaves the table. -/
theorem takeCompare_stored {id u : CompareId} {s : Seq} (hu : CompareId.subject u = some s) (hc : CompareId.ofCreation u = true)
    (hne : u ≠ id) (st : Station) :
    (takeCompare id st).position.stored u = st.position.stored u ∨ s ∉ (takeCompare id st).table.map (·.seq) := by
  have hd : (dropCompare id st).position.stored u = st.position.stored u := stored_drop_other hne _
  unfold takeCompare
  split
  · exact .inl (stored_setProgress_other hne _ _)
  · by_cases hg : ∃ v, id = .gate v
    · obtain ⟨v, rfl⟩ := hg
      by_cases hv : v = s
      · exact .inr (hv ▸ dispatch_notHeld v (dropCompare (.gate v) st))
      · refine .inl (.trans ?_ hd)
        show (dispatch v _).position.stored u = _
        cases hr : (dropCompare (.gate v) st).record v with
        | none => unfold dispatch; rw [hr]
        | some r => rw [(dispatch_dispatched hr).stored u s hu, if_neg (Ne.symm hv)]
    · exact .inl (((compareEffect_calm (fun v hv => hg ⟨v, hv⟩) _).stored u hc).trans hd)

/-- Where a record's empty, decision or gate compare is due, the taking of every due compare brings about what the taking of
this one does, if the other takings keep that and a record that has left the table needs no more. -/
theorem takeAllDue_takes {u : CompareId} {s : Seq} (hu : CompareId.subject u = some s) (hc : CompareId.ofCreation u = true)
    {R : Station → Prop} (hkeep : ∀ id x, R x → R (takeCompare id x)) (hself : ∀ x, R (takeCompare u x))
    (hgone : ∀ x : Station, s ∉ x.table.map (·.seq) → R x) (order : List CompareId) {st : Station}
    (h : st.position.isDue u = true) : R (takeAllDue order st) := by
  have hP : (takeAllDue order st).position.isDue u = true ∨ R (takeAllDue order st) := by
    refine takeAllDue_induction (P := fun x => x.position.isDue u = true ∨ R x) (fun id x _ hx => ?_) order (.inl h)
    rcases hx with hx | hx
    · by_cases hid : u = id
      · exact .inr (hid ▸ hself x)
      · rcases takeCompare_stored hu hc hid x with hs | hs
        · rw [isDue_eq_stored] at hx ⊢
          exact .inl (hs ▸ hx)
        · exact .inr (hgone _ hs)
    · exact .inr (hkeep id x hx)
  rcases hP with hP | hP
  · obtain ⟨c, hm, _, hd⟩ := exists_of_isDue hP
    exact absurd hd (takeAllDue_noneDue order st c hm)
  · exact hP

theorem takeAllDue_dispatches {s : Seq} (order : List CompareId) {st : Station} (h : st.position.isDue (.gate s) = true) :
    s ∉ (takeAllDue order st).table.map (·.seq) := by
  refine takeAllDue_takes (R := fun x => s ∉ x.table.map (·.seq)) rfl rfl (fun id x => (takeCompare_keepsFrozen id x).notHeld)
    (fun x => ?_) (fun _ => id) order h
  rw [takeCompare_effect (by simp [CompareId.owner])]
  exact dispatch_notHeld s _

theorem takeAllDue_freezes {s : Seq} (order : List CompareId) {st : Station} (h : st.position.isDue (.decision s) = true) :
    (takeAllDue order st).allFrozen s := by
  refine takeAllDue_takes (R := Station.allFrozen s) rfl rfl (fun id x => (takeCompare_keepsFrozen id x).allFrozen)
    (fun x => ?_) (fun _ => allFrozen_of_notHeld) order h
  rw [takeCompare_effect (by simp [CompareId.owner])]
  exact takeDecision_allFrozen s _

/-- A lone due compare of the frozen Edge Unit is kept, and the Edge Unit stays as it is (R51). -/
theorem takeAllDue_keepsLone (order : List CompareId) {c : Compare} {st : Station} (hc : st.position.compares = [{ c with progress := .due }])
    (ho : CompareId.owner c.id = .edge) (hf : st.edge.frozen = true) :
    (takeAllDue order st).position.compares = [{ c with progress := .kept }] ∧ (takeAllDue order st).edge = st.edge := by
  have hP := takeAllDue_induction (P := fun x => (x.position.compares = [{ c with progress := .due }] ∨
    x.position.compares = [{ c with progress := .kept }]) ∧ x.edge = st.edge) (fun id x hd hx => ?_) order ⟨.inl hc, rfl⟩
  · obtain ⟨h | h, he⟩ := hP
    · exact absurd rfl (takeAllDue_noneDue order st { c with progress := .due } (by rw [h]; exact List.mem_cons_self))
    · exact ⟨h, he⟩
  · obtain ⟨hx, he⟩ := hx
    obtain ⟨y, hy, hid, hyd⟩ := exists_of_isDue hd
    rcases hx with hx | hx <;> rw [hx, List.mem_singleton] at hy <;> subst hy
    · have hid' : c.id = id := hid
      have hk : takeCompare id x = { x with position := x.position.setProgress id .kept } :=
        if_pos ⟨hid' ▸ ho, by rw [he]; exact hf⟩
      rw [hk]
      refine ⟨.inr ?_, he⟩
      simp [PositionUnit.setProgress, hx, hid']
    · cases hyd

/-! ## The compares at the alignment (R37) -/

/-- The compare lies before the alignment by `d` ahead of the counter, and after it at the counter or behind. -/
def carriedBy (d : Pos) (st : Station) (c : Compare) : Prop := c.progress = .waiting ∧ atOrAfter st.position.counter c.pos = false ∧
  atOrAfter (st.position.counter + d) c.pos = true

/-- The station as the alignment has made the carried compares due. -/
def Station.crossed (d : Pos) (st : Station) : Station :=
  { headTakes (aligned d st) with position := (aligned d st).position.markCrossed st.position.counter }

theorem applyAlignment_forward {d : Pos} (h0 : d ≠ 0) (h : d.toNat < 2147483648) (order : List CompareId) (st : Station) :
    applyAlignment d order st = takeAllDue order (st.crossed d) := by
  rw [applyAlignment_eq, if_pos ⟨h0, h⟩, headTakes_position]; rfl

theorem applyAlignment_backward {d : Pos} (h : d = 0 ∨ 2147483648 ≤ d.toNat) (order : List CompareId) (st : Station) :
    applyAlignment d order st = headTakes (aligned d st) := applyAlignment_none order (h.imp_right .inl)

theorem crossed_mem {d : Pos} {st : Station} {c : Compare} (hc : c ∈ st.position.compares) (h : carriedBy d st c) :
    (st.crossed d).position.isDue c.id = true := by
  refine isDue_of_mem (c := { c with progress := .due }) (List.mem_map.2 ⟨c, hc, ?_⟩) rfl
  exact if_pos h

theorem crossed_lone {d : Pos} {st : Station} {c : Compare} (hc : st.position.compares = [c]) (h : carriedBy d st c) :
    (st.crossed d).position.compares = [{ c with progress := .due }] := by
  show (st.position.compares.map _) = _
  rw [hc, List.map_singleton]
  exact congrArg (fun x => [x]) (if_pos h)

theorem applyAgreement_calm (agreed : Bool) (st : Station) : Calm st (applyAgreement agreed st) := by
  unfold applyAgreement
  split
  · split
    · exact .refl st
    · rw [enterRunning_eq]
      split
      · exact .trans (b := runningStarted st) (.ofSame rfl rfl) ((enterBlanked_calm _).trans (headTakes_calm _))
      · exact .ofSame rfl rfl
  · exact .ofSame rfl rfl

/-- An entry to RUNNING touches the edge compares alone. -/
theorem applyAgreement_stored {id : CompareId} (h : CompareId.owner id ≠ .edge) (agreed : Bool) (st : Station) :
    (applyAgreement agreed st).position.stored id = st.position.stored id := by
  have hne : ∀ x, CompareId.owner x = .edge → id ≠ x := by rintro x hx rfl; exact h hx
  unfold applyAgreement
  split
  · split
    · rfl
    · rw [enterRunning_eq]
      split
      · rw [headTakes_position, enterBlanked_stored (hne _ rfl) (hne _ rfl) (hne _ rfl)]; rfl
      · rfl
  · rfl

theorem applyAgreement_running (agreed : Bool) {st : Station} (h : st.start.node = .running) :
    (applyAgreement agreed st).position = st.position ∧ (applyAgreement agreed st).edge = st.edge := by
  unfold applyAgreement
  rw [if_pos h]
  split <;> exact ⟨rfl, rfl⟩

theorem settleRoll_calm (before after : Eight (Option Nat)) (readings : Eight (Reading RollEntry)) (st : Station) :
    Calm st (settleRoll before after readings st) := by
  have hserved : Calm st (rollServed before after readings st) := by
    unfold rollServed
    simp only
    split <;> exact .ofSame rfl rfl
  rw [settleRoll_eq]
  refine .trans (.trans (hserved.trans ?_) (foldl_calm _ (fun x s => completeRecord_calm false s x) _ _)) (withRequests_calm _ _)
  refine .ofMap rfl _ rfl fun r => ?_
  obtain ⟨h1, _, _, _, _, h2⟩ := peersChanged_keeps (joins before after readings) (leaves before after) r
  split
  · exact ⟨h1, fun h => h2.trans h⟩
  · exact ⟨rfl, id⟩

/-- Settles O41. -/
theorem alignmentTakesCarriedCompares : Obligations.AlignmentTakesCarriedCompares := by
  intro slots order r entry alignment sequence capture st q hl hc he h0 h1 hcap d carried
  set readings := rollReadings st.start.index entry slots
  set known := rollKnown alignment sequence slots entry order st with hknown
  set x := applyAgreement (agreement entry.digest readings) known with hx
  set t := settleRoll st.engine.peers (newPeers st.engine.peers readings) readings x with ht
  set z := applyAlignment d order (toGuard st) with hz
  have hd : BitVec.ofNat 32 alignment - st.position.capture.getD 0 = d := by rw [hcap]; rfl
  have hkz : known = { z with engine := known.engine } := by rw [hknown, rollKnown, hd]
  have hcalm : Calm z t := by
    refine .trans (b := known) ?_ ((applyAgreement_calm _ known).trans (settleRoll_calm _ _ _ x))
    rw [hkz]
    exact .ofSame rfl rfl
  have htx : t.position = x.position ∧ t.edge = x.edge :=
    ⟨(settleRoll_settled _ _ _ x).position, (settleRoll_settled _ _ _ x).edge⟩
  refine ⟨t, ?_, fun hd0 hd1 => ?_, fun hback c hm hedge => ?_⟩
  · rw [exec_live _ q hl]
    simp only [commandEffect, completeRoll_eq hc he h0 h1]
    rfl
  · have hforward : z = takeAllDue order ((toGuard st).crossed d) := applyAlignment_forward hd0 hd1 order _
    have hdue : ∀ c ∈ st.position.compares, carried c → ((toGuard st).crossed d).position.isDue c.id = true :=
      fun c hm hcarried => crossed_mem (st := toGuard st) hm hcarried
    refine ⟨hcalm.noneDue.none ?_, fun y _ ⟨c, hm, hid, hcarried⟩ => ?_, fun y _ ⟨c, hm, hid, hcarried⟩ b hb => ?_,
      fun c hlone hedge hcarried hfrozen hrun => ?_⟩
    · rw [hforward]; exact takeAllDue_noneDue order _
    · have hgone : y.seq ∉ z.table.map (·.seq) := by
        rw [hforward]; exact takeAllDue_dispatches order (hid ▸ hdue c hm hcarried)
      exact record_none_of_not_mem (hcalm.frozen.notHeld hgone)
    · have hfrozen : z.allFrozen y.seq := by
        rw [hforward]; exact takeAllDue_freezes order (hid ▸ hdue c hm hcarried)
      exact hcalm.frozen.allFrozen hfrozen b (record_mem hb) (record_seq hb)
    · have hedge0 : ((toGuard st).crossed d).edge = st.edge := headTakes_edge _
      obtain ⟨k1, k2⟩ := takeAllDue_keepsLone order (crossed_lone (st := toGuard st) hlone hcarried) hedge
        (by rw [hedge0]; exact hfrozen)
      rw [← hforward] at k1 k2
      have hnode : known.start.node = .running := by
        rw [hkz]
        show z.start.node = _
        rw [(applyAlignment_frame d order (toGuard st)).start]; exact hrun
      obtain ⟨e1, e2⟩ := applyAgreement_running (agreement entry.digest readings) hnode
      have hkp : known.position = z.position ∧ known.edge = z.edge := by rw [hkz]; exact ⟨rfl, rfl⟩
      rw [htx.1, htx.2, e1, e2, hkp.1, hkp.2, k1, k2, hedge0]
      exact ⟨rfl, rfl⟩
  · have hzp : z.position.compares = st.position.compares := by
      rw [hz, applyAlignment_backward hback, headTakes_position]; rfl
    have hmem : c ∈ x.position.stored c.id := by
      rw [hx, applyAgreement_stored hedge, hkz]
      exact List.mem_filter.2 ⟨show c ∈ z.position.compares from hzp ▸ hm, by simp⟩
    rw [htx.1]
    exact (List.mem_filter.1 hmem).1

end Sys2Proof.Machine

namespace Sys2Proof.Machine

/-! ## Report frames and slots as a receiver reads them (R54, R55, R101, R193) -/

/-- A frame reads back as its report, but for across-start above across-end. -/
theorem readFrame_frameBits (r : Report) :
    readFrame (frameBits r) = if r.acrossEnd < r.acrossStart then .invalid else .report r := by
  have hlen : (frameBits r).length = Config.reportFrameLength := frameBits_length r
  simp only [readFrame, if_pos hlen]
  simp only [frameBits, List.append_assoc, getBits_putBits, getBits_putBits_all, defectClass_ofCode_code]

/-- A frame is broken exactly when it has another length than 67 bits. -/
theorem readFrame_broken_iff (bits : List Bool) : readFrame bits = .broken ↔ bits.length ≠ 67 := by
  unfold readFrame
  split
  · next hlen =>
    have hnot : ¬ bits.length ≠ 67 := fun h => h hlen
    simp only [hnot, iff_false]
    split
    · exact FrameResult.noConfusion
    · split <;> exact FrameResult.noConfusion
  · next hlen => exact iff_of_true rfl hlen

/-- A frame of the right length whose class code names no class is invalid. -/
theorem readFrame_of_noClass {code : BitVec 3} (hcode : DefectClass.ofCode code = none) {rest : List Bool}
    (hrest : rest.length = 64) : readFrame (putBits code ++ rest) = .invalid := by
  have hlen : (putBits code ++ rest).length = Config.reportFrameLength := by
    rw [List.length_append, putBits_length, hrest]; rfl
  simp only [readFrame, if_pos hlen, getBits_putBits, hcode]

theorem putBits_allOnes (w : Nat) : putBits (BitVec.allOnes w) = List.replicate w true := by
  have hones : ∀ k ≤ w, natToBits k (2 ^ w - 1) = List.replicate k true := by
    intro k
    induction k with
    | zero => exact fun _ => rfl
    | succ k ih =>
      intro hk
      rw [natToBits, ih (by omega), Nat.testBit_two_pow_sub_one, decide_eq_true (show k < w from hk),
        List.replicate_succ]
  rw [putBits, BitVec.toNat_allOnes, hones w le_rfl]

/-- A slot of released cells reads SILENT. -/
theorem readSlot_released {α : Type} (n : Nat) (parse : List Bool → Option α) (w : Nat) :
    readSlot n parse (putBits (BitVec.allOnes w)) = .silent := by
  rw [putBits_allOnes]
  cases w with
  | zero => rfl
  | succ w => simp [List.replicate_succ, readSlot]

theorem slotBits_length (entry : List Bool) : (slotBits entry).length = entry.length + 17 := by
  simp [slotBits, putBits_length]

theorem rollEntry_bits_length (e : RollEntry) : e.bits.length = 35 := by
  simp [RollEntry.bits, putBits_length]

theorem rollEntry_parse_bits (e : RollEntry) : RollEntry.parse e.bits = some e := by
  simp only [RollEntry.parse, RollEntry.bits, List.append_assoc, List.singleton_append, getBits_putBits, getBits_one,
    getBits_putBits_all, rollNode_ofCode_code, Option.map_some, BitVec.msb_ofBool]

theorem readRollSlot_cells (e : RollEntry) : readRollSlot e.cells = .entry e := by
  have hlen : (slotBits e.bits).length = 52 := by rw [slotBits_length, rollEntry_bits_length]
  unfold readRollSlot RollEntry.cells
  rw [putBits_ofBits _ hlen]
  exact readSlot_slotBits 35 _ _ _ (rollEntry_bits_length e) (rollEntry_parse_bits e)

theorem readTallySlot_cells (e : TallyEntry) (h : ∀ s, e = .closed s → s.boundary.length ≤ 4) :
    readTallySlot e.cells = .entry e := by
  have hlen : (slotBits e.bits).length = 448 := by rw [slotBits_length, tallyEntry_bits_length]
  unfold readTallySlot TallyEntry.cells
  rw [putBits_ofBits _ hlen]
  exact readSlot_slotBits 431 _ _ _ (tallyEntry_bits_length e) (tallyEntry_parse_bits e h)

/-- Settles O55, each kind of frame and slot by its own read-back lemma. -/
theorem framesAndSlotsReadBackAsSent : Obligations.FramesAndSlotsReadBackAsSent := by
  refine ⟨fun r h => ?_, fun r h => ?_, fun bits => (readFrame_broken_iff bits).symm, fun rest hrest => ⟨?_, ?_⟩,
    readRollSlot_cells, readTallySlot_cells, readSlot_released 35 RollEntry.parse 52,
    readSlot_released 431 TallyEntry.parse 448⟩
  · rw [readFrame_frameBits, if_neg (BitVec.not_lt.2 h)]
  · rw [readFrame_frameBits, if_pos h]
  · exact readFrame_of_noClass rfl hrest
  · exact readFrame_of_noClass rfl hrest

end Sys2Proof.Machine

namespace Sys2Proof.Machine

/-! ## What a folded report changes (R69 to R72) -/

theorem satAdd_toNat {w : Nat} (a : BitVec w) (b : Nat) : (satAdd a b).toNat = min (2 ^ w - 1) (a.toNat + b) := by
  have hpos : 0 < 2 ^ w := Nat.two_pow_pos w
  rw [satAdd, BitVec.toNat_ofNat, Nat.mod_eq_of_lt (by omega)]

theorem PerClass.get_set {α : Type} (p : PerClass α) (c d : DefectClass) (v : α) :
    (p.set c v).get d = if d = c then v else p.get d := by
  cases c <;> cases d <;> rfl

/-- R69: the count, the largest extent and the aggregate of a class after one more report. -/
theorem ClassFigures.fold_toNat (f : ClassFigures) (extent : BitVec 12) :
    (f.fold extent).count.toNat = min 255 (f.count.toNat + 1) ∧
      (f.fold extent).largest.toNat = max f.largest.toNat extent.toNat ∧
      (f.fold extent).aggregate.toNat = min 65535 (f.aggregate.toNat + extent.toNat) := by
  refine ⟨satAdd_toNat f.count 1, ?_, satAdd_toNat f.aggregate extent.toNat⟩
  simp only [ClassFigures.fold, BitVec.lt_def]
  split <;> omega

/-- R70: a report that touches neither edge has no side. -/
theorem reportSide_none {bandWidth : Nat} {r : Report} (hl : decide (r.acrossStart = 0) = false)
    (hr : decide (bandWidth - 1 ≤ r.acrossEnd.toNat) = false) : reportSide bandWidth r = none := by
  unfold reportSide
  rw [hr, beq_eq_decide, hl]

/-- R70: the side of a report that touches an edge. -/
theorem reportSide_some {bandWidth : Nat} {r : Report}
    (h : decide (r.acrossStart = 0) = true ∨ decide (bandWidth - 1 ≤ r.acrossEnd.toNat) = true) :
    reportSide bandWidth r = some (
      if decide (r.acrossStart = 0) && decide (bandWidth - 1 ≤ r.acrossEnd.toNat) then .both
      else if decide (r.acrossStart = 0) then .left else .right) := by
  unfold reportSide
  rw [beq_eq_decide]
  rcases h with h | h <;> rw [h]
  · cases decide (bandWidth - 1 ≤ r.acrossEnd.toNat) <;> rfl
  · cases decide (r.acrossStart = 0) <;> rfl

section
variable (sh : Shared) (refPos p : Pos) (rep : Report) (s : Summary)

theorem Summary.fold_figures :
    (s.fold sh refPos p rep).figures = s.figures.set rep.cls ((s.figures.get rep.cls).fold rep.extent) := by
  unfold Summary.fold
  cases reportSide sh.bandWidth.toNat rep with
  | none => rfl
  | some side => dsimp only; split <;> rfl

theorem Summary.fold_moisture : (s.fold sh refPos p rep).moisture = s.moisture := by
  unfold Summary.fold
  cases reportSide sh.bandWidth.toNat rep with
  | none => rfl
  | some side => dsimp only; split <;> rfl

variable {sh rep s}

/-- R70: a report with no side leaves the boundary list and the marker. -/
theorem Summary.fold_noSide (h : reportSide sh.bandWidth.toNat rep = none) :
    (s.fold sh refPos p rep).boundary = s.boundary ∧ (s.fold sh refPos p rep).overflow = s.overflow := by
  simp only [Summary.fold, h, and_self]

/-- R72: with four records held the list is kept and the marker set. -/
theorem Summary.fold_full {side : Side} (h : reportSide sh.bandWidth.toNat rep = some side)
    (hfull : 4 ≤ s.boundary.length) :
    (s.fold sh refPos p rep).boundary = s.boundary ∧ (s.fold sh refPos p rep).overflow = true := by
  have hnot : ¬ s.boundary.length < Config.boundaryCapacity := Nat.not_lt.2 hfull
  simp only [Summary.fold, h, if_neg hnot, and_self]

/-- R71: with a place left the boundary record of the report joins the list. -/
theorem Summary.fold_joins {side : Side} (h : reportSide sh.bandWidth.toNat rep = some side)
    (hroom : s.boundary.length < 4) :
    (s.fold sh refPos p rep).boundary = s.boundary ++ [boundaryOf sh refPos p side rep] ∧
      (s.fold sh refPos p rep).overflow = s.overflow := by
  have hroom' : s.boundary.length < Config.boundaryCapacity := hroom
  simp only [Summary.fold, h, if_pos hroom', and_self]

end

theorem boundaryOf_alongStart (sh : Shared) (refPos p : Pos) (side : Side) (rep : Report) :
    (boundaryOf sh refPos p side rep).alongStart.toNat =
      if atOrAfter p refPos then min 65535 (p - refPos).toNat else 0 := by
  simp only [boundaryOf]
  split
  · rw [BitVec.toNat_ofNat, Nat.mod_eq_of_lt (by omega)]
  · rfl

theorem boundaryOf_alongEnd (sh : Shared) (refPos p : Pos) (side : Side) (rep : Report) :
    (boundaryOf sh refPos p side rep).alongEnd.toNat =
      min 65535 ((boundaryOf sh refPos p side rep).alongStart.toNat + rep.alongLength.toNat * sh.scanPitch.toNat) :=
  satAdd_toNat (boundaryOf sh refPos p side rep).alongStart _

/-- Settles O26: the figures field by field, and the boundary list by side and room (R70 to R72). -/
theorem foldedReportUpdatesSummary : Obligations.FoldedReportUpdatesSummary := by
  refine ⟨fun sh refPos p rep s c => ⟨fun hne => ?_, fun heq => ?_⟩, fun sh refPos p rep s =>
    ⟨⟨Summary.fold_moisture sh refPos p rep s, (fold_flags sh refPos p rep s).2, (fold_flags sh refPos p rep s).1⟩,
      fun hl hr => Summary.fold_noSide refPos p (reportSide_none hl hr),
      fun hside hfull => Summary.fold_full refPos p (reportSide_some hside) hfull, fun hside hroom => ?_⟩⟩
  · rw [Summary.fold_figures, PerClass.get_set, if_neg hne]
  · subst heq
    rw [Summary.fold_figures, PerClass.get_set, if_pos rfl]
    exact ClassFigures.fold_toNat _ _
  · obtain ⟨hlist, hmarker⟩ := Summary.fold_joins refPos p (reportSide_some hside) hroom
    exact ⟨_, hlist, hmarker, rfl, rfl, rfl, boundaryOf_alongStart .., boundaryOf_alongEnd ..⟩

end Sys2Proof.Machine

namespace Sys2Proof.Machine

/-! ## One head take, by the first case that applies (R60 to R64) -/

/-- R61: a report 32 768 lines or more back is stale. -/
theorem mappedPosition_stale {p : PositionUnit} {pitch : Byte} {line : BitVec 16}
    (h : 32768 ≤ (p.triggerCount - line).toNat) : mappedPosition p pitch line = none := by
  rw [mappedPosition, if_neg (Nat.not_lt.2 h)]

theorem mappedPosition_fresh {p : PositionUnit} {pitch : Byte} {line : BitVec 16}
    (h : (p.triggerCount - line).toNat < 32768) : mappedPosition p pitch line =
      some (p.triggerPos - BitVec.ofNat 32 ((p.triggerCount - line).toNat * pitch.toNat)) := by
  rw [mappedPosition, if_pos h]

section
variable {st : Station} {rep : Report} {rest : List Report} {p : Pos} {r : Record}

theorem dropHead_cons (hf : st.scan.fifo = rep :: rest) :
    dropHead st = { st with scan := { st.scan with fifo := rest, head := none } } := by
  rw [dropHead, hf, List.tail_cons]

theorem headWaits_eq (st : Station) (p : Pos) : headWaits st p = st.edge.pending.any fun e => atOrAfter p e.rise := by
  unfold headWaits
  cases st.edge.pending <;> rfl

/-- R64, case 1: an OPEN band that has the position takes the report. -/
theorem assignee_opened
    (h : (st.table.find? fun r => r.band.state == .opened && atOrAfter p (r.band.lead.getD 0)) = some r) :
    assignee st p = some r := by
  simp only [assignee, h]

/-- R64, case 2: where no OPEN band takes it, the first CLOSING band that has the position does. -/
theorem assignee_notOpened
    (h : (st.table.find? fun r => r.band.state == .opened && atOrAfter p (r.band.lead.getD 0)) = none) :
    assignee st p = st.table.find? fun r =>
      r.band.state == .closing && inRange p (r.band.lead.getD 0) (r.band.trail.getD 0) := by
  simp only [assignee, h]

theorem headTake_stale (hf : st.scan.fifo = rep :: rest)
    (hp : mappedPosition st.position st.shared.scanPitch rep.line = none) : headTake st = (dropHead st, true) := by
  simp only [headTake, hf, hp]

theorem headTake_assigned (hf : st.scan.fifo = rep :: rest)
    (hp : mappedPosition st.position st.shared.scanPitch rep.line = some p) (ha : assignee st p = some r) :
    headTake st =
      (dropHead (updateBand r.seq (fun b => { b with summary := b.summary.fold st.shared r.refPos p rep }) st), true) := by
  simp only [headTake, hf, hp, ha]

theorem headTake_waits (hf : st.scan.fifo = rep :: rest)
    (hp : mappedPosition st.position st.shared.scanPitch rep.line = some p) (ha : assignee st p = none)
    (hw : headWaits st p = true) : headTake st = ({ st with scan := { st.scan with head := some p } }, false) := by
  simp only [headTake, hf, hp, ha, hw, if_true]

theorem headTake_unassigned (hf : st.scan.fifo = rep :: rest)
    (hp : mappedPosition st.position st.shared.scanPitch rep.line = some p) (ha : assignee st p = none)
    (hw : headWaits st p = false) : headTake st = (dropHead (markLate p st), true) := by
  simp only [headTake, hf, hp, ha, hw, Bool.false_eq_true, if_false]

end

/-- Settles O25, by the cases of R64: the stale report, the assigned one, the one that waits, and the one nobody takes. -/
theorem headTakeFollowsAssignmentRule : Obligations.HeadTakeFollowsAssignmentRule := by
  intro rep rest st hf difference p left isOpen isClosing folded waits
  have hassigned : ∀ r, difference < 32768 → assignee st p = some r →
      headTake st = ({ st with scan := left, table := folded r.seq r.refPos }, true) := by
    intro r hd ha
    rw [headTake_assigned hf (mappedPosition_fresh hd) ha, dropHead_cons (st := updateBand r.seq _ st) hf]
    rfl
  refine ⟨fun hd => ?_, fun hd => ⟨fun r ho => hassigned r hd (assignee_opened ho),
    fun r ho hc => hassigned r hd ((assignee_notOpened ho).trans hc), fun ho hc hw => ?_, fun ho hc hw => ?_⟩⟩
  · rw [headTake_stale hf (mappedPosition_stale hd), dropHead_cons hf]
  · exact headTake_waits hf (mappedPosition_fresh hd) ((assignee_notOpened ho).trans hc) ((headWaits_eq st p).trans hw)
  · rw [headTake_unassigned hf (mappedPosition_fresh hd) ((assignee_notOpened ho).trans hc)
      ((headWaits_eq st p).trans hw), dropHead_cons (st := markLate p st) hf]
    rfl

end Sys2Proof.Machine

namespace Sys2Proof.Machine

/-! ## The chain of head takes where no band is CLOSING (R62) -/

/-- With no CLOSING band the closing tests leave the station as it is. -/
theorem testAllClosing_of_noneClosing {st : Station} (h : ∀ x ∈ st.table, x.band.state ≠ .closing) :
    testAllClosing st = st := by
  have hone : ∀ s, testClosing s st = st := by
    intro s
    unfold testClosing
    cases hr : st.record s with
    | none => rfl
    | some r => exact if_neg fun hc => h r (record_mem hr) (closingHolds_iff hc).1
  unfold testAllClosing
  induction st.table.map (·.seq) with
  | nil => rfl
  | cons s seqs ih => rw [List.foldl_cons, hone, ih]

/-- Every record after head takes and closings comes from one before. -/
theorem recordSteps_origin {before after : List Record} (h : List.Forall₂ RecordStep before after) {x : Record}
    (hx : x ∈ after) : ∃ r ∈ before, RecordStep r x := by
  induction h with
  | nil => cases hx
  | @cons r y _ _ hstep _ ih =>
    rcases List.mem_cons.1 hx with rfl | hx
    · exact ⟨r, List.mem_cons_self .., hstep⟩
    · obtain ⟨z, hz, hzx⟩ := ih hx
      exact ⟨z, List.mem_cons_of_mem _ hz, hzx⟩

/-- A head take makes no band CLOSING. -/
theorem headTake_noneClosing {st : Station} (h : ∀ x ∈ st.table, x.band.state ≠ .closing) :
    ∀ x ∈ (headTake st).1.table, x.band.state ≠ .closing := by
  intro x hx hclosing
  obtain ⟨r, hr, hstep⟩ := recordSteps_origin (headTake_takeStep st).records hx
  rcases hstep.state with hsame | ⟨_, hclosed⟩
  · exact h r hr (hsame ▸ hclosing)
  · rw [hclosing] at hclosed; cases hclosed

/-- With no CLOSING band another take follows exactly where the head report left. -/
theorem headLoop_of_noneClosing {st : Station} (h : ∀ x ∈ st.table, x.band.state ≠ .closing) (n : Nat) :
    headLoop (n + 1) st = if (headTake st).2 then headLoop n (headTake st).1 else (headTake st).1 := by
  simp only [headLoop, testAllClosing_of_noneClosing (headTake_noneClosing h), Nat.lt_irrefl, decide_false, Bool.or_false]

/-- A head report that leaves takes the head state with it. -/
theorem headTake_left {st : Station} (h : (headTake st).2 = true) :
    (headTake st).1.scan = { st.scan with fifo := st.scan.fifo.tail, head := none } := by
  cases hf : st.scan.fifo with
  | nil => simp only [headTake, hf, Bool.false_eq_true] at h
  | cons rep rest =>
    cases hp : mappedPosition st.position st.shared.scanPitch rep.line with
    | none => rw [headTake_stale hf hp, dropHead, hf]
    | some p =>
      cases ha : assignee st p with
      | some r => rw [headTake_assigned hf hp ha, ← hf]; rfl
      | none =>
        cases hw : headWaits st p with
        | true => rw [headTake_waits hf hp ha hw] at h; cases h
        | false => rw [headTake_unassigned hf hp ha hw, ← hf]; rfl

/-- A head take on an empty FIFO with head state EMPTY does nothing. -/
theorem headTake_idle {st : Station} (hf : st.scan.fifo = []) (hh : st.scan.head = none) :
    headTake st = (st, false) := by
  have hsame : ({ st with scan := { st.scan with head := none } } : Station) = st := by rw [← hh]
  unfold headTake
  split
  · rw [hsame]
  · next hcons => rw [hf] at hcons; cases hcons

/-- With one report held and no band CLOSING the chain is one take. -/
theorem headTakes_one {st : Station} {r : Report} (hf : st.scan.fifo = [r])
    (h : ∀ x ∈ st.table, x.band.state ≠ .closing) : headTakes st = (headTake st).1 := by
  have hbound : st.scan.fifo.length + st.table.length + 1 = st.table.length + 1 + 1 := by
    rw [hf, List.length_singleton, Nat.add_comm 1]
  rw [headTakes, hbound, headLoop_of_noneClosing h]
  cases hleft : (headTake st).2 with
  | false => rfl
  | true =>
    have hscan := headTake_left hleft
    have hidle : headTake (headTake st).1 = ((headTake st).1, false) :=
      headTake_idle (by rw [hscan, hf]; rfl) (by rw [hscan])
    rw [if_pos rfl, headLoop_of_noneClosing (headTake_noneClosing h), hidle]
    rfl

/-! ## Scan frames (R53 to R59) -/

/-- A command that reset does not hold off has its effect on every station. -/
theorem exec_takenInReset {c : Instr} (h : takenInReset c = true) (st : Station) (q : List Instr) :
    exec c ⟨st, q⟩ = .next ⟨commandEffect c st, q⟩ := by
  rw [exec_effect, if_pos h, always]

section
variable {st : Station} {bits : List Bool}

/-- R54, R55: the frame is over, and a broken or invalid one has raised SCAN_FAULT. -/
theorem frameEnd_faulty (ht : st.scan.frame = .taken) (hb : readFrame bits = .broken ∨ readFrame bits = .invalid) :
    frameEnd bits st = raiseCause .scanFault { st with scan := { st.scan with frame := .released } } := by
  rcases hb with hb | hb <;> simp only [frameEnd, ht, hb]

theorem frameEnd_report {r : Report} (ht : st.scan.frame = .taken) (hb : readFrame bits = .report r) :
    frameEnd bits st = reportArrives r { st with scan := { st.scan with frame := .released } } := by
  simp only [frameEnd, ht, hb]

theorem reportArrives_empty (r : Report) (hf : st.scan.fifo = []) :
    reportArrives r st = headTakes { st with scan := { st.scan with fifo := st.scan.fifo ++ [r] } } := by
  have hroom : st.scan.fifo.length < Config.scanFifoCapacity := by rw [hf]; decide
  have hempty : st.scan.fifo.isEmpty = true := List.isEmpty_iff.2 hf
  simp only [reportArrives, if_pos hroom, hempty, if_true]

theorem reportArrives_queued (r : Report) (hpos : 0 < st.scan.fifo.length) (hroom : st.scan.fifo.length < 16) :
    reportArrives r st = { st with scan := { st.scan with fifo := st.scan.fifo ++ [r] } } := by
  have hroom' : st.scan.fifo.length < Config.scanFifoCapacity := hroom
  have hheld : st.scan.fifo.isEmpty = false := List.isEmpty_eq_false_iff.2 (List.ne_nil_of_length_pos hpos)
  simp only [reportArrives, if_pos hroom', hheld, Bool.false_eq_true, if_false]

theorem reportArrives_full (r : Report) (hfull : 16 ≤ st.scan.fifo.length) : reportArrives r st = overrun st :=
  if_neg (Nat.not_lt.2 hfull)

end

/-- Settles O24, by the level of scan frame, what the frame reads as, and the room in the FIFO. -/
theorem scanFrameTakenDiscardedOrQueued : Obligations.ScanFrameTakenDiscardedOrQueued := by
  refine ⟨fun bits st q => ⟨fun hframe => ?_, fun hframe => ?_, fun hframe hbits => ?_⟩,
    fun bits r st q hframe hbits => ⟨fun hf => ⟨?_, fun hclosing => ?_⟩, fun hpos hroom => ?_, fun hfull => ?_⟩⟩
  · rw [exec_takenInReset rfl]
    simp only [commandEffect, frameDriven, if_pos hframe]
  · rw [exec_takenInReset rfl]
    simp only [commandEffect, frameEnd, hframe]
  · rw [exec_takenInReset rfl, commandEffect, frameEnd_faulty hframe hbits]
    rfl
  · rw [exec_takenInReset rfl, commandEffect, (frameEnd_report hframe hbits).trans (reportArrives_empty r hf)]
  · exact headTakes_one (by simp only [hf]; rfl) hclosing
  · rw [exec_takenInReset rfl, commandEffect,
      (frameEnd_report hframe hbits).trans (reportArrives_queued r hpos hroom)]
  · rw [exec_takenInReset rfl, commandEffect, (frameEnd_report hframe hbits).trans (reportArrives_full r hfull)]
    rfl

end Sys2Proof.Machine

namespace Sys2Proof.Machine

/-! ## The excite output by probe state (R74) -/

theorem ProbeState.excite_released_iff (p : ProbeState) : p.excite = .released ↔ p = .off ∨ p = .parked := by
  cases p <;> simp [ProbeState.excite]

theorem ProbeState.excite_bias_iff (p : ProbeState) : p.excite = .bias ↔ p = .warming ∨ p = .ready := by
  cases p <;> simp [ProbeState.excite]

theorem ProbeState.excite_excitation_iff (p : ProbeState) : p.excite = .excitation ↔ p = .sampling := by
  cases p <;> simp [ProbeState.excite]

/-- Reset not holding the station, the excite output follows the probe state alone. -/
theorem probeExcite_live {st : Station} (h : st.heldInReset = false) : st.probeExcite = st.probe.state.excite := by
  simp only [Station.probeExcite, h, Bool.false_eq_true, if_false]

/-! ## The ends of the probe's times (R77, R78, R82) -/

theorem ProbeUnit.settleEnd_settling {p : ProbeUnit} (h : p.timing = .settle) :
    p.settleEnd = { p with timing := .conversion } := if_pos h

theorem ProbeUnit.warmUpExpiry_warming {p : ProbeUnit} (h : p.state = .warming) (parkTime : Byte) :
    p.warmUpExpiry parkTime = { p with state := .ready, warmTimer := none, parkTimer := some parkTime } := if_pos h

theorem ProbeUnit.parkExpiry_ready {p : ProbeUnit} (h : p.state = .ready) :
    p.parkExpiry = { p with state := .parked, parkTimer := none } := if_pos h

/-- Settles O28: the output by the three levels of R74, then the three times that end. -/
theorem probeTimersMoveProbe : Obligations.ProbeTimersMoveProbe := by
  intro st q hl
  rw [probeExcite_live hl]
  refine ⟨st.probe.state.excite_released_iff, st.probe.state.excite_bias_iff, st.probe.state.excite_excitation_iff,
    fun hsettle => ?_, fun hwarming => ?_, fun hready => ?_⟩
  · simp only [exec_live .settleEnd q hl, commandEffect, ProbeUnit.settleEnd_settling hsettle]
  · simp only [exec_live .warmUpExpiry q hl, commandEffect, ProbeUnit.warmUpExpiry_warming hwarming]
  · simp only [exec_live .parkExpiry q hl, commandEffect, ProbeUnit.parkExpiry_ready hready]

end Sys2Proof.Machine

namespace Sys2Proof.Machine

/-! ## Positions beyond a lead, against the counter (R80) -/

/-- With the counter less than half the range past the lead, a position less than half the range beyond the counter lies after
it exactly where its distance from the lead is the greater. -/
theorem isAfter_lead_add {counter lead : Pos} {n : Nat} (hd : (counter - lead).toNat < 2147483648)
    (hn : n < (counter - lead).toNat + 2147483648) :
    isAfter (lead + BitVec.ofNat 32 n) counter = true ↔ (counter - lead).toNat < n := by
  have hc := counter.isLt
  have hlead := lead.isLt
  simp only [isAfter, atOrAfter, Bool.and_eq_true, decide_eq_true_eq, bne_iff_ne, ne_eq, ← BitVec.toNat_inj,
    BitVec.toNat_sub, BitVec.toNat_add, BitVec.toNat_ofNat] at hd hn ⊢
  omega

/-- With the counter at or after the lead, one multiple of the pitch more than it has passed (R80). -/
theorem nextSample_passed {counter lead : Pos} (h : (counter - lead).toNat < 2147483648) (pitch : BitVec 16) :
    nextSample counter lead pitch =
      lead + BitVec.ofNat 32 (((counter - lead).toNat / pitch.toNat + 1) * pitch.toNat) := by
  have hpassed : atOrAfter counter lead = true := decide_eq_true h
  simp only [nextSample, hpassed, if_true]

/-- R80: the next sample position is the first multiple of the pitch beyond the lead that lies after the counter. -/
theorem nextSample_first {counter lead : Pos} {pitch : BitVec 16} (hp : pitch ≠ 0)
    (hd : (counter - lead).toNat < 2000000000) :
    ∃ k : Nat, 1 ≤ k ∧ nextSample counter lead pitch = lead + BitVec.ofNat 32 (k * pitch.toNat) ∧
      isAfter (nextSample counter lead pitch) counter = true ∧
      ∀ j : Nat, 1 ≤ j → j < k → isAfter (lead + BitVec.ofNat 32 (j * pitch.toNat)) counter = false := by
  have hhalf : (counter - lead).toNat < 2147483648 := by omega
  have hnext := nextSample_passed hhalf pitch
  have hpitch : 0 < pitch.toNat := Nat.pos_of_ne_zero fun h => hp (BitVec.eq_of_toNat_eq h)
  have hpitchlt := pitch.isLt
  set distance := (counter - lead).toNat with hdistance
  have hbeyond : distance < (distance / pitch.toNat + 1) * pitch.toNat := by
    rw [Nat.mul_comm]; exact Nat.lt_mul_div_succ distance hpitch
  have hwithin : distance / pitch.toNat * pitch.toNat ≤ distance := Nat.div_mul_le_self ..
  refine ⟨distance / pitch.toNat + 1, Nat.le_add_left .., hnext, ?_, fun j _ hj => ?_⟩
  · rw [hnext, isAfter_lead_add hhalf (by rw [Nat.succ_mul]; omega)]
    exact hbeyond
  · have hpassed : j * pitch.toNat ≤ distance :=
      (Nat.mul_le_mul_right _ (Nat.le_of_lt_succ hj)).trans hwithin
    rw [Bool.eq_false_iff, ne_eq, isAfter_lead_add hhalf (by omega)]
    exact Nat.not_lt.2 hpassed

/-! ## A sample that falls due (R81) -/

/-- R80: with a band OPEN its next sample position is stored. -/
theorem storeSample_open {st : Station} {r : Record} (ho : st.openRecord = some r) :
    storeSample st =
      storeCompare .sample (nextSample st.position.counter (r.band.lead.getD 0) st.shared.samplePitch) .waiting st := by
  simp only [storeSample, ho]

/-- The next compare takes the place of the one that fell due, whether or not that one has been removed. -/
theorem storeSample_dropped {st : Station} {r : Record} (ho : st.openRecord = some r) :
    storeSample (dropCompare .sample st) = storeSample st := by
  have hopen : (dropCompare .sample st).openRecord = some r := ho
  rw [storeSample_open hopen, storeSample_open ho]
  simp only [storeCompare, dropCompare, drop_store]
  rfl

/-- R81: in READY the sample starts, with the record of the OPEN band as target. -/
theorem takeSample_ready {st : Station} {r : Record} (ho : st.openRecord = some r) (hready : st.probe.state = .ready) :
    takeSample st = { storeSample st with probe := { st.probe with
      state := .sampling, parkTimer := none, timing := .settle, target := some (.held r.seq) } } := by
  simp only [takeSample, ho, (storeSample_edgeFrame st).probe, hready, if_true]

/-- R81: in any other state the sample is skipped. -/
theorem takeSample_skipped {st : Station} {r : Record} (ho : st.openRecord = some r)
    (hnot : st.probe.state ≠ .ready) : takeSample st = storeSample st := by
  simp only [takeSample, ho, (storeSample_edgeFrame st).probe, hnot, if_false]

/-- Settles O23: the due compare, by whether the probe is READY; and the position of the next one. -/
theorem sampleCompareStartsOrSkips : Obligations.SampleCompareStartsOrSkips := by
  refine ⟨?_, fun counter lead pitch => nextSample_first⟩
  intro r st q hl hd ho next
  have hopen : (dropCompare .sample st).openRecord = some r := ho
  have hstored : storeSample (dropCompare .sample st) = { st with position := next } :=
    (storeSample_dropped ho).trans (storeSample_open ho)
  have hexec := exec_due (c := .sampleCompare) rfl q hl hd (.inl (by simp [CompareId.owner]))
  refine ⟨_, hexec, fun hready => ?_, fun hnot => ?_⟩
  · rw [compareEffect, takeSample_ready hopen hready, hstored]
    exact ⟨probeExcite_live hl, rfl⟩
  · rw [compareEffect, takeSample_skipped hopen hnot, hstored]
    exact ⟨rfl, rfl⟩

end Sys2Proof.Machine

namespace Sys2Proof.Machine

/-! ## A pass on the wire (R96, R97) -/

/-- R96, R97: the value that the value cells of a pass spell for an offer or a result: the complement in a high pass. -/
def PassField.carried (f : PassField) (v : Nat) : Nat :=
  match f with
  | .low _ => v
  | .high w => 2 ^ w - 1 - v

theorem PassField.cells_some (f : PassField) (v : Nat) : f.cells (some v) = false :: natToBits f.width (f.carried v) := by
  cases f <;> rfl

theorem PassField.fit_lt (f : PassField) (v : Nat) : f.fit v < 2 ^ f.width := Nat.mod_lt _ (by positivity)

theorem PassField.carried_lt (f : PassField) {v : Nat} (h : v < 2 ^ f.width) : f.carried v < 2 ^ f.width := by
  cases f with
  | low w => exact h
  | high w => exact lt_of_le_of_lt (Nat.sub_le _ _) (Nat.sub_one_lt (by positivity))

/-- Whether a cell that a station released has read driven. -/
def outbid (own read : List Bool) : Bool := (own.zip read).any fun cell => cell.1 && !cell.2

@[simp] theorem outbid_nil (own : List Bool) : outbid own [] = false := by simp [outbid]

@[simp] theorem outbid_cons (mine wire : Bool) (own read : List Bool) :
    outbid (mine :: own) (wire :: read) = (mine && !wire || outbid own read) := by simp [outbid]

theorem outbid_take_self (own : List Bool) (n : Nat) : outbid own (own.take n) = false := by
  induction own generalizing n with
  | nil => simp
  | cons mine own ih => cases n <;> simp [ih]

theorem PassField.drives_some_iff (f : PassField) (v : Nat) (read : List Bool) : f.drives (some v) read = true ↔
    (f.cells (some (f.fit v)))[read.length]? = some false ∧ outbid (f.cells (some (f.fit v))) read = false := by
  have hdrives : f.drives (some v) read =
      ((f.cells (some (f.fit v)))[read.length]? == some false && !outbid (f.cells (some (f.fit v))) read) := rfl
  simp [hdrives]

theorem lowPass_nil (w : Nat) : lowPass w [] = none := rfl

theorem lowPass_of_ne_nil {w : Nat} {offers : List Nat} (h : offers ≠ []) : lowPass w offers = some (contend w offers) := by
  simp [lowPass, h]

/-- R96: a low pass yields the smallest offer. -/
theorem lowPass_isLeast {w : Nat} {offers : List Nat} (h : ∀ v ∈ offers, v < 2 ^ w) (hne : offers ≠ []) :
    ∃ m ∈ offers, lowPass w offers = some m ∧ ∀ v ∈ offers, m ≤ v := by
  obtain ⟨hmem, hle⟩ := contend_isLeast w offers hne h
  exact ⟨contend w offers, hmem, lowPass_of_ne_nil hne, hle⟩

theorem highPass_nil (w : Nat) : highPass w [] = none := rfl

/-- R97: the complements are contended, and the result is the complement of the smallest of them. -/
theorem highPass_eq {w : Nat} {offers : List Nat} (h : ∀ v ∈ offers, v < 2 ^ w) :
    highPass w offers = (lowPass w (offers.map fun v => 2 ^ w - 1 - v)).map fun v => 2 ^ w - 1 - v := by
  have hfit : (offers.map fun v => 2 ^ w - 1 - v % 2 ^ w) = offers.map fun v => 2 ^ w - 1 - v :=
    List.map_congr_left fun v hv => by rw [Nat.mod_eq_of_lt (h v hv)]
  rw [highPass, hfit]

/-- R97: a high pass yields the largest offer. -/
theorem highPass_isGreatest {w : Nat} {offers : List Nat} (h : ∀ v ∈ offers, v < 2 ^ w) (hne : offers ≠ []) :
    ∃ m ∈ offers, highPass w offers = some m ∧ ∀ v ∈ offers, v ≤ m := by
  have hcomplement : ∀ c ∈ offers.map fun v => 2 ^ w - 1 - v, c < 2 ^ w := by
    intro c hc
    obtain ⟨v, hv, rfl⟩ := List.mem_map.1 hc
    have := h v hv
    omega
  obtain ⟨c, hc, hpass, hle⟩ := lowPass_isLeast hcomplement (by simpa using hne)
  obtain ⟨m, hm, rfl⟩ := List.mem_map.1 hc
  have hmlt := h m hm
  refine ⟨m, hm, ?_, fun v hv => ?_⟩
  · rw [highPass_eq h, hpass, Option.map_some]
    congr 1
    omega
  · have hvlt := h v hv
    have := hle _ (List.mem_map_of_mem hv)
    omega

/-- R96, R97: in either sense the value cells of the result spell what a low pass on the carried values yields. -/
theorem PassField.run_carried (f : PassField) (own : Option Nat) (peers : List Nat) :
    (f.run own peers).result.map f.carried = lowPass f.width ((own.toList ++ peers).map fun v => f.carried (f.fit v)) := by
  cases f with
  | low w =>
    simp only [PassField.run]
    exact Option.map_id'
  | high w =>
    have hlt : ∀ v ∈ (own.toList ++ peers).map (PassField.fit (.high w)), v < 2 ^ w := by
      intro v hv
      obtain ⟨u, _, rfl⟩ := List.mem_map.1 hv
      exact PassField.fit_lt (.high w) u
    have hback : ∀ offers, (lowPass w offers).map (fun c => 2 ^ w - 1 - (2 ^ w - 1 - c)) = lowPass w offers := by
      intro offers
      unfold lowPass
      split
      · rfl
      · have := contend_lt w offers
        rw [Option.map_some]
        congr 1
        omega
    simp only [PassField.run, highPass_eq hlt, Option.map_map, List.map_map]
    exact hback _

/-- With an offer, the cells of the pass are those of the smallest carried value. -/
theorem PassField.run_cells {f : PassField} {own : Option Nat} {peers : List Nat} (hne : own.toList ++ peers ≠ []) :
    ∃ v ∈ own.toList ++ peers, f.cells (f.run own peers).result = f.cells (some (f.fit v)) ∧
      ∀ u ∈ own.toList ++ peers, f.carried (f.fit v) ≤ f.carried (f.fit u) := by
  have hlt : ∀ c ∈ (own.toList ++ peers).map fun v => f.carried (f.fit v), c < 2 ^ f.width := by
    intro c hc
    obtain ⟨u, _, rfl⟩ := List.mem_map.1 hc
    exact f.carried_lt (f.fit_lt u)
  obtain ⟨c, hc, hpass, hle⟩ := lowPass_isLeast hlt (by simpa using hne)
  obtain ⟨v, hv, rfl⟩ := List.mem_map.1 hc
  have hrun := f.run_carried own peers
  rw [hpass] at hrun
  obtain ⟨m, hm, hcarried⟩ := Option.map_eq_some_iff.1 hrun
  refine ⟨v, hv, ?_, fun u hu => hle _ (List.mem_map_of_mem hu)⟩
  rw [hm, f.cells_some, f.cells_some, hcarried]

/-- A value that has not been outbid by a value at or below it, and drives the next cell, finds that cell driven by it too. -/
theorem natToBits_driven_of_le {w : Nat} : ∀ {n m v : Nat}, m % 2 ^ w ≤ v % 2 ^ w →
    (natToBits w v)[n]? = some false → outbid (natToBits w v) ((natToBits w m).take n) = false →
    (natToBits w m)[n]? = some false := by
  induction w with
  | zero => intro n m v _ hv _; simp [natToBits] at hv
  | succ w ih =>
    intro n m v hle hv hout
    have hm := Nat.mod_lt m (Nat.two_pow_pos w)
    have hvlt := Nat.mod_lt v (Nat.two_pow_pos w)
    rw [mod_two_pow_succ, mod_two_pow_succ] at hle
    cases n with
    | zero =>
      have hbit : v.testBit w = false := by simpa [natToBits] using hv
      cases hmbit : m.testBit w with
      | false => simp [natToBits, hmbit]
      | true => rw [hbit, hmbit] at hle; simp at hle; omega
    | succ n =>
      simp only [natToBits, List.take_succ_cons, outbid_cons, Bool.or_eq_false_iff] at hout
      obtain ⟨hhead, htail⟩ := hout
      have hlow : m % 2 ^ w ≤ v % 2 ^ w := by
        cases hmbit : m.testBit w <;> cases hvbit : v.testBit w <;> simp [hmbit, hvbit] at hle hhead <;> omega
      simpa [natToBits] using ih hlow (by simpa [natToBits] using hv) htail

/-- R96, R97: on a wire that carries a pass's result a cell is driven exactly where a station with an offer drives it. -/
theorem PassField.wire_driven_iff (f : PassField) (own : Option Nat) (peers : List Nat) {n : Nat} (hn : n < 1 + f.width) :
    (f.cells (f.run own peers).result)[n]? = some false ↔ ∃ offer ∈ own.toList ++ peers,
      f.drives (some offer) ((f.cells (f.run own peers).result).take n) = true := by
  by_cases hne : own.toList ++ peers = []
  · have hnone : (f.run own peers).result = none := by
      have hrun := f.run_carried own peers
      rw [hne, List.map_nil, lowPass_nil] at hrun
      exact Option.map_eq_none_iff.1 hrun
    simp [hne, hnone, PassField.cells, releasedCells, hn]
  · obtain ⟨v, hv, hcells, hle⟩ := PassField.run_cells (f := f) hne
    have htake : ∀ l : List Bool, l.length = 1 + f.width → (l.take n).length = n := fun l hl => by
      rw [List.length_take, hl]; omega
    rw [hcells]
    simp only [drives_some_iff, htake _ (passField_cells_length f _)]
    refine ⟨fun h => ⟨v, hv, h, outbid_take_self _ _⟩, fun ⟨u, hu, hdriven, hout⟩ => ?_⟩
    rw [f.cells_some] at hdriven hout ⊢
    rw [f.cells_some] at hout
    cases n with
    | zero => rfl
    | succ n =>
      have hcarried : ∀ x, f.carried (f.fit x) % 2 ^ f.width = f.carried (f.fit x) := fun x =>
        Nat.mod_eq_of_lt (f.carried_lt (f.fit_lt x))
      refine natToBits_driven_of_le (v := f.carried (f.fit u)) ?_ hdriven (by simpa using hout)
      rw [hcarried, hcarried]
      exact hle u hu

/-! ## Spacers taken out again (R95) -/

/-- A part of the body that begins after `base` cells of `total`, with its spacers. -/
def spacedFrom (total base : Nat) (cells : List Bool) : List Bool :=
  (cells.zipIdx (base + 1)).flatMap fun cell => if cell.2 % 8 = 0 && cell.2 < total then [cell.1, true] else [cell.1]

theorem withSpacers_eq (cells : List Bool) : withSpacers cells = spacedFrom cells.length 0 cells := rfl

theorem spacedFrom_cons (total base : Nat) (cell : Bool) (cells : List Bool) : spacedFrom total base (cell :: cells) =
    if (base + 1) % 8 = 0 ∧ base + 1 < total then cell :: true :: spacedFrom total (base + 1) cells
    else cell :: spacedFrom total (base + 1) cells := by
  by_cases h : (base + 1) % 8 = 0 ∧ base + 1 < total <;> simp [spacedFrom, h]

/-- The cells that are left of a part read from cell `place` of the contest and the body. -/
def unspacedFrom (place : Nat) (cells : List Bool) : List Bool :=
  (cells.zipIdx place).filterMap fun cell => if cell.2 % 9 = 8 then none else some cell.1

theorem withoutSpacers_eq (cells : List Bool) : withoutSpacers cells = unspacedFrom 0 cells := rfl

theorem unspacedFrom_cons (place : Nat) (cell : Bool) (cells : List Bool) : unspacedFrom place (cell :: cells) =
    if place % 9 = 8 then unspacedFrom (place + 1) cells else cell :: unspacedFrom (place + 1) cells := by
  by_cases h : place % 9 = 8 <;> simp [unspacedFrom, h]

/-- The part that begins after `base` cells begins at place `base + base / 8`, and is left where its spacers are taken out. -/
theorem unspacedFrom_spacedFrom {total : Nat} (cells : List Bool) : ∀ {base : Nat}, base + cells.length = total →
    unspacedFrom (base + base / 8) (spacedFrom total base cells) = cells := by
  induction cells with
  | nil => intro base _; rfl
  | cons cell rest ih =>
    intro base h
    rw [List.length_cons] at h
    have hrest := ih (base := base + 1) (by omega)
    have hcell : ¬ (base + base / 8) % 9 = 8 := by omega
    rw [spacedFrom_cons]
    split
    · next hspacer =>
      have hplace : (base + base / 8 + 1) % 9 = 8 := by omega
      have hnext : base + 1 + (base + 1) / 8 = base + base / 8 + 1 + 1 := by omega
      rw [unspacedFrom_cons, if_neg hcell, unspacedFrom_cons, if_pos hplace, ← hnext, hrest]
    · next hnone =>
      rw [unspacedFrom_cons, if_neg hcell]
      rcases Nat.eq_or_lt_of_le (show base + 1 ≤ total by omega) with hlast | hmore
      · have hend : rest = [] := List.eq_nil_of_length_eq_zero (by omega)
        subst hend
        rfl
      · have hnext : base + 1 + (base + 1) / 8 = base + base / 8 + 1 := by omega
        rw [← hnext, hrest]

/-- R95: the body with its spacers is read back without them. -/
theorem withoutSpacers_withSpacers (cells : List Bool) : withoutSpacers (withSpacers cells) = cells := by
  rw [withoutSpacers_eq, withSpacers_eq]
  exact unspacedFrom_spacedFrom cells (Nat.zero_add _)

/-! ## The cells of a round (R194) -/

theorem passCells_length {fields : List PassField} : ∀ {results : List (Option Nat)}, results.length = fields.length →
    (List.zipWith PassField.cells fields results).flatten.length = (fields.map fun f => 1 + f.width).sum := by
  induction fields with
  | nil => intro results _; simp
  | cons f fields ih =>
    intro results h
    cases results with
    | nil => simp at h
    | cons result results =>
      simp only [List.zipWith_cons_cons, List.flatten_cons, List.length_append, passField_cells_length, List.map_cons,
        List.sum_cons, ih (Nat.succ.inj h)]

theorem slots_length {slots : List (List Bool)} {n : Nat} (h : ∀ s ∈ slots, s.length = n) :
    slots.flatten.length = slots.length * n := by
  rw [List.length_flatten, List.map_congr_left h, List.map_const', List.sum_replicate, smul_eq_mul]

/-- R194: the contest, one result for each pass, and eight slots where the kind has slots. -/
theorem bodyCells_length {k : RoundKind} {results : List (Option Nat)} {slots : List (List Bool)} (contest : Option Nat)
    (hresults : results.length = k.passes.length) (hslots : slots.length = if k.slotCells = 0 then 0 else 8)
    (hcells : ∀ s ∈ slots, s.length = k.slotCells) : (k.bodyCells contest results slots).length = k.cells := by
  have height : slots.length * k.slotCells = 8 * k.slotCells := by
    rw [hslots]
    split
    · next h => rw [h]
    · rfl
  simp only [RoundKind.bodyCells, RoundKind.cells, List.length_append, passField_cells_length, passCells_length hresults,
    slots_length hcells, height]

theorem roundCells_length (k : RoundKind) (contest : Option Nat) (results : List (Option Nat)) (slots : List (List Bool)) :
    (k.roundCells contest results slots).length =
      14 + (k.bodyCells contest results slots).length + ((k.bodyCells contest results slots).length - 1) / 8 := by
  simp only [RoundKind.roundCells, List.length_append, withSpacers_length, openingPulse, alignmentCells, gapCells, guardCells,
    List.length_cons, List.length_nil]
  omega

/-- Settles O34. -/
theorem passesYieldSmallestAndLargestOffer : Obligations.PassesYieldSmallestAndLargestOffer := by
  refine ⟨fun _ _ => lowPass_isLeast, lowPass_nil, fun _ _ => highPass_isGreatest, highPass_nil, passField_read_cells,
    ?_, passField_cells_length, fun f own peers _ => f.wire_driven_iff own peers, drives_none,
    withoutSpacers_withSpacers, fun cells => ⟨withSpacers_length cells, withSpacers_get cells, withSpacers_spacer cells⟩,
    fun k contest results slots hresults hslots hcells => ?_, rfl, rfl, rfl, rfl, rfl, rfl⟩
  · intro f
    simp [PassField.cells, releasedCells, Nat.add_comm 1, List.replicate_succ, PassField.read]
  · have hbody := bodyCells_length contest hresults hslots hcells
    exact ⟨hbody, by rw [roundCells_length, hbody]⟩

end Sys2Proof.Machine

namespace Sys2Proof.Machine

/-! ## What the station drives in each line state (R89) -/

theorem gradeLineDriven_released {st : Station} (hs : st.line.state = .off ∨ st.line.state = .idle ∨ st.line.state = .guard ∨
    st.line.state = .mute) (heard : List Bool) : st.gradeLineDriven heard = false := by
  rcases hs with hs | hs | hs | hs <;> simp [Station.gradeLineDriven, hs]

/-- R92, R94: in OPENING only an opener that times no long drive drives, and it drives pulse and pattern. -/
theorem gradeLineDriven_opening {st : Station} (hl : st.heldInReset = false) (hs : st.line.state = .opening)
    (heard : List Bool) : st.gradeLineDriven heard =
      (st.line.opener && !st.line.longDrive && (openingPulse ++ alignmentCells)[heard.length]? == some false) := by
  simp [Station.gradeLineDriven, hl, hs]

/-- R92, R94: the driven ones among the ten cells of pulse and pattern. -/
theorem openingCells_driven_iff (n : Nat) :
    (openingPulse ++ alignmentCells)[n]? = some false ↔ n ∈ [0, 1, 3, 5, 7, 9] := by
  rcases Nat.lt_or_ge n 10 with h | h
  · revert n; decide
  · have hpast : (openingPulse ++ alignmentCells)[n]? = none := List.getElem?_eq_none h
    simp [hpast]
    omega

/-- R108: in BREAKING only the sender drives: 30 cells, while every cell before has read driven. -/
theorem gradeLineDriven_breaking {st : Station} (hl : st.heldInReset = false) (hs : st.line.state = .breaking)
    (heard : List Bool) : st.gradeLineDriven heard = true ↔
      st.line.breakSender = true ∧ heard.length < 30 ∧ ∀ released ∈ heard, released = false := by
  simp only [Station.gradeLineDriven, hl, hs, Bool.false_eq_true, if_false, Bool.and_eq_true, decide_eq_true_eq,
    List.all_eq_true, Bool.not_eq_true', and_assoc]
  rfl

/-! ## A round ended, where no attachment test waits (R105, R106) -/

theorem deferredTest_idle {st : Station} (h : st.edge.testDeferred = false) : deferredTest st = st := by
  unfold deferredTest
  rw [h]
  rfl

theorem dropRound_idle {st : Station} (h : st.edge.testDeferred = false) : dropRound st = roundDropped st :=
  deferredTest_idle (st := roundDropped st) h

/-- R106: with no attachment test waiting, an entry to MUTE ends capture and round and raises LINE_ERROR. -/
theorem enterMute_idle {st : Station} (h : st.edge.testDeferred = false) : enterMute st = { st with
    position := { st.position with capture := none }
    line := { st.line with
      state := .mute, opener := false, breakSender := false, longDrive := false, roundCell := none, round := none,
      quiet := 0 }
    port := { st.port with causes := { st.port.causes with lineError := true } } } := by
  unfold enterMute
  rw [dropRound_idle h]
  rfl

/-- R109: the count of own-slot mismatches is kept at an entry to MUTE. -/
theorem enterMute_mismatch (st : Station) : (enterMute st).line.mismatch = st.line.mismatch := by
  have hline : (dropRound st).line = (roundDropped st).line := (deferredTest_frame (roundDropped st)).line
  show (dropRound st).line.mismatch = _
  rw [hline]
  rfl

/-! ## The line state by command (R91, R92, R98, R102, R103) -/

/-- Where no long drive is being timed, a completion leads to GUARD and ends capture and round. -/
theorem toGuard_eq {st : Station} (hd : st.line.longDrive = false) : toGuard st = { st with
    position := { st.position with capture := none }
    line := { st.line with state := .guard, opener := false, round := none } } := by
  unfold toGuard
  rw [← hd]

theorem completeNone_named {st : Station} {r : Round} (hf : followed st = some r) (hk : r.kind = some .nothing) :
    completeNone st = toGuard st := by
  unfold completeNone
  simp only [hf, hk, if_true]

/-- R98, log 29: a contest without an offer of the station or of a peer ends with its completion. -/
theorem completeNone_contest {st : Station} {r : Round} (hf : followed st = some r) (hk : r.kind = none)
    (ho : r.offers.contest = none) (ht : st.edge.testDeferred = false) : completeNone st = toGuard st := by
  have hres : (contestField.run r.offers.contest (([] : List (BitVec 3)).map (·.toNat))).result = none := by rw [ho]; rfl
  have hnamed : (kindNamed [] st r .nothing).edge.testDeferred = false := ht
  have hends : completeNone st = toGuard (kindContestEnd [] st) := by
    unfold completeNone
    simp only [hf, hk, ho, and_self, if_true, reduceCtorEq, if_false]
  have hguard := congrArg toGuard (deferredTest_idle hnamed)
  rw [hends, kindContestEnd_eq hf hk, hres]
  exact hguard

/-- Settles O31: what each line state drives, then the commands in their order. -/
theorem lineIdlesOpensAndEndsRounds : Obligations.LineIdlesOpensAndEndsRounds := by
  intro st q hl
  refine ⟨fun heard => ⟨fun hs => gradeLineDriven_released hs heard, fun hs hd => gradeLineDriven_longDrive hd hs heard,
    fun hs ho => ?_, fun hs hb => ?_, fun hs ho hd => ?_⟩, fun hs hn => ?_, fun hs hd ho => ?_, fun hs ho => ?_,
    fun hs hd => ?_, fun r hs hd hr hends => ?_, fun hs hd => ?_⟩
  · rw [gradeLineDriven_opening hl hs, ho]
    rfl
  · rw [Bool.eq_false_iff, ne_eq, gradeLineDriven_breaking hl hs, hb]
    exact fun h => Bool.noConfusion h.1
  · rw [gradeLineDriven_opening hl hs, ho, hd, ← openingCells_driven_iff]
    simp
  · have hjoin : quietJoin st = { st with line := { st.line with state := .idle, quiet := 32 } } := if_pos ⟨hs, hn⟩
    simp only [exec_live _ q hl, commandEffect, hjoin]
  · have hopen : roundOpen st = { st with line := { st.line with state := .opening, opener := true } } := if_pos ⟨hs, hd, ho⟩
    simp only [exec_live _ q hl, commandEffect, hopen]
  · have hstay : roundOpen st = st := if_neg fun h => by rw [ho] at h; exact Bool.noConfusion h.2.2
    simp only [exec_live _ q hl, commandEffect, hstay]
  · have hlisten : listen st = { st with line := { st.line with state := .opening, opener := false } } := if_pos ⟨hs, hd⟩
    simp only [exec_live _ q hl, commandEffect, hlisten]
  · have hf := followed_of hs hd hr
    have hcomplete : completeNone st = toGuard st := by
      rcases hends with hk | ⟨hk, ho, ht⟩
      · exact completeNone_named hf hk
      · exact completeNone_contest hf hk ho ht
    simp only [exec_live _ q hl, commandEffect, hcomplete, toGuard_eq hd]
  · have hguard : guardEnd st = { st with line := { st.line with state := .idle, roundCell := none } } := if_pos ⟨hs, hd⟩
    simp only [exec_live _ q hl, commandEffect, hguard]

/-! ## Line errors (R93 to R96, R104, R106) -/

theorem bodyEdge_near {st : Station} {r : Round} {sixCells time n : Nat} (hf : followed st = some r)
    (hc : st.line.roundCell = some sixCells) (hb : edgeBoundary sixCells time = some n) :
    bodyEdge time st = withRound { r with cells := r.cells + n } st := by
  simp only [bodyEdge, hf, hc, Option.getD_some, hb]

theorem bodyEdge_far {st : Station} {r : Round} {sixCells time : Nat} (hf : followed st = some r)
    (hc : st.line.roundCell = some sixCells) (hb : edgeBoundary sixCells time = none) : bodyEdge time st = enterMute st := by
  simp only [bodyEdge, hf, hc, Option.getD_some, hb]

/-- R96: the offer that a field fault is judged by. -/
theorem fieldOffer_of_sent {r : Round} {offer : Option Nat} (h : (r.kind = none ∧ offer = r.offers.contest) ∨
    ∃ k, r.kind = some k ∧ r.passes.length < k.passes.length ∧ offer = passOffer k r) : r.fieldOffer = some offer := by
  unfold Round.fieldOffer
  rcases h with ⟨hk, rfl⟩ | ⟨k, hk, hp, rfl⟩
  · rw [hk]
  · rw [hk]
    exact if_pos hp

/-- R96: each field fault is met only with the station's offer as it needs. -/
theorem fieldFaults_eq {st : Station} {r : Round} {offer : Option Nat} (hf : followed st = some r)
    (ho : r.fieldOffer = some offer) :
    lineError .drivenReadsReleased st = (if offer.isSome = true then enterMute st else st) ∧
    lineError .valueWithoutOffer st = (if offer.isNone = true then enterMute st else st) := by
  simp only [lineError, hf, Option.bind_some, ho, Option.any_some, and_self]

/-- Settles O38: each fault where it is met, by the entry to MUTE with no test waiting. -/
theorem lineErrorsEnterMute : Obligations.LineErrorsEnterMute := by
  intro st q hl ht muted sent
  have hmuted : Host.Outcome.next (⟨enterMute st, q⟩ : State) = muted := by rw [enterMute_idle ht]
  simp only [exec_live _ q hl, commandEffect]
  refine ⟨fun hs ho hr hd => ?_, fun hs hr hd => ?_, fun r sixCells time hs hd hr hc hpos => ⟨fun n h1 h2 => ?_, fun hfar => ?_⟩,
    fun r offer hs hd hr hsent => ?_, fun hd => ?_, fun hs => ?_⟩
  · have hfault : lineError .openingDrive st = enterMute st := if_pos ⟨hs, ho, hr, hd⟩
    rw [hfault, hmuted]
  · have hfault : lineError .pattern st = enterMute st := if_pos ⟨hs, hr, hd⟩
    rw [hfault, hmuted]
  · have hedge := bodyEdge_near (followed_of hs hd hr) hc (edgeBoundary_of_near sixCells time n hpos h1 h2)
    show Host.Outcome.next (⟨bodyEdge time st, q⟩ : State) = _
    rw [hedge]
    rfl
  · have hedge : lineError (.edge time) st = enterMute st :=
      bodyEdge_far (followed_of hs hd hr) hc (edgeBoundary_of_far sixCells time hpos hfar)
    rw [hedge, hmuted]
  · obtain ⟨hdriven, hvalue⟩ := fieldFaults_eq (followed_of hs hd hr) (fieldOffer_of_sent hsent)
    rw [hdriven, hvalue]
    refine ⟨fun ho => ?_, fun ho => ?_⟩
    · simp only [ho, Option.isNone_eq_false_iff.2 ho, if_true, hmuted, Bool.false_eq_true, if_false, and_self]
    · simp only [ho, Option.isNone_none, Option.isSome_none, if_true, hmuted, Bool.false_eq_true, if_false, and_self]
  · have hfault : longDriveReleased st = enterMute st := if_pos hd
    rw [hfault, hmuted]
  · have hbegins : longDriveBegins st.line = true := by rcases hs with hs | hs <;> simp only [longDriveBegins, hs]
    have hstart : longDriveStart st = { st with line := { st.line with longDrive := true } } := if_pos hbegins
    rw [hstart]

/-! ## BREAK (R91, R105, R107, R108) -/

theorem breakReceived_off {st : Station} (hs : st.line.state = .off) :
    breakReceived st = { st with line := { st.line with quiet := 0 } } := by
  simp only [breakReceived, hs]

/-- R105: outside OFF and BREAKING a BREAK cancels the round in flight, whatever the line state. -/
theorem breakReceived_cancels {st : Station} (hoff : st.line.state ≠ .off) (hbreaking : st.line.state ≠ .breaking) :
    breakReceived st = { dropRound st with line := { (dropRound st).line with
      state := .breaking, quiet := if st.line.state = .mute then 0 else st.line.quiet } } := by
  unfold breakReceived
  cases hs : st.line.state with
  | off => exact absurd hs hoff
  | breaking => exact absurd hs hbreaking
  | idle | opening | inRound | guard | mute => rfl

/-- R108: a BREAK that every cell carried raises ROLL; one that was not heard leads back to MUTE. -/
theorem breakSendEnd_eq {st : Station} (hs : st.line.state = .breaking) (hb : st.line.breakSender = true) (heard : Bool) :
    breakSendEnd heard st =
      if heard then raiseRoll { st with line := { st.line with state := .guard, breakSender := false } }
      else raiseCause .lineError { st with line := { st.line with state := .mute, breakSender := false, quiet := 0 } } :=
  if_pos ⟨hs, hb⟩

/-- Settles O39: the BREAK received, then the BREAK sent. -/
theorem breakCancelsRoundAndMuteSendsIt : Obligations.BreakCancelsRoundAndMuteSendsIt := by
  intro st q hl
  simp only [exec_live _ q hl, commandEffect]
  refine ⟨fun hs => ?_, fun hoff hbreaking ht => ?_, fun hs hb => ?_, fun hs => ?_, fun hs hb => ⟨fun heard => ?_, ?_, ?_⟩⟩
  · rw [breakReceived_off hs]
  · rw [breakReceived_cancels hoff hbreaking, dropRound_idle ht]
    rfl
  · have hreleased : breakWireReleased st = { st with line := { st.line with state := .guard } } := if_pos ⟨hs, hb⟩
    rw [hreleased]
  · have hsend : sendBreak st = { st with line := { st.line with state := .breaking, breakSender := true, quiet := 32 } } :=
      if_pos hs
    rw [hsend]
  · rw [gradeLineDriven_breaking hl hs, hb]
    simp
  · rw [breakSendEnd_eq hs hb]
    rfl
  · rw [breakSendEnd_eq hs hb]
    rfl

end Sys2Proof.Machine

namespace Sys2Proof.Machine

/-! ## The contest offer (R98, R115, R116) -/

theorem scopeOffer_isSome_iff (p : PurgeSet) : p.scopeOffer.isSome = true ↔ p ≠ .none := by
  cases p <;> simp [PurgeSet.scopeOffer]

theorem oldestClear_isSome_iff (l : List Held) : (oldestClear l).isSome = true ↔ ∃ h ∈ l, h.heldBack = false := by
  rw [oldestClear, oldestSeq_isSome, clearSubjects, ne_eq, List.map_eq_nil_iff, List.filter_eq_nil_iff]
  simp

theorem openOffer_isSome_iff (st : Station) : (openOffer st).isSome = true ↔
    st.engine.requests.opening = true ∧ ∃ e, st.edge.pending = some e ∧ e.qualified = true := by
  refine ⟨fun h => ?_, fun ⟨ho, e, he, hq⟩ => by rw [openOffer_some ho he hq]; rfl⟩
  by_contra hnone
  rw [openOffer_none hnone] at h
  exact Bool.noConfusion h

/-- R98: the codes in their order, each in the words of the request set. -/
theorem runningContestOffer_eq (st : Station) : runningContestOffer st =
    if st.engine.requests.purge ≠ .none then some 1
    else if st.engine.requests.roll = true then some 2
    else if ∃ h ∈ st.engine.requests.verdict, h.heldBack = false then some 3
    else if ∃ h ∈ st.engine.requests.tally, h.heldBack = false then some 4
    else if st.engine.requests.opening = true ∧ ∃ e, st.edge.pending = some e ∧ e.qualified = true then some 5
    else none := by
  simp only [runningContestOffer, scopeOffer_isSome_iff, oldestClear_isSome_iff, openOffer_isSome_iff]

theorem allHeldBack_iff (l : List Held) : (∀ h ∈ l, h.heldBack = true) ↔ ¬ ∃ h ∈ l, h.heldBack = false := by
  simp

/-- Settles O32: by node state, and in RUNNING by the codes in their order. -/
theorem contestOfferIsSmallestCode : Obligations.ContestOfferIsSmallestCode := by
  intro st
  refine ⟨fun hn => ?_, fun hn => ?_, fun hn n => ?_⟩
  · unfold contestOffer
    cases h : st.start.node <;> simp_all [NodeState.onLine]
  · unfold contestOffer
    rcases hn with hn | hn <;> simp only [hn]
  · have hrunning : contestOffer st = runningContestOffer st := by simp only [contestOffer, hn]
    rw [hrunning, runningContestOffer_eq]
    simp only [allHeldBack_iff]
    split
    · next hpurge => simp [hpurge, eq_comm (a := n)]
    · next hpurge =>
      rw [not_not] at hpurge
      split
      · next hroll => simp [hpurge, hroll, eq_comm (a := n)]
      · next hroll =>
        rw [Bool.not_eq_true] at hroll
        split
        · next hverdict => simp only [hpurge, hroll, hverdict]; simp [eq_comm (a := n)]
        · next hverdict =>
          split
          · next htally => simp only [hpurge, hroll, hverdict, htally]; simp [eq_comm (a := n)]
          · next htally =>
            split
            · next hopen => simp only [hpurge, hroll, hverdict, htally, hopen]; simp [eq_comm (a := n)]
            · next hopen => simp only [hpurge, hroll, hverdict, htally, hopen]; simp

/-! ## The oldest of the requests drawn (R116, log 18) -/

theorem oldestSeq_nil : oldestSeq [] = none := by simp [oldestSeq]

theorem oldestSeq_of_oldest {l : List Seq} {s : Seq} (hs : s ∈ l) (h : ∀ u ∈ l, u = s ∨ olderSeq s u = true) :
    oldestSeq l = some s :=
  oldestSeq_of_older hs fun u hu hne => (h u hu).resolve_left hne

/-- R116: the oldest of the subjects counted at the opening that are still held is offered. -/
theorem stillHeld_offer {counted : List Seq} {l : List Held} {s : Seq} (hs : s ∈ counted) (hheld : ∃ h ∈ l, h.subject = s)
    (h : ∀ u ∈ counted, (∃ h ∈ l, h.subject = u) → u = s ∨ olderSeq s u = true) :
    (oldestSeq (stillHeld counted l)).map (·.toNat) = some s.toNat := by
  rw [oldestSeq_of_oldest ((mem_stillHeld ..).2 ⟨hs, hheld⟩)]
  · rfl
  · intro u hu
    obtain ⟨huc, huh⟩ := (mem_stillHeld ..).1 hu
    exact h u huc huh

theorem stillHeld_noOffer {counted : List Seq} {l : List Held} (h : ∀ s ∈ counted, ¬ ∃ h ∈ l, h.subject = s) :
    (oldestSeq (stillHeld counted l)).map (·.toNat) = none := by
  have hnil : stillHeld counted l = [] :=
    List.eq_nil_iff_forall_not_mem.2 fun s hs => h s ((mem_stillHeld ..).1 hs).1 ((mem_stillHeld ..).1 hs).2
  rw [hnil, oldestSeq_nil]
  rfl

theorem stillHeld_purge_none (p : PurgeSet) : PurgeSet.stillHeld .none p = .none := by cases p <;> rfl

theorem stillHeld_purge_withdrawn (p : PurgeSet) : p.stillHeld .none = .none := by cases p <;> rfl

theorem ofOnes_subjects (l : List Seq) : (PurgeSet.ofOnes l).subjects = l := by
  cases l <;> rfl

theorem ofOnes_scopeOffer (l : List Seq) : (PurgeSet.ofOnes l).scopeOffer = if l = [] then none else some 3 := by
  cases l <;> rfl

/-! ## The end of the kind contest (R98) -/

/-- R96: where every offer fits the field, the offers themselves are contended. -/
theorem PassField.run_low_result {w : Nat} {own : Option Nat} {peers : List Nat} (h : ∀ v ∈ own.toList ++ peers, v < 2 ^ w) :
    ((PassField.low w).run own peers).result = lowPass w (own.toList ++ peers) := by
  have hfit : (own.toList ++ peers).map (PassField.fit (.low w)) = own.toList ++ peers :=
    (List.map_congr_left fun v hv => Nat.mod_eq_of_lt (h v hv)).trans (List.map_id' _)
  simp only [PassField.run, hfit]

theorem lowPass_of_least {w n : Nat} {offers : List Nat} (h : ∀ v ∈ offers, v < 2 ^ w) (hn : n ∈ offers)
    (hle : ∀ v ∈ offers, n ≤ v) : lowPass w offers = some n := by
  obtain ⟨m, hm, hpass, hleast⟩ := lowPass_isLeast h (List.ne_nil_of_mem hn)
  rw [hpass, Nat.le_antisymm (hleast n hn) (hle m hm)]

/-- The codes 1 to 5 and those of three bits fit the contest. -/
theorem contestOffers_fit {own : Option Nat} (h : ∀ c, own = some c → 1 ≤ c ∧ c ≤ 5) (peers : List (BitVec 3)) :
    ∀ v ∈ own.toList ++ peers.map (·.toNat), v < 2 ^ 3 := by
  intro v hv
  rcases List.mem_append.1 hv with hv | hv
  · have := h v (by simpa using hv)
    omega
  · obtain ⟨code, _, rfl⟩ := List.mem_map.1 hv
    exact code.isLt

/-- A waiting test leaves the Line Controller as the contest has set it. -/
theorem kindContestEnd_line_nothing {peers : List (BitVec 3)} {st : Station} {r : Round} (hf : followed st = some r)
    (hk : r.kind = none) (hres : (contestField.run r.offers.contest (peers.map (·.toNat))).result = none) :
    (kindContestEnd peers st).line = (kindNamed peers st r .nothing).line := by
  have hline := (deferredTest_frame (kindNamed peers st r .nothing)).line
  rw [kindContestEnd_eq hf hk, hres]
  exact hline

theorem kindContestEnd_line_named {peers : List (BitVec 3)} {st : Station} {r : Round} {code : Nat} {k : RoundKind}
    (hf : followed st = some r) (hk : r.kind = none)
    (hres : (contestField.run r.offers.contest (peers.map (·.toNat))).result = some code)
    (hcode : RoundKind.ofCode code = some k) : (kindContestEnd peers st).line = (kindNamed peers st r k).line := by
  have hline := (deferredTest_frame (kindNamed peers st r k)).line
  rw [kindContestEnd_eq hf hk, hres]
  simp only [hcode]
  split
  · rfl
  · exact hline

theorem kindContestEnd_unnamed {peers : List (BitVec 3)} {st : Station} {r : Round} {code : Nat}
    (hf : followed st = some r) (hk : r.kind = none)
    (hres : (contestField.run r.offers.contest (peers.map (·.toNat))).result = some code)
    (hcode : RoundKind.ofCode code = none) : kindContestEnd peers st = enterMute st := by
  rw [kindContestEnd_eq hf hk, hres]
  simp only [hcode]

/-- The round as a kind contest has given it kind `k`. -/
def namedRound (peers : List (BitVec 3)) (st : Station) (r : Round) (k : RoundKind) : Round :=
  { fixAtContest k st r with
    kind := some k, contest := some (contestField.run r.offers.contest (peers.map (·.toNat))), cells := k.cellsThrough 0 }

/-- What the end of the contest fixes is offers and the own ROLL entry. -/
theorem fixAtContest_frame (k : RoundKind) (st : Station) (r : Round) : fixAtContest k st r =
    { r with offers := (fixAtContest k st r).offers, slotEntry := (fixAtContest k st r).slotEntry } := by
  cases k <;> rfl

theorem cellsThrough_zero (k : RoundKind) : k.cellsThrough 0 = 4 := by
  simp [RoundKind.cellsThrough, cellsWithSpacers, contestField, PassField.width]

theorem namedRound_keeps (peers : List (BitVec 3)) (st : Station) (r : Round) (k : RoundKind) :
    (namedRound peers st r k).passes = r.passes ∧ (namedRound peers st r k).counted = r.counted ∧
      (namedRound peers st r k).cells = 4 := by
  unfold namedRound
  rw [fixAtContest_frame]
  exact ⟨rfl, rfl, cellsThrough_zero k⟩

theorem namedRound_slotEntry (peers : List (BitVec 3)) (st : Station) (r : Round) {k : RoundKind} (h : k ≠ .roll) :
    (namedRound peers st r k).slotEntry = r.slotEntry := by
  cases k with
  | roll => exact absurd rfl h
  | purge | verdict | tally | opening | nothing => rfl

theorem namedRound_scope (peers : List (BitVec 3)) (st : Station) (r : Round) :
    (namedRound peers st r .purge).offers.scope = (r.counted.purge.stillHeld st.engine.requests.purge).scopeOffer := rfl

/-- R112, R137: the ONE requests that were counted and are still held. -/
theorem stillHeld_ones_scope (l m : List Seq) : (PurgeSet.stillHeld (.ones l) (.ones m)).scopeOffer =
    if l.any (fun s => m.contains s) then some 3 else none := by
  have hones : PurgeSet.stillHeld (.ones l) (.ones m) = PurgeSet.ofOnes (l.filter fun s => m.contains s) := rfl
  have hempty : (l.filter fun s => m.contains s) = [] ↔ ¬ l.any (fun s => m.contains s) = true := by
    simp [List.filter_eq_nil_iff]
  rw [hones, ofOnes_scopeOffer]
  simp only [hempty, ite_not]

/-- Settles O35: no offer, a code that names a kind, and one that names none. -/
theorem kindContestNamesKind : Obligations.KindContestNamesKind := by
  intro peers r st q hl hs hd hr hk hown offered held oldest offers
  have hf := followed_of hs hd hr
  have hfit : ∀ v ∈ offered, v < 2 ^ 3 := contestOffers_fit hown peers
  have hrun : (contestField.run r.offers.contest (peers.map (·.toNat))).result = lowPass 3 offered :=
    PassField.run_low_result hfit
  refine ⟨_, exec_live (.kindContestEnd peers) q hl, fun hnone => ?_, fun n hn hleast => ?_⟩
  · rw [hnone] at hrun
    refine ⟨namedRound peers st r .nothing, ?_, rfl, rfl, rfl⟩
    exact congrArg LineUnit.round (kindContestEnd_line_nothing hf hk hrun)
  · rw [lowPass_of_least hfit hn hleast] at hrun
    refine ⟨fun k hcode => ?_, fun hcode => ?_⟩
    · have hline := kindContestEnd_line_named hf hk hrun hcode
      obtain ⟨hpasses, hcounted, hcells⟩ := namedRound_keeps peers st r k
      refine ⟨(congrArg LineUnit.state hline).trans hs, namedRound peers st r k, congrArg LineUnit.round hline, rfl, hpasses,
        hcounted, hcells, ?_, namedRound_slotEntry peers st r, ?_, ?_, ?_, ?_⟩
      · rintro rfl
        exact ⟨rfl, rfl⟩
      · rintro rfl
        rfl
      · rintro rfl
        exact ⟨rfl, fun s ⟨hs, hheld, hold⟩ => stillHeld_offer hs hheld hold, stillHeld_noOffer⟩
      · rintro rfl
        exact ⟨rfl, fun s ⟨hs, hheld, hold⟩ => stillHeld_offer hs hheld hold, stillHeld_noOffer⟩
      · rintro rfl
        rw [namedRound_scope]
        refine ⟨rfl, fun hc => ?_, fun hc hh => ?_, fun hc hh => ?_, fun l m hc hh => ?_, fun hh => ?_⟩
        · rw [hc, stillHeld_purge_none]
          rfl
        · rw [hc, hh]
          rfl
        · rw [hc, hh]
          rfl
        · rw [hc, hh]
          exact stillHeld_ones_scope l m
        · rw [hh, stillHeld_purge_withdrawn]
          rfl
    · have hmute : commandEffect (.kindContestEnd peers) st = enterMute st := kindContestEnd_unnamed hf hk hrun hcode
      obtain ⟨hstate, hround, _, herror, _⟩ := enterMute_spec st
      rw [hmute]
      exact ⟨hstate, hround, herror⟩

end Sys2Proof.Machine

namespace Sys2Proof.Machine

/-! ## The end of a pass (R97, R116) -/

/-- R97: the round with the result of its next pass added, before what the end of that pass fixes. -/
def Round.withPass (r : Round) (k : RoundKind) (result : PassResult) : Round :=
  { r with passes := r.passes ++ [result], cells := k.cellsThrough (r.passes.length + 1) }

theorem Round.withPass_length (r : Round) (k : RoundKind) (result : PassResult) :
    (r.withPass k result).passes.length = r.passes.length + 1 := by simp [Round.withPass]

theorem passEnd_eq {peers : List (BitVec 32)} {st : Station} {r : Round} {k : RoundKind} {field : PassField}
    (hf : followed st = some r) (hk : r.kind = some k) (hfield : k.passes[r.passes.length]? = some field) :
    passEnd peers st =
      withRound (fixAtPass k st (r.withPass k (field.run (passOffer k r) (peers.map (·.toNat))))) st := by
  simp only [passEnd, hf, hk, hfield, Round.withPass]

theorem fixTallyEntry_running {st : Station} (hn : st.start.node = .running) (s : Nat) (r : Round) :
    fixTallyEntry (some s) st r = { r with slotEntry := some (.tally (ownTallyEntry st (BitVec.ofNat 16 s))) } := if_pos hn

theorem fixTallyEntry_frame (subject : Option Nat) (st : Station) (r : Round) :
    fixTallyEntry subject st r = { r with slotEntry := (fixTallyEntry subject st r).slotEntry } := by
  cases subject with
  | none => rfl
  | some s => by_cases hn : st.start.node = .running <;> simp [fixTallyEntry, hn]

theorem fixReady_held {st : Station} (hn : st.start.node = .running) {s : Nat} {x : Record}
    (hx : st.record (BitVec.ofNat 16 s) = some x) (r : Round) : fixReady (some s) st r = { r with offers := { r.offers with
      ready := some (if x.verdict.isSome then 1 else 0), verdictCode := x.verdict.map Verdict.code } } := by
  simp only [fixReady, hn, hx, if_true]

theorem fixReady_unheld {st : Station} {s : Nat} (hx : st.record (BitVec.ofNat 16 s) = none) (r : Round) :
    fixReady (some s) st r = r := by
  simp only [fixReady, hx, ite_self]

theorem fixReady_notRunning {st : Station} (hn : st.start.node ≠ .running) (subject : Option Nat) (r : Round) :
    fixReady subject st r = r := by
  cases subject with
  | none => rfl
  | some s => exact if_neg hn

theorem fixReady_frame (subject : Option Nat) (st : Station) (r : Round) :
    fixReady subject st r = { r with offers := (fixReady subject st r).offers } := by
  cases subject with
  | none => rfl
  | some s =>
    by_cases hn : st.start.node = .running
    · cases hx : st.record (BitVec.ofNat 16 s) with
      | none => rw [fixReady_unheld hx]
      | some x => rw [fixReady_held hn hx]
    · rw [fixReady_notRunning hn]

theorem fixPurgeSubject_one (st : Station) (r : Round) :
    fixPurgeSubject (some 3) st r = { r with offers := { r.offers with
      purgeSubject := (oldestSeq (r.counted.purge.stillHeld st.engine.requests.purge).subjects).map (·.toNat) } } := rfl

theorem fixPurgeSubject_other {scope : Option Nat} (h : scope ≠ some 3) (st : Station) (r : Round) :
    fixPurgeSubject scope st r = r := if_neg h

theorem fixPurgeSubject_frame (scope : Option Nat) (st : Station) (r : Round) :
    fixPurgeSubject scope st r = { r with offers := (fixPurgeSubject scope st r).offers } := by
  by_cases h : scope = some 3
  · subst h
    rfl
  · rw [fixPurgeSubject_other h]

/-- R116: only the first pass of a TALLY, VERDICT or PURGE round fixes anything. -/
theorem fixAtPass_later {k : RoundKind} {r : Round} (st : Station) (h : r.passes.length ≠ 1) : fixAtPass k st r = r := by
  unfold fixAtPass
  split
  · next hfirst => exact absurd hfirst h
  · next hfirst => exact absurd hfirst h
  · next hfirst => exact absurd hfirst h
  · rfl

theorem fixAtPass_tally {r : Round} (st : Station) (h : r.passes.length = 1) :
    fixAtPass .tally st r = fixTallyEntry (r.result 0) st r := by simp only [fixAtPass, h]

theorem fixAtPass_verdict {r : Round} (st : Station) (h : r.passes.length = 1) :
    fixAtPass .verdict st r = fixReady (r.result 0) st r := by simp only [fixAtPass, h]

theorem fixAtPass_purge {r : Round} (st : Station) (h : r.passes.length = 1) :
    fixAtPass .purge st r = fixPurgeSubject (r.result 0) st r := by simp only [fixAtPass, h]

/-- R116: what the end of a pass can fix: the own entry in a TALLY round, offers in a VERDICT or PURGE round. -/
theorem fixAtPass_cases (k : RoundKind) (st : Station) (r : Round) :
    (k = .tally ∧ fixAtPass k st r = { r with slotEntry := (fixAtPass k st r).slotEntry }) ∨
    ((k = .verdict ∨ k = .purge) ∧ fixAtPass k st r = { r with offers := (fixAtPass k st r).offers }) ∨
    ((k = .roll ∨ k = .opening ∨ k = .nothing) ∧ fixAtPass k st r = r) := by
  by_cases h : r.passes.length = 1
  · cases k with
    | tally => rw [fixAtPass_tally st h]; exact .inl ⟨rfl, fixTallyEntry_frame ..⟩
    | verdict => rw [fixAtPass_verdict st h]; exact .inr (.inl ⟨.inl rfl, fixReady_frame ..⟩)
    | purge => rw [fixAtPass_purge st h]; exact .inr (.inl ⟨.inr rfl, fixPurgeSubject_frame ..⟩)
    | roll | opening | nothing => exact .inr (.inr ⟨by simp, rfl⟩)
  · rw [fixAtPass_later st h]
    cases k <;> simp

/-- What the end of a pass fixes is offers and the own entry. -/
theorem fixAtPass_keeps (k : RoundKind) (st : Station) (r : Round) :
    (fixAtPass k st r).passes = r.passes ∧ (fixAtPass k st r).kind = r.kind ∧ (fixAtPass k st r).contest = r.contest ∧
      (fixAtPass k st r).slotRead = r.slotRead ∧ (fixAtPass k st r).counted = r.counted ∧
      (fixAtPass k st r).cells = r.cells := by
  rcases fixAtPass_cases k st r with ⟨_, h⟩ | ⟨_, h⟩ | ⟨_, h⟩ <;> rw [h] <;> exact ⟨rfl, rfl, rfl, rfl, rfl, rfl⟩

theorem fixAtPass_slotEntry {k : RoundKind} (hk : k ≠ .tally) (st : Station) (r : Round) :
    (fixAtPass k st r).slotEntry = r.slotEntry := by
  rcases fixAtPass_cases k st r with ⟨h, _⟩ | ⟨_, h⟩ | ⟨_, h⟩
  · exact absurd h hk
  · rw [h]
  · rw [h]

theorem fixAtPass_offers {k : RoundKind} (hk : k = .roll ∨ k = .opening ∨ k = .tally) (st : Station) (r : Round) :
    (fixAtPass k st r).offers = r.offers := by
  rcases fixAtPass_cases k st r with ⟨_, h⟩ | ⟨hother, _⟩ | ⟨_, h⟩
  · rw [h]
  · rcases hother with rfl | rfl <;> simp at hk
  · rw [h]

/-- The subject pass is the only pass of a TALLY round. -/
theorem tally_firstPass {n : Nat} {field : PassField} (h : RoundKind.tally.passes[n]? = some field) : n = 0 := by
  obtain ⟨hn, _⟩ := List.getElem?_eq_some_iff.1 h
  exact Nat.lt_one_iff.1 hn

/-- R116: the oldest of the ONE subjects counted at the opening that are still held is offered. -/
theorem stillHeld_ones_subjects (l m : List Seq) :
    (PurgeSet.stillHeld (.ones l) (.ones m)).subjects = l.filter fun s => m.contains s := ofOnes_subjects _

theorem stillHeld_ones_offer {l m : List Seq} {s : Seq} (hl : s ∈ l) (hm : s ∈ m)
    (h : ∀ u ∈ l, u ∈ m → u = s ∨ olderSeq s u = true) :
    (oldestSeq (PurgeSet.stillHeld (.ones l) (.ones m)).subjects).map (·.toNat) = some s.toNat := by
  rw [stillHeld_ones_subjects, oldestSeq_of_oldest (s := s) (by simp [hl, hm])]
  · rfl
  · intro u hu
    obtain ⟨hul, hum⟩ := List.mem_filter.1 hu
    exact h u hul (by simpa using hum)

theorem stillHeld_ones_noOffer {l m : List Seq} (h : ∀ s ∈ l, s ∉ m) :
    (oldestSeq (PurgeSet.stillHeld (.ones l) (.ones m)).subjects).map (·.toNat) = none := by
  have hnil : (l.filter fun s => m.contains s) = [] := by simpa [List.filter_eq_nil_iff] using h
  rw [stillHeld_ones_subjects, hnil, oldestSeq_nil]
  rfl

/-! ## The offers of a VERDICT round and the cell counts (R95, R133) -/

theorem passOffer_verdict (r : Round) : (r.passes.length = 0 → passOffer .verdict r = r.offers.verdictSubject) ∧
    (r.passes.length = 1 → passOffer .verdict r = r.offers.ready) ∧
    (2 ≤ r.passes.length → passOffer .verdict r = if r.result 1 = some 0 then none else r.offers.verdictCode) := by
  refine ⟨fun h => by simp only [passOffer, h], fun h => by simp only [passOffer, h], fun h => ?_⟩
  obtain ⟨n, hn⟩ := Nat.exists_eq_add_of_le' h
  simp only [passOffer, hn, readyResult, bne_iff_ne, ne_eq, ite_not]

theorem cellsThrough_eq (k : RoundKind) (n : Nat) : k.cellsThrough n =
    4 + ((k.passes.take n).map fun f => 1 + f.width).sum + (4 + ((k.passes.take n).map fun f => 1 + f.width).sum - 1) / 8 := rfl

/-! ## What the station drives in a round (R89, R95) -/

section

variable {st : Station} {r : Round} {k : RoundKind} {heard : List Bool}

theorem fieldStart_contest (hk : r.kind = none) : r.fieldStart = 0 := by simp only [Round.fieldStart, hk]

theorem fieldStart_body (hk : r.kind = some k) :
    r.fieldStart = 4 + ((k.passes.take r.passes.length).map fun f => 1 + f.width).sum := by
  simp only [Round.fieldStart, hk, contestField, PassField.width]

/-- R95: no spacer is driven. -/
theorem gradeLineDriven_spacer (hl : st.heldInReset = false) (hs : st.line.state = .inRound) (hd : st.line.longDrive = false)
    (hr : st.line.round = some r) (hspacer : heard.length % 9 = 8) : st.gradeLineDriven heard = false := by
  rw [gradeLineDriven_inRound hl hs hd hr]
  simp [hspacer]

/-- In a place that is no spacer the field that is being sent decides, once its first cell is reached. -/
theorem gradeLineDriven_field (hl : st.heldInReset = false) (hs : st.line.state = .inRound) (hd : st.line.longDrive = false)
    (hr : st.line.round = some r) (hcell : heard.length % 9 ≠ 8) (hstart : r.fieldStart ≤ (withoutSpacers heard).length) :
    st.gradeLineDriven heard = r.drives st.start.index ((withoutSpacers heard).drop r.fieldStart) := by
  rw [gradeLineDriven_inRound hl hs hd hr]
  simp [hcell, hstart]

theorem drives_contest (hk : r.kind = none) (index : Index) (read : List Bool) :
    r.drives index read = contestField.drives r.offers.contest read := by simp only [Round.drives, hk]

theorem drives_pass {field : PassField} (hk : r.kind = some k) (hfield : k.passes[r.passes.length]? = some field) (index : Index)
    (read : List Bool) : r.drives index read = field.drives (passOffer k r) read := by simp only [Round.drives, hk, hfield]

end

/-- Settles O36: the end of a pass, the offers of a VERDICT round, the cell counts, and the cells driven. -/
theorem passEndAddsResult : Obligations.PassEndAddsResult := by
  refine ⟨fun peers r k field st q hl hs hd hr hk hfield => ?_, passOffer_verdict, cellsThrough_eq,
    fun r st heard hl hs hd hr => ⟨gradeLineDriven_spacer hl hs hd hr, fun hcell => ⟨fun hk => ?_, fun k field hk hfield => ?_⟩⟩⟩
  · set ended := r.withPass k (field.run (passOffer k r) (peers.map (·.toNat))) with hended
    have hlength : ended.passes.length = r.passes.length + 1 := r.withPass_length k _
    have hfirst : r.passes = [] → ended.passes.length = 1 := fun h => by rw [hlength, h]; rfl
    have hlater : r.passes ≠ [] → fixAtPass k st ended = ended := fun h =>
      fixAtPass_later st fun hone => h (List.eq_nil_of_length_eq_zero (by omega))
    obtain ⟨hpasses, hkind, hcontest, hread, hcounted, hcells⟩ := fixAtPass_keeps k st ended
    have hresult : (fixAtPass k st ended).result 0 = ended.result 0 := by unfold Round.result; rw [hpasses]
    refine ⟨fixAtPass k st ended, ?_, hpasses, hkind, hcontest, hread, hcounted, hcells, ?_, fun hk => fixAtPass_slotEntry hk st _,
      fun hk => fixAtPass_offers hk st _, ?_, ?_, ?_, ?_⟩
    · rw [exec_live (.passEnd peers) q hl]
      exact congrArg (fun t => Host.Outcome.next (⟨t, q⟩ : State)) (passEnd_eq (followed_of hs hd hr) hk hfield)
    · rintro rfl hn s hsubject
      have hone : ended.passes.length = 1 := by rw [hlength, tally_firstPass hfield]
      rw [hresult] at hsubject
      rw [fixAtPass_tally st hone, hsubject, fixTallyEntry_running hn]
    · rintro rfl hnil hn s hsubject
      rw [hresult] at hsubject
      rw [fixAtPass_verdict st (hfirst hnil), hsubject]
      refine ⟨fun rec hrec => ?_, fun hrec => ?_⟩
      · rw [fixReady_held hn hrec]
        rfl
      · rw [fixReady_unheld hrec]
        rfl
    · rintro rfl hkept
      by_cases hnil : r.passes = []
      · have hn : st.start.node ≠ .running := hkept.resolve_left fun h => h hnil
        rw [fixAtPass_verdict st (hfirst hnil), fixReady_notRunning hn]
        rfl
      · rw [hlater hnil]
        rfl
    · rintro rfl hkept
      by_cases hnil : r.passes = []
      · have hscope : ended.result 0 ≠ some 3 := hresult ▸ hkept.resolve_left fun h => h hnil
        rw [fixAtPass_purge st (hfirst hnil), fixPurgeSubject_other hscope]
        rfl
      · rw [hlater hnil]
        rfl
    · rintro rfl hnil hscope l m hl hm
      have hsame : ended.counted.purge = .ones l := hl
      rw [hresult] at hscope
      rw [fixAtPass_purge st (hfirst hnil), hscope, fixPurgeSubject_one, hsame, hm]
      exact ⟨fun s => stillHeld_ones_offer, stillHeld_ones_noOffer⟩
  · have hstart := fieldStart_contest hk
    rw [gradeLineDriven_field hl hs hd hr hcell (by rw [hstart]; exact Nat.zero_le _), hstart, drives_contest hk]
    rfl
  · intro start hreached
    have hstart : r.fieldStart = start := fieldStart_body hk
    rw [gradeLineDriven_field hl hs hd hr hcell (by rw [hstart]; exact hreached), hstart, drives_pass hk hfield]

/-! ## The own slot (R100, R109) -/

/-- The first two mismatches in a row lead to MUTE with the count raised. -/
theorem ownSlotMismatch_counts {st : Station} {r : Round} (ho : ownSlot st = some r) (h : st.line.mismatch < 2)
    (straps : Straps) :
    ownSlotMismatch straps st = enterMute { st with line := { st.line with mismatch := st.line.mismatch + 1 } } := by
  have hlimit : ¬ Config.mismatchLimit ≤ st.line.mismatch + 1 := by unfold Config.mismatchLimit; omega
  simp only [ownSlotMismatch, ho, if_neg hlimit]

/-- The third is the index fault restart. -/
theorem ownSlotMismatch_restarts {st : Station} {r : Round} (ho : ownSlot st = some r) (h : st.line.mismatch = 2)
    (straps : Straps) : ownSlotMismatch straps st = Station.resetWith straps true st.edge.pin st.scan.frame := by
  have hlimit : Config.mismatchLimit ≤ st.line.mismatch + 1 := by rw [h]; exact Nat.le_refl 3
  simp only [ownSlotMismatch, ho, if_pos hlimit]

theorem ownSlotReadBack_eq {st : Station} {r : Round} {k : RoundKind} (ho : ownSlot st = some r) (hk : r.kind = some k) :
    ownSlotReadBack st = { st with line := { st.line with
      mismatch := 0, round := some { r with slotRead := true, cells := k.cellsThroughSlot st.start.index } } } := by
  simp only [ownSlotReadBack, ho, hk, Option.getD_some]

/-- Past the passes the slots are the last field. -/
theorem drives_slots {r : Round} {k : RoundKind} (hk : r.kind = some k) (hp : r.passes.length = k.passes.length)
    (index : Index) (read : List Bool) : r.drives index read = match r.slotEntry with
      | some entry => slotDrives (k.slotCells * index.val) entry.cells read
      | none => false := by
  have hpast : k.passes[r.passes.length]? = none := List.getElem?_eq_none (Nat.le_of_eq hp.symm)
  cases he : r.slotEntry <;> simp only [Round.drives, hk, hpast, he]

/-- A station drives nothing before its slot and nothing past its last cell. -/
theorem slotDrives_outside {start : Nat} {own read : List Bool}
    (h : read.length < start ∨ start + own.length ≤ read.length) : slotDrives start own read = false := by
  unfold slotDrives
  rcases h with h | h
  · simp [Nat.not_le.2 h]
  · have hpast : own[read.length - start]? = none := List.getElem?_eq_none (by omega)
    simp [hpast]

/-- Cells of one length are read as sent exactly where they are the same cells. -/
theorem zip_all_beq_iff {sent read : List Bool} (rest : List Bool) (h : read.length = sent.length) :
    (((sent ++ rest).zip read).all fun cell => cell.1 == cell.2) = true ↔ read = sent := by
  induction sent generalizing read with
  | nil => simp [List.eq_nil_of_length_eq_zero h]
  | cons cell sent ih =>
    cases read with
    | nil => simp at h
    | cons wire read =>
      have htail := ih (Nat.succ.inj h)
      simp only [List.cons_append, List.zip_cons_cons, List.all_cons, Bool.and_eq_true, beq_iff_eq, htail, List.cons.injEq]
      exact and_congr_left' eq_comm

/-- R100: with as many cells read as stand before `rest`, the next cell is driven where it is a 0 and these read as sent. -/
theorem slotDrives_iff {start : Nat} {sent rest read : List Bool} (hstart : start ≤ read.length)
    (h : (read.drop start).length = sent.length) : slotDrives start (sent ++ rest) read = true ↔
      rest.head? = some false ∧ read.drop start = sent := by
  have hslot : slotDrives start (sent ++ rest) read = (decide (start ≤ read.length) &&
      (sent ++ rest)[read.length - start]? == some false &&
        ((sent ++ rest).zip (read.drop start)).all fun cell => cell.1 == cell.2) := rfl
  have hnext : (sent ++ rest)[read.length - start]? = rest.head? := by
    rw [← List.length_drop, h, List.getElem?_append_right (Nat.le_refl _), Nat.sub_self, List.head?_eq_getElem?]
  rw [hslot, hnext, Bool.and_eq_true, Bool.and_eq_true, zip_all_beq_iff rest h]
  simp [hstart]

/-- Settles O37: the read-back and the mismatches, then the cells driven from the end of the passes on. -/
theorem ownSlotCountsMismatches : Obligations.OwnSlotCountsMismatches := by
  refine ⟨fun straps r k st q hl ho hk => ?_, fun r k st heard hl hs hd hr hk hp => ?_⟩
  · simp only [exec_live _ q hl, commandEffect]
    refine ⟨by rw [ownSlotReadBack_eq ho hk], fun h => ⟨_, rfl, ?_⟩, fun h => ⟨_, rfl, ?_⟩⟩
    · obtain ⟨hstate, hround, hcapture, herror, _⟩ :=
        enterMute_spec { st with line := { st.line with mismatch := st.line.mismatch + 1 } }
      rw [ownSlotMismatch_counts ho h]
      exact ⟨hstate, enterMute_mismatch _, hround, hcapture, herror⟩
    · rw [ownSlotMismatch_restarts ho h]
      exact resetWith_resetFrom straps true st
  · intro start body
    have hfield : start = r.fieldStart + k.slotCells * st.start.index.val := by
      rw [fieldStart_body hk, hp, List.take_length]
    have hdriven : st.gradeLineDriven heard = (decide (heard.length % 9 ≠ 8 ∧ r.fieldStart ≤ body.length) &&
        r.drives st.start.index (body.drop r.fieldStart)) := gradeLineDriven_inRound hl hs hd hr heard
    rw [drives_slots hk hp] at hdriven
    refine ⟨fun he => by rw [hdriven, he, Bool.and_false], fun entry he => ?_⟩
    simp only [he] at hdriven
    refine ⟨fun houtside => ?_, fun sent rest hcell hstart hcells => ?_⟩
    · rw [hdriven, Bool.and_eq_false_iff]
      by_cases hreached : r.fieldStart ≤ body.length
      · refine .inr (slotDrives_outside ?_)
        rw [List.length_drop]
        omega
      · exact .inl (decide_eq_false fun h => hreached h.2)
    · have hreached : r.fieldStart ≤ body.length := by omega
      have hdrop : (body.drop r.fieldStart).drop (k.slotCells * st.start.index.val) = body.drop start := by
        rw [List.drop_drop, hfield]
      have hslot : (body.drop start).length = sent.length →
          (st.gradeLineDriven heard = true ↔ rest.head? = some false ∧ body.drop start = sent) := fun hlength => by
        rw [hdriven, decide_eq_true (And.intro hcell hreached), Bool.true_and, hcells,
          slotDrives_iff (by rw [List.length_drop]; omega) (by rw [hdrop]; exact hlength), hdrop]
      refine ⟨fun hsent => ?_, fun hlength hne => ?_⟩
      · rw [hslot (congrArg List.length hsent)]
        exact and_iff_left hsent
      · rw [Bool.eq_false_iff, ne_eq, hslot hlength]
        exact fun h => hne h.2

end Sys2Proof.Machine

namespace Sys2Proof.Machine

/-! ## Hold marks (R112, R131, R132) -/

/-- The TALLY requests held for a subject. -/
def Requests.tallyOf (q : Requests) (s : Seq) : List Held := q.tally.filter fun h => h.subject == s

/-- A request with the hold mark set where it is for the subject. -/
def Held.marked (s : Seq) (b : Bool) (h : Held) : Held := if h.subject = s then { h with heldBack := b } else h

theorem markTally_tally (s : Seq) (b : Bool) (q : Requests) : (q.markTally s b).tally = q.tally.map (Held.marked s b) := rfl

theorem markVerdict_verdict (s : Seq) (b : Bool) (q : Requests) :
    (q.markVerdict s b).verdict = q.verdict.map (Held.marked s b) := rfl

theorem marked_of_ne {s : Seq} {b : Bool} {h : Held} (hs : h.subject ≠ s) : h.marked s b = h := if_neg hs

/-- A request after the marks are set is one of the subject with that mark, or one of another subject from before. -/
theorem mem_map_marked {s : Seq} {b : Bool} {l : List Held} {h : Held} (hh : h ∈ l.map (Held.marked s b)) :
    h.subject = s ∧ h.heldBack = b ∨ h.subject ≠ s ∧ h ∈ l := by
  obtain ⟨x, hx, rfl⟩ := List.mem_map.1 hh
  by_cases hs : x.subject = s
  · rw [Held.marked, if_pos hs]
    exact .inl ⟨hs, rfl⟩
  · rw [marked_of_ne hs]
    exact .inr ⟨hs, hx⟩

theorem mem_map_marked_of_ne {s : Seq} {b : Bool} {l : List Held} {h : Held} (hh : h ∈ l) (hs : h.subject ≠ s) :
    h ∈ l.map (Held.marked s b) := List.mem_map.2 ⟨h, hh, marked_of_ne hs⟩

/-- A TALLY request raised (R131): the subject's have a clear mark, the others are those from before. -/
theorem mem_raiseTally_cases {s : Seq} {q : Requests} {h : Held} (hh : h ∈ (q.raiseTally s).tally) :
    h.subject = s ∧ h.heldBack = false ∨ h.subject ≠ s ∧ h ∈ q.tally := by
  unfold Requests.raiseTally at hh
  split at hh
  · exact mem_map_marked hh
  · next hnone =>
    rcases List.mem_append.1 hh with hh | hh
    · exact .inr ⟨fun hs => hnone (List.any_eq_true.2 ⟨h, hh, by simpa using hs⟩), hh⟩
    · rw [List.mem_singleton.1 hh]
      exact .inl ⟨rfl, rfl⟩

theorem tallyOf_subjects (q : Requests) (s : Seq) :
    (q.tallyOf s).map (·.subject) = (q.tally.map (·.subject)).filter (· == s) := by
  rw [List.filter_map]; rfl

theorem markTally_tallyOf_subjects (s : Seq) (b : Bool) (q : Requests) :
    ((q.markTally s b).tallyOf s).map (·.subject) = (q.tallyOf s).map (·.subject) := by
  rw [tallyOf_subjects, tallyOf_subjects, markTally_subjects]

/-! ## The requests of a subject under the completeness test (R20) -/

/-- What the completeness tests of a TALLY round leave of the requests: TALLY requests only leave, VERDICT requests only come. -/
structure TestedRequests (a b : Requests) : Prop where
  tally : ∀ h ∈ b.tally, h ∈ a.tally
  verdict : ∀ h ∈ a.verdict, h ∈ b.verdict

theorem TestedRequests.refl (q : Requests) : TestedRequests q q := ⟨fun _ h => h, fun _ h => h⟩

theorem TestedRequests.trans {a b c : Requests} (h : TestedRequests a b) (k : TestedRequests b c) : TestedRequests a c :=
  ⟨fun x hx => h.tally x (k.tally x hx), fun x hx => k.verdict x (h.verdict x hx)⟩

theorem completeRecord_tested (u : Seq) (st : Station) :
    TestedRequests st.engine.requests (completeRecord false u st).engine.requests := by
  cases hr : st.record u with
  | none =>
    rw [completeRecord_none hr]
    exact .refl _
  | some r =>
    by_cases hc : r.phase = .gathering ∧ recordComplete st.engine.peers r = true
    · rw [completeRecord_complete hr hc]
      obtain ⟨htally, hverdict, _⟩ := complete_requests r.frozen u st.engine.requests
      exact ⟨fun h hh => (htally h hh).1, hverdict⟩
    · rw [completeRecord_incomplete hr hc]
      exact .refl _

theorem completeAll_tested (st : Station) : TestedRequests st.engine.requests (completeAll st).engine.requests := by
  unfold completeAll
  generalize st.table.map (·.seq) = l
  induction l generalizing st with
  | nil => exact .refl _
  | cons u l ih => exact (completeRecord_tested u st).trans (ih _)

theorem complete_tallyOf_other {s u : Seq} (h : u ≠ s) (frozen : Bool) (q : Requests) :
    (q.complete false frozen u).tallyOf s = q.tallyOf s := by
  have hdrop : (q.dropTally u).tallyOf s = q.tallyOf s := by
    unfold Requests.tallyOf Requests.dropTally
    rw [List.filter_filter]
    refine List.filter_congr fun x _ => ?_
    by_cases hx : x.subject = s <;> simp [hx, h.symm]
  cases frozen with
  | true => exact hdrop
  | false =>
    rw [← hdrop]
    exact congrArg (List.filter _) (Requests.raiseVerdict_tally u false _)

/-- The tests keep the TALLY requests of a record that they do not complete. -/
theorem completeRecord_tallyOf {s u : Seq} {st : Station} {r : Record} (hr : st.record s = some r)
    (hn : ¬ r.completeFor st.engine.peers) :
    (completeRecord false u st).engine.requests.tallyOf s = st.engine.requests.tallyOf s := by
  by_cases hu : u = s
  · subst hu
    rw [completeRecord_incomplete hr hn]
  · cases hx : st.record u with
    | none => rw [completeRecord_none hx]
    | some x =>
      by_cases hc : x.phase = .gathering ∧ recordComplete st.engine.peers x = true
      · rw [completeRecord_complete hx hc]
        exact complete_tallyOf_other hu x.frozen st.engine.requests
      · rw [completeRecord_incomplete hx hc]

theorem completeAll_tallyOf {s : Seq} {st : Station} {r : Record} (hr : st.record s = some r)
    (hn : ¬ r.completeFor st.engine.peers) :
    (completeAll st).engine.requests.tallyOf s = st.engine.requests.tallyOf s := by
  unfold completeAll
  generalize st.table.map (·.seq) = l
  induction l generalizing st with
  | nil => rfl
  | cons u l ih =>
    have hkept : (completeRecord false u st).record s = some r := by
      have h := completeRecord_record_cases (u := u) hr False ⟨False.elim, fun h => hn h.2⟩
      rwa [if_neg id] at h
    rw [List.foldl_cons, ih hkept (by rwa [(completeRecord_frame false u st).peers]), completeRecord_tallyOf hr hn]

/-! ## The subject record before its requests are settled (R127 to R131) -/

/-- The station as a TALLY round has stored its entries and made the completeness tests. -/
def tallyTested (s : Seq) (readings : Eight (Reading TallyEntry)) (st : Station) : Station :=
  completeAll (slotsSettled s readings st)

/-- R127: the answer for a subject follows the own band alone. -/
theorem ownTallyEntry_of_band {a b : Station} {s : Seq} {x y : Record} (hx : a.record s = some x) (hy : b.record s = some y)
    (h : x.band = y.band) : ownTallyEntry a s = ownTallyEntry b s := by
  unfold ownTallyEntry
  simp only [hx, hy, h]

theorem slotsSettled_requests (s : Seq) (readings : Eight (Reading TallyEntry)) (st : Station) :
    (slotsSettled s readings st).engine.requests = st.engine.requests := by
  rw [(slotsSettled_spec s readings st).same]

theorem tallyTested_requests (s : Seq) (readings : Eight (Reading TallyEntry)) (st : Station) :
    TestedRequests st.engine.requests (tallyTested s readings st).engine.requests := by
  have h := completeAll_tested (slotsSettled s readings st)
  rwa [slotsSettled_requests] at h

/-- The subject record as it is tested: the own band is the one from before, and where the record is still GATHERING, its TALLY
requests are those from before. -/
theorem tallyTested_record {s : Seq} (readings : Eight (Reading TallyEntry)) {st : Station} {rec : Record}
    (hr : st.record s = some rec) : ∃ b, (tallyTested s readings st).record s = some b ∧ b.band = rec.band ∧
      (b.phase = .gathering →
        (tallyTested s readings st).engine.requests.tallyOf s = st.engine.requests.tallyOf s) := by
  have hx := slotsSettled_record (readings := readings) hr
  obtain ⟨_, _, hsame⟩ := readChanged_spec st.engine.peers readings rec
  generalize (rec.readFrom st.engine.peers readings).gatheringChanged (fun _ => false)
    (removedMember readings st.engine.peers) = x at hx hsame
  have hband : x.band = rec.band := by rw [hsame]
  classical
  have hb := completeAll_record hx (x.completeFor (slotsSettled s readings st).engine.peers) Iff.rfl
  refine ⟨_, hb, ?_⟩
  obtain ⟨_, htband, _, _, _, htphase⟩ := tallied_fixed (slotsSettled s readings st).shared x
  by_cases hc : x.completeFor (slotsSettled s readings st).engine.peers
  · rw [if_pos hc]
    exact ⟨htband.trans hband, fun hg => by rw [htphase] at hg; cases hg⟩
  · rw [if_neg hc]
    exact ⟨hband, fun _ => (completeAll_tallyOf hx hc).trans (by rw [slotsSettled_requests])⟩

/-! ## The requests of the subject after a TALLY round (R114, R131, R132, R135) -/

/-- The requests as the subject's TALLY request is raised again, held back, or kept. -/
def Requests.asked (s : Seq) (raised same : Bool) (q : Requests) : Requests :=
  if raised then q.raiseTally s else if same then q.markTally s true else q

theorem asked_verdict (s : Seq) (raised same : Bool) (q : Requests) : (q.asked s raised same).verdict = q.verdict := by
  unfold Requests.asked
  split
  · exact Requests.raiseTally_verdict s q
  · split <;> rfl

theorem mem_asked_of_ne {s : Seq} {raised same : Bool} {q : Requests} {h : Held} (hh : h ∈ (q.asked s raised same).tally)
    (hs : h.subject ≠ s) : h ∈ q.tally := by
  unfold Requests.asked at hh
  split at hh
  · exact ((mem_raiseTally_cases hh).resolve_left fun c => hs c.1).2
  · split at hh
    · exact ((mem_map_marked hh).resolve_left fun c => hs c.1).2
    · exact hh

theorem asked_raised (s : Seq) (same : Bool) (q : Requests) : q.asked s true same = q.raiseTally s := rfl

theorem asked_same (s : Seq) (q : Requests) : q.asked s false true = q.markTally s true := rfl

theorem asked_kept (s : Seq) (q : Requests) : q.asked s false false = q := rfl

/-- The requests that a TALLY round leaves, by the phase of the subject record after the tests. -/
def Requests.settled (s : Seq) (phase : Phase) (raised same : Bool) (q : Requests) : Requests :=
  let asked := q.asked s raised (phase == .gathering && same)
  (if phase = .tallied then asked.dropTally s else asked).markVerdict s false

theorem withRequests_asked (s : Seq) (raised same : Bool) (st : Station) : withRequests (Requests.asked s raised same) st =
    if raised then withRequests (Requests.raiseTally s) st
    else if same then withRequests (Requests.markTally s true) st else st := by
  cases raised
  · cases same <;> rfl
  · rfl

theorem settleTally_requests {s : Seq} {st : Station} {b : Record} (hb : st.record s = some b) (raised : Bool)
    (sent : TallyEntry) : (settleTally s raised sent st).engine.requests =
      st.engine.requests.settled s b.phase raised (decide (ownTallyEntry st s = sent)) := by
  unfold settleTally Requests.settled
  simp only [← withRequests_asked, record_withRequests, hb, Option.any_some, beq_iff_eq]
  split <;> rfl

section

variable {s : Seq} {phase : Phase} {raised same : Bool} {q : Requests}

/-- While the record is still GATHERING, its TALLY requests are the ones raised again, held back, or kept. -/
theorem settled_tally_gathering : (q.settled s .gathering raised same).tally = (q.asked s raised same).tally := by
  simp [Requests.settled, Requests.markVerdict]

/-- R114: no TALLY request names a TALLIED record. -/
theorem settled_tally_tallied {h : Held} (hh : h ∈ (q.settled s .tallied raised same).tally) : h.subject ≠ s := by
  simpa using (List.mem_filter.1 hh).2

theorem mem_settled_of_ne {h : Held} (hh : h ∈ (q.settled s phase raised same).tally) (hs : h.subject ≠ s) : h ∈ q.tally := by
  unfold Requests.settled at hh
  split at hh
  · exact mem_asked_of_ne (List.mem_filter.1 hh).1 hs
  · exact mem_asked_of_ne hh hs

theorem settled_verdict : (q.settled s phase raised same).verdict = q.verdict.map (Held.marked s false) := by
  unfold Requests.settled
  rw [markVerdict_verdict]
  split <;> exact congrArg _ (asked_verdict s raised _ q)

end

theorem damagedRaise_iff {s : Seq} {members : Index → Bool} {readings : Eight (Reading TallyEntry)} {st : Station} {b : Record}
    (hb : st.record s = some b) : damagedRaise s members readings st = true ↔
      b.phase = .gathering ∧ ∃ k, members k = true ∧ readings.get k = .damaged := by
  simp [damagedRaise, hb, mem_indices]

/-- Settles O40: the requests as the tests leave them, then the subject's raised again, held back, kept or dropped. -/
theorem holdMarksAfterTallyRound : Obligations.HoldMarksAfterTallyRound := by
  intro slots r sent subject st q hl hc h0 h1 hn s readings damaged hheld
  obtain ⟨rec, hrec⟩ := Option.isSome_iff_exists.1 hheld
  let tested := tallyTested s readings (toGuard st)
  let raised := damagedRaise s (fun k => (st.engine.peers.get k).isSome) readings tested
  have hexec : exec (.tallyRoundComplete slots) ⟨st, q⟩ = .next ⟨settleTally s raised sent tested, q⟩ := by
    rw [exec_live _ q hl]
    simp only [commandEffect, completeTally_running hc h0 h1 hn hrec]
    rfl
  obtain ⟨b, hb, hband, hkept⟩ := tallyTested_record (st := toGuard st) readings hrec
  obtain ⟨hfewer, hmore⟩ := tallyTested_requests s readings (toGuard st)
  have hown : ownTallyEntry tested s = ownTallyEntry st s := ownTallyEntry_of_band hb hrec hband
  have hraise : raised = true ↔ b.phase = .gathering ∧ damaged := damagedRaise_iff hb
  have hundamaged : ¬ damaged → raised = false := fun hd => Bool.eq_false_iff.2 fun h => hd (hraise.1 h).2
  have hsettled := settleTally_requests hb raised sent
  rw [hown] at hsettled
  refine ⟨_, b, hexec, ?_, ?_⟩
  · obtain ⟨left, hleft⟩ := settleTally_same s raised sent tested
    rw [hleft]
    exact hb
  rw [hsettled]
  refine ⟨fun hg hd => ?_, fun hg hd hsame => ?_, fun hg hd => ?_, fun ht h hh => ?_, fun h hh hs => ?_, fun h hh hs => ?_,
    fun h hh hs => ?_⟩
  · rw [hg, settled_tally_gathering, hraise.2 ⟨hg, hd⟩, asked_raised]
    exact ⟨raiseTally_mem s _, fun h hh hs => ((mem_raiseTally_cases hh).resolve_right fun c => c.1 hs).2⟩
  · rw [hg, settled_tally_gathering, hundamaged hd, decide_eq_true hsame, asked_same]
    exact fun h hh hs => ((mem_map_marked hh).resolve_right fun c => c.1 hs).2
  · rw [hg, settled_tally_gathering, hundamaged hd]
    by_cases hsame : ownTallyEntry st s = sent
    · rw [decide_eq_true hsame, asked_same]
      exact ⟨(markTally_tallyOf_subjects s true _).trans (congrArg _ (hkept hg)), fun hne => absurd hsame hne⟩
    · rw [decide_eq_false hsame, asked_kept]
      exact ⟨congrArg _ (hkept hg), fun _ => hkept hg⟩
  · rw [ht] at hh
    exact settled_tally_tallied hh
  · exact hfewer h (mem_settled_of_ne hh hs)
  · rw [settled_verdict] at hh
    exact ((mem_map_marked hh).resolve_right fun c => c.1 hs).2
  · rw [settled_verdict]
    exact mem_map_marked_of_ne (hmore h hh) hs

end Sys2Proof.Machine

namespace Sys2Proof.Machine

/-! ## What leaves the Start-up Unit as it is -/

/-- A change of the station made only where a condition holds. -/
theorem ite_start {c : Prop} [Decidable c] {f : Station → Station} (hf : ∀ x, (f x).start = x.start) (st : Station) :
    (if c then f st else st).start = st.start := by
  split
  · exact hf st
  · rfl

theorem foldl_start {α : Type} {f : Station → α → Station} (hf : ∀ st x, (f st x).start = st.start) (l : List α)
    (st : Station) : (l.foldl f st).start = st.start :=
  List.foldlRecOn l f (motive := fun x => x.start = st.start) rfl fun x hx y _ => (hf x y).trans hx

theorem presenceInput_start (held : Bool) (st : Station) : (presenceInput held st).start = st.start := by
  unfold presenceInput
  split
  · rfl
  · simp only
    split
    · exact (takeChange_frame _).start
    · rfl

theorem encoderStep_start (dir : Direction) (st : Station) : (encoderStep dir st).start = st.start := by
  cases dir with
  | forward => exact (encoderStep_forwardStep st).start
  | reverse => exact (encoderStep_reverseStep st).start

theorem gateCompare_start (st : Station) : (commandEffect .gateCompare st).start = st.start := by
  simp only [commandEffect]
  split
  · exact (takeDue_frame _ st).start
  · rfl

theorem sampleCompletion_start (raw : BitVec 10) (st : Station) : (sampleCompletion raw st).start = st.start := by
  unfold sampleCompletion
  split
  · simp only
    split
    · split
      · exact (headTakes_start _).trans (testClosing_frame _ _).start
      · exact (testClosing_frame _ _).start
    · rfl
    · rfl
  · rfl

theorem reportArrives_start (r : Report) (st : Station) : (reportArrives r st).start = st.start := by
  unfold reportArrives
  split
  · simp only
    split
    · exact headTakes_start _
    · rfl
  · rfl

theorem frameEnd_start (bits : List Bool) (st : Station) : (frameEnd bits st).start = st.start := by
  unfold frameEnd
  simp only
  split
  · rfl
  · rfl
  · split
    · rfl
    · rfl
    · exact reportArrives_start _ _

theorem frameDriven_start (st : Station) : (frameDriven st).start = st.start := by
  unfold frameDriven
  split <;> rfl

theorem dropRound_start (st : Station) : (dropRound st).start = st.start := (deferredTest_frame _).start

theorem enterMute_start (st : Station) : (enterMute st).start = st.start := dropRound_start st

theorem quietJoin_start (st : Station) : (quietJoin st).start = st.start := by
  unfold quietJoin
  split <;> rfl

theorem roundOpen_start (st : Station) : (roundOpen st).start = st.start := by
  unfold roundOpen
  split <;> rfl

theorem listen_start (st : Station) : (listen st).start = st.start := by
  unfold listen
  split <;> rfl

theorem openingPulseEnd_start (length : Nat) (st : Station) : (openingPulseEnd length st).start = st.start := by
  unfold openingPulseEnd
  split
  · simp only
    split
    · split
      · exact enterMute_start st
      · rfl
    · split <;> rfl
  · rfl

theorem alignmentPattern_start (first second third : Nat) (st : Station) :
    (alignmentPattern first second third st).start = st.start := by
  unfold alignmentPattern
  split
  · simp only
    split
    · rfl
    · exact enterMute_start st
  · rfl

theorem kindContestEnd_start (peers : List (BitVec 3)) (st : Station) : (kindContestEnd peers st).start = st.start := by
  unfold kindContestEnd
  split
  · rfl
  · split
    · simp only
      split
      · split
        · rfl
        · exact (deferredTest_frame _).start
      · split
        · split
          · rfl
          · exact (deferredTest_frame _).start
        · exact enterMute_start st
    · rfl

theorem passEnd_start (peers : List (BitVec 32)) (st : Station) : (passEnd peers st).start = st.start := by
  unfold passEnd
  split
  · rfl
  · split
    · rfl
    · split <;> rfl

theorem ownSlotReadBack_start (st : Station) : (ownSlotReadBack st).start = st.start := by
  unfold ownSlotReadBack
  split <;> rfl

theorem longDriveReleased_start (st : Station) : (longDriveReleased st).start = st.start := ite_start enterMute_start st

theorem bodyEdge_start (time : Nat) (st : Station) : (bodyEdge time st).start = st.start := by
  unfold bodyEdge
  split
  · rfl
  · split
    · rfl
    · exact enterMute_start st

theorem lineError_start (fault : WireFault) (st : Station) : (lineError fault st).start = st.start := by
  cases fault with
  | openingDrive => exact ite_start enterMute_start st
  | pattern => exact ite_start enterMute_start st
  | edge time => exact bodyEdge_start time st
  | drivenReadsReleased => exact ite_start enterMute_start st
  | valueWithoutOffer => exact ite_start enterMute_start st

theorem longDriveStart_start (st : Station) : (longDriveStart st).start = st.start := by
  unfold longDriveStart
  split <;> rfl

theorem breakReceived_start (st : Station) : (breakReceived st).start = st.start := by
  unfold breakReceived
  simp only
  split
  · rfl
  · rfl
  all_goals exact dropRound_start st

theorem breakWireReleased_start (st : Station) : (breakWireReleased st).start = st.start := by
  unfold breakWireReleased
  split <;> rfl

theorem sendBreak_start (st : Station) : (sendBreak st).start = st.start := by
  unfold sendBreak
  split <;> rfl

theorem breakSendEnd_start (heard : Bool) (st : Station) : (breakSendEnd heard st).start = st.start := by
  unfold breakSendEnd
  split
  · split <;> rfl
  · rfl

theorem guardEnd_start (st : Station) : (guardEnd st).start = st.start := by
  unfold guardEnd
  split <;> rfl

/-! ## Rounds and the Start-up Unit -/

theorem completeNone_start (st : Station) : (completeNone st).start = st.start := by
  unfold completeNone
  split
  · rfl
  · split
    · rfl
    · split
      · exact kindContestEnd_start [] st
      · rfl

theorem countOpenRound_start (st : Station) : (countOpenRound st).start = st.start := (countOpenRound_same st).start

theorem refuseCreation_start (st : Station) : (refuseCreation st).start = st.start := by
  unfold refuseCreation
  rw [headTakes_start, raiseCause_start, (enterBlanked_frame _).start]

theorem storeCreationCompare_start (id : CompareId) (pos : Pos) (st : Station) :
    (storeCreationCompare id pos st).start = st.start := by
  unfold storeCreationCompare
  split <;> rfl

theorem takeDueGates_start (st : Station) : (takeDueGates st).start = st.start :=
  foldl_start (fun x s => (takeDueGate_frame x s).start) _ st

theorem createRecord_start (result : Pos) (st : Station) : (createRecord result st).start = st.start := by
  unfold createRecord
  simp only
  rw [ite_start (f := fun x => dispatch _ (takeDueGates x)) fun x => (dispatch_frame _ _).start.trans (takeDueGates_start x)]
  rw [ite_start fun x => (takeDecision_frame _ x).start, ite_start fun x => (takeEmpty_frame _ x).start, headTakes_start,
    (attachTest_frame _).start, storeCreationCompare_start, storeCreationCompare_start, storeCreationCompare_start]

theorem completeOpen_start (st : Station) : (completeOpen st).start = st.start := by
  unfold completeOpen
  split
  · rfl
  · simp only
    split
    · have hc : (countOpenRound (withRequests (fun q => { q with opening := false }) (toGuard st))).start = st.start :=
        countOpenRound_start _
      split
      · exact (attachTest_frame _).start.trans hc
      · split
        · exact (refuseCreation_start _).trans hc
        · exact (createRecord_start _ _).trans hc
    · exact (deferredTest_frame _).start

theorem takeSlot_start (s : Seq) (readings : Eight (Reading TallyEntry)) (st : Station) (k : Index) :
    (takeSlot s readings st k).start = st.start := by
  unfold takeSlot
  split <;> rfl

theorem removeMembers_start (st : Station) : (removeMembers st).start = st.start := by
  unfold removeMembers
  simp only
  split <;> rfl

theorem settleTally_start (s : Seq) (raised : Bool) (sent : TallyEntry) (st : Station) :
    (settleTally s raised sent st).start = st.start := by
  obtain ⟨q, h⟩ := settleTally_same s raised sent st
  rw [h]

theorem tallyEffects_start (s : Seq) (sent : TallyEntry) (slots : List (BitVec 448)) (st : Station) :
    (tallyEffects s sent slots st).start = st.start := by
  unfold tallyEffects
  simp only
  rw [settleTally_start, (completeAll_frame _).start, removeMembers_start, foldl_start fun x k => takeSlot_start s _ x k]

theorem completeTally_start (slots : List (BitVec 448)) (st : Station) : (completeTally slots st).start = st.start := by
  unfold completeTally
  split
  · rfl
  · simp only
    split
    · split
      · exact tallyEffects_start _ _ _ _
      · rfl
    · rfl

theorem decideRecord_start (s : Seq) (low high : Nat) (st : Station) : (decideRecord s low high st).start = st.start := by
  unfold decideRecord
  split
  · rfl
  · split <;> rfl

theorem verdictEffects_start (r : Round) (s : Seq) (st : Station) : (verdictEffects r s st).start = st.start := by
  unfold verdictEffects
  split
  · split
    · exact decideRecord_start _ _ _ st
    · rfl
  · split <;> rfl

theorem completeVerdict_start (st : Station) : (completeVerdict st).start = st.start := by
  unfold completeVerdict
  split
  · rfl
  · simp only
    split
    · rfl
    · split
      · exact verdictEffects_start _ _ _
      · rfl

theorem purgeEdge_start (b : Bool) (st : Station) : (purgeEdge b st).start = st.start := by
  unfold purgeEdge
  simp only
  split
  · exact (enterBlanked_frame _).start
  · split <;> rfl

theorem purgeAll_start (st : Station) : (purgeAll st).start = st.start := by
  unfold purgeAll
  simp only
  rw [withRequests_start]
  exact (purgeEdge_start _ _).trans (purgeFold_frame _ st).start

theorem purgeOpen_start (st : Station) : (purgeOpen st).start = st.start := by
  unfold purgeOpen
  simp only
  rw [withRequests_start]
  split
  · rfl
  · exact (headTakes_start _).trans (purgeFold_frame _ st).start

theorem purgeOne_start (s : Seq) (st : Station) : (purgeOne s st).start = st.start := by
  unfold purgeOne
  rw [withRequests_start]
  exact ite_start (f := fun x => headTakes (purgeRecord x s))
    (fun x => (headTakes_start _).trans (removeRecord_frame _ _ s x).start) st

theorem completePurge_start (st : Station) : (completePurge st).start = st.start := by
  unfold completePurge
  split
  · rfl
  · simp only
    split
    · split
      · exact purgeAll_start _
      · exact purgeOpen_start _
      · exact purgeOne_start _ _
      · rfl
    · rfl

theorem readResultShiftedOut_start (st : Station) : (readResultShiftedOut st).start = st.start := by
  unfold readResultShiftedOut
  split <;> rfl

theorem readCauseShiftedOut_start (st : Station) : (readCauseShiftedOut st).start = st.start := by
  unfold readCauseShiftedOut
  split <;> rfl

theorem requestPurge_start (scope : Byte) (s : Seq) (st : Station) : (requestPurge scope s st).start = st.start := by
  unfold requestPurge
  split
  · rfl
  · exact raisePurge_start _ st

theorem requestRoll_start (st : Station) : (requestRoll st).start = st.start := by
  unfold requestRoll
  split <;> rfl

theorem unknownCommand_start (code : Byte) (st : Station) : (unknownCommand code st).start = st.start := by
  unfold unknownCommand
  split <;> rfl

end Sys2Proof.Machine

namespace Sys2Proof.Machine

/-! ## The blocks before JOINING (R174) -/

/-- What `Station.offLineQuiet` asks of the blocks in LOADING and CONFIG_FAULT (`offLineQuiet_iff`). -/
structure BlocksQuiet (st : Station) : Prop where
  edgeState : st.edge.state = .idle
  pending : st.edge.pending = none
  testDeferred : st.edge.testDeferred = false
  compares : st.position.compares = []
  reports : st.scan.fifo = []
  frame : st.scan.frame ≠ .taken
  probe : st.probe = ProbeUnit.reset
  lineState : st.line.state = .off
  longDrive : st.line.longDrive = false
  table : st.table = []
  requests : st.engine.requests = Requests.none
  window : st.outlet.window = none
  results : st.port.fifo = []

theorem offLineQuiet_iff (st : Station) : st.offLineQuiet ↔ (st.start.node.onLine = false → BlocksQuiet st) :=
  forall_congr' fun _ => ⟨fun ⟨h1, h2, h3, h4, h5, h6, h7, h8, h9, h10, h11, h12, h13⟩ =>
    ⟨h1, h2, h3, h4, h5, h6, h7, h8, h9, h10, h11, h12, h13⟩,
    fun ⟨h1, h2, h3, h4, h5, h6, h7, h8, h9, h10, h11, h12, h13⟩ =>
      ⟨h1, h2, h3, h4, h5, h6, h7, h8, h9, h10, h11, h12, h13⟩⟩

theorem resetWith_quiet (straps : Straps) (mark pin : Bool) (frame : Frame) :
    BlocksQuiet (Station.resetWith straps mark pin frame) :=
  have hframe : (ScanUnit.reset frame).frame ≠ .taken := by cases frame <;> simp [ScanUnit.reset]
  ⟨rfl, rfl, rfl, rfl, rfl, hframe, rfl, rfl, rfl, rfl, rfl, rfl, rfl⟩

theorem supplyLow_quiet (st : Station) : BlocksQuiet (supplyLow st) :=
  { resetWith_quiet ⟨st.start.index, st.start.outlet⟩ false st.edge.pin st.scan.frame with }

/-! ## What a command does to the Start-up Unit (R174, R178 to R180) -/

/-- What one command can do to the Start-up Unit: a reset takes it to LOADING, with every block quiet, a failed read to
CONFIG_FAULT, a read of an image that passes every test to JOINING with that image. Any other command keeps configuration, digest
and fault reason, and changes the node state at a round only, to RUNNING or MISMATCH. -/
inductive StartChange (a b : Station) : Prop
  | kept (config : b.start.config = a.start.config) (digest : b.start.digest = a.start.digest)
      (fault : b.start.fault = a.start.fault)
      (node : b.start.node = a.start.node ∨ a.line.state = .inRound ∧ b.start.node.onLine = true)
  | reset (straps : Straps) (readPos : Option Nat) (start : b.start = { StartUnit.reset straps with readPos := readPos })
      (quiet : BlocksQuiet b)
  | faulted (before : a.start.node = .loading) (node : b.start.node = .configFault) (config : b.start.config = a.start.config)
      (digest : b.start.digest = a.start.digest) (fault : b.start.fault.isSome = true)
  | joined (c : Loaded) (before : a.start.node = .loading) (node : b.start.node = .joining)
      (config : b.start.config = some c) (digest : b.start.digest.isSome = true) (fault : b.start.fault = a.start.fault)
      (range : fieldsInRange c.shared c.loc = true) (distances : distancesOrdered c.shared = true)
      (grades : gradeTableOrdered c.shared.gradeTable = true)

theorem StartChange.ofSame {a b : Station} (h : b.start = a.start) : StartChange a b :=
  .kept (by rw [h]) (by rw [h]) (by rw [h]) (.inl (by rw [h]))

theorem enterConfigFault_startChange (reason : FaultReason) {st : Station} (h : st.start.node = .loading) :
    StartChange st (enterConfigFault reason st) :=
  .faulted h rfl rfl rfl rfl

theorem headerRead_startChange (header : List Byte) (st : Station) :
    StartChange st (headerRead header st) := by
  unfold headerRead
  split
  · next h =>
    split
    · exact enterConfigFault_startChange _ h.1
    · exact .kept rfl rfl rfl (.inl rfl)
  · exact .ofSame rfl

/-- R178: an image without a fault has its fields in range and its distances and grade table in order. -/
theorem sectionsFault_none {checkWord : BitVec 16} {sections : List Byte} (h : sectionsFault checkWord sections = none) :
    let b := sectionBytes sections
    fieldsInRange (readShared b) (readLocal b) = true ∧ distancesOrdered (readShared b) = true ∧
      gradeTableOrdered (readShared b).gradeTable = true := by
  unfold sectionsFault at h
  simp only at h
  split at h
  · cases h
  · split at h
    · cases h
    · next hr =>
      split at h
      · cases h
      · next hd =>
        split at h
        · cases h
        · next hg => exact ⟨by simpa using hr, by simpa using hd, by simpa using hg⟩

theorem watchBand_start (st : Station) : (watchBand st).start = st.start := by
  unfold watchBand
  split <;> rfl

theorem enterJoining_start (bytes : List Byte) (st : Station) : (enterJoining bytes st).start = { st.start with
    node := .joining, readPos := none, checkWord := none, config := some ⟨readShared bytes, readLocal bytes⟩,
    digest := some (digest32 (bytes.take Config.sharedLength)) } := by
  unfold enterJoining
  simp only
  rw [raiseRoll_start, watchBand_start]

theorem enterJoining_startChange {bytes : List Byte} {st : Station} (h : st.start.node = .loading)
    (range : fieldsInRange (readShared bytes) (readLocal bytes) = true)
    (distances : distancesOrdered (readShared bytes) = true)
    (grades : gradeTableOrdered (readShared bytes).gradeTable = true) : StartChange st (enterJoining bytes st) := by
  have hs := enterJoining_start bytes st
  exact .joined ⟨readShared bytes, readLocal bytes⟩ h (by rw [hs]) (by rw [hs]) (by rw [hs]; rfl) (by rw [hs])
    range distances grades

theorem readEnd_startChange (sections : List Byte) (st : Station) :
    StartChange st (readEnd sections st) := by
  unfold readEnd
  split
  · next h =>
    split
    · exact enterConfigFault_startChange _ h.1
    · split
      · exact enterConfigFault_startChange _ h.1
      · next hf =>
        obtain ⟨hr, hd, hg⟩ := sectionsFault_none hf
        exact enterJoining_startChange h.1 hr hd hg
  · exact .ofSame rfl

theorem ownSlotMismatch_startChange (straps : Straps) (st : Station) :
    StartChange st (ownSlotMismatch straps st) := by
  unfold ownSlotMismatch
  split
  · exact .ofSame rfl
  · split
    · exact .reset straps _ rfl (resetWith_quiet ..)
    · exact .ofSame (enterMute_start _)

theorem completing_inRound {k : RoundKind} {st : Station} {r : Round} (h : completing k st = some r) :
    st.line.state = .inRound := by
  unfold completing at h
  split at h
  · cases h
  · next x hx => exact (followed_spec hx).1

theorem rollEffects_start (alignment sequence : Nat) (entry : RollEntry) (slots : List (BitVec 52)) (order : List CompareId)
    (st : Station) : (rollEffects alignment sequence entry slots order st).start = { st.start with
      node := if agreement entry.digest (rollReadings st.start.index entry slots) then .running else .mismatch } := by
  unfold rollEffects
  simp only
  rw [(settleRoll_settled _ _ _ _).start, (applyAgreement_agreed _ _).start]
  simp only
  rw [(applyAlignment_frame _ _ _).start]
  rfl

theorem completeRoll_startChange (slots : List (BitVec 52)) (order : List CompareId) (st : Station) :
    StartChange st (completeRoll slots order st) := by
  unfold completeRoll
  split
  · exact .ofSame rfl
  · next r hr =>
    split
    · refine .kept ?_ ?_ ?_ (.inr ⟨completing_inRound hr, ?_⟩) <;> rw [rollEffects_start]
      simp only
      split <;> rfl
    · exact .ofSame rfl

/-- What any command does to the Start-up Unit. -/
theorem commandEffect_startChange (c : Instr) (st : Station) :
    StartChange st (commandEffect c st) := by
  cases c with
  | powerOnReset straps => exact .reset straps _ rfl (resetWith_quiet ..)
  | resetPin straps => exact .reset straps _ rfl (resetWith_quiet ..)
  | supplyBelowRange => exact .reset _ _ rfl (supplyLow_quiet st)
  | configHeaderRead header => exact headerRead_startChange header st
  | configReadEnd sections => exact readEnd_startChange sections st
  | ownSlotMismatch straps => exact ownSlotMismatch_startChange straps st
  | rollRoundComplete slots order => exact completeRoll_startChange slots order st
  | restartMarkEnd => exact .ofSame rfl
  | encoderStep dir => exact .ofSame (encoderStep_start dir st)
  | encoderDoubleTransition => exact .ofSame rfl
  | triggerPulseEnd => exact .ofSame rfl
  | presenceAppears => exact .ofSame (presenceInput_start true st)
  | presenceLost => exact .ofSame (presenceInput_start false st)
  | qualificationCompare => exact .ofSame (takeDue_frame _ st).start
  | bridgingCompare => exact .ofSame (takeDue_frame _ st).start
  | blankReleaseCompare => exact .ofSame (takeDue_frame _ st).start
  | overlengthCompare => exact .ofSame (takeDue_frame _ st).start
  | emptyCompare seq => exact .ofSame (takeDue_frame _ st).start
  | lagCompare seq => exact .ofSame (takeDue_frame _ st).start
  | decisionCompare seq => exact .ofSame (takeDue_frame _ st).start
  | gateCompare => exact .ofSame (gateCompare_start st)
  | gateWindowEndCompare => exact .ofSame (takeDue_frame _ st).start
  | sampleCompare => exact .ofSame (takeDue_frame _ st).start
  | settleEnd => exact .ofSame rfl
  | sampleCompletion raw => exact .ofSame (sampleCompletion_start raw st)
  | warmUpExpiry => exact .ofSame rfl
  | parkExpiry => exact .ofSame rfl
  | scanFrameEnd bits => exact .ofSame (frameEnd_start bits st)
  | lineQuietJoin => exact .ofSame (quietJoin_start st)
  | roundOpen => exact .ofSame (roundOpen_start st)
  | openingPulseEnd length => exact .ofSame (openingPulseEnd_start length st)
  | alignmentPatternAccepted first second third => exact .ofSame (alignmentPattern_start first second third st)
  | kindContestEnd peers => exact .ofSame (kindContestEnd_start peers st)
  | passEnd peers => exact .ofSame (passEnd_start peers st)
  | ownSlotReadBack => exact .ofSame (ownSlotReadBack_start st)
  | lineError fault => exact .ofSame (lineError_start fault st)
  | longDriveStart => exact .ofSame (longDriveStart_start st)
  | longDriveReleased => exact .ofSame (longDriveReleased_start st)
  | breakReceived => exact .ofSame (breakReceived_start st)
  | breakWireReleased => exact .ofSame (breakWireReleased_start st)
  | muteQuietCountFull => exact .ofSame (sendBreak_start st)
  | breakSendEnd heard => exact .ofSame (breakSendEnd_start heard st)
  | guardEnd => exact .ofSame (guardEnd_start st)
  | roundCompleteNone => exact .ofSame (completeNone_start st)
  | openRoundComplete => exact .ofSame (completeOpen_start st)
  | tallyRoundComplete slots => exact .ofSame (completeTally_start slots st)
  | verdictRoundComplete => exact .ofSame (completeVerdict_start st)
  | purgeRoundComplete => exact .ofSame (completePurge_start st)
  | readResult => exact .ofSame rfl
  | readResultShiftedOut => exact .ofSame (readResultShiftedOut_start st)
  | readStatus => exact .ofSame rfl
  | readCause => exact .ofSame rfl
  | readCauseShiftedOut => exact .ofSame (readCauseShiftedOut_start st)
  | requestPurge scope seq => exact .ofSame (requestPurge_start scope seq st)
  | requestRoll => exact .ofSame (requestRoll_start st)
  | unknownCommand code => exact .ofSame (unknownCommand_start code st)
  | scanFrameDriven => exact .ofSame (frameDriven_start st)
  | openingAsListener => exact .ofSame (listen_start st)
  | resultPortSelectReleased => exact .ofSame rfl

end Sys2Proof.Machine

namespace Sys2Proof.Machine

/-! ## Changes that leave the blocks quiet -/

namespace BlocksQuiet

variable {a b : Station}

theorem ofSame (h : BlocksQuiet a) (hb : b = a) : BlocksQuiet b := hb ▸ h

theorem ofPosition (h : BlocksQuiet a) (p : PositionUnit) (hp : p.compares = a.position.compares) :
    BlocksQuiet { a with position := p } := { h with compares := hp.trans h.compares }

theorem ofEdge (h : BlocksQuiet a) (e : EdgeUnit) (hs : e.state = a.edge.state) (hp : e.pending = a.edge.pending)
    (ht : e.testDeferred = a.edge.testDeferred) : BlocksQuiet { a with edge := e } :=
  { h with edgeState := hs.trans h.edgeState, pending := hp.trans h.pending, testDeferred := ht.trans h.testDeferred }

theorem ofFrame (h : BlocksQuiet a) (f : Frame) (hf : f ≠ .taken) :
    BlocksQuiet { a with scan := { a.scan with frame := f } } := { h with frame := hf }

theorem ofPort (h : BlocksQuiet a) (p : ResultPort) (hp : p.fifo.length ≤ a.port.fifo.length) :
    BlocksQuiet { a with port := p } :=
  { h with results := List.length_eq_zero_iff.1 (Nat.le_zero.1 (by simpa [h.results] using hp)) }

theorem ofQuietCount (h : BlocksQuiet a) (n : Nat) : BlocksQuiet { a with line := { a.line with quiet := n } } := { h with }

end BlocksQuiet

/-! ## Commands at a quiet station -/

section

variable {st : Station}

theorem takeDue_noCompares (id : CompareId) (h : st.position.compares = []) : takeDue id st = st :=
  if_neg (by simp [PositionUnit.isDue, h])

theorem gateCompare_noRecords (h : st.table = []) : commandEffect .gateCompare st = st := by
  simp [commandEffect, oldestGateDue, h]

theorem followed_off (h : st.line.state = .off) : followed st = none := if_neg fun c => by rw [h] at c; cases c.1

theorem completing_off (k : RoundKind) (h : st.line.state = .off) : completing k st = none := by
  simp only [completing, followed_off h]

theorem ownSlot_off (h : st.line.state = .off) : ownSlot st = none := by
  simp only [ownSlot, followed_off h]

theorem lineError_off (fault : WireFault) (h : st.line.state = .off) : lineError fault st = st := by
  cases fault <;> simp [lineError, bodyEdge, followed_off h, h]

theorem sampleCompletion_reset (raw : BitVec 10) (h : st.probe = ProbeUnit.reset) : sampleCompletion raw st = st :=
  if_neg (by rw [h]; decide)

theorem setProbe_reset {p : ProbeUnit} (h : st.probe = ProbeUnit.reset) (hp : p = ProbeUnit.reset) :
    { st with probe := p } = st := by
  rw [hp, ← h]

/-- R39: before JOINING a change of presence is kept by the pin alone. -/
theorem presenceInput_offLine (held : Bool) (hn : st.start.node.onLine = false) :
    presenceInput held st = st ∨ presenceInput held st = st.pinned := by
  by_cases h : st.presenceHeld = held
  · exact .inl (if_pos h)
  · exact .inr (presenceInput_still (Bool.eq_not_of_ne h) (.inr hn))

/-- Before JOINING a resume ends the freeze and takes no compare. -/
theorem resumeEdge_offLine (hn : st.start.node.onLine = false) : resumeEdge st = st.unfrozen := by
  unfold resumeEdge
  split
  · simp only [hn, Bool.false_eq_true, if_false]
    rfl
  · next h => exact (unfrozen_of_not_frozen (Bool.eq_false_iff.2 h)).symm

theorem onLine_of_running (h : st.start.node = .running) : st.start.node.onLine = true := by rw [h]; rfl

end

namespace BlocksQuiet

variable {a : Station} (hn : a.start.node.onLine = false) (h : BlocksQuiet a)

include h

theorem probeStep_eq (w p : Byte) : a.probe.encoderStep w p = ProbeUnit.reset := by rw [h.probe]; rfl

theorem markDue : BlocksQuiet (Machine.markDue a) :=
  h.ofPosition _ (by simp [PositionUnit.markReached, h.compares])

theorem movedOn : BlocksQuiet a.movedOn :=
  { h.ofPosition { a.position with counter := a.position.counter + 1, direction := .forward } rfl with
    probe := h.probeStep_eq _ _ }

theorem advanced : BlocksQuiet a.advanced := h.movedOn.ofPosition _ rfl

theorem movedBack : BlocksQuiet a.movedBack :=
  { (h.ofPosition { a.position with counter := a.position.counter - 1, direction := .reverse,
                                    reverseTravel := satAdd a.position.reverseTravel 1 } rfl).ofEdge
      { a.edge with frozen := true } rfl rfl rfl with
    probe := h.probeStep_eq _ _ }

include hn

/-- A forward step before JOINING gives no trigger and takes no change of presence. -/
theorem stepForward : BlocksQuiet (Machine.stepForward a) := by
  rw [stepForward_eq]
  refine BlocksQuiet.markDue ?_
  split
  · have hstart : a.advanced.start.node.onLine = false := hn
    rw [triggerTest_none (by simp [hstart]), resumeEdge_offLine hstart]
    exact h.advanced.ofEdge _ rfl rfl rfl
  · exact h.movedOn

/-- A reverse step before JOINING raises no PURGE request. -/
theorem stepReverse : BlocksQuiet (Machine.stepReverse a) := by
  rw [stepReverse_eq, if_neg fun c => by rw [onLine_of_running c.1] at hn; cases hn]
  exact h.movedBack

theorem encoderStep (dir : Direction) : BlocksQuiet (Machine.encoderStep dir a) := by
  unfold Machine.encoderStep
  rw [takeAllDue_none [] (by simp [h.compares])]
  cases dir with
  | forward => exact h.stepForward hn
  | reverse => exact h.stepReverse hn

theorem presenceInput (held : Bool) : BlocksQuiet (Machine.presenceInput held a) := by
  rcases presenceInput_offLine held hn with he | he
  · exact h.ofSame he
  · rw [he]; exact h.ofEdge _ rfl rfl rfl

/-- R53: a frame driven before JOINING is ignored. -/
theorem frameDriven : BlocksQuiet (Machine.frameDriven a) := by
  unfold Machine.frameDriven
  split
  · exact h.ofFrame _ (by simp [hn])
  · exact h

theorem requestRoll : BlocksQuiet (Machine.requestRoll a) := by
  unfold Machine.requestRoll
  rw [if_neg (by simp [hn])]
  exact h.ofPort _ le_rfl

theorem requestPurge (scope : Byte) (s : Seq) : BlocksQuiet (Machine.requestPurge scope s a) := by
  unfold Machine.requestPurge
  rw [if_neg fun c => by rw [onLine_of_running c] at hn; cases hn]
  exact h.ofPort _ le_rfl

theorem quietJoin : BlocksQuiet (Machine.quietJoin a) :=
  h.ofSame (if_neg fun c => by rw [c.2] at hn; cases hn)

omit hn

theorem frameEnd (bits : List Bool) : BlocksQuiet (Machine.frameEnd bits a) := by
  unfold Machine.frameEnd
  simp only
  split
  · exact h
  · exact h.ofFrame _ (by simp)
  · next c => exact absurd c h.frame

theorem readResultShiftedOut : BlocksQuiet (Machine.readResultShiftedOut a) := by
  unfold Machine.readResultShiftedOut
  split
  · exact h.ofPort _ (by simp [ResultPort.removeHead, ResultPort.levelResultReady])
  · exact h.ofPort _ le_rfl
  · exact h
  · exact h

theorem readCauseShiftedOut : BlocksQuiet (Machine.readCauseShiftedOut a) := by
  unfold Machine.readCauseShiftedOut
  split
  · exact h.ofPort _ le_rfl
  · exact h.ofPort _ le_rfl
  · exact h
  · exact h

theorem unknownCommand (code : Byte) : BlocksQuiet (Machine.unknownCommand code a) := by
  unfold Machine.unknownCommand
  split
  · exact h.ofPort _ le_rfl
  · exact h

theorem enterConfigFault (reason : FaultReason) : BlocksQuiet (Machine.enterConfigFault reason a) := { h with }

theorem headerRead (header : List Byte) : BlocksQuiet (Machine.headerRead header a) := by
  unfold Machine.headerRead
  split
  · split
    · exact h.enterConfigFault _
    · exact { h with }
  · exact h

/-- R178: the end of the read leaves the blocks quiet, or the station is JOINING. -/
theorem readEnd (sections : List Byte) :
    BlocksQuiet (Machine.readEnd sections a) ∨ (Machine.readEnd sections a).start.node.onLine = true := by
  unfold Machine.readEnd
  split
  · split
    · exact .inl (h.enterConfigFault _)
    · split
      · exact .inl (h.enterConfigFault _)
      · exact .inr (by rw [enterJoining_start]; rfl)
  · exact .inl h

include hn

/-- R174: in LOADING and CONFIG_FAULT every command leaves the blocks quiet, but the read that ends in JOINING. -/
theorem commandEffect (c : Instr) :
    BlocksQuiet (Machine.commandEffect c a) ∨ (Machine.commandEffect c a).start.node.onLine = true := by
  have hoff := h.lineState
  have hf := followed_off hoff
  have his : ∀ {s : LineState}, a.line.state = s → s = .off := fun hs => hs.symm.trans hoff
  cases c with
  | configReadEnd sections => exact h.readEnd sections
  | configHeaderRead header => exact .inl (h.headerRead header)
  | powerOnReset straps => exact .inl (resetWith_quiet ..)
  | resetPin straps => exact .inl (resetWith_quiet ..)
  | supplyBelowRange => exact .inl (supplyLow_quiet a)
  | restartMarkEnd => exact .inl (h.ofPosition _ (markEnd_compares _))
  | triggerPulseEnd => exact .inl (h.ofPosition _ (pulseEnd_compares _))
  | encoderStep dir => exact .inl (h.encoderStep hn dir)
  | encoderDoubleTransition => exact .inl h
  | presenceAppears => exact .inl (h.presenceInput hn true)
  | presenceLost => exact .inl (h.presenceInput hn false)
  | qualificationCompare => exact .inl (h.ofSame (takeDue_noCompares _ h.compares))
  | bridgingCompare => exact .inl (h.ofSame (takeDue_noCompares _ h.compares))
  | blankReleaseCompare => exact .inl (h.ofSame (takeDue_noCompares _ h.compares))
  | overlengthCompare => exact .inl (h.ofSame (takeDue_noCompares _ h.compares))
  | emptyCompare seq => exact .inl (h.ofSame (takeDue_noCompares _ h.compares))
  | lagCompare seq => exact .inl (h.ofSame (takeDue_noCompares _ h.compares))
  | decisionCompare seq => exact .inl (h.ofSame (takeDue_noCompares _ h.compares))
  | gateCompare => exact .inl (h.ofSame (gateCompare_noRecords h.table))
  | gateWindowEndCompare => exact .inl (h.ofSame (takeDue_noCompares _ h.compares))
  | sampleCompare => exact .inl (h.ofSame (takeDue_noCompares _ h.compares))
  | settleEnd => exact .inl (h.ofSame (setProbe_reset h.probe (by rw [h.probe]; rfl)))
  | sampleCompletion raw => exact .inl (h.ofSame (sampleCompletion_reset raw h.probe))
  | warmUpExpiry => exact .inl (h.ofSame (setProbe_reset h.probe (by rw [h.probe]; rfl)))
  | parkExpiry => exact .inl (h.ofSame (setProbe_reset h.probe (by rw [h.probe]; rfl)))
  | scanFrameDriven => exact .inl (h.frameDriven hn)
  | scanFrameEnd bits => exact .inl (h.frameEnd bits)
  | lineQuietJoin => exact .inl (h.quietJoin hn)
  | roundOpen => exact .inl (h.ofSame (if_neg fun c => by cases his c.1))
  | openingAsListener => exact .inl (h.ofSame (if_neg fun c => by cases his c.1))
  | openingPulseEnd length => exact .inl (h.ofSame (if_neg fun c => by cases his c.1))
  | alignmentPatternAccepted first second third => exact .inl (h.ofSame (if_neg fun c => by cases his c.1))
  | kindContestEnd peers => exact .inl (h.ofSame (by simp only [Machine.commandEffect, Machine.kindContestEnd, hf]))
  | passEnd peers => exact .inl (h.ofSame (by simp only [Machine.commandEffect, passEnd, hf]))
  | ownSlotReadBack =>
    exact .inl (h.ofSame (by simp only [Machine.commandEffect, ownSlotReadBack, ownSlot_off hoff]))
  | ownSlotMismatch straps =>
    exact .inl (h.ofSame (by simp only [Machine.commandEffect, ownSlotMismatch, ownSlot_off hoff]))
  | lineError fault => exact .inl (h.ofSame (lineError_off fault hoff))
  | longDriveStart => exact .inl (h.ofSame (if_neg (by simp [longDriveBegins, hoff])))
  | longDriveReleased => exact .inl (h.ofSame (if_neg (by simp [h.longDrive])))
  | breakReceived => exact .inl ((h.ofQuietCount 0).ofSame (breakReceived_off hoff))
  | breakWireReleased => exact .inl (h.ofSame (if_neg fun c => by cases his c.1))
  | muteQuietCountFull => exact .inl (h.ofSame (if_neg fun c => by cases his c))
  | breakSendEnd heard => exact .inl (h.ofSame (if_neg fun c => by cases his c.1))
  | guardEnd => exact .inl (h.ofSame (if_neg fun c => by cases his c.1))
  | roundCompleteNone => exact .inl (h.ofSame (by simp only [Machine.commandEffect, completeNone, hf]))
  | rollRoundComplete slots order =>
    exact .inl (h.ofSame (by simp only [Machine.commandEffect, completeRoll, completing_off _ hoff]))
  | openRoundComplete =>
    exact .inl (h.ofSame (by simp only [Machine.commandEffect, completeOpen, completing_off _ hoff]))
  | tallyRoundComplete slots =>
    exact .inl (h.ofSame (by simp only [Machine.commandEffect, completeTally, completing_off _ hoff]))
  | verdictRoundComplete =>
    exact .inl (h.ofSame (by simp only [Machine.commandEffect, completeVerdict, completing_off _ hoff]))
  | purgeRoundComplete =>
    exact .inl (h.ofSame (by simp only [Machine.commandEffect, completePurge, completing_off _ hoff]))
  | readResult => exact .inl (h.ofPort _ le_rfl)
  | readResultShiftedOut => exact .inl h.readResultShiftedOut
  | readStatus => exact .inl (h.ofPort _ le_rfl)
  | readCause => exact .inl (h.ofPort _ le_rfl)
  | readCauseShiftedOut => exact .inl h.readCauseShiftedOut
  | requestPurge scope seq => exact .inl (h.requestPurge hn scope seq)
  | requestRoll => exact .inl (h.requestRoll hn)
  | unknownCommand code => exact .inl (h.unknownCommand code)
  | resultPortSelectReleased => exact .inl (h.ofPort _ le_rfl)

end BlocksQuiet

end Sys2Proof.Machine

namespace Sys2Proof.Machine

/-! ## The node state with configuration, digest, fault reason and blocks -/

namespace StartChange

variable {a b : Station}

/-- The node state stays on one side of JOINING, but for a reset and the end of the configuration read. -/
theorem startFits (h : StartChange a b) (hq : a.offLineQuiet) (ha : a.startFits) : b.startFits := by
  obtain ⟨hconfig, hdigest, hfault⟩ := ha
  have hnoFault : a.start.node ≠ .configFault → a.start.fault = none := fun hne =>
    Option.not_isSome_iff_eq_none.1 fun hs => hne (hfault.1 hs)
  cases h with
  | kept config digest fault node =>
    rcases node with node | ⟨hround, node⟩
    · simp only [Station.startFits, config, digest, fault, node]
      exact ⟨hconfig, hdigest, hfault⟩
    · have hon : a.start.node.onLine = true := by
        by_contra hoff
        have hline := ((offLineQuiet_iff a).1 hq (Bool.eq_false_iff.2 hoff)).lineState
        rw [hround] at hline
        cases hline
      have hnone : a.start.fault = none := hnoFault fun hc => by rw [hc] at hon; cases hon
      refine ⟨by rw [config, hconfig, hon, node], by rw [digest, hdigest, hon, node], fun hs => ?_, fun hc => ?_⟩
      · rw [fault, hnone] at hs; cases hs
      · rw [hc] at node; cases node
  | reset straps readPos start quiet =>
    simp only [Station.startFits, start]
    exact ⟨rfl, rfl, nofun, nofun⟩
  | faulted before node config digest fault =>
    have hoff : a.start.node.onLine = b.start.node.onLine := by rw [before, node]; rfl
    exact ⟨by rw [config, hconfig, hoff], by rw [digest, hdigest, hoff], iff_of_true fault node⟩
  | joined c before node config digest fault =>
    have hnone : a.start.fault = none := hnoFault (by rw [before]; nofun)
    simp only [Station.startFits, config, digest, fault, hnone, node]
    exact ⟨rfl, rfl, nofun, nofun⟩

/-- From JOINING on only a reset leads back to LOADING. -/
theorem quiet_of_onLine (h : StartChange a b) (ha : a.start.node.onLine = true) (hb : b.start.node.onLine = false) :
    BlocksQuiet b := by
  cases h with
  | kept config digest fault node =>
    rcases node with node | ⟨_, node⟩
    · rw [node, ha] at hb; cases hb
    · rw [node] at hb; cases hb
  | reset straps readPos start quiet => exact quiet
  | faulted before => rw [before] at ha; cases ha
  | joined c before => rw [before] at ha; cases ha

theorem configFits (h : StartChange a b) (ha : a.configFits) : b.configFits := by
  cases h with
  | kept config digest fault node => rw [Station.configFits, config]; exact ha
  | reset straps readPos start quiet => rw [Station.configFits, start]; exact nofun
  | faulted before node config => rw [Station.configFits, config]; exact ha
  | joined c before node config digest fault range distances grades =>
    rw [Station.configFits, config]
    simp only [Option.toList_some, List.mem_singleton, forall_eq]
    exact ⟨range, distances, grades⟩

end StartChange

/-- R174: a command leaves the blocks quiet in LOADING and CONFIG_FAULT, whichever node state it found. -/
theorem commandEffect_offLineQuiet (c : Instr) {a : Station} (hq : a.offLineQuiet) : (commandEffect c a).offLineQuiet := by
  rw [offLineQuiet_iff]
  intro hb
  cases ha : a.start.node.onLine with
  | true => exact (commandEffect_startChange c a).quiet_of_onLine ha hb
  | false =>
    rcases ((offLineQuiet_iff a).1 hq ha).commandEffect ha c with h | h
    · exact h
    · rw [hb] at h; cases h

/-- Settles O59: both parts hold of every change that a command makes to the Start-up Unit (`commandEffect_startChange`). -/
theorem everyStepKeepsNodeState : Obligations.EveryStepKeepsNodeState :=
  ⟨fun _ _ hs hq h => step_keeps (P := fun a b => a.startFits → a.offLineQuiet → b.startFits ∧ b.offLineQuiet)
      (fun _ hs hq => ⟨hs, hq⟩)
      (fun c a hs hq => ⟨(commandEffect_startChange c a).startFits hq hs, commandEffect_offLineQuiet c hq⟩) h hs hq,
    fun _ _ hc h => step_keeps (P := fun a b => a.configFits → b.configFits) (fun _ hc => hc)
      (fun c a => (commandEffect_startChange c a).configFits) h hc⟩

end Sys2Proof.Machine

namespace Sys2Proof.Machine

/-! ## The local verdict line by line (R144, R152, R156) -/

theorem mem_classes (c : DefectClass) : c ∈ classes := by cases c <;> decide

/-- R144: a grade is met where the three limits of every class are met. -/
theorem meetsGrade_iff (t : SheetTally) (g : PerClass Limits) : meetsGrade t g = true ↔ ∀ c : DefectClass,
    (t.figures.get c).count ≤ (g.get c).count.toNat ∧ (t.figures.get c).largest ≤ (g.get c).largest.toNat ∧
      (t.figures.get c).aggregate ≤ (g.get c).aggregate.toNat := by
  simp [meetsGrade, mem_classes, and_assoc]

section

variable {g : GradeTable} {t : SheetTally}

theorem highestGrade_none (h : ¬ (meetsGrade t g.face1 = true ∨ meetsGrade t g.face2 = true ∨
    meetsGrade t g.back = true ∨ meetsGrade t g.core = true)) : highestGrade g t = none := by
  obtain ⟨h1, h2, h3, h4⟩ : ¬ _ ∧ ¬ _ ∧ ¬ _ ∧ ¬ _ := by simpa only [not_or] using h
  unfold highestGrade
  rw [if_neg h1, if_neg h2, if_neg h3, if_neg h4]

theorem highestGrade_face1 (h : meetsGrade t g.face1 = true) : highestGrade g t = some .face1 := if_pos h

theorem highestGrade_face2 (h1 : ¬ meetsGrade t g.face1 = true) (h2 : meetsGrade t g.face2 = true) :
    highestGrade g t = some .face2 := by
  unfold highestGrade
  rw [if_neg h1, if_pos h2]

theorem highestGrade_back (h1 : ¬ meetsGrade t g.face1 = true) (h2 : ¬ meetsGrade t g.face2 = true)
    (h3 : meetsGrade t g.back = true) : highestGrade g t = some .back := by
  unfold highestGrade
  rw [if_neg h1, if_neg h2, if_pos h3]

theorem highestGrade_core (h1 : ¬ meetsGrade t g.face1 = true) (h2 : ¬ meetsGrade t g.face2 = true)
    (h3 : ¬ meetsGrade t g.back = true) (h4 : meetsGrade t g.core = true) : highestGrade g t = some .core := by
  unfold highestGrade
  rw [if_neg h1, if_neg h2, if_neg h3, if_pos h4]

theorem highestGrade_some (h : meetsGrade t g.face1 = true ∨ meetsGrade t g.face2 = true ∨ meetsGrade t g.back = true ∨
    meetsGrade t g.core = true) : ∃ v, highestGrade g t = some v := by
  by_cases h1 : meetsGrade t g.face1 = true
  · exact ⟨_, highestGrade_face1 h1⟩
  by_cases h2 : meetsGrade t g.face2 = true
  · exact ⟨_, highestGrade_face2 h1 h2⟩
  by_cases h3 : meetsGrade t g.back = true
  · exact ⟨_, highestGrade_back h1 h2 h3⟩
  · exact ⟨_, highestGrade_core h1 h2 h3 (((h.resolve_left h1).resolve_left h2).resolve_left h3)⟩

end

section

variable {sh : Shared} {flags : SheetFlags} {n : Nat} {t : SheetTally} {m : BitVec 10}

theorem localVerdict_flagged (hf : flags.incomplete = true ∨ flags.blind = true ∨ flags.overlength = true) :
    localVerdict sh flags n t = .manual :=
  if_pos (by simpa [or_assoc] using hf)

section

variable (hf : ¬ (flags.incomplete = true ∨ flags.blind = true ∨ flags.overlength = true))

include hf

theorem localVerdict_unmeasured (hm : t.moisture = none) : localVerdict sh flags n t = .manual := by
  unfold localVerdict
  rw [if_neg (by simpa [or_assoc] using hf), hm]

theorem localVerdict_redry (hm : t.moisture = some m) (hr : sh.redryLimit.toNat < m.toNat) :
    localVerdict sh flags n t = .redry := by
  unfold localVerdict
  rw [if_neg (by simpa [or_assoc] using hf), hm]
  exact if_pos hr

variable (hm : t.moisture = some m) (hr : m.toNat ≤ sh.redryLimit.toNat)

include hm hr

theorem localVerdict_reject (hg : highestGrade sh.gradeTable t = none) : localVerdict sh flags n t = .reject := by
  unfold localVerdict
  rw [if_neg (by simpa [or_assoc] using hf), hm]
  simp only [if_neg (Nat.not_lt.2 hr), hg]

theorem localVerdict_graded {v : Verdict} (hg : highestGrade sh.gradeTable t = some v) :
    localVerdict sh flags n t = if n < sh.fullBandCount.toNat then .strip else v := by
  unfold localVerdict
  rw [if_neg (by simpa [or_assoc] using hf), hm]
  simp only [if_neg (Nat.not_lt.2 hr), hg]

end

end

/-- Settles O53: each line of the table of R152 is one case of `localVerdict`. -/
theorem localVerdictByFirstLine : Obligations.LocalVerdictByFirstLine := by
  intro sh r t flags closed meets g flagged meetsAny v
  have hv : ∀ w, localVerdict sh flags closed t = w → v = some w := fun w h => congrArg some h
  have hmeets : ∀ x, meets x ↔ meetsGrade t x = true := fun x => (meetsGrade_iff t x).symm
  refine ⟨fun hf => hv _ (localVerdict_flagged hf), fun hf hm => hv _ (localVerdict_unmeasured hf hm), fun m hf hm =>
    ⟨fun hr => hv _ (localVerdict_redry hf hm hr), fun hr => ?_⟩, rfl, rfl, rfl, rfl⟩
  simp only [meetsAny, hmeets]
  refine ⟨fun hg => hv _ (localVerdict_reject hf hm hr (highestGrade_none hg)), fun hg hn => ?_, fun hg hn => ?_⟩
  · obtain ⟨w, hw⟩ := highestGrade_some hg
    exact hv _ ((localVerdict_graded hf hm hr hw).trans (if_pos hn))
  · have hgrade : ∀ w, highestGrade sh.gradeTable t = some w → v = some w := fun w hw =>
      hv _ ((localVerdict_graded hf hm hr hw).trans (if_neg (Nat.not_lt.2 hn)))
    exact ⟨fun h1 => hgrade _ (highestGrade_face1 h1), fun h1 h2 => hgrade _ (highestGrade_face2 h1 h2),
      fun h1 h2 h3 => hgrade _ (highestGrade_back h1 h2 h3), fun h1 h2 h3 =>
        hgrade _ (highestGrade_core h1 h2 h3 (((hg.resolve_left h1).resolve_left h2).resolve_left h3))⟩

end Sys2Proof.Machine

namespace Sys2Proof.Machine

/-! ## The greatest max moisture (R146) -/

theorem mem_toList {α : Type} {e : Eight α} {x : α} : x ∈ e.toList ↔ ∃ k, e.get k = x := by
  constructor
  · simp only [Eight.toList, List.mem_cons, List.not_mem_nil, or_false]
    rintro (h | h | h | h | h | h | h | h)
    exacts [⟨0, h.symm⟩, ⟨1, h.symm⟩, ⟨2, h.symm⟩, ⟨3, h.symm⟩, ⟨4, h.symm⟩, ⟨5, h.symm⟩, ⟨6, h.symm⟩,
      ⟨7, h.symm⟩]
  · rintro ⟨k, rfl⟩
    fin_cases k <;> simp [Eight.toList, Eight.get]

theorem mem_closedSummaries {entries : Eight (Option Entry)} {s : Summary} :
    s ∈ closedSummaries entries ↔ ∃ k, entries.get k = some (.closed s) := by
  rw [← mem_toList]
  unfold closedSummaries
  rw [List.mem_filterMap]
  constructor
  · rintro ⟨e, he, hs⟩
    split at hs
    · cases hs; exact he
    · cases hs
  · exact fun h => ⟨_, h, rfl⟩

/-- A fold that keeps the greater of two readings ends with the greatest. -/
theorem foldl_greatest {f : Option (BitVec 10) → BitVec 10 → Option (BitVec 10)}
    (hf : ∀ u v, f (some u) v = if u < v then some v else some u) (l : List (BitVec 10)) :
    ∀ u, ∃ m, l.foldl f (some u) = some m ∧ m ∈ u :: l ∧ ∀ n ∈ u :: l, n ≤ m := by
  induction l with
  | nil => exact fun u => ⟨u, rfl, by simp, by simp⟩
  | cons v l ih =>
    intro u
    rw [List.foldl_cons, hf]
    by_cases h : u < v
    · rw [if_pos h]
      obtain ⟨m, hm, hmem, hmax⟩ := ih v
      refine ⟨m, hm, List.mem_cons_of_mem u hmem, fun n hn => ?_⟩
      rcases List.mem_cons.1 hn with rfl | hn
      · exact BitVec.le_trans (BitVec.le_of_lt h) (hmax v List.mem_cons_self)
      · exact hmax n hn
    · rw [if_neg h]
      obtain ⟨m, hm, hmem, hmax⟩ := ih u
      refine ⟨m, hm, ?_, fun n hn => ?_⟩
      · rcases List.mem_cons.1 hmem with rfl | hmem
        · exact List.mem_cons_self
        · exact List.mem_cons_of_mem u (List.mem_cons_of_mem v hmem)
      · rcases List.mem_cons.1 hn with rfl | hn
        · exact hmax n List.mem_cons_self
        · rcases List.mem_cons.1 hn with rfl | hn
          · exact BitVec.le_trans (BitVec.not_lt.1 h) (hmax u List.mem_cons_self)
          · exact hmax n (List.mem_cons_of_mem u hn)

/-- A max moisture among the stored CLOSED entries. -/
def hasMoisture (entries : Eight (Option Entry)) (m : BitVec 10) : Prop :=
  ∃ k s, entries.get k = some (.closed s) ∧ s.moisture = some m

theorem mem_moistures {entries : Eight (Option Entry)} {m : BitVec 10} :
    m ∈ (closedSummaries entries).filterMap (·.moisture) ↔ hasMoisture entries m := by
  simp only [List.mem_filterMap, mem_closedSummaries, hasMoisture]
  exact ⟨fun ⟨s, ⟨k, hk⟩, hm⟩ => ⟨k, s, hk, hm⟩, fun ⟨k, s, hk, hm⟩ => ⟨s, ⟨k, hk⟩, hm⟩⟩

theorem sheetTally_moisture_cases (tolerance : Nat) (entries : Eight (Option Entry)) :
    ((sheetTally tolerance entries).moisture = none ∧ ∀ m, ¬ hasMoisture entries m) ∨
      ∃ m, (sheetTally tolerance entries).moisture = some m ∧ hasMoisture entries m ∧
        ∀ n, hasMoisture entries n → n ≤ m := by
  simp only [← mem_moistures, sheetTally, maxMoisture]
  cases (closedSummaries entries).filterMap (·.moisture) with
  | nil => exact .inl ⟨rfl, fun _ => List.not_mem_nil⟩
  | cons u l => exact .inr (foldl_greatest (fun _ _ => rfl) l u)

theorem sheetTally_moisture_none (tolerance : Nat) (entries : Eight (Option Entry)) :
    (sheetTally tolerance entries).moisture = none ↔ ∀ m, ¬ hasMoisture entries m := by
  rcases sheetTally_moisture_cases tolerance entries with ⟨h, hno⟩ | ⟨m, h, hm, _⟩
  · exact iff_of_true h hno
  · exact iff_of_false (by rw [h]; nofun) fun hno => hno m hm

theorem sheetTally_moisture_some (tolerance : Nat) (entries : Eight (Option Entry)) (m : BitVec 10) :
    (sheetTally tolerance entries).moisture = some m ↔
      hasMoisture entries m ∧ ∀ n, hasMoisture entries n → n ≤ m := by
  rcases sheetTally_moisture_cases tolerance entries with ⟨h, hno⟩ | ⟨u, h, hu, hmax⟩
  · exact iff_of_false (by rw [h]; nofun) fun hm => hno m hm.1
  · rw [h]
    constructor
    · rintro ⟨⟩; exact ⟨hu, hmax⟩
    · exact fun ⟨hm, hm'⟩ => congrArg some (BitVec.le_antisymm (hm' u hu) (hmax m hm))

end Sys2Proof.Machine

namespace Sys2Proof.Machine

/-! ## The figures of a class under its chains (R146, R150, R151) -/

/-- What one chain does to the figures of its class. -/
def TallyFigures.merge (f : TallyFigures) (ch : Chain) : TallyFigures :=
  { f with count := lowerCount f.count ch.length, largest := max f.largest ch.extent }

theorem applyChain_get (t : PerClass TallyFigures) (ch : Chain) (c : DefectClass) :
    (applyChain t ch).get c = if ch.cls = c then (t.get c).merge ch else t.get c := by
  unfold applyChain
  rw [PerClass.get_set]
  by_cases h : c = ch.cls
  · subst h; rw [if_pos rfl, if_pos rfl]; rfl
  · rw [if_neg h, if_neg (Ne.symm h)]

/-- The figures of a class are changed by the chains of the class alone. -/
theorem foldl_applyChain_get (l : List Chain) (c : DefectClass) : ∀ t : PerClass TallyFigures,
    (l.foldl applyChain t).get c = (l.filter fun ch => decide (ch.cls = c)).foldl TallyFigures.merge (t.get c) := by
  induction l with
  | nil => exact fun _ => rfl
  | cons ch l ih =>
    intro t
    rw [List.foldl_cons, ih, applyChain_get]
    by_cases h : ch.cls = c
    · rw [if_pos h, List.filter_cons_of_pos (by simpa using h), List.foldl_cons]
    · rw [if_neg h, List.filter_cons_of_neg (by simpa using h)]

theorem foldl_merge_aggregate (l : List Chain) :
    ∀ f : TallyFigures, (l.foldl TallyFigures.merge f).aggregate = f.aggregate := by
  induction l with
  | nil => exact fun _ => rfl
  | cons ch l ih => exact fun f => ih (f.merge ch)

theorem foldl_merge_largest (l : List Chain) :
    ∀ f : TallyFigures, (l.foldl TallyFigures.merge f).largest = (l.map Chain.extent).foldl max f.largest := by
  induction l with
  | nil => exact fun _ => rfl
  | cons ch l ih => exact fun f => ih (f.merge ch)

/-- R150: where the chains lower a count by no more than it is, each of them lowers it by one less than its records. -/
theorem foldl_merge_count (l : List Chain) : ∀ f : TallyFigures, (l.map fun ch => ch.length - 1).sum ≤ f.count →
    (l.foldl TallyFigures.merge f).count + (l.map fun ch => ch.length - 1).sum = f.count := by
  induction l with
  | nil => exact fun _ _ => rfl
  | cons ch l ih =>
    intro f h
    rw [List.map_cons, List.sum_cons] at h ⊢
    have hcount : (f.merge ch).count = f.count - (ch.length - 1) := if_pos (by omega)
    have := ih (f.merge ch) (by omega)
    rw [List.foldl_cons]
    omega

theorem sheetTally_figures (tolerance : Nat) (entries : Eight (Option Entry)) (c : DefectClass) :
    (sheetTally tolerance entries).figures.get c =
      ((chains tolerance entries).filter fun ch => decide (ch.cls = c)).foldl TallyFigures.merge
        (sumFigures (closedSummaries entries) c) := by
  rw [← get_perClass (sumFigures (closedSummaries entries)) c]
  exact foldl_applyChain_get _ c _

theorem le_foldl_max {l : List Nat} {x : Nat} (h : x ∈ l) : x ≤ l.foldl max 0 :=
  (List.max?_eq_some_iff.1 (List.max?_cons' (x := 0) (xs := l))).2 x (List.mem_cons_of_mem 0 h)

theorem foldl_max_mem (l : List Nat) : l.foldl max 0 = 0 ∨ l.foldl max 0 ∈ l :=
  List.mem_cons.1 (List.max?_eq_some_iff.1 (List.max?_cons' (x := 0) (xs := l))).1

/-- R145, R146, R150, R151: the three figures of a class. -/
theorem sheetTally_sums (tolerance : Nat) (entries : Eight (Option Entry)) (c : DefectClass) :
    let figures := (closedSummaries entries).map fun s => s.figures.get c
    let ofClass := (chains tolerance entries).filter fun ch => decide (ch.cls = c)
    let lowered := (ofClass.map fun ch => ch.length - 1).sum
    let f := (sheetTally tolerance entries).figures.get c
    (lowered ≤ min 255 (figures.map (·.count.toNat)).sum →
      f.count + lowered = min 255 (figures.map (·.count.toNat)).sum) ∧
    f.aggregate = min 65535 (figures.map (·.aggregate.toNat)).sum ∧
    f.largest = (figures.map (·.largest.toNat) ++ ofClass.map Chain.extent).foldl max 0 := by
  simp only [sheetTally_figures, foldl_merge_aggregate, foldl_merge_largest, List.map_map, List.foldl_append]
  exact ⟨foldl_merge_count _ (sumFigures (closedSummaries entries) c), rfl, rfl⟩

/-- Where no boundary record has a match, the figures are those of the stored entries alone. -/
theorem sheetTally_unmerged {tolerance : Nat} {entries : Eight (Option Entry)} (h : chains tolerance entries = [])
    (c : DefectClass) : (sheetTally tolerance entries).figures.get c = sumFigures (closedSummaries entries) c := by
  rw [sheetTally_figures, h]
  rfl

theorem sumFigures_largest (ss : List Summary) (c : DefectClass) :
    let figures := ss.map fun s => s.figures.get c
    (∀ x ∈ figures, x.largest.toNat ≤ (sumFigures ss c).largest) ∧
      ((sumFigures ss c).largest = 0 ∨ ∃ x ∈ figures, x.largest.toNat = (sumFigures ss c).largest) := by
  intro figures
  have hmap : ss.map (fun s => (s.figures.get c).largest.toNat) = figures.map (·.largest.toNat) := by
    rw [List.map_map]; rfl
  unfold sumFigures
  simp only [hmap]
  exact ⟨fun x hx => le_foldl_max (List.mem_map_of_mem hx), (foldl_max_mem _).imp_right List.mem_map.1⟩

/-- R151: the classes with linear extents are SPLIT and RESIN_STREAK. -/
theorem linear_iff (c : DefectClass) : c.linear = true ↔ c = .split ∨ c = .resinStreak := by
  cases c <;> decide

theorem extent_eq (ch : Chain) : ch.extent =
    if ch.cls = .split ∨ ch.cls = .resinStreak then min 4095 ch.total else ch.greatest := by
  unfold Chain.extent
  simp only [linear_iff]

end Sys2Proof.Machine

namespace Sys2Proof.Machine

/-! ## Matching (R149) -/

theorem isTarget_iff (r : BoundaryRecord) : r.isTarget = true ↔ r.side = .left ∨ r.side = .both := by
  simp [BoundaryRecord.isTarget]

theorem isSource_iff (r : BoundaryRecord) : r.isSource = true ↔ r.side = .right ∨ r.side = .both := by
  simp [BoundaryRecord.isSource]

/-- R149: whether a source matches the record at a place of the next band's list. -/
def matchesAt (tolerance : Nat) (source : BoundaryRecord) (used : List Nat) (x : BoundaryRecord) (i : Nat) : Prop :=
  (x.side = .left ∨ x.side = .both) ∧ i ∉ used ∧ x.cls = source.cls ∧
    source.alongStart.toNat ≤ x.alongEnd.toNat + tolerance ∧ x.alongStart.toNat ≤ source.alongEnd.toNat + tolerance

theorem matchesAt_iff (tolerance : Nat) (source : BoundaryRecord) (used : List Nat) (x : BoundaryRecord) (i : Nat) :
    (x.isTarget && !used.contains i && x.cls == source.cls && overlaps tolerance source x) = true ↔
      matchesAt tolerance source used x i := by
  simp [isTarget_iff, overlaps, matchesAt, and_assoc]

/-- R149: the first record of the next band's list that the source matches. -/
theorem findMatch_iff (tolerance : Nat) (source : BoundaryRecord) (used : List Nat) (targets : List BoundaryRecord)
    (j : Nat) : findMatch tolerance source used targets = some j ↔
      (∃ x, targets[j]? = some x ∧ matchesAt tolerance source used x j) ∧
        ∀ i, i < j → ¬ ∃ x, targets[i]? = some x ∧ matchesAt tolerance source used x i := by
  unfold findMatch
  simp only [Option.map_eq_some_iff, List.find?_eq_some_iff_getElem, List.getElem_zipIdx, List.length_zipIdx, Nat.zero_add,
    Bool.not_eq_true', ← Bool.not_eq_true, matchesAt_iff]
  constructor
  · rintro ⟨_, ⟨hm, i, hi, rfl, hfirst⟩, rfl⟩
    refine ⟨⟨targets[i], List.getElem?_eq_getElem hi, hm⟩, fun k hk ⟨x, hx, hxm⟩ => hfirst k hk ?_⟩
    obtain ⟨_, rfl⟩ := List.getElem?_eq_some_iff.1 hx
    exact hxm
  · rintro ⟨⟨x, hx, hm⟩, hfirst⟩
    obtain ⟨hj, rfl⟩ := List.getElem?_eq_some_iff.1 hx
    exact ⟨(targets[j], j), ⟨hm, j, hj, rfl, fun k hk hkm =>
      hfirst k hk ⟨_, List.getElem?_eq_getElem (hk.trans hj), hkm⟩⟩, rfl⟩

/-! ## Chains of bands of one record each (R149, R150) -/

/-- R149: two records of neighbouring bands that are linked where no other record is. -/
def linkedTo (tolerance : Nat) (u v : BoundaryRecord) : Prop :=
  (u.side = .right ∨ u.side = .both) ∧ (v.side = .left ∨ v.side = .both) ∧ v.cls = u.cls ∧
    u.alongStart.toNat ≤ v.alongEnd.toNat + tolerance ∧ v.alongStart.toNat ≤ u.alongEnd.toNat + tolerance

section

variable {tolerance : Nat} {u v : BoundaryRecord} {ch : Chain}

/-- The one record of a list is found where it matches, and nothing else is. -/
theorem findMatch_single (tolerance : Nat) (u v : BoundaryRecord) :
    findMatch tolerance u [] [v] = some 0 ∧ matchesAt tolerance u [] v 0 ∨
      findMatch tolerance u [] [v] = none ∧ ¬ matchesAt tolerance u [] v 0 := by
  by_cases h : matchesAt tolerance u [] v 0
  · exact .inl ⟨(findMatch_iff ..).2 ⟨⟨v, rfl, h⟩, fun i hi => absurd hi (Nat.not_lt_zero i)⟩, h⟩
  · refine .inr ⟨?_, h⟩
    cases hf : findMatch tolerance u [] [v] with
    | none => rfl
    | some j =>
      obtain ⟨⟨x, hx, hm⟩, _⟩ := (findMatch_iff ..).1 hf
      cases j with
      | zero => cases hx; exact absurd hm h
      | succ j => cases hx

theorem walkBoundary_linked (h : linkedTo tolerance u v) : walkBoundary tolerance [v] [(u, ch)] [] = ([(0, ch)], []) := by
  obtain ⟨hu, hv, hrest⟩ := h
  have hm : matchesAt tolerance u [] v 0 := ⟨hv, List.not_mem_nil, hrest⟩
  have hfound : (if u.isSource then findMatch tolerance u [] [v] else none) = some 0 := by
    rw [if_pos ((isSource_iff u).2 hu)]
    exact ((findMatch_single tolerance u v).resolve_right fun hn => hn.2 hm).1
  simp only [walkBoundary, hfound]

theorem walkBoundary_unlinked (h : ¬ linkedTo tolerance u v) : walkBoundary tolerance [v] [(u, ch)] [] = ([], [ch]) := by
  have hfound : (if u.isSource then findMatch tolerance u [] [v] else none) = none := by
    split
    · next hu =>
      refine ((findMatch_single tolerance u v).resolve_left fun hs => h ?_).1
      obtain ⟨hv, _, hrest⟩ := hs.2
      exact ⟨(isSource_iff u).1 hu, hv, hrest⟩
    · rfl
  simp only [walkBoundary, hfound]

end

section

variable {tolerance : Nat} {entries : List (Option Entry)} {s : Summary} {x : BoundaryRecord}

/-- R148: where a band's list has overflowed, the chains that reach the boundary before it end there. -/
theorem mergeBands_overflow (h : s.overflow = true) (carried : Option (List (BoundaryRecord × Chain))) :
    mergeBands tolerance (some (.closed s) :: entries) carried =
      (carried.getD []).map (·.2) ++ mergeBands tolerance entries none := by
  have hl : mergeList (some (.closed s)) = none := if_pos h
  simp only [mergeBands, hl]

theorem mergeList_single (ho : s.overflow = false) (hb : s.boundary = [x]) : mergeList (some (.closed s)) = some [x] := by
  simp [mergeList, ho, hb]

/-- A band that begins to merge: its record starts a chain. -/
theorem mergeBands_start (ho : s.overflow = false) (hb : s.boundary = [x]) :
    mergeBands tolerance (some (.closed s) :: entries) none = mergeBands tolerance entries (some [(x, Chain.start x)]) := by
  simp only [mergeBands, mergeList_single ho hb]
  rfl

variable {w : BoundaryRecord} {ch : Chain}

theorem mergeBands_linked (ho : s.overflow = false) (hb : s.boundary = [x]) (h : linkedTo tolerance w x) :
    mergeBands tolerance (some (.closed s) :: entries) (some [(w, ch)]) =
      mergeBands tolerance entries (some [(x, ch.extend x)]) := by
  simp only [mergeBands, mergeList_single ho hb, walkBoundary_linked h]
  rfl

theorem mergeBands_unlinked (ho : s.overflow = false) (hb : s.boundary = [x]) (h : ¬ linkedTo tolerance w x) :
    mergeBands tolerance (some (.closed s) :: entries) (some [(w, ch)]) =
      ch :: mergeBands tolerance entries (some [(x, Chain.start x)]) := by
  simp only [mergeBands, mergeList_single ho hb, walkBoundary_unlinked h]
  rfl

end

/-- The chains of records of single bands with nothing beyond. -/
theorem mergeBands_end (tolerance n : Nat) (carried : Option (List (BoundaryRecord × Chain))) :
    mergeBands tolerance (List.replicate n none) carried = (carried.getD []).map (·.2) := by
  induction n generalizing carried with
  | zero => rfl
  | succ n ih =>
    have hnone : mergeBands tolerance (List.replicate n none) none = [] := ih none
    simp only [List.replicate_succ, mergeBands, mergeList, hnone, List.append_nil]

section

variable {tolerance : Nat} {x y z : BoundaryRecord} {a b d : Summary}

/-- Two bands with an entry each, and none beyond. -/
def twoBands (a b : Summary) : Eight (Option Entry) :=
  ⟨some (.closed a), some (.closed b), none, none, none, none, none, none⟩

def threeBands (a b d : Summary) : Eight (Option Entry) :=
  ⟨some (.closed a), some (.closed b), some (.closed d), none, none, none, none, none⟩

theorem chains_twoBands (tolerance : Nat) (a b : Summary) : chains tolerance (twoBands a b) =
    (mergeBands tolerance (some (.closed a) :: some (.closed b) :: List.replicate 6 none) none).filter
      fun ch => decide (2 ≤ ch.length) := rfl

theorem chains_threeBands (tolerance : Nat) (a b d : Summary) : chains tolerance (threeBands a b d) =
    (mergeBands tolerance (some (.closed a) :: some (.closed b) :: some (.closed d) :: List.replicate 5 none) none).filter
      fun ch => decide (2 ≤ ch.length) := rfl

variable (ha : a.boundary = [x]) (hb : b.boundary = [y])

include ha hb

theorem chains_twoBands_linked (hao : a.overflow = false) (hbo : b.overflow = false) (h : linkedTo tolerance x y) :
    chains tolerance (twoBands a b) = [(Chain.start x).extend y] := by
  rw [chains_twoBands, mergeBands_start hao ha, mergeBands_linked hbo hb h, mergeBands_end]
  rfl

/-- R148: a band whose list has overflowed merges at neither side. -/
theorem chains_twoBands_overflow (h : a.overflow = true ∨ b.overflow = true) : chains tolerance (twoBands a b) = [] := by
  rw [chains_twoBands]
  cases hao : a.overflow with
  | true =>
    rw [mergeBands_overflow hao]
    cases hbo : b.overflow with
    | true => rw [mergeBands_overflow hbo, mergeBands_end]; rfl
    | false => rw [mergeBands_start hbo hb, mergeBands_end]; rfl
  | false =>
    have hbo : b.overflow = true := h.resolve_left (by simp [hao])
    rw [mergeBands_start hao ha, mergeBands_overflow hbo, mergeBands_end]
    rfl

theorem chains_twoBands_unlinked (hao : a.overflow = false) (hbo : b.overflow = false) (h : ¬ linkedTo tolerance x y) :
    chains tolerance (twoBands a b) = [] := by
  rw [chains_twoBands, mergeBands_start hao ha, mergeBands_unlinked hbo hb h, mergeBands_end]
  rfl

theorem chains_threeBands_linked (hd : d.boundary = [z]) (hao : a.overflow = false) (hbo : b.overflow = false)
    (hdo : d.overflow = false) (hxy : linkedTo tolerance x y) (hyz : linkedTo tolerance y z) :
    chains tolerance (threeBands a b d) = [((Chain.start x).extend y).extend z] := by
  rw [chains_threeBands, mergeBands_start hao ha, mergeBands_linked hbo hb hxy, mergeBands_linked hdo hd hyz, mergeBands_end]
  rfl

end

/-- Settles O54: the moisture and the figures from the folds over entries and chains, the match from the first fitting place, and
the chains of two and three bands from one boundary after the other. -/
theorem sheetTallySumsAndMergesEntries : Obligations.SheetTallySumsAndMergesEntries := by
  refine ⟨fun tolerance entries => ?_, fun tolerance entries h c => ?_, sheetTally_sums, extent_eq, findMatch_iff,
    fun tolerance x y z a b d ha hb hd => ?_⟩
  · exact ⟨sheetTally_moisture_none tolerance entries, sheetTally_moisture_some tolerance entries⟩
  · obtain ⟨hle, hmem⟩ := sumFigures_largest (closedSummaries entries) c
    obtain ⟨_, haggregate, _⟩ := sheetTally_sums tolerance entries c
    refine ⟨?_, haggregate, ?_, ?_⟩ <;> rw [sheetTally_unmerged h]
    · rw [List.map_map]; rfl
    · exact hle
    · exact hmem
  · refine ⟨fun hao hbo hxy => chains_twoBands_linked ha hb hao hbo hxy, fun h => ?_, fun hao hbo hdo hxy hyz =>
      chains_threeBands_linked ha hb hd hao hbo hdo hxy hyz⟩
    by_cases ho : a.overflow = true ∨ b.overflow = true
    · exact chains_twoBands_overflow ha hb ho
    · obtain ⟨hao, hbo⟩ := not_or.1 ho
      have hxy := (h.resolve_left hao).resolve_left hbo
      exact chains_twoBands_unlinked ha hb (by simpa using hao) (by simpa using hbo) hxy

end Sys2Proof.Machine

namespace Sys2Proof.Machine

/-! ## The gate command, by what it finds (R165) -/

section

variable {r : Record} {v : Verdict} {st : Station}

/-- R165: bin 0 has no gate command. -/
theorem gateCommand_bin_zero (hb : st.shared.binMap.get v.index = 0) : gateCommand r v st = (st, false) :=
  if_pos hb

/-- R165: an OPEN window refuses the command. -/
theorem gateCommand_refused (hb : st.shared.binMap.get v.index ≠ 0) (hw : st.outlet.window.isSome = true) :
    gateCommand r v st = (st, true) := by
  obtain ⟨w, hw⟩ := Option.isSome_iff_exists.1 hw
  simp only [gateCommand, if_neg hb, hw]

/-- R165: the window opens with the bin, to its end position ahead. -/
theorem gateCommand_opens (hb : st.shared.binMap.get v.index ≠ 0) (hw : st.outlet.window = none)
    (he : st.position.reached (r.gatePos + counts st.shared.gateWindow) = false) : gateCommand r v st =
      (storeCompare .windowEnd (r.gatePos + counts st.shared.gateWindow) .waiting { st with outlet :=
        { window := some ⟨st.shared.binMap.get v.index, r.gatePos + counts st.shared.gateWindow⟩ } }, false) := by
  simp only [gateCommand, if_neg hb, hw, he, Bool.false_eq_true, if_false]

/-- R35, R166: where the end position is reached already, the window is closed again. -/
theorem gateCommand_reached (hb : st.shared.binMap.get v.index ≠ 0) (hw : st.outlet.window = none)
    (he : st.position.reached (r.gatePos + counts st.shared.gateWindow) = true) :
    (gateCommand r v st).1.outlet.window = none := by
  simp only [gateCommand, if_neg hb, hw, he, if_true]
  rfl

theorem commanded_none (h : st.start.outlet = false ∨ r.phase ≠ .decided) : st.commanded r = (st, false) := by
  refine if_neg fun ⟨hp, ho⟩ => ?_
  rcases h with h | h
  · rw [h] at ho; cases ho
  · exact h hp

theorem commanded_decided (ho : st.start.outlet = true) (hp : r.phase = .decided) (hv : r.outcome = some v) :
    st.commanded r = gateCommand r v st := by
  rw [Station.commanded, if_pos ⟨hp, ho⟩, hv]
  rfl

end

/-! ## The gate window under a dispatch (R164 to R166) -/

theorem removeRecord_windowEnd (outcome : Verdict) (mark : SheetFlags → SheetFlags) {s : Seq} {st : Station} {r : Record}
    (hr : st.record s = some r) :
    (removeRecord outcome mark s st).position.stored .windowEnd = st.position.stored .windowEnd := by
  rw [removeRecord_eq hr]
  split
  · exact (bandRemoved_stored (by simp) (by simp) (by simp) s st).trans (if_neg (by simp [CompareId.subject]))
  · exact (stored_dropRecord s st.position).trans (if_neg (by simp [CompareId.subject]))

/-- A dispatch has the gate window and the window end compare that its gate command leaves. -/
theorem dispatch_window {s : Seq} {st : Station} {r : Record} (hr : st.record s = some r) :
    (dispatch s st).outlet = (st.commanded r).1.outlet ∧
      (dispatch s st).stores .windowEnd = (st.commanded r).1.stores .windowEnd := by
  have hr' : (st.commanded r).1.record s = some r := by
    obtain ⟨o, p, hc, _⟩ := commanded_same r st
    rw [hc]; exact hr
  have hf := headTakes_frame (removeRecord r.dispatchOutcome (r.dispatchMark (st.commanded r).2) s (st.commanded r).1)
  rw [dispatch_eq hr]
  refine ⟨hf.outlet.trans (removeRecord_removed _ _ hr').outlet, ?_⟩
  rw [hf.stores, stores_eq_stored, stores_eq_stored, removeRecord_windowEnd _ _ hr']

/-- R165, R168: a command refused is told in the result record. -/
theorem dispatch_busy_result {s : Seq} {st : Station} {r : Record} (hr : st.record s = some r)
    (hbusy : (st.commanded r).2 = true) (hroom : st.port.fifo.length < 16) :
    ∃ x, (dispatch s st).port.fifo = st.port.fifo ++ [x] ∧ x.flags.gateBusy = true := by
  refine ⟨{ st.dispatchResult r with lost := st.port.lost }, ?_, ?_⟩
  · rw [(dispatch_dispatched hr).port]
    exact (offer_room _ hroom).1
  · show (r.flags.gateBusy || (st.commanded r).2) = true
    rw [hbusy, Bool.or_true]

/-- The gate compare dispatches the oldest record that is due. -/
theorem exec_gateCompare {s : Seq} {st : Station} (q : List Instr) (hl : st.heldInReset = false)
    (ho : oldestGateDue st = some s) :
    exec .gateCompare ⟨st, q⟩ = .next ⟨dispatch s (dropCompare (.gate s) st), q⟩ := by
  rw [exec_live _ q hl]
  simp only [commandEffect, ho]
  rw [takeDue_acts _ st (oldestGateDue_isDue ho) (.inl (by simp [CompareId.owner]))]
  rfl

theorem binSelect_open {st : Station} {w : GateWindow} (hl : st.heldInReset = false) (hw : st.outlet.window = some w) :
    st.binSelect = w.bin := by
  simp [Station.binSelect, hw, hl]

/-- R166: the window end compare closes the window, and the bin select is released. -/
theorem exec_gateWindowEndCompare {st : Station} (q : List Instr) (hl : st.heldInReset = false)
    (hd : st.position.isDue .windowEnd = true) :
    exec .gateWindowEndCompare ⟨st, q⟩ = .next ⟨closeWindow st, q⟩ := by
  have hdrop : closeWindow (dropCompare .windowEnd st) = closeWindow st := by
    simp only [closeWindow, dropCompare, drop_drop]
  rw [exec_live _ q hl]
  simp only [commandEffect]
  rw [takeDue_acts _ st hd (.inl (by simp [CompareId.owner])), ← hdrop]
  rfl

/-- Settles O22: a dispatch has the outlet of its gate command, and the gate command goes by the bin, the window and the
window's end position. -/
theorem gateWindowOpensAndCloses : Obligations.GateWindowOpensAndCloses := by
  refine ⟨fun seq r st q hl ho hr => ?_, fun st q hl hd => ⟨_, exec_gateWindowEndCompare q hl hd, rfl, rfl⟩⟩
  set x := dropCompare (.gate seq) st
  have hrx : x.record seq = some r := hr
  obtain ⟨hout, hend⟩ := dispatch_window hrx
  have hheld : (dispatch seq x).heldInReset = false := (dispatch_frame seq x).heldInReset.trans hl
  refine ⟨dispatch seq x, exec_gateCompare q hl ho, fun h => ?_, fun v hoo hp hv => ?_⟩
  · rw [hout, commanded_none (st := x) h]; rfl
  · have hc : x.commanded r = gateCommand r v x := commanded_decided (st := x) hoo hp hv
    rw [hc] at hout hend
    refine ⟨fun hb => ?_, fun hb hw => ?_, fun hb hw he => ?_, fun hb hw he => ?_⟩
    · rw [hout, gateCommand_bin_zero (st := x) hb]; rfl
    · have hg : gateCommand r v x = (x, true) := gateCommand_refused (st := x) hb hw
      refine ⟨by rw [hout, hg]; rfl, fun hroom => dispatch_busy_result (st := x) hrx ?_ hroom⟩
      rw [hc, hg]
    · have hg := gateCommand_opens (st := x) hb hw he
      rw [hg] at hout hend
      have hwindow : (dispatch seq x).outlet.window =
          some ⟨st.shared.binMap.get v.index, r.gatePos + counts st.shared.gateWindow⟩ := congrArg (·.window) hout
      refine ⟨hwindow, binSelect_open hheld hwindow, hend.trans ?_⟩
      rw [stores_store]; simp
    · rw [hout]
      exact gateCommand_reached (st := x) hb hw he

end Sys2Proof.Machine

namespace Sys2Proof.Machine

/-! ## The release of reset, and the state after it (R172, R173) -/

theorem exec_powerOnReset (straps : Straps) (st : Station) (q : List Instr) :
    exec (.powerOnReset straps) ⟨st, q⟩ = .next ⟨resetStation straps false st, q⟩ := rfl

/-- Settles O3: both commands run `resetStation`, whose values are those of `resetWith_resetFrom`. -/
theorem resetReleaseSetsEveryBlock : Obligations.ResetReleaseSetsEveryBlock := fun straps st q =>
  ⟨resetStation straps false st, exec_powerOnReset straps st q, fun hl => exec_live (.resetPin straps) q hl,
    resetWith_resetFrom straps false st⟩

section

variable (straps : Straps) (mark pin : Bool) (frame : Frame)

theorem resetWith_fits : (Station.resetWith straps mark pin frame).fits :=
  ⟨Nat.zero_le _, Nat.zero_le _, Nat.zero_le _, Nat.zero_le _⟩

/-- R185, R190: after a reset the FIFO is empty and the watermark is 1. -/
theorem resetWith_resultReadyLevel : (Station.resetWith straps mark pin frame).resultReadyLevel := rfl

/-- R90: after a reset no round is in flight and the line is OFF. -/
theorem resetWith_roundFits : (Station.resetWith straps mark pin frame).roundFits := ⟨nofun, nofun⟩

theorem resetWith_startFits : (Station.resetWith straps mark pin frame).startFits := ⟨rfl, rfl, nofun, nofun⟩

theorem resetWith_oneOpenBand : (Station.resetWith straps mark pin frame).oneOpenBand := Nat.zero_le 1

theorem resetWith_offLineQuiet : (Station.resetWith straps mark pin frame).offLineQuiet :=
  (offLineQuiet_iff _).2 fun _ => resetWith_quiet straps mark pin frame

theorem resetWith_configFits : (Station.resetWith straps mark pin frame).configFits := nofun

end

/-- R75: the probe is OFF after a reset. -/
theorem probeUnit_reset_fits : ProbeUnit.reset.fits :=
  ⟨⟨nofun, nofun⟩, ⟨nofun, nofun⟩, ⟨nofun, nofun⟩, fun _ => by decide, fun _ => rfl⟩

/-- Settles O56: the state after reset is the station after any reset, with an empty queue. -/
theorem resetStateMeetsInvariants : Obligations.ResetStateMeetsInvariants := by
  obtain ⟨hedge, hcompares⟩ := resetWith_edgeSound ⟨0, false⟩ false false .released
  obtain ⟨hdistinct, hrecords, hsubjects, htarget⟩ := resetWith_tableSound ⟨0, false⟩ false false .released
  exact ⟨resetWith_fits .., resetWith_resultReadyLevel .., probeUnit_reset_fits, rfl, resetWith_roundFits ..,
    resetWith_startFits .., hdistinct, resetWith_oneOpenBand .., hrecords, hedge, hcompares, hsubjects, htarget,
    resetWith_offLineQuiet _ _ _ _, resetWith_configFits _ _ _ _, rfl⟩

end Sys2Proof.Machine

namespace Sys2Proof.Machine

/-! ## A station that reset holds (R172) -/

/-- The commands that a held station takes are the supply's own and the levels of the presence and scan frame pins. -/
theorem takenInReset_eq_false {c : Instr} (hon : ∀ straps, c ≠ .powerOnReset straps) (hlow : c ≠ .supplyBelowRange)
    (happears : c ≠ .presenceAppears) (hlost : c ≠ .presenceLost) (hdriven : c ≠ .scanFrameDriven)
    (hend : ∀ bits, c ≠ .scanFrameEnd bits) : takenInReset c = false := by
  cases c with
  | powerOnReset straps => exact absurd rfl (hon straps)
  | supplyBelowRange => exact absurd rfl hlow
  | presenceAppears => exact absurd rfl happears
  | presenceLost => exact absurd rfl hlost
  | scanFrameDriven => exact absurd rfl hdriven
  | scanFrameEnd bits => exact absurd rfl (hend bits)
  | _ => rfl

/-- R172: a held station takes no event. -/
theorem exec_held {c : Instr} {st : Station} (q : List Instr) (hc : takenInReset c = false) (hheld : st.heldInReset = true) :
    exec c ⟨st, q⟩ = .next ⟨st, q⟩ := by
  rw [exec_effect, hc, if_neg Bool.false_ne_true, live, if_pos hheld]

section

variable {st : Station} (hheld : st.heldInReset = true)

include hheld

theorem probeExcite_held : st.probeExcite = .released := if_pos hheld

theorem binSelect_held : st.binSelect = 0 := by
  unfold Station.binSelect
  split
  · exact if_pos hheld
  · rfl

theorem attentionDriven_held : st.attentionDriven = false := by simp [Station.attentionDriven, hheld]

theorem scanTriggerDriven_held : st.scanTriggerDriven = false := by simp [Station.scanTriggerDriven, hheld]

theorem configSelectDriven_held : st.configSelectDriven = false := by simp [Station.configSelectDriven, hheld]

theorem resultDataOut_held (n : Nat) : st.resultDataOut n = none := if_neg (by simp [hheld])

theorem gradeLineDriven_held (heard : List Bool) : st.gradeLineDriven heard = false := if_pos hheld

end

/-- R175: with select released, data out of the configuration port carries nothing. -/
theorem configDataOut_released {st : Station} (h : st.configSelectDriven = false) : st.configDataOut = [] :=
  if_neg (by simp [h])

/-- Settles O4: the supply's own command, the outputs of a held station one by one, and `exec_held` for every other command. -/
theorem supplyBelowRangeHoldsStation : Obligations.SupplyBelowRangeHoldsStation := by
  refine ⟨fun st q => ⟨supplyLow st, rfl, rfl, rfl, rfl, rfl⟩, fun st hheld => ?_,
    fun c st q hheld hon hlow happears hlost hdriven hend =>
      exec_held q (takenInReset_eq_false hon hlow happears hlost hdriven hend) hheld⟩
  have hselect := configSelectDriven_held hheld
  exact ⟨probeExcite_held hheld, binSelect_held hheld, attentionDriven_held hheld, scanTriggerDriven_held hheld, hselect,
    hselect, configDataOut_released hselect, resultDataOut_held hheld, gradeLineDriven_held hheld⟩

end Sys2Proof.Machine

namespace Sys2Proof.Machine

/-! ## The bytes of the sections (R175, R196) -/

section

variable (b : List Byte)

@[simp] theorem byteAt_sectionBytes {i : Nat} (h : i < 157) : byteAt (sectionBytes b) i = byteAt b i := by
  simp [byteAt, sectionBytes, h]

@[simp] theorem wordAt_sectionBytes {i : Nat} (h : i + 1 < 157) : wordAt (sectionBytes b) i = wordAt b i := by
  rw [wordAt, byteAt_sectionBytes b (by omega), byteAt_sectionBytes b h, wordAt]

theorem limitsAt_sectionBytes {i : Nat} (h : i + 4 < 157) : limitsAt (sectionBytes b) i = limitsAt b i := by
  rw [limitsAt, byteAt_sectionBytes b (by omega), wordAt_sectionBytes b (by omega), wordAt_sectionBytes b h, limitsAt]

end

/-- R177, R192: the check of R178 is the check value over the 157 bytes. -/
theorem check16_sectionBytes (b : List Byte) : check16 (byteBits (sectionBytes b)) = imageCheck b := by
  rw [check16, crc, byteBits, sectionBytes, List.flatMap_map]
  rfl

/-! ## The limits of a class in a grade (R144, R196) -/

/-- The number of a class, from 0, as the image orders the classes. -/
def DefectClass.number (c : DefectClass) : Nat := c.code.toNat - 1

theorem DefectClass.number_lt (c : DefectClass) : c.number < 6 := by cases c <;> decide

theorem DefectClass.exists_number {n : Nat} (h : n < 6) : ∃ c : DefectClass, c.number = n := by
  interval_cases n
  · exact ⟨.tightKnot, rfl⟩
  · exact ⟨.openKnot, rfl⟩
  · exact ⟨.hole, rfl⟩
  · exact ⟨.split, rfl⟩
  · exact ⟨.resinStreak, rfl⟩
  · exact ⟨.discolor, rfl⟩

theorem DefectClass.forall_number {P : Nat → Prop} : (∀ c : DefectClass, P c.number) ↔ ∀ n < 6, P n :=
  ⟨fun h _ hn => (DefectClass.exists_number hn).elim fun c hc => hc ▸ h c, fun h c => h c.number c.number_lt⟩

theorem gradeAt_get (bytes : List Byte) (offset : Nat) (c : DefectClass) :
    (gradeAt bytes offset).get c = limitsAt bytes (offset + 5 * c.number) := by cases c <;> rfl

/-- The limits of a grade, numbered from 0 for FACE1, as the sections hold them. -/
def sectionsGrade (b : List Byte) (grade : Nat) : PerClass Limits := gradeAt (sectionBytes b) (28 + 30 * grade)

theorem readShared_gradeTable (b : List Byte) : (readShared (sectionBytes b)).gradeTable =
    ⟨sectionsGrade b 0, sectionsGrade b 1, sectionsGrade b 2, sectionsGrade b 3⟩ := rfl

section

variable (b : List Byte) {grade : Nat} (hg : grade < 4) (c : DefectClass)

include hg

theorem sectionsGrade_get : (sectionsGrade b grade).get c = limitsAt b (imageLimits grade c.number - 7) := by
  have hc := c.number_lt
  rw [sectionsGrade, gradeAt_get, limitsAt_sectionBytes b (by omega), imageLimits]
  congr 1
  omega

theorem sectionsGrade_count : ((sectionsGrade b grade).get c).count.toNat = imageByte b (imageLimits grade c.number) := by
  rw [sectionsGrade_get b hg, limitsAt, imageByte]

theorem sectionsGrade_largest :
    ((sectionsGrade b grade).get c).largest.toNat = imageWord b (imageLimits grade c.number + 1) := by
  rw [sectionsGrade_get b hg, limitsAt, imageWord, Nat.sub_add_comm (by unfold imageLimits; omega)]

theorem sectionsGrade_aggregate :
    ((sectionsGrade b grade).get c).aggregate.toNat = imageWord b (imageLimits grade c.number + 3) := by
  rw [sectionsGrade_get b hg, limitsAt, imageWord, Nat.sub_add_comm (by unfold imageLimits; omega)]

end

theorem limitsInRange_sectionsGrade (b : List Byte) {grade : Nat} (hg : grade < 4) :
    limitsInRange (sectionsGrade b grade) = true ↔ ∀ cls < 6, imageWord b (imageLimits grade cls + 1) ≤ 4095 := by
  rw [← DefectClass.forall_number (P := fun cls => imageWord b (imageLimits grade cls + 1) ≤ 4095)]
  simp [limitsInRange, mem_classes, sectionsGrade_largest b hg]

theorem gradeAtOrBelow_sectionsGrade (b : List Byte) {grade : Nat} (hg : grade < 3) :
    gradeAtOrBelow (sectionsGrade b grade) (sectionsGrade b (grade + 1)) = true ↔ ∀ cls < 6,
      imageByte b (imageLimits grade cls) ≤ imageByte b (imageLimits (grade + 1) cls) ∧
        imageWord b (imageLimits grade cls + 1) ≤ imageWord b (imageLimits (grade + 1) cls + 1) ∧
        imageWord b (imageLimits grade cls + 3) ≤ imageWord b (imageLimits (grade + 1) cls + 3) := by
  have h1 : grade < 4 := by omega
  have h2 : grade + 1 < 4 := by omega
  rw [← DefectClass.forall_number]
  simp only [gradeAtOrBelow, List.all_eq_true, mem_classes, Bool.and_eq_true, decide_eq_true_eq, forall_const, and_assoc,
    sectionsGrade_count b h1, sectionsGrade_count b h2, sectionsGrade_largest b h1, sectionsGrade_largest b h2,
    sectionsGrade_aggregate b h1, sectionsGrade_aggregate b h2]

/-! ## The tests of the sections (R176, R178) -/

theorem bne_zero_iff_one_le {w : Nat} (x : BitVec w) : (x != 0) = true ↔ 1 ≤ x.toNat := by
  rw [bne_iff_ne, ne_eq, BitVec.toNat_eq, Nat.one_le_iff_ne_zero]
  simp

/-- R176: the range test of a field that is off at 0. -/
theorem off_or_atLeast_iff {w : Nat} (x : BitVec w) (n : Nat) :
    (x == 0 || decide (n ≤ x.toNat)) = true ↔ x.toNat = 0 ∨ n ≤ x.toNat := by
  rw [Bool.or_eq_true, beq_iff_eq, BitVec.toNat_eq, decide_eq_true_eq]
  simp

theorem limitsInRange_grades (b : List Byte) :
    (∀ grade < 4, ∀ cls < 6, imageWord b (imageLimits grade cls + 1) ≤ 4095) ↔
      limitsInRange (sectionsGrade b 0) = true ∧ limitsInRange (sectionsGrade b 1) = true ∧
        limitsInRange (sectionsGrade b 2) = true ∧ limitsInRange (sectionsGrade b 3) = true := by
  constructor
  · intro h
    exact ⟨(limitsInRange_sectionsGrade b (by decide)).2 (h 0 (by decide)),
      (limitsInRange_sectionsGrade b (by decide)).2 (h 1 (by decide)),
      (limitsInRange_sectionsGrade b (by decide)).2 (h 2 (by decide)),
      (limitsInRange_sectionsGrade b (by decide)).2 (h 3 (by decide))⟩
  · rintro ⟨h0, h1, h2, h3⟩ grade hg
    rw [← limitsInRange_sectionsGrade b hg]
    interval_cases grade
    · exact h0
    · exact h1
    · exact h2
    · exact h3

/-- R178 test 4. -/
theorem fieldsInRange_iff (b : List Byte) :
    fieldsInRange (readShared (sectionBytes b)) (readLocal (sectionBytes b)) = true ↔ imageInRange b := by
  simp only [imageInRange, limitsInRange_grades, fieldsInRange, readShared_gradeTable, Bool.and_eq_true, decide_eq_true_eq,
    bne_zero_iff_one_le, off_or_atLeast_iff, and_assoc]
  simp [readShared, readLocal, imageByte, imageWord]

/-- R178 test 5. -/
theorem distancesOrdered_iff (b : List Byte) : distancesOrdered (readShared (sectionBytes b)) = true ↔ imageOrdered b := by
  simp only [imageOrdered, distancesOrdered, Bool.and_eq_true, decide_eq_true_eq, and_assoc]
  simp [readShared, imageByte, imageWord]

/-- R178 test 6. -/
theorem gradeTableOrdered_iff (b : List Byte) :
    gradeTableOrdered (readShared (sectionBytes b)).gradeTable = true ↔ imageRising b := by
  simp only [readShared_gradeTable, gradeTableOrdered, Bool.and_eq_true, and_assoc]
  constructor
  · rintro ⟨h0, h1, h2⟩ grade hg
    rw [← gradeAtOrBelow_sectionsGrade b hg]
    interval_cases grade
    · exact h0
    · exact h1
    · exact h2
  · intro h
    exact ⟨(gradeAtOrBelow_sectionsGrade b (by decide)).2 (h 0 (by decide)),
      (gradeAtOrBelow_sectionsGrade b (by decide)).2 (h 1 (by decide)),
      (gradeAtOrBelow_sectionsGrade b (by decide)).2 (h 2 (by decide))⟩

/-- R178: the first test that fails gives the reason. -/
theorem sectionsFault_eq (checkWord : BitVec 16) (b : List Byte) : sectionsFault checkWord b =
    if checkWord ≠ imageCheck b then some .check
    else if ¬ imageInRange b then some .range
    else if ¬ imageOrdered b then some .order
    else if ¬ imageRising b then some .gradeTable
    else none := by
  simp only [sectionsFault, check16_sectionBytes, ne_comm (a := imageCheck b), Bool.not_eq_true', ← Bool.not_eq_true,
    fieldsInRange_iff, distancesOrdered_iff, gradeTableOrdered_iff]

end Sys2Proof.Machine

namespace Sys2Proof.Machine

/-! ## The configuration port in the read (R175) -/

section

variable {st : Station}

/-- Select is driven exactly while a read is in progress. -/
theorem configSelectDriven_live (hl : st.heldInReset = false) : st.configSelectDriven = st.start.readPos.isSome := by
  simp [Station.configSelectDriven, hl]

theorem configDataOut_start (hl : st.heldInReset = false) (h : st.start.readPos = some 0) : st.configDataOut = [3, 0, 0] :=
  if_pos ⟨by rw [configSelectDriven_live hl, h]; rfl, h⟩

theorem configDataOut_later (h : st.start.readPos ≠ some 0) : st.configDataOut = [] := if_neg fun c => h c.2

/-! ## The header (R178, tests 1 and 2) -/

theorem headerFault_eq (header : List Byte) : headerFault header =
    if ¬ wordAt header 0 = 0x4E57#16 then some .marker
    else if ¬ byteAt header 2 = 1#8 ∨ ¬ wordAt header 3 = 157#16 then some .header
    else none := rfl

theorem headerFault_eq_none {header : List Byte}
    (h : wordAt header 0 = 0x4E57#16 ∧ byteAt header 2 = 1#8 ∧ wordAt header 3 = 157#16) : headerFault header = none := by
  obtain ⟨hmarker, hformat, hlength⟩ := h
  rw [headerFault_eq, if_neg (not_not.2 hmarker), if_neg (not_or.2 ⟨not_not.2 hformat, not_not.2 hlength⟩)]

theorem headerFault_eq_some {header : List Byte}
    (h : ¬ (wordAt header 0 = 0x4E57#16 ∧ byteAt header 2 = 1#8 ∧ wordAt header 3 = 157#16)) :
    headerFault header = some (if wordAt header 0 = 0x4E57#16 then .header else .marker) := by
  rw [headerFault_eq]
  by_cases hmarker : wordAt header 0 = 0x4E57#16
  · rw [if_neg (not_not.2 hmarker), if_pos (not_and_or.1 fun hsound => h ⟨hmarker, hsound⟩), if_pos hmarker]
  · rw [if_pos hmarker, if_neg hmarker]

theorem headerRead_sound {header : List Byte} (hn : st.start.node = .loading) (hp : st.start.readPos = some 0)
    (h : headerFault header = none) : headerRead header st =
      { st with start := { st.start with readPos := some 7, checkWord := some (wordAt header 5) } } := by
  rw [headerRead, if_pos ⟨hn, hp⟩, h]

theorem headerRead_faulty {header : List Byte} {reason : FaultReason} (hn : st.start.node = .loading)
    (hp : st.start.readPos = some 0) (h : headerFault header = some reason) : headerRead header st =
      enterConfigFault (if st.line.indexFault = true then .duplicateIndex else reason) st := by
  rw [headerRead, if_pos ⟨hn, hp⟩, h]

/-! ## The end of the read (R178, R179) -/

theorem readEnd_faulty {sections : List Byte} {reason : FaultReason} (hn : st.start.node = .loading)
    (hp : st.start.readPos = some 7)
    (h : (st.line.indexFault = true ∧ reason = .duplicateIndex) ∨
      (st.line.indexFault = false ∧ sectionsFault (st.start.checkWord.getD 0) sections = some reason)) :
    readEnd sections st = enterConfigFault reason st := by
  rw [readEnd, if_pos ⟨hn, hp⟩]
  rcases h with ⟨hmark, rfl⟩ | ⟨hmark, hfault⟩
  · rw [if_pos hmark]
  · rw [if_neg (by simp [hmark]), hfault]

theorem readEnd_valid {sections : List Byte} (hn : st.start.node = .loading) (hp : st.start.readPos = some 7)
    (hmark : st.line.indexFault = false) (h : sectionsFault (st.start.checkWord.getD 0) sections = none) :
    readEnd sections st = enterJoining (sectionBytes sections) st := by
  rw [readEnd, if_pos ⟨hn, hp⟩, if_neg (by simp [hmark]), h]

/-- R180: entry to CONFIG_FAULT ends the read, clears the pulses owed, releases the trigger line and raises the cause. -/
theorem enterConfigFault_eq (reason : FaultReason) (st : Station) : enterConfigFault reason st =
    { st with
      start := { st.start with node := .configFault, readPos := none, checkWord := none, fault := some reason }
      position := { st.position with pulsesOwed := 0, triggerLine := .idle }
      port := { st.port with causes := { st.port.causes with configFault := true } } } := rfl

end

/-- Settles O5: the port by the read's position, each end of the two reads, and the tests in their order (`sectionsFault_eq`). -/
theorem faultyImageEntersConfigFault : Obligations.FaultyImageEntersConfigFault := by
  refine ⟨fun st hl => ⟨fun hp => ?_, fun hp => ?_, fun hp => ?_⟩,
    fun header st q hl hn hp => ⟨fun hsound => ?_, fun hunsound => ?_⟩,
    fun sections reason st q hl hn hp h => ?_, fun sections checkWord => ⟨fun hcheck => ?_, fun hcheck => ?_⟩⟩
  · have hselect : st.configSelectDriven = true := by rw [configSelectDriven_live hl, hp]; rfl
    exact ⟨hselect, hselect, configDataOut_start hl hp⟩
  · have hselect : st.configSelectDriven = true := by rw [configSelectDriven_live hl, hp]; rfl
    exact ⟨hselect, hselect, configDataOut_later (by simp [hp])⟩
  · have hselect : st.configSelectDriven = false := by rw [configSelectDriven_live hl, hp]; rfl
    exact ⟨hselect, hselect, configDataOut_released hselect⟩
  · rw [exec_live _ q hl, commandEffect, headerRead_sound hn hp (headerFault_eq_none hsound)]
  · rw [exec_live _ q hl, commandEffect, headerRead_faulty hn hp (headerFault_eq_some hunsound), enterConfigFault_eq]
  · rw [exec_live _ q hl, commandEffect, readEnd_faulty hn hp h, enterConfigFault_eq]
  · rw [sectionsFault_eq, if_pos hcheck]
  · refine ⟨fun hrange => ?_, fun hrange => ⟨fun horder => ?_, fun horder => ⟨fun hrising => ?_, fun hrising => ?_⟩⟩⟩
    · rw [sectionsFault_eq, if_neg (not_not.2 hcheck), if_pos hrange]
    · rw [sectionsFault_eq, if_neg (not_not.2 hcheck), if_neg (not_not.2 hrange), if_pos horder]
    · rw [sectionsFault_eq, if_neg (not_not.2 hcheck), if_neg (not_not.2 hrange), if_neg (not_not.2 horder), if_pos hrising]
    · rw [sectionsFault_eq, if_neg (not_not.2 hcheck), if_neg (not_not.2 hrange), if_neg (not_not.2 horder),
        if_neg (not_not.2 hrising)]

end Sys2Proof.Machine

namespace Sys2Proof.Machine

/-! ## Entry to JOINING (R178, R181, R191) -/

/-- The Edge Unit in BLANKED with no start of absence (R39). -/
def EdgeUnit.watching (e : EdgeUnit) : EdgeUnit := { e with state := .blanked, absence := none }

theorem watchBand_eq (st : Station) :
    watchBand st = { st with edge := if st.presenceHeld = true then st.edge.watching else st.edge } := by
  unfold watchBand
  split <;> rfl

/-- R39: an entry to BLANKED leaves the presence pin and the loaded presence invert as they are. -/
theorem watchBand_presenceHeld (st : Station) : (watchBand st).presenceHeld = st.presenceHeld := by
  unfold watchBand
  split <;> rfl

section

variable (bytes : List Byte) (st : Station)

/-- R178: the station as the loaded configuration leaves it, before the Edge Unit is blanked and ROLL raised. -/
def Station.withLoaded : Station :=
  { st with
    start := { st.start with
      node := .joining, readPos := none, checkWord := none, config := some ⟨readShared bytes, readLocal bytes⟩,
      digest := some (digest32 (bytes.take 151)) }
    position := { st.position with triggerPos := st.position.highWater, triggerLine := .mark }
    line := { st.line with quiet := 0 }
    port := { st.port with
      enable := Causes.ofMask (readLocal bytes).enableMask, watermark := (readLocal bytes).watermark }.levelResultReady }

theorem enterJoining_eq_watchBand : enterJoining bytes st = raiseRoll (watchBand (st.withLoaded bytes)) := rfl

theorem enterJoining_eq : enterJoining bytes st = raiseRoll { st.withLoaded bytes with
    edge := if (st.withLoaded bytes).presenceHeld = true then st.edge.watching else st.edge } := by
  rw [enterJoining_eq_watchBand, watchBand_eq]
  rfl

/-- Whether presence is held is read with the presence invert just loaded. -/
theorem enterJoining_presenceHeld : (enterJoining bytes st).presenceHeld = (st.withLoaded bytes).presenceHeld :=
  watchBand_presenceHeld (st.withLoaded bytes)

theorem enterJoining_edge : (enterJoining bytes st).edge =
    if (enterJoining bytes st).presenceHeld = true then st.edge.watching else st.edge := by
  rw [enterJoining_presenceHeld, enterJoining_eq, raiseRoll_edge]

end

/-- Settles O6: the station that `enterJoining` leaves, the Edge Unit by `enterJoining_edge` and every other block by
`enterJoining_eq`. -/
theorem validImageEntersJoining : Obligations.ValidImageEntersJoining := by
  intro sections st q hl hn hp hmark hvalid
  set bytes := sectionBytes sections
  have hedge := enterJoining_edge bytes st
  refine ⟨enterJoining bytes st, ?_, enterJoining_start bytes st, ?_⟩
  · rw [exec_live _ q hl, commandEffect, readEnd_valid hn hp hmark hvalid]
  · have hheld (h : (enterJoining bytes st).presenceHeld = true) : (enterJoining bytes st).edge = st.edge.watching := by
      rw [hedge, if_pos h]
    have hclear (h : (enterJoining bytes st).presenceHeld = false) : (enterJoining bytes st).edge = st.edge := by
      rw [hedge, if_neg (Bool.eq_false_iff.1 h)]
    refine ⟨?_, ?_, ?_, hheld, hclear, ?_⟩ <;> rw [enterJoining_eq]
    · rfl
    · rfl
    · rfl
    · exact ⟨rfl, rfl, hl, rfl, rfl, rfl, rfl⟩

end Sys2Proof.Machine

namespace Sys2Proof.Machine

/-! ## READ RESULT (R183, R184, R190) -/

section

variable {st : Station}

theorem readResult_empty (h : st.port.fifo = []) : readResult st = { st with port := { st.port with
    selected := true, answer := List.replicate 31 0, read := some (.result false) } } := by
  unfold readResult answer
  rw [h]
  rfl

theorem readResult_head {r : ResultRecord} {rest : List ResultRecord} (h : st.port.fifo = r :: rest) :
    readResult st = { st with port := { st.port with
      selected := true, answer := 1 :: r.bytes, read := some (.result true) } } := by
  unfold readResult answer
  rw [h]
  rfl

theorem readResultShiftedOut_marker (h : st.port.read = some (.result false)) :
    readResultShiftedOut st = { st with port := { st.port with read := none } } := by
  simp only [readResultShiftedOut, h]

/-- R184, R190: the head record leaves, and RESULT_READY is its level for the records that stay. -/
theorem readResultShiftedOut_record (h : st.port.read = some (.result true)) :
    readResultShiftedOut st = { st with port := { st.port with
      fifo := st.port.fifo.tail, read := none,
      causes := { st.port.causes with
        resultReady := decide (st.port.watermark.toNat ≤ st.port.fifo.tail.length) } } } := by
  simp only [readResultShiftedOut, h]
  rfl

theorem resultDataOut_released (h : st.port.selected = false) (n : Nat) : st.resultDataOut n = none :=
  if_neg fun hs => Bool.false_ne_true (h.symm.trans hs.2)

theorem resultDataOut_selected (hl : st.heldInReset = false) (hs : st.port.selected = true) (n : Nat) :
    st.resultDataOut n = some ((byteBits st.port.answer).getD n true) :=
  if_pos ⟨hl, hs⟩

theorem resultDataOut_answer (hl : st.heldInReset = false) (hs : st.port.selected = true) {n : Nat} {b : Byte}
    (hb : st.port.answer[n / 8]? = some b) : st.resultDataOut n = some (b.getLsbD (7 - n % 8)) := by
  rw [resultDataOut_selected hl hs, List.getD_eq_getElem?_getD, byteBits_get _ n b hb, Option.getD_some]

/-- R183: data out carries ones after the last bit of the answer. -/
theorem resultDataOut_after (hl : st.heldInReset = false) (hs : st.port.selected = true) {n : Nat}
    (hn : 8 * st.port.answer.length ≤ n) : st.resultDataOut n = some true := by
  rw [resultDataOut_selected hl hs, List.getD_eq_default _ _ (by rwa [byteBits_length])]

end

/-- Settles O50: the command by what the FIFO holds, its end by what is being read, and data out by select and the edge. -/
theorem readResultReturnsHeadRecord : Obligations.ReadResultReturnsHeadRecord := by
  refine ⟨fun st q hl => ?_, fun st n hl => ⟨fun hs => resultDataOut_released hs n, fun b hs hb => resultDataOut_answer hl hs hb,
    fun hs hn => resultDataOut_after hl hs hn⟩⟩
  simp only [exec_live _ q hl, commandEffect]
  refine ⟨fun h => ?_, fun r rest h => ?_, fun h => ?_, fun h => ?_, rfl⟩
  · rw [readResult_empty h]
  · rw [readResult_head h]
  · rw [readResultShiftedOut_marker h]
  · rw [readResultShiftedOut_record h]

end Sys2Proof.Machine

namespace Sys2Proof.Machine

/-! ## READ STATUS (R186, R195) -/

/-- The last bit of a list is bit 0 of the number that it spells. -/
theorem testBit_bitsToNat_reverse (l : List Bool) (k : Nat) : (bitsToNat l.reverse).testBit k = l.getD k false := by
  induction l generalizing k with
  | nil => simp [bitsToNat]
  | cons b l ih =>
    have hcons : bitsToNat (b :: l).reverse = 2 * bitsToNat l.reverse + b.toNat := by
      rw [List.reverse_cons, bitsToNat_append]
      simp [bitsToNat, Nat.mul_comm]
    rw [hcons]
    cases k with
    | zero => cases b <;> simp [Nat.testBit_zero]
    | succ k =>
      have hhalf : (2 * bitsToNat l.reverse + b.toNat) / 2 = bitsToNat l.reverse := by
        rw [Nat.mul_add_div (by decide), Nat.div_eq_of_lt (Bool.toNat_lt b), Nat.add_zero]
      rw [Nat.testBit_succ, hhalf, ih, List.getD_cons_succ]

theorem toList_getElem? {α : Type} (e : Eight α) (k : Index) : e.toList[k.val]? = some (e.get k) := by
  fin_cases k <;> rfl

/-- R195: index k stands in bit k of the peer map. -/
theorem peerMapByte_bit (peers : Eight (Option Nat)) (k : Index) :
    (peerMapByte peers).getLsbD k.val = (peers.get k).isSome := by
  have hk : k.val < 8 := k.isLt
  rw [peerMapByte, BitVec.getLsbD_ofNat, List.map_reverse, testBit_bitsToNat_reverse, List.getD_eq_getElem?_getD,
    List.getElem?_map, toList_getElem?]
  simp [hk]

/-- A count of less than 256 reads back from its byte. -/
theorem byte_count {n m : Nat} (hm : m < 256) (h : n ≤ m) : (BitVec.ofNat 8 n).toNat = n :=
  (BitVec.toNat_ofNat n 8).trans (Nat.mod_eq_of_lt (Nat.lt_of_le_of_lt h hm))

/-- Settles O51: the seven bytes are those of `statusAnswer`. -/
theorem readStatusAnswersStandingState : Obligations.ReadStatusAnswersStandingState := by
  intro st q hl
  refine ⟨_, _, _, _, _, _, _, exec_live .readStatus q hl, rfl, fun hn => ?_, fun hn => ?_, rfl,
    peerMapByte_bit st.engine.peers, byte_count (by decide), rfl, byte_count (by decide)⟩
  · rw [if_neg hn]
    rfl
  · rw [if_pos hn]

end Sys2Proof.Machine

namespace Sys2Proof.Machine

/-! ## Pending causes by priority (R188, R189) -/

theorem mem_causesByPriority (x : Cause) : x ∈ causesByPriority := by cases x <;> decide

theorem causesByPriority_sorted :
    causesByPriority.Pairwise fun x y => Cause.priority (some x) ≤ Cause.priority (some y) := by decide

theorem has_put (cs : Causes) (c x : Cause) (v : Bool) : (cs.put c v).has x = if x = c then v else cs.has x := by
  cases c <;> cases x <;> rfl

theorem highest_none_iff (cs : Causes) : cs.highest = none ↔ ∀ x : Cause, cs.has x = false := by
  simp only [Causes.highest, List.find?_eq_none, Bool.not_eq_true]
  exact ⟨fun h x => h x (mem_causesByPriority x), fun h x _ => h x⟩

theorem highest_pending {cs : Causes} {x : Cause} (h : cs.highest = some x) : cs.has x = true := List.find?_some h

/-- R188: the causes before the first pending one are not pending, and those after it have no lower priority number. -/
theorem highest_least {cs : Causes} {x y : Cause} (h : cs.highest = some x) (hy : cs.has y = true) :
    Cause.priority (some x) ≤ Cause.priority (some y) := by
  obtain ⟨_, before, after, hsplit, hbefore⟩ := List.find?_eq_some_iff_append.1 h
  have hsorted := causesByPriority_sorted
  have hmem := mem_causesByPriority y
  rw [hsplit] at hsorted hmem
  rcases List.mem_append.1 hmem with hin | hin
  · have hclear := hbefore y hin
    rw [hy] at hclear
    exact absurd hclear (by decide)
  · rcases List.mem_cons.1 hin with rfl | hin
    · exact BitVec.le_refl _
    · exact List.rel_of_pairwise_cons (List.pairwise_append.1 hsorted).2.1 hin

/-! ## The attention line under a raise (R189, R191) -/

theorem raise_has (c x : Cause) (p : ResultPort) : (p.raise c).causes.has x = if x = c then true else p.causes.has x :=
  has_put p.causes c x true

theorem raiseCause_drives {c : Cause} {st : Station} (hl : st.heldInReset = false) (he : st.port.enable.has c = true) :
    (raiseCause c st).attentionDriven = true :=
  (attentionDriven_iff (raiseCause c st) hl).2 ⟨c, by rw [raiseCause_port, raise_has, if_pos rfl], he⟩

/-- R189: the mask acts on the line, so the raise of a cause that is not enabled leaves it as it is. -/
theorem raiseCause_disabled {c : Cause} {st : Station} (hl : st.heldInReset = false) (he : st.port.enable.has c = false) :
    (raiseCause c st).attentionDriven = st.attentionDriven := by
  have hsame (x : Cause) (hx : st.port.enable.has x = true) : (raiseCause c st).port.causes.has x = st.port.causes.has x := by
    have hne : x ≠ c := fun h => Bool.false_ne_true (he.symm.trans (h ▸ hx))
    rw [raiseCause_port, raise_has, if_neg hne]
  rw [Bool.eq_iff_iff, attentionDriven_iff (raiseCause c st) hl, attentionDriven_iff st hl]
  exact exists_congr fun x => and_congr_left fun hx => by rw [hsame x hx]

/-! ## A cause read out (R189, R190) -/

theorem clearCause_has {x : Cause} (hx : x ≠ .resultReady) (c : Cause) (p : ResultPort) :
    (p.clearCause c).causes.has x = if x = c then false else p.causes.has x := by
  rw [ResultPort.clearCause, ResultPort.levelResultReady, has_put, if_neg hx, has_put]

/-- R190: RESULT_READY is tested anew at every clear, and stays as it is where it was its level. -/
theorem clearCause_resultReady (c : Cause) {st : Station} (h : st.resultReadyLevel) :
    (st.port.clearCause c).causes.has .resultReady = st.port.causes.has .resultReady :=
  (has_put _ .resultReady .resultReady _).trans h.symm

theorem clearCause_has_iff {c : Cause} (hc : c ≠ .resultReady) {st : Station} (h : st.resultReadyLevel) (x : Cause) :
    (st.port.clearCause c).causes.has x = true ↔ x ≠ c ∧ st.port.causes.has x = true := by
  by_cases hx : x = .resultReady
  · rw [hx, clearCause_resultReady c h]
    simp only [ne_eq, hc.symm, not_false_eq_true, true_and]
  · rw [clearCause_has hx]
    split <;> simp [*]

theorem readCauseShiftedOut_cause {c : Cause} {st : Station} (h : st.port.read = some (.cause (some c))) :
    readCauseShiftedOut st = { st with port := { st.port.clearCause c with read := none } } := by
  simp only [readCauseShiftedOut, h]

theorem readCauseShiftedOut_none {st : Station} (h : st.port.read = some (.cause none)) :
    readCauseShiftedOut st = { st with port := { st.port with read := none } } := by
  simp only [readCauseShiftedOut, h]

/-- Settles O52: the line as it stands, under the raise of LINE_ERROR, and READ CAUSE with its end. -/
theorem readCauseReturnsHighestPending : Obligations.ReadCauseReturnsHighestPending := by
  intro st q hl
  simp only [exec_live _ q hl, commandEffect]
  refine ⟨attentionDriven_iff st hl, fun hs hb => ⟨_, rfl, ?_⟩, ⟨st.port.causes.highest, rfl, highest_none_iff _,
    fun x hx => ⟨highest_pending hx, fun y hy => highest_least hx hy⟩⟩, fun c hc => ⟨_, rfl, ?_⟩, fun hc => ?_⟩
  · rw [breakSendEnd_eq hs hb false]
    exact ⟨raise_has .lineError .lineError st.port, fun he => raiseCause_drives hl he, fun he => raiseCause_disabled hl he⟩
  · rw [readCauseShiftedOut_cause hc]
    refine ⟨rfl, fun hne => ?_, rfl, fun hne hlevel => ?_, fun x hx hready => ?_⟩
    · exact (clearCause_has hne c st.port).trans (if_pos rfl)
    · refine (attentionDriven_iff { st with port := { st.port.clearCause c with read := none } } hl).trans (exists_congr fun x => ?_)
      exact (and_congr_left' (clearCause_has_iff hne hlevel x)).trans and_assoc
    · exact (clearCause_has hready c st.port).trans (if_neg hx)
  · rw [readCauseShiftedOut_none hc]

end Sys2Proof.Machine

namespace Sys2Proof.Machine

/-! ## The step by the queue, and the next state of every command (log 1, log 25) -/

theorem step_front (c : Instr) (st : Station) (q : List Instr) : step ⟨st, c :: q⟩ = exec c ⟨st, q⟩ := rfl

theorem step_idle (st : Station) : step ⟨st, []⟩ = .next ⟨st, []⟩ := rfl

/-- R172: a command has its effect where reset does not hold it off, and none elsewhere; either way it runs to a next state, and
the rest of the queue waits. -/
theorem exec_goesOn (c : Instr) (st : Station) (q : List Instr) : ∃ t : Station, exec c ⟨st, q⟩ = .next ⟨t, q⟩ := by
  cases hheld : st.heldInReset with
  | false => exact ⟨commandEffect c st, exec_live c q hheld⟩
  | true =>
    cases htaken : takenInReset c with
    | true => exact ⟨commandEffect c st, exec_takenInReset htaken st q⟩
    | false => exact ⟨st, exec_held q htaken hheld⟩

/-- Settles O1. -/
theorem stepRunsFrontCommand : Obligations.StepRunsFrontCommand := step_front

/-- Settles O2: the empty queue, then every command by whether reset holds the station and holds the command off. -/
theorem everyStepGoesOn : Obligations.EveryStepGoesOn := ⟨step_idle, exec_goesOn⟩

end Sys2Proof.Machine
